-- ==== Sys2Proof/Word.lean ====
section
/-! DEFINITION. The machine's word and byte, and the truncations of 00_scope.md R10 and R12. -/

namespace Sys2Proof

/-- Every register and every pixel is 32 bits wide (R10). -/
abbrev Word := BitVec 32

/-- One element of the byte spaces IN, OUT and CLMEM (20_memory.md R80). -/
abbrev Byte := BitVec 8

/-- `trunc_32` of an unsigned value (R12). -/
abbrev trunc32 (n : Nat) : Word := BitVec.ofNat 32 n

/-- `ceil_div` (R12). -/
def ceilDiv (a b : Nat) : Nat := (a + b - 1) / b

end Sys2Proof
end

