-- ==== Sys2Proof/Syntax.lean ====
section
/-! DEFINITION. The 25 commands of 30_encoding.md R115, one constructor a row of the opcode table. -/

namespace Sys2Proof

/-- A command. The argument of a format-I command is its IMM8, an unsigned 0..255 (R110, R111); the other operands are
the registers A0 to A3. -/
inductive Instr where
  | nop
  | softReset
  | brInit
  | brRead (n : Nat)
  | brHasdata
  | brTell
  | hufBuild (slot : Nat)
  | hufDecode (slot : Nat)
  | clRead
  | ccInit
  | ccHash
  | ccInsert
  | ccGet
  | lzPrefix (code : Nat)
  | lzCopy
  | pred (mode : Nat)
  | xfPredInv (k : Nat)
  | xfColorInv (k : Nat)
  | xfSubgInv (k : Nat)
  | xfPalApply (k : Nat)
  | xfPalInvert (k : Nat)
  | xfChainInv
  | hdrParse
  | decode
  | rgbaConvert
  deriving DecidableEq, Repr

/-- The IMM8 of a format-I command, and nothing for a format-N command (R110). -/
def Instr.imm8 : Instr → Option Nat
  | .brRead n => some n
  | .hufBuild s => some s
  | .hufDecode s => some s
  | .lzPrefix c => some c
  | .pred m => some m
  | .xfPredInv k => some k
  | .xfColorInv k => some k
  | .xfSubgInv k => some k
  | .xfPalApply k => some k
  | .xfPalInvert k => some k
  | .nop => none
  | .softReset => none
  | .brInit => none
  | .brHasdata => none
  | .brTell => none
  | .clRead => none
  | .ccInit => none
  | .ccHash => none
  | .ccInsert => none
  | .ccGet => none
  | .lzCopy => none
  | .xfChainInv => none
  | .hdrParse => none
  | .decode => none
  | .rgbaConvert => none

end Sys2Proof
end

