-- ==== Sys2Proof/WellFormed.lean ====
section
/-! DEFINITION. Which terms of Instr a command word can hold: an IMM8 is an unsigned 8-bit value (30_encoding.md R110). -/

namespace Sys2Proof

/-- An IMM8, where the command has one, is in 0..255 (R110). A value its command does not accept is still well formed:
the command's own rule raises it as an operand error (R112). -/
abbrev Instr.WellFormed (i : Instr) : Prop := i.imm8.all (· ≤ 255) = true

end Sys2Proof
end

