-- ==== Sys2Proof/Decode.lean ====
section
/-! DEFINITION. The command word's decoder and encoder (30_encoding.md R110 to R117). -/

namespace Sys2Proof

/-- Why a word is illegal, the three cases of R113. -/
inductive Illegal where
  /-- its OPC is not in the opcode map of R115 -/
  | opcode
  /-- its format is N and bits [31:8] are not all 0 -/
  | reservedN
  /-- its format is I and bits [31:16] are not all 0 -/
  | reservedI
  deriving DecidableEq, Repr

/-- What a row of R115 says about an opcode: a command of format N, or of format I with its IMM8 still to come. -/
inductive OpcodeRow where
  | n (i : Instr)
  | i (mk : Nat → Instr)

/-- The opcode map (R115). -/
def opcodeMap : List (Nat × OpcodeRow) :=
  [ (0x01, .n .nop),
    (0x02, .n .softReset),
    (0x10, .n .brInit),
    (0x11, .i .brRead),
    (0x12, .n .brHasdata),
    (0x13, .n .brTell),
    (0x20, .i .hufBuild),
    (0x21, .i .hufDecode),
    (0x22, .n .clRead),
    (0x30, .n .ccInit),
    (0x31, .n .ccHash),
    (0x32, .n .ccInsert),
    (0x33, .n .ccGet),
    (0x40, .i .lzPrefix),
    (0x41, .n .lzCopy),
    (0x50, .i .pred),
    (0x60, .i .xfPredInv),
    (0x61, .i .xfColorInv),
    (0x62, .i .xfSubgInv),
    (0x63, .i .xfPalApply),
    (0x64, .i .xfPalInvert),
    (0x65, .n .xfChainInv),
    (0x70, .n .hdrParse),
    (0x71, .n .decode),
    (0x72, .n .rgbaConvert) ]

/-- The command a word stands for, by the steps of R116: look up OPC = word[7:0], then test the must-be-zero bits of
the row's format, then take IMM8 = word[15:8]. -/
def decodeWord (w : Word) : Except Illegal Instr :=
  match opcodeMap.lookup (w.toNat % 256) with
  | none => .error .opcode
  | some (.n i) => if w.toNat / 2 ^ 8 = 0 then .ok i else .error .reservedN
  | some (.i mk) => if w.toNat / 2 ^ 16 = 0 then .ok (mk (w.toNat / 2 ^ 8 % 256)) else .error .reservedI

/-- The opcode of each command (R115). -/
def opcodeOf : Instr → Nat
  | .nop => 0x01
  | .softReset => 0x02
  | .brInit => 0x10
  | .brRead _ => 0x11
  | .brHasdata => 0x12
  | .brTell => 0x13
  | .hufBuild _ => 0x20
  | .hufDecode _ => 0x21
  | .clRead => 0x22
  | .ccInit => 0x30
  | .ccHash => 0x31
  | .ccInsert => 0x32
  | .ccGet => 0x33
  | .lzPrefix _ => 0x40
  | .lzCopy => 0x41
  | .pred _ => 0x50
  | .xfPredInv _ => 0x60
  | .xfColorInv _ => 0x61
  | .xfSubgInv _ => 0x62
  | .xfPalApply _ => 0x63
  | .xfPalInvert _ => 0x64
  | .xfChainInv => 0x65
  | .hdrParse => 0x70
  | .decode => 0x71
  | .rgbaConvert => 0x72

/-- The word of a command: `OPC` for format N, `(IMM8 << 8) | OPC` for format I (R117). -/
def encode (i : Instr) : Word :=
  match i.imm8 with
  | none => BitVec.ofNat 32 (opcodeOf i)
  | some imm => BitVec.ofNat 32 (imm * 2 ^ 8 + opcodeOf i)

/-- The decoder on an opcode-table row's word of `nbits` bits, bit 0 the least significant; a command is one 32-bit
word (R110), so the bits above `nbits` are 0 and a word that needs more than 32 bits is none. -/
def decodeTableWord (nbits w : Nat) : Option Instr :=
  if w % 2 ^ nbits < 2 ^ 32 then (decodeWord (BitVec.ofNat 32 (w % 2 ^ nbits))).toOption else none

end Sys2Proof
end

