-- ==== Sys2Proof/Config.lean ====
section
/-! DEFINITION. The fixed sizes and the parameters of 00_scope.md R9, the names of the address spaces, and the free values the spec leaves open. -/

namespace Sys2Proof

/-- The element-indexed address spaces of 20_memory.md R80 (REG, the register port, is in Machine/HostPort.lean). -/
inductive Space where
  | inp
  | out
  | pix
  | sub (k : Fin 4)
  | ent
  | clmem
  | tab (s : Fin 7)
  | cache
  deriving DecidableEq, Repr

/-- The two values of `ALPHA_TREE_POLICY` (R9, 48_orchestrator.md R328). -/
inductive AlphaTreePolicy where
  | ifAlphaFlag
  | always
  deriving DecidableEq, Repr

namespace Config

/-- `MAX_CODE_LENGTH` (R9). -/
abbrev maxCodeLength : Nat := 15

/-- `CACHE_MAX_BITS` (R9). -/
abbrev cacheMaxBits : Nat := 11

/-- `CACHE_CAPACITY` (R9). -/
abbrev cacheCapacity : Nat := 2048

/-- `LZ_MAX_LENGTH` (R9). -/
abbrev lzMaxLength : Nat := 4096

/-- `MAX_DIM` (R9). -/
abbrev maxDim : Nat := 16384

/-- `PALETTE_MAX` (R9). -/
abbrev paletteMax : Nat := 256

/-- `N_LENGTH_CODES` (R9). -/
abbrev nLengthCodes : Nat := 24

/-- `DIST_ALPHABET` (R9). -/
abbrev distAlphabet : Nat := 40

/-- `MAX_ALPHABET` (R9). -/
abbrev maxAlphabet : Nat := 2328

/-- `META_ALPHABET` (R9). -/
abbrev metaAlphabet : Nat := 19

/-- The entries of one Huffman table, `2^MAX_TABLE_BITS` (R9). -/
abbrev tableEntries : Nat := 2 ^ 15

/-- FREE VALUE (R89, U1, U6; log 3). What element `idx` of `sp` holds while nothing has been written there since
draw number `draw` of that memory's contents. It has no body: any value, with no law. -/
opaque unwritten (draw : Nat) (sp : Space) (idx : Nat) : BitVec 32

/-- FREE VALUE (70_reset_and_hazards.md R404, U4; log 14). What a host read other than STATUS gives while BUSY = 1: of the
register at offset `i` where `sp` is none, of element `i` of the space `sp` otherwise, at draw count `draw`. It has no body:
any value, with no law. R404 leaves each such read open; that two of them with the same three arguments agree is the model's
choice, marked DESIGN CHOICE in log 14. -/
opaque busyRead (draw : Nat) (sp : Option Space) (i : Nat) : BitVec 32

end Config

/-- The parameters of R9, which a model takes as an argument: State holds one value of this type and no step changes it
(log 2). `HOST_MAP` is not here: 20_memory.md R81 allows host access modelled as indexed element access. -/
structure Params where
  inCapacity      : Nat
  pixCapacity     : Nat
  subCapacity     : Nat
  lzMaxDistance   : Nat
  clCodeOrder     : List Nat
  mode0Black      : Word
  alphaTreePolicy : AlphaTreePolicy
  deriving DecidableEq, Repr

/-- The defaults of R9. -/
def Params.default : Params where
  inCapacity      := 2 ^ 29
  pixCapacity     := 2 ^ 28
  subCapacity     := 2 ^ 24
  lzMaxDistance   := 32768
  clCodeOrder     := [17, 18, 0, 1, 2, 3, 4, 5, 16, 6, 7, 8, 9, 10, 11, 12, 13, 14, 15]
  mode0Black      := 0xFF000000#32
  alphaTreePolicy := .ifAlphaFlag

/-- The parameter values R9 and 46_predictor.md R251 admit: `IN_CAPACITY` at most 2^29, `CL_CODE_ORDER` an order of the
19 meta symbols, `MODE0_BLACK` one of its two values. -/
abbrev Params.Admissible (p : Params) : Prop :=
  p.inCapacity ≤ 2 ^ 29 ∧
  (p.clCodeOrder.length = 19 ∧ ∀ m ∈ List.range 19, m ∈ p.clCodeOrder) ∧
  (p.mode0Black = 0xFF000000#32 ∨ p.mode0Black = 0#32)

end Sys2Proof
end

