-- ==== Sys2Proof/Machine/State.lean ====
section
/-! DEFINITION. The state of the block (10_state.md, 20_memory.md R80, 70_reset_and_hazards.md R400), the reasons a step can stop, and the state after reset. -/

namespace Sys2Proof.Machine

/-- What an element that a memory does not list reads as: 0 after a clear (10_state.md R44), or the free value of a
draw of unspecified contents (20_memory.md R89). -/
inductive Background where
  | zero
  | unwritten (draw : Nat)
  deriving DecidableEq, Repr

/-- One memory with elements of `w` bits: the elements written since its background was laid, as (index, value) pairs in
the canonical form of `Memory.wf`. -/
structure Memory (w : Nat) where
  bg    : Background
  cells : List (Nat × BitVec w)
  deriving DecidableEq, Repr

/-- Addresses strictly rise. -/
def risingFrom {α : Type} : Nat → List (Nat × α) → Bool
  | _, [] => true
  | lo, (a, _) :: r => decide (lo ≤ a) && risingFrom (a + 1) r

/-- The canonical form: indices strictly rising, and no listed element equal to what an unlisted one is known to read
as (a value of 0 over the zero background). -/
abbrev Memory.wf {w : Nat} (m : Memory w) : Prop :=
  risingFrom 0 m.cells = true ∧ (m.bg = .zero → ∀ c ∈ m.cells, c.2 ≠ 0#w)

/-- The states of STATUS.STAGE (10_state.md R37); `Stage.code` in Machine/Flags.lean gives the encodings. -/
inductive Stage where
  | none
  | header
  | transformList
  | colorCacheSize
  | entropyImage
  | huffmanGroups
  | pixelStream
  | inverseTransforms
  | pixelFormatConvert
  | done
  deriving DecidableEq, Repr

/-- The kinds of error of 60_exceptions.md R360, in its order; `ErrKind.code` in Machine/Flags.lean gives the codes. -/
inductive ErrKind where
  | badSignature
  | unsupportedVersion
  | badDimensions
  | truncatedHeader
  | codeLengthTooLong
  | emptyAlphabet
  | overSubscribed
  | underSubscribed
  | invalidCode
  | oversizedMetaAlphabet
  | invalidCodeLengthSymbol
  | repeatOverflow
  | tableNotBuilt
  | invalidBitCount
  | readPastEnd
  | lzDistanceRange
  | lzLengthRange
  | lzHistory
  | lzBounds
  | invalidPrefixCode
  | cacheIndexRange
  | invalidCacheBits
  | missingPayload
  | paletteIndexRange
  | tooManyColors
  | paletteNotInvertible
  | invalidPredictorMode
  | transformRepeated
  | illegalCommand
  | argumentRange
  | capacityExceeded
  deriving DecidableEq, Repr

/-- A raised error: its kind and its offending value, already truncated to 32 bits (60_exceptions.md R362). -/
structure Trap where
  kind : ErrKind
  info : Word
  deriving DecidableEq, Repr

/-- The transform types (10_state.md R53); `XfType.code` in Machine/Flags.lean gives the codes 0 to 3. -/
inductive XfType where
  | predictor
  | color
  | subtractGreen
  | palette
  deriving DecidableEq, Repr

/-- A transform descriptor register XF_DESC_k (10_state.md R34, R53). -/
structure XfDesc where
  ty           : XfType
  blockBits    : BitVec 4
  palSize      : BitVec 9
  payloadValid : Bool
  deriving DecidableEq, Repr

/-- A slot's TAB_INFO_s register (10_state.md R34, R50). -/
structure TabInfo where
  maxLen : BitVec 4
  nSym   : BitVec 12
  single : Bool
  valid  : Bool
  deriving DecidableEq, Repr

/-- One write of the host to the block (10_state.md R30, 20_memory.md R80, R86), or its hardware reset
(70_reset_and_hazards.md R400). Reads have no side effect (R88) and are functions, in Machine/HostPort.lean. -/
inductive HostOp where
  /-- a 32-bit write to the register port at a byte offset (R34); offset 0 is CMD (R35) -/
  | writeReg (offset : Nat) (v : Word)
  /-- a write of one element of a space; a byte space takes the low 8 bits -/
  | writeElem (sp : Space) (idx : Nat) (v : Word)
  /-- a 32-bit write to word `j` of a byte space (R86) -/
  | writeWide (sp : Space) (j : Nat) (v : Word)
  /-- the hardware reset input -/
  | hardReset
  deriving DecidableEq, Repr

/-- The reasons the machine stops. -/
inductive Fault where
  /-- Raised by `step` alone, in a state with BUSY = 1 and no host write outstanding: the block is inside a command this
  state does not hold, since commands are atomic here (R31). A command leaves BUSY = 0 (R36), so no run meets it. Safe. -/
  | midCommand
  deriving DecidableEq, Repr

/-- The reasons the model gives no meaning. -/
inductive Refusal where
  /-- Raised by an arm of `exec` whose instruction has no meaning yet; no arm does. Safe. -/
  | notModelled (mnemonic : String)
  deriving DecidableEq, Repr

/-- The whole state. Every field but the last three is the spec's. -/
structure State where
  -- STATUS, errors, control (R34 to R39)
  busy       : Bool
  done       : Bool
  err        : Bool
  stage      : Stage
  errCode    : BitVec 8
  errInfo    : Word
  irqEn      : Bool
  -- operand and result registers (R32)
  a0         : Word
  a1         : Word
  a2         : Word
  a3         : Word
  res0       : Word
  -- bit reader (R40, R41)
  inLen      : Word
  brStart    : Word
  brBytePos  : Word
  brBitPos   : BitVec 3
  -- image registers (R42)
  imgW       : Word
  imgH       : Word
  imgAlpha   : Bool
  imgVersion : BitVec 3
  -- color cache (R44)
  ccBits     : BitVec 4
  cache      : Memory 32
  -- transform list (R53)
  xfCount    : BitVec 3
  xfDesc     : Vector XfDesc 4
  -- groups and entropy image (R55)
  nGroups    : Word
  entPresent : Bool
  entBits    : BitVec 4
  -- Huffman slots (R50)
  tabInfo    : Vector TabInfo 7
  tab        : Vector (Memory 17) 7
  -- the hidden code-length-code lengths (R52)
  clm        : Vector Byte 19
  -- memories (R80)
  inp        : Memory 8
  out        : Memory 8
  pix        : Memory 32
  sub        : Vector (Memory 32) 4
  ent        : Memory 32
  clmem      : Memory 8
  -- the model's own: the parameters of R9 (log 2), the number of the next draw of unspecified contents (log 4), and the
  -- host's outstanding writes, oldest first (log 1)
  params     : Params
  nextDraw   : Nat
  hostOps    : List HostOp
  deriving DecidableEq, Repr

/-- A memory nothing has written since draw `d` of its contents (R89). -/
abbrev Memory.unspecified {w : Nat} (d : Nat) : Memory w := ⟨.unwritten d, []⟩

/-- A memory every element of which is 0 (R44). -/
abbrev Memory.cleared {w : Nat} : Memory w := ⟨.zero, []⟩

/-- XF_DESC_k = 0 (R400). -/
abbrev XfDesc.zero : XfDesc := ⟨.predictor, 0, 0, false⟩

/-- TAB_INFO_s = 0 (R400). -/
abbrev TabInfo.zero : TabInfo := ⟨0, 0, false, false⟩

/-- The state right after a hardware reset (R400), with the parameters at the defaults of R9, no host write outstanding
(log 1) and the contents of every memory but CACHE unspecified, draw 0 of each (R89, logs 3 and 4). -/
def State.reset : State where
  busy       := false
  done       := false
  err        := false
  stage      := .none
  errCode    := 0
  errInfo    := 0
  irqEn      := false
  a0         := 0
  a1         := 0
  a2         := 0
  a3         := 0
  res0       := 0
  inLen      := 0
  brStart    := 0
  brBytePos  := 0
  brBitPos   := 0
  imgW       := 0
  imgH       := 0
  imgAlpha   := false
  imgVersion := 0
  ccBits     := 0
  cache      := .cleared
  xfCount    := 0
  xfDesc     := .replicate 4 .zero
  nGroups    := 0
  entPresent := false
  entBits    := 0
  tabInfo    := .replicate 7 .zero
  tab        := .replicate 7 (.unspecified 0)
  clm        := .replicate 19 0
  inp        := .unspecified 0
  out        := .unspecified 0
  pix        := .unspecified 0
  sub        := .replicate 4 (.unspecified 0)
  ent        := .unspecified 0
  clmem      := .unspecified 0
  params     := .default
  nextDraw   := 1
  hostOps    := []

end Sys2Proof.Machine
end

