-- ==== Sys2Proof/Machine/Flags.lean ====
section
/-! DEFINITION. The codes of STAGE, ERR_CODE and TYPE, the STATUS word and the interrupt output. -/

namespace Sys2Proof.Machine

/-- The STAGE encodings (10_state.md R37). -/
def Stage.code : Stage → BitVec 4
  | .none => 0
  | .header => 1
  | .transformList => 2
  | .colorCacheSize => 3
  | .entropyImage => 4
  | .huffmanGroups => 5
  | .pixelStream => 6
  | .inverseTransforms => 7
  | .pixelFormatConvert => 8
  | .done => 9

/-- The error codes (60_exceptions.md R360). -/
def ErrKind.code : ErrKind → BitVec 8
  | .badSignature => 0x01
  | .unsupportedVersion => 0x02
  | .badDimensions => 0x03
  | .truncatedHeader => 0x04
  | .codeLengthTooLong => 0x10
  | .emptyAlphabet => 0x11
  | .overSubscribed => 0x12
  | .underSubscribed => 0x13
  | .invalidCode => 0x14
  | .oversizedMetaAlphabet => 0x15
  | .invalidCodeLengthSymbol => 0x16
  | .repeatOverflow => 0x17
  | .tableNotBuilt => 0x18
  | .invalidBitCount => 0x20
  | .readPastEnd => 0x21
  | .lzDistanceRange => 0x30
  | .lzLengthRange => 0x31
  | .lzHistory => 0x32
  | .lzBounds => 0x33
  | .invalidPrefixCode => 0x34
  | .cacheIndexRange => 0x40
  | .invalidCacheBits => 0x41
  | .missingPayload => 0x50
  | .paletteIndexRange => 0x51
  | .tooManyColors => 0x52
  | .paletteNotInvertible => 0x53
  | .invalidPredictorMode => 0x54
  | .transformRepeated => 0x55
  | .illegalCommand => 0x60
  | .argumentRange => 0x61
  | .capacityExceeded => 0x62

/-- The TYPE codes (10_state.md R53). -/
def XfType.code : XfType → BitVec 2
  | .predictor => 0
  | .color => 1
  | .subtractGreen => 2
  | .palette => 3

/-- The type a 2-bit TYPE field names (10_state.md R53, 48_orchestrator.md R315). -/
def XfType.ofCode (c : Nat) : XfType :=
  if c % 4 = 0 then .predictor
  else if c % 4 = 1 then .color
  else if c % 4 = 2 then .subtractGreen
  else .palette

/-- The STATUS register: [0] BUSY, [1] DONE, [2] ERR, [7:4] STAGE (10_state.md R34, R37). -/
def State.statusWord (s : State) : Word :=
  0#24 ++ (s.stage.code ++ (0#1 ++ (BitVec.ofBool s.err ++ (BitVec.ofBool s.done ++ BitVec.ofBool s.busy))))

/-- The interrupt output (60_exceptions.md R375). -/
def State.irq (s : State) : Bool := s.irqEn && (s.done || s.err)

end Sys2Proof.Machine
end

