-- ==== Sys2Proof/Machine/Ops.lean ====
section
/-! DEFINITION. The named operations every command is written over: element reads and writes of the memories, taking an error and leaving the error state, accepting and completing a command, and the command's own monad. -/

namespace Sys2Proof.Machine

/-! ### One memory -/

/-- The listed value at an index, if there is one. -/
def lookupCell {w : Nat} (i : Nat) : List (Nat × BitVec w) → Option (BitVec w)
  | [] => none
  | (a, v) :: r => if a = i then some v else lookupCell i r

/-- Puts a value at an index of a list of cells whose indices rise. -/
def insertCell {w : Nat} (i : Nat) (v : BitVec w) : List (Nat × BitVec w) → List (Nat × BitVec w)
  | [] => [(i, v)]
  | (a, u) :: r =>
    if i < a then (i, v) :: (a, u) :: r
    else if i = a then (i, v) :: r
    else (a, u) :: insertCell i v r

/-- Takes an index out of a list of cells. -/
def eraseCell {w : Nat} (i : Nat) : List (Nat × BitVec w) → List (Nat × BitVec w)
  | [] => []
  | (a, u) :: r => if a = i then r else (a, u) :: eraseCell i r

/-- What an unlisted element of a memory standing for `sp` reads as: ONE definition for every space. -/
def unlisted {w : Nat} (sp : Space) (bg : Background) (i : Nat) : BitVec w :=
  match bg with
  | .zero => 0
  | .unwritten d => (Config.unwritten d sp i).setWidth w

/-- `MemRead` of one element (R13, R87). -/
def Memory.read {w : Nat} (sp : Space) (m : Memory w) (i : Nat) : BitVec w :=
  match lookupCell i m.cells with
  | some v => v
  | none => unlisted sp m.bg i

/-- `MemWrite` of one element (R13, R87), keeping the canonical form: a 0 over the zero background is not listed. -/
def Memory.write {w : Nat} (m : Memory w) (i : Nat) (v : BitVec w) : Memory w :=
  if m.bg = .zero ∧ v = 0 then { m with cells := eraseCell i m.cells }
  else { m with cells := insertCell i v m.cells }

/-- Writes of the values of a list at consecutive indices from `i`, in ascending order. -/
def Memory.writeList {w : Nat} (m : Memory w) (i : Nat) : List (BitVec w) → Memory w
  | [] => m
  | v :: vs => (m.write i v).writeList (i + 1) vs

/-! ### Elements of the state's memories (20_memory.md R80) -/

/-- The number of elements of a space (R80). -/
def State.spaceCount (s : State) : Space → Nat
  | .inp => s.params.inCapacity
  | .out => 4 * s.params.pixCapacity
  | .pix => s.params.pixCapacity
  | .sub _ => s.params.subCapacity
  | .ent => s.params.subCapacity
  | .clmem => Config.maxAlphabet
  | .tab _ => Config.tableEntries
  | .cache => Config.cacheCapacity

/-- The block's read of one element of any space, as a word (R80, R87). -/
def State.elem (s : State) (sp : Space) (i : Nat) : Word :=
  match sp with
  | .inp => (s.inp.read sp i).setWidth 32
  | .out => (s.out.read sp i).setWidth 32
  | .pix => s.pix.read sp i
  | .sub k => s.sub[k].read sp i
  | .ent => s.ent.read sp i
  | .clmem => (s.clmem.read sp i).setWidth 32
  | .tab t => (s.tab[t].read sp i).setWidth 32
  | .cache => s.cache.read sp i

/-- A write of one element of any space; a narrower element takes the low bits (R80, R87). -/
def State.setElem (s : State) (sp : Space) (i : Nat) (v : Word) : State :=
  match sp with
  | .inp => { s with inp := s.inp.write i (v.setWidth 8) }
  | .out => { s with out := s.out.write i (v.setWidth 8) }
  | .pix => { s with pix := s.pix.write i v }
  | .sub k => { s with sub := s.sub.set k (s.sub[k].write i v) }
  | .ent => { s with ent := s.ent.write i v }
  | .clmem => { s with clmem := s.clmem.write i (v.setWidth 8) }
  | .tab t => { s with tab := s.tab.set t (s.tab[t].write i (v.setWidth 17)) }
  | .cache => { s with cache := s.cache.write i v }

/-- The fields of a TAB entry: `[16] FILLED, [15:12] LEN, [11:0] SYM` (R80). -/
def entryFilled (e : BitVec 17) : Bool := e.getLsbD 16

/-- LEN of a TAB entry (R80). -/
def entryLen (e : BitVec 17) : Nat := e.toNat / 2 ^ 12 % 2 ^ 4

/-- SYM of a TAB entry (R80). -/
def entrySym (e : BitVec 17) : Nat := e.toNat % 2 ^ 12

/-- The entry `{FILLED:1, LEN:len, SYM:sym}` (R80). -/
def mkEntry (len sym : Nat) : BitVec 17 := BitVec.ofNat 17 (2 ^ 16 + len % 2 ^ 4 * 2 ^ 12 + sym % 2 ^ 12)

/-! ### Accepting and completing a command, taking an error, leaving the error state -/

/-- Acceptance of a command word: BUSY ← 1 and DONE ← 0 (10_state.md R35). -/
def State.accept (s : State) : State := { s with busy := true, done := false }

/-- Completion without error: BUSY ← 0 and DONE ← 1 (10_state.md R36). -/
def State.complete (s : State) : State := { s with busy := false, done := true }

/-- TAKING AN ERROR, the one exception of this hardware (60_exceptions.md R380, 10_state.md R36): BUSY ← 0, DONE ← 0,
ERR ← 1, ERR_CODE and ERR_INFO written. Nothing is saved and control goes nowhere; STAGE, RES0 and everything the
command wrote before stay (R364). -/
def State.takeError (s : State) (t : Trap) : State :=
  { s with busy := false, done := false, err := true, errCode := t.kind.code, errInfo := t.info }

/-- LEAVING THE ERROR STATE by SOFT_RESET (70_reset_and_hazards.md R401, 60_exceptions.md R382), before it completes:
every register of R34 but IN_LEN and CTRL, CC_BITS, CACHE, CLM and TAB_INFO take their reset values; IN_LEN, CTRL and
the other memories keep their contents. -/
def State.softReset (s : State) : State :=
  { State.reset with
    busy := s.busy, irqEn := s.irqEn, inLen := s.inLen
    tab := s.tab, inp := s.inp, out := s.out, pix := s.pix, sub := s.sub, ent := s.ent, clmem := s.clmem
    params := s.params, nextDraw := s.nextDraw, hostOps := s.hostOps }

/-- A hardware reset (70_reset_and_hazards.md R400): every register and CACHE at the reset values, the contents of every
other memory unspecified anew (R89). The parameters and the host's outstanding writes are not the block's (logs 1, 2). -/
def State.hardReset (s : State) : State :=
  { State.reset with
    tab := .replicate 7 (.unspecified s.nextDraw), inp := .unspecified s.nextDraw, out := .unspecified s.nextDraw
    pix := .unspecified s.nextDraw, sub := .replicate 4 (.unspecified s.nextDraw), ent := .unspecified s.nextDraw
    clmem := .unspecified s.nextDraw
    params := s.params, nextDraw := s.nextDraw + 1, hostOps := s.hostOps }

/-! ### The command's own monad -/

/-- A piece of a command: it goes on with a value, or raises an error in the state it has reached (R13, R364). -/
abbrev Cmd (α : Type) := EStateM Trap State α

/-- `raise E(info)`: the command ends here, and every write before it stays (R13, R362, R364). -/
def raise {α : Type} (e : ErrKind) (info : Nat) : Cmd α := fun s => .error ⟨e, trunc32 info⟩ s

/-- A value read from the state. -/
def readState {α : Type} (f : State → α) : Cmd α := fun s => .ok (f s) s

/-- A change of the state. -/
def update (f : State → State) : Cmd Unit := fun s => .ok () (f s)

/-- A value and the state it leaves. -/
def takeState {α : Type} (f : State → α × State) : Cmd α := fun s => .ok (f s).1 (f s).2

/-- `if c: raise E(info)`, one line of a rule's checks (R114). -/
def raiseIf (c : Bool) (e : ErrKind) (info : Nat) : Cmd Unit := if c then raise e info else pure ()

/-- `for i in lo .. lo+n-1` in ascending order (20_memory.md R92). -/
def forRange (f : Nat → Cmd Unit) : (n lo : Nat) → Cmd Unit
  | 0, _ => pure ()
  | n + 1, lo => do
    f lo
    forRange f n (lo + 1)

/-- The state with RES0 = v. -/
def State.withRes0 (s : State) (v : Word) : State := { s with res0 := v }

/-- RES0 ← v (10_state.md R32). -/
def setRes0 (v : Word) : Cmd Unit := update fun s => s.withRes0 v

/-- The state with STATUS.STAGE = st. -/
def State.atStage (s : State) (st : Stage) : State := { s with stage := st }

/-- STATUS.STAGE ← st (10_state.md R37). -/
def setStage (st : Stage) : Cmd Unit := update fun s => s.atStage st

/-- How a command ends: completed, or in the error it raised (10_state.md R36). Both are next states. -/
def finish : EStateM.Result Trap State Unit → Host.Outcome State Fault Refusal
  | .ok _ t => .next t.complete
  | .error e t => .next (t.takeError e)

/-- A command that writes STAGE itself: DECODE and HDR_PARSE (10_state.md R37). -/
def runStaged (body : Cmd Unit) (s : State) : Host.Outcome State Fault Refusal := finish (body s)

/-- Every other command: STAGE ← 0 when it is accepted, then its body (10_state.md R37). -/
def runCommand (body : Cmd Unit) (s : State) : Host.Outcome State Fault Refusal :=
  finish (body (s.atStage .none))

end Sys2Proof.Machine
end

