-- ==== Sys2Proof/Machine/Operands.lean ====
section
/-! DEFINITION. The operand forms and the operand checks that several commands share. -/

namespace Sys2Proof.Machine

/-- The slot an IMM8 names, once `s > 6` has been ruled out (42_huffman.md R160, R171). -/
def slotOf (s : Nat) : Fin 7 := Fin.ofNat 7 s

/-- The descriptor an IMM8 or XF_COUNT names, once `k > 3` has been ruled out (47_transforms.md R280). -/
def descOf (k : Nat) : Fin 4 := Fin.ofNat 4 k

/-- The register A0 as an unsigned operand (30_encoding.md R111). -/
def opA0 : Cmd Nat := readState fun s => s.a0.toNat

/-- The check of every command that reads input (10_state.md R41). -/
def inputCheck : Cmd Unit := do
  let len ← readState fun s => s.inLen.toNat
  let cap ← readState fun s => s.params.inCapacity
  raiseIf (cap < len) .argumentRange len

/-- `NPIX = IMG_W × IMG_H`, without truncation (10_state.md R43). -/
def State.npix (s : State) : Nat := s.imgW.toNat * s.imgH.toNat

/-- The image-size checks (10_state.md R43). -/
def imageCheck : Cmd Unit := do
  let s ← readState id
  raiseIf (s.imgW = 0) .argumentRange s.imgW.toNat
  raiseIf (s.imgH = 0) .argumentRange s.imgH.toNat
  raiseIf (s.params.pixCapacity < s.npix) .capacityExceeded s.npix

/-- The number of blocks of a `W × H` image on a grid of `2^bb` (10_state.md R53, R54). -/
def blockCount (w h bb : Nat) : Nat := ceilDiv w (2 ^ bb) * ceilDiv h (2 ^ bb)

/-- The block-geometry checks of a Predictor or Color descriptor, the end of R280. -/
def blockCheck (d : XfDesc) : Cmd Unit := do
  let bb := d.blockBits.toNat
  raiseIf (bb < 2 || 9 < bb) .argumentRange bb
  let n ← readState fun s => blockCount s.imgW.toNat s.imgH.toNat bb
  let cap ← readState fun s => s.params.subCapacity
  raiseIf (cap < n) .capacityExceeded n

/-- The palette-size check of a Palette descriptor, the end of R280. -/
def paletteCheck (d : XfDesc) : Cmd Unit :=
  raiseIf (d.palSize.toNat = 0 || Config.paletteMax < d.palSize.toNat) .argumentRange d.palSize.toNat

/-- `XfCheck(k, ty)` (47_transforms.md R280), in its order. -/
def xfCheck (k : Nat) (ty : XfType) : Cmd Unit := do
  raiseIf (3 < k) .argumentRange k
  let count ← readState fun s => s.xfCount.toNat
  raiseIf (4 < count) .argumentRange count
  raiseIf (count ≤ k) .argumentRange k
  let d ← readState fun s => s.xfDesc[descOf k]
  raiseIf (d.ty ≠ ty) .argumentRange k
  raiseIf (ty ≠ .subtractGreen && !d.payloadValid) .missingPayload k
  imageCheck
  match ty with
  | .predictor => blockCheck d
  | .color => blockCheck d
  | .subtractGreen => pure ()
  | .palette => paletteCheck d

/-- The data word of the block of descriptor `k` that holds pixel (x, y) (10_state.md R54). -/
def State.blockWord (s : State) (k : Fin 4) (x y : Nat) : Word :=
  let bb := s.xfDesc[k].blockBits.toNat
  s.elem (.sub k) (y / 2 ^ bb * ceilDiv s.imgW.toNat (2 ^ bb) + x / 2 ^ bb)

end Sys2Proof.Machine
end

