-- ==== Sys2Proof/Machine/BitReader.lean ====
section
/-! DEFINITION. The bit reader and its commands (41_bit_reader.md). -/

namespace Sys2Proof.Machine

/-- `POS = BR_BYTEPOS × 8 + BR_BITPOS` (R140). -/
def State.pos (s : State) : Nat := s.brBytePos.toNat * 8 + s.brBitPos.toNat

/-- `END = IN_LEN × 8` (R140). -/
def State.endPos (s : State) : Nat := s.inLen.toNat * 8

/-- The bit under the cursor: bit BR_BITPOS of byte BR_BYTEPOS of IN (R143). -/
def State.cursorBit (s : State) : Nat :=
  (s.inp.read .inp s.brBytePos.toNat).toNat / 2 ^ s.brBitPos.toNat % 2

/-- The cursor moves one bit on (R143). -/
def State.advanceBit (s : State) : State :=
  if s.brBitPos = 7 then { s with brBitPos := 0, brBytePos := s.brBytePos + 1 }
  else { s with brBitPos := s.brBitPos + 1 }

/-- The loop of R143: the next `n` bits, the first-read bit the least significant, and the state with the cursor moved
past them. -/
def takeBits : Nat → State → Nat × State
  | 0, s => (0, s)
  | n + 1, s =>
    let r := takeBits n s.advanceBit
    (s.cursorBit + 2 * r.1, r.2)

/-- `ReadBits(n)` (R141, R142, R143). -/
def readBits (n : Nat) : Cmd Nat := do
  raiseIf (n < 1 || 16 < n) .invalidBitCount n
  let past ← readState fun s => decide (s.endPos < s.pos + n)
  raiseIf past .readPastEnd n
  takeState (takeBits n)

/-- `ReadExtra(n)`, a field of 0 to 18 bits (R144). -/
def readExtra (n : Nat) : Cmd Nat :=
  if n = 0 then pure 0
  else if n ≤ 16 then readBits n
  else do
    let lo ← readBits 16
    let hi ← readBits (n - 16)
    pure (lo + 2 ^ 16 * hi)

/-- The cursor set to a start byte: BR_START, BR_BYTEPOS ← b and BR_BITPOS ← 0 (R145, 48_orchestrator.md R339, R341). -/
def State.startReader (s : State) (b : Word) : State := { s with brStart := b, brBytePos := b, brBitPos := 0 }

/-- The body of BR_INIT (R145). -/
def brInitBody : Cmd Unit := do
  inputCheck
  let a0 ← opA0
  let len ← readState fun s => s.inLen.toNat
  raiseIf (len < a0) .argumentRange a0
  update fun s => s.startReader s.a0

/-- BR_INIT (R145). -/
def execBrInit (s : State) : Host.Outcome State Fault Refusal := runCommand brInitBody s

/-- The body of BR_READ (R146). -/
def brReadBody (n : Nat) : Cmd Unit := do
  inputCheck
  let v ← readBits n
  setRes0 (trunc32 v)

/-- BR_READ n (R146). -/
def execBrRead (n : Nat) (s : State) : Host.Outcome State Fault Refusal := runCommand (brReadBody n) s

/-- `hasData()` (R147). -/
def State.hasData (s : State) : Word := if s.brBytePos.toNat < s.inLen.toNat then 1 else 0

/-- BR_HASDATA (R147). -/
def execBrHasdata (s : State) : Host.Outcome State Fault Refusal :=
  runCommand (update fun t => { t with res0 := t.hasData }) s

/-- `tell()`: `trunc_32((BR_BYTEPOS − BR_START) × 8 + BR_BITPOS)` (R148). -/
def State.tell (s : State) : Word := (s.brBytePos - s.brStart) * 8 + s.brBitPos.setWidth 32

/-- BR_TELL (R148). -/
def execBrTell (s : State) : Host.Outcome State Fault Refusal :=
  runCommand (update fun t => { t with res0 := t.tell }) s

end Sys2Proof.Machine
end

