-- ==== Sys2Proof/Machine/Huffman.lean ====
section
/-! DEFINITION. The canonical Huffman decoder and its commands (42_huffman.md). -/

namespace Sys2Proof.Machine

/-! ### Canonical codes -/

/-- `count[ℓ]`, with `count[0] = 0` (R163, R166). -/
def lengthCount (L : List Byte) (len : Nat) : Nat :=
  if len = 0 then 0 else (L.filter fun b => b.toNat = len).length

/-- The number of used symbols (R165). -/
def usedCount (L : List Byte) : Nat := (L.filter fun b => b.toNat ≠ 0).length

/-- The Kraft sum `K = Σ 2^(15 − L[i])` over the used symbols (R162). -/
def kraftSum (L : List Byte) : Nat := (L.map fun b => if b.toNat = 0 then 0 else 2 ^ (15 - b.toNat)).sum

/-- The largest used code length (R165). -/
def maxLength (L : List Byte) : Nat := L.foldl (fun m b => max m b.toNat) 0

/-- The first code of length `len`: `code ← (code + count[ℓ−1]) << 1` (R166). -/
def firstCode (L : List Byte) : Nat → Nat
  | 0 => 0
  | len + 1 => (firstCode L len + lengthCount L len) * 2

/-- `L[i]`, and 0 past the end. -/
def lengthAt (L : List Byte) (i : Nat) : Nat := (L.getD i 0).toNat

/-- `C[i]`: consecutive codes in index order within each length (R166), so symbol `i` has the first code of its length
plus the number of earlier symbols of that length. -/
def canonicalCode (L : List Byte) (i : Nat) : Nat :=
  firstCode L (lengthAt L i) + ((L.take i).filter fun b => b.toNat = lengthAt L i).length

/-- `bitrev(c, n)`: bit j of the result is bit n−1−j of c (R167). -/
def bitrev : Nat → Nat → Nat
  | _, 0 => 0
  | c, n + 1 => c % 2 * 2 ^ n + bitrev (c / 2) n

/-! ### Building a table -/

/-- TAB_s[j] ← e. -/
def State.setTab (s : State) (t : Fin 7) (j : Nat) (e : BitVec 17) : State :=
  { s with tab := s.tab.set t (s.tab[t].write j e) }

/-- TAB_INFO_s ← i. -/
def State.setTabInfo (s : State) (t : Fin 7) (i : TabInfo) : State := { s with tabInfo := s.tabInfo.set t i }

/-- TAB_INFO_s.VALID ← 0 (10_state.md R51). -/
def State.invalidate (s : State) (t : Fin 7) : State := s.setTabInfo t { s.tabInfo[t] with valid := false }

/-- The contents of TAB_s become unspecified: a fresh draw (R160, 93_implementation_defined.md U6; log 8). -/
def State.forgetTab (s : State) (t : Fin 7) : State :=
  { s with tab := s.tab.set t (.unspecified s.nextDraw), nextDraw := s.nextDraw + 1 }

/-- A build error in slot `t`: VALID stays 0 and the entries of TAB_t are unspecified (R160). -/
def failBuild {α : Type} (t : Fin 7) (e : ErrKind) (info : Nat) : Cmd α := do
  update fun s => s.forgetTab t
  raise e info

/-- `if c: raise E(info)` inside a build. -/
def failBuildIf (c : Bool) (t : Fin 7) (e : ErrKind) (info : Nat) : Cmd Unit :=
  if c then failBuild t e info else pure ()

/-- The writes of one memory for symbol `i`: entries r, r + 2^L, r + 2·2^L, … below 2^MAXLEN, `m` of them (R167). -/
def fillSymbol (r len i : Nat) : (m : Nat) → Memory 17 → Memory 17
  | 0, tab => tab
  | m + 1, tab => fillSymbol (r + 2 ^ len) len i m (tab.write r (mkEntry len i))

/-- The fill of R167 over the symbols `i, i+1, …`, in ascending order. -/
def fillSymbols (L : List Byte) (maxLen : Nat) : (n i : Nat) → Memory 17 → Memory 17
  | 0, _, tab => tab
  | n + 1, i, tab =>
    let len := lengthAt L i
    fillSymbols L maxLen n (i + 1)
      (if len = 0 then tab else fillSymbol (bitrev (canonicalCode L i) len) len i (2 ^ (maxLen - len)) tab)

/-- `FillSingle`: both entries of a one-bit table are symbol `i` (R168). -/
def fillSingle (i : Nat) (tab : Memory 17) : Memory 17 := (tab.write 0 (mkEntry 1 i)).write 1 (mkEntry 1 i)

/-- The one symbol of length 1 is the only used symbol: the single-symbol case (R164). -/
def isSingle (L : List Byte) : Bool := usedCount L = 1 && maxLength L = 1

/-- The used symbol of the single-symbol case, the first used one (R161). -/
def firstUsed (L : List Byte) : Nat := L.findIdx fun b => b.toNat ≠ 0

/-- The table a build leaves in TAB_s (R166, R167, R168). -/
def builtTable (L : List Byte) (tab : Memory 17) : Memory 17 :=
  if isSingle L then fillSingle (firstUsed L) tab else fillSymbols L (maxLength L) L.length 0 tab

/-- TAB_INFO_s after a build that passed every check (R169). -/
def builtInfo (L : List Byte) : TabInfo :=
  ⟨BitVec.ofNat 4 (maxLength L), BitVec.ofNat 12 (usedCount L), isSingle L, true⟩

/-- `Build(s, L, N)` with N the length of `L` (R161). -/
def build (t : Fin 7) (L : List Byte) : Cmd Unit := do
  update fun s => s.invalidate t
  failBuildIf (L.length = 0) t .emptyAlphabet 0
  let long := L.findIdx fun b => Config.maxCodeLength < b.toNat
  failBuildIf (long < L.length) t .codeLengthTooLong (long * 2 ^ 8 + lengthAt L long)
  failBuildIf (usedCount L = 0) t .emptyAlphabet L.length
  failBuildIf (2 ^ 15 < kraftSum L) t .overSubscribed (kraftSum L)
  failBuildIf (kraftSum L < 2 ^ 15 && !isSingle L) t .underSubscribed (kraftSum L)
  update fun s => { s with tab := s.tab.set t (builtTable L s.tab[t]) }
  update fun s => s.setTabInfo t (builtInfo L)

/-- `[MemRead(CLMEM, i, 8) for i in 0 .. n−1]` (R160). -/
def State.codeLengths (s : State) (n : Nat) : List Byte := (List.range n).map (s.clmem.read .clmem)

/-- The body of HUF_BUILD (R160). -/
def hufBuildBody (slot : Nat) : Cmd Unit := do
  raiseIf (6 < slot) .argumentRange slot
  let n ← opA0
  raiseIf (Config.maxAlphabet < n) .argumentRange n
  let L ← readState fun s => s.codeLengths n
  build (slotOf slot) L

/-- HUF_BUILD s (R160). -/
def execHufBuild (slot : Nat) (s : State) : Host.Outcome State Fault Refusal := runCommand (hufBuildBody slot) s

/-! ### Decoding a symbol -/

/-- The loop of R172 from step `k` on, with prefix `p` of `k − 1` bits read so far and `n` steps left. -/
def decodeLoop (t : Fin 7) (maxLen : Nat) : (n k p : Nat) → Cmd Nat
  | 0, _, p => raise .invalidCode (p + maxLen * 2 ^ 16)
  | n + 1, k, p => do
    let b ← readBits 1
    let q := p + b * 2 ^ (k - 1)
    let e ← readState fun s => s.tab[t].read (.tab t) q
    if entryFilled e && entryLen e = k then pure (entrySym e) else decodeLoop t maxLen n (k + 1) q

/-- `DecodeSym(s)` (R172). -/
def decodeSym (t : Fin 7) : Cmd Nat := do
  let maxLen ← readState fun s => s.tabInfo[t].maxLen.toNat
  decodeLoop t maxLen maxLen 1 0

/-- The body of HUF_DECODE (R171). -/
def hufDecodeBody (slot : Nat) : Cmd Unit := do
  raiseIf (6 < slot) .argumentRange slot
  let valid ← readState fun s => s.tabInfo[slotOf slot].valid
  raiseIf (!valid) .tableNotBuilt slot
  inputCheck
  let sym ← decodeSym (slotOf slot)
  setRes0 (trunc32 sym)

/-- HUF_DECODE s (R171). -/
def execHufDecode (slot : Nat) (s : State) : Host.Outcome State Fault Refusal := runCommand (hufDecodeBody slot) s

end Sys2Proof.Machine
end

