-- ==== Sys2Proof/Machine/CodeLengths.lean ====
section
/-! DEFINITION. The meta-Huffman code-length decoder and CL_READ (43_code_lengths.md). -/

namespace Sys2Proof.Machine

/-- `META_SLOT` (10_state.md R50). -/
def metaSlot : Fin 7 := 5

/-- CLMEM[i], CLMEM[i+1], … ← the values of the list (R200). -/
def State.setCodeLengths (s : State) (i : Nat) (vs : List Byte) : State :=
  { s with clmem := s.clmem.writeList i vs }

/-- L[i] ← v, which is a write of CLMEM[i] (R200). -/
def putLength (i : Nat) (v : Nat) : Cmd Unit := update fun s => s.setCodeLengths i [BitVec.ofNat 8 v]

/-- The flag-clear branch: `cnt` literal lengths of 3 bits, then zeros (R192). -/
def literalLengths (n cnt : Nat) : Cmd Unit := do
  raiseIf (n < cnt) .oversizedMetaAlphabet cnt
  forRange (fun i => do
    let v ← readBits 3
    putLength i v) cnt 0
  update fun s => s.setCodeLengths cnt (List.replicate (n - cnt) 0)

/-- CLM[m] ← v. -/
def State.setClm (s : State) (m v : Nat) : State := { s with clm := s.clm.setIfInBounds m (BitVec.ofNat 8 v) }

/-- The meta-code lengths in the order `CL_CODE_ORDER` (R193). -/
def metaLengths (cnt : Nat) : Cmd Unit := do
  update fun s => { s with clm := .replicate 19 0 }
  forRange (fun j => do
    let m ← readState fun s => s.params.clCodeOrder.getD j 0
    let v ← readBits 3
    update fun s => s.setClm m v) cnt 0

/-- `Repeat(v, r)` at index `i` of an array of `n` (R195), answering the next index. -/
def repeatLength (n i v r : Nat) : Cmd Nat := do
  raiseIf (n < i + r) .repeatOverflow (i + r)
  update fun s => s.setCodeLengths i (List.replicate r (BitVec.ofNat 8 v))
  pure (i + r)

/-- What one pass of the loop of R195 does with the symbol it decoded: the next index and the next `prev` (R196). -/
def lengthToken (n i prev sym : Nat) : Cmd (Nat × Nat) :=
  if sym ≤ 15 then do
    putLength i sym
    pure (i + 1, if sym ≠ 0 then sym else prev)
  else if sym = 16 then do
    let x ← readBits 2
    let j ← repeatLength n i prev (3 + x)
    pure (j, prev)
  else if sym = 17 then do
    let x ← readBits 3
    let j ← repeatLength n i 0 (3 + x)
    pure (j, prev)
  else if sym = 18 then do
    let x ← readBits 7
    let j ← repeatLength n i 0 (11 + x)
    pure (j, prev)
  else raise .invalidCodeLengthSymbol sym

/-- The loop of R195. Each pass adds at least 1 to `i` (R201), so `n` passes are enough and the fuel never runs out with
`i < n`. -/
def lengthLoop (n : Nat) : (fuel i prev : Nat) → Cmd Unit
  | 0, _, _ => pure ()
  | fuel + 1, i, prev =>
    if i < n then do
      let sym ← decodeSym metaSlot
      let next ← lengthToken n i prev sym
      lengthLoop n fuel next.1 next.2
    else pure ()

/-- The flag-set branch: the meta code, built in slot 5, then the lengths it codes (R193, R194, R195). -/
def codedLengths (n cnt : Nat) : Cmd Unit := do
  metaLengths cnt
  let L ← readState fun s => s.clm.toList
  build metaSlot L
  lengthLoop n n 0 8

/-- `ReadCodeLengths(N)` (R191). -/
def readCodeLengths (n : Nat) : Cmd Unit := do
  let flag ← readBits 1
  let c ← readBits 4
  if flag = 0 then literalLengths n (4 + c) else codedLengths n (4 + c)

/-- The body of CL_READ (R190). -/
def clReadBody : Cmd Unit := do
  let n ← opA0
  raiseIf (n = 0 || Config.maxAlphabet < n) .argumentRange n
  inputCheck
  readCodeLengths n

/-- CL_READ (R190). -/
def execClRead (s : State) : Host.Outcome State Fault Refusal := runCommand clReadBody s

end Sys2Proof.Machine
end

