-- ==== Sys2Proof/Machine/ColorCache.lean ====
section
/-! DEFINITION. The color cache and its commands (44_color_cache.md). -/

namespace Sys2Proof.Machine

/-- The active size of a cache of `bits`: `2^bits`, and 0 when disabled (10_state.md R44, 48_orchestrator.md R310 `CS`). -/
def cacheSize (bits : Nat) : Nat := if bits = 0 then 0 else 2 ^ bits

/-- `CC_SIZE` (10_state.md R44). -/
def State.ccSize (s : State) : Nat := cacheSize s.ccBits.toNat

/-- The cache set to `bits` and every CACHE word to 0 (R210). -/
def State.clearCache (s : State) (bits : Nat) : State := { s with ccBits := BitVec.ofNat 4 bits, cache := .cleared }

/-- `CacheInit(bits)` (R210). -/
def cacheInit (bits : Nat) : Cmd Unit := do
  raiseIf (Config.cacheMaxBits < bits) .invalidCacheBits bits
  update fun s => s.clearCache bits

/-- `CacheHash(p)` (R211). -/
def State.cacheHash (s : State) (p : Word) : Nat :=
  if s.ccBits = 0 then 0 else ((p * 0x1E35A7BD#32) >>> (32 - s.ccBits.toNat)).toNat

/-- `CacheInsert(p)` (R212). -/
def State.cacheInsert (s : State) (p : Word) : State :=
  if s.ccBits = 0 then s else { s with cache := s.cache.write (s.cacheHash p) p }

/-- `CacheGet(i)` (R213). -/
def cacheGet (i : Nat) : Cmd Word := do
  let size ← readState State.ccSize
  raiseIf (size ≤ i) .cacheIndexRange i
  readState fun s => s.cache.read .cache i

/-- The body of CC_INIT (R210). -/
def ccInitBody : Cmd Unit := do
  let bits ← opA0
  cacheInit bits

/-- CC_INIT (R210). -/
def execCcInit (s : State) : Host.Outcome State Fault Refusal := runCommand ccInitBody s

/-- CC_HASH (R214). -/
def execCcHash (s : State) : Host.Outcome State Fault Refusal :=
  runCommand (update fun t => { t with res0 := trunc32 (t.cacheHash t.a0) }) s

/-- CC_INSERT (R215). -/
def execCcInsert (s : State) : Host.Outcome State Fault Refusal :=
  runCommand (update fun t => t.cacheInsert t.a0) s

/-- The body of CC_GET (R216). -/
def ccGetBody : Cmd Unit := do
  let i ← opA0
  let p ← cacheGet i
  setRes0 p

/-- CC_GET (R216). -/
def execCcGet (s : State) : Host.Outcome State Fault Refusal := runCommand ccGetBody s

end Sys2Proof.Machine
end

