-- ==== Sys2Proof/Machine/Lz77.lean ====
section
/-! DEFINITION. The LZ77 engine and its commands (45_lz77.md). -/

namespace Sys2Proof.Machine

/-- The number of extra bits of prefix code `c` (R231, R232). -/
def prefixExtra (c : Nat) : Nat := if c < 4 then 0 else (c - 2) / 2

/-- The value of prefix code `c` when its extra bits are 0 (R231, R232). -/
def prefixBase (c : Nat) : Nat := if c < 4 then c + 1 else (2 + c % 2) * 2 ^ ((c - 2) / 2) + 1

/-- `PrefixValue(c)` (R231, R232). -/
def prefixValue (c : Nat) : Cmd Nat := do
  let x ← readExtra (prefixExtra c)
  pure (prefixBase c + x)

/-- The body of LZ_PREFIX (R230). -/
def lzPrefixBody (c : Nat) : Cmd Unit := do
  raiseIf (39 < c) .invalidPrefixCode c
  inputCheck
  let v ← prefixValue c
  setRes0 (trunc32 v)

/-- LZ_PREFIX c (R230). -/
def execLzPrefix (c : Nat) (s : State) : Host.Outcome State Fault Refusal := runCommand (lzPrefixBody c) s

/-- One pass of the copy: buf[pos + t] ← buf[pos + t − dist], and into the cache if `ins` (R235). -/
def State.copyPixel (s : State) (buf : Space) (at_ dist : Nat) (ins : Bool) : State :=
  let p := s.elem buf (at_ - dist)
  let s' := s.setElem buf at_ p
  if ins then s'.cacheInsert p else s'

/-- The copy loop of R235, one pixel at a time in ascending order (R406). -/
def State.copyRun (s : State) (buf : Space) (at_ dist : Nat) (ins : Bool) : Nat → State
  | 0 => s
  | n + 1 => (s.copyPixel buf at_ dist ins).copyRun buf (at_ + 1) dist ins n

/-- `LzCopy(pos, dist, len, size, ins)` within the space `buf` (R235). -/
def lzCopy (buf : Space) (pos dist len size : Nat) (ins : Bool) : Cmd Unit := do
  let maxDist ← readState fun s => s.params.lzMaxDistance
  raiseIf (dist = 0 || maxDist < dist) .lzDistanceRange dist
  raiseIf (pos < dist) .lzHistory dist
  raiseIf (len = 0 || Config.lzMaxLength < len) .lzLengthRange len
  raiseIf (size < pos + len) .lzBounds (pos + len)
  update fun s => s.copyRun buf pos dist ins len

/-- The body of LZ_COPY (R236). -/
def lzCopyBody : Cmd Unit := do
  imageCheck
  let s ← readState id
  lzCopy .pix s.a0.toNat s.a1.toNat s.a2.toNat s.npix false

/-- LZ_COPY (R236). -/
def execLzCopy (s : State) : Host.Outcome State Fault Refusal := runCommand lzCopyBody s

end Sys2Proof.Machine
end

