-- ==== Sys2Proof/Machine/Pixel.lean ====
section
/-! DEFINITION. Pixels and per-channel operations on them (00_scope.md R14, R15). -/

namespace Sys2Proof.Machine

/-- Alpha, bits [31:24] (R14). -/
def chanA (p : Word) : Byte := p.extractLsb' 24 8

/-- Red, bits [23:16] (R14). -/
def chanR (p : Word) : Byte := p.extractLsb' 16 8

/-- Green, bits [15:8] (R14). -/
def chanG (p : Word) : Byte := p.extractLsb' 8 8

/-- Blue, bits [7:0] (R14). -/
def chanB (p : Word) : Byte := p.extractLsb' 0 8

/-- `pix(a, r, g, b) = a ‖ r ‖ g ‖ b` (R14). -/
def mkPix (a r g b : Byte) : Word := a ++ (r ++ (g ++ b))

/-- `chanwise(f, p, q)` for an 8-bit function (R15). -/
def chanwise (f : Byte → Byte → Byte) (p q : Word) : Word :=
  mkPix (f (chanA p) (chanA q)) (f (chanR p) (chanR q)) (f (chanG p) (chanG q)) (f (chanB p) (chanB q))

/-- `addPix`, with 8-bit wraparound (R15). -/
def addPix (p q : Word) : Word := chanwise (· + ·) p q

/-- `(a + b) div 2` on the unwrapped sum (R15). -/
def avgByte (a b : Byte) : Byte := BitVec.ofNat 8 ((a.toNat + b.toNat) / 2)

/-- `avg2`, rounding down (R15). -/
def avg2 (p q : Word) : Word := chanwise avgByte p q

end Sys2Proof.Machine
end

