-- ==== Sys2Proof/Machine/Predictor.lean ====
section
/-! DEFINITION. The predictor bank, the inverse predictor transform and their commands (46_predictor.md). -/

namespace Sys2Proof.Machine

/-- `|a − b|` of two channels. -/
def absDiff (a b : Byte) : Nat := a.toNat - b.toNat + (b.toNat - a.toNat)

/-- The sum over the four channels of the absolute differences (R254). -/
def pixelDistance (p q : Word) : Nat :=
  absDiff (chanA p) (chanA q) + absDiff (chanR p) (chanR q) + absDiff (chanG p) (chanG q) + absDiff (chanB p) (chanB q)

/-- Mode 11, select: L only when strictly closer to TL (R254). -/
def selectPix (l t tl : Word) : Word := if pixelDistance l tl < pixelDistance t tl then l else t

/-- `cl(a + b − c)`, clamped to 0..255 on integers (R255). -/
def clampByte (a b c : Byte) : Byte := BitVec.ofNat 8 (min 255 (a.toNat + b.toNat - c.toNat))

/-- Mode 12 (R255). -/
def clampPix (l t tl : Word) : Word :=
  mkPix (clampByte (chanA l) (chanA t) (chanA tl)) (clampByte (chanR l) (chanR t) (chanR tl))
    (clampByte (chanG l) (chanG t) (chanG tl)) (clampByte (chanB l) (chanB t) (chanB tl))

/-- `Predict(mode, L, T, TL, TR)` for the modes 0 to 13, and nothing for a mode above (R250 to R256). -/
def predictPix (black : Word) (mode : Nat) (l t tl tr : Word) : Option Word :=
  match mode with
  | 0 => some black
  | 1 => some l
  | 2 => some t
  | 3 => some tr
  | 4 => some tl
  | 5 => some (avg2 l tr)
  | 6 => some (avg2 l tl)
  | 7 => some (avg2 l t)
  | 8 => some (avg2 tl t)
  | 9 => some (avg2 t tr)
  | 10 => some (avg2 tl tr)
  | 11 => some (selectPix l t tl)
  | 12 => some (clampPix l t tl)
  | 13 => some (avg2 l tr)
  | _ => none

/-- `Predict`, raising INVALID_PREDICTOR_MODE for a mode above 13 (R250). -/
def predict (mode : Nat) (l t tl tr : Word) : Cmd Word := do
  let black ← readState fun s => s.params.mode0Black
  match predictPix black mode l t tl tr with
  | some p => pure p
  | none => raise .invalidPredictorMode mode

/-- The body of PRED (R257). -/
def predBody (mode : Nat) : Cmd Unit := do
  let s ← readState id
  let p ← predict mode s.a0 s.a1 s.a2 s.a3
  setRes0 p

/-- PRED m (R257). -/
def execPred (mode : Nat) (s : State) : Host.Outcome State Fault Refusal := runCommand (predBody mode) s

/-! ### The inverse predictor transform -/

/-- PIX[i]. -/
def State.pixAt (s : State) (i : Nat) : Word := s.pix.read .pix i

/-- PIX[i] ← p. -/
def State.setPix (s : State) (i : Nat) (p : Word) : State := { s with pix := s.pix.write i p }

/-- The left neighbour of pixel (x, y) at index `i`, 0 beyond the edge (R258). -/
def State.nbL (s : State) (x i : Nat) : Word := if 0 < x then s.pixAt (i - 1) else 0

/-- The top neighbour (R258). -/
def State.nbT (s : State) (w y i : Nat) : Word := if 0 < y then s.pixAt (i - w) else 0

/-- The top-left neighbour (R258). -/
def State.nbTL (s : State) (w x y i : Nat) : Word := if 0 < x ∧ 0 < y then s.pixAt (i - w - 1) else 0

/-- The top-right neighbour (R258). -/
def State.nbTR (s : State) (w x y i : Nat) : Word := if 0 < y ∧ x + 1 < w then s.pixAt (i - w + 1) else 0

/-- The predictor mode of the block that holds (x, y): bits [11:8] of its data word (R259). -/
def State.modeAt (s : State) (k : Fin 4) (x y : Nat) : Nat := (s.blockWord k x y).toNat / 2 ^ 8 % 2 ^ 4

/-- One pixel of the walk of R260: index `i` is pixel (i mod W, i div W) in raster order. -/
def invPredictPixel (k : Fin 4) (i : Nat) : Cmd Unit := do
  let s ← readState id
  let w := s.imgW.toNat
  let x := i % w
  let y := i / w
  let p ← predict (s.modeAt k x y) (s.nbL x i) (s.nbT w y i) (s.nbTL w x y i) (s.nbTR w x y i)
  update fun s => s.setPix i (addPix (s.pixAt i) p)

/-- `InvPredictor(k)`: raster order, in place (R260, R407). -/
def invPredictor (k : Fin 4) : Cmd Unit := do
  let n ← readState State.npix
  forRange (invPredictPixel k) n 0

/-- The body of XF_PRED_INV (R261). -/
def xfPredInvBody (k : Nat) : Cmd Unit := do
  xfCheck k .predictor
  invPredictor (descOf k)

/-- XF_PRED_INV k (R261). -/
def execXfPredInv (k : Nat) (s : State) : Host.Outcome State Fault Refusal := runCommand (xfPredInvBody k) s

end Sys2Proof.Machine
end

