-- ==== Sys2Proof/Machine/Transforms.lean ====
section
/-! DEFINITION. The inverse transform pipeline and its commands (47_transforms.md). -/

namespace Sys2Proof.Machine

/-! ### Subtract-green -/

/-- Green added back into red and blue (R281). -/
def addGreen (p : Word) : Word := mkPix (chanA p) (chanR p + chanG p) (chanG p) (chanB p + chanG p)

/-- `InvSubGreen()` (R281). -/
def invSubGreen : Cmd Unit := do
  let n ← readState State.npix
  forRange (fun i => update fun s => s.setPix i (addGreen (s.pixAt i))) n 0

/-- The body of XF_SUBG_INV (R282). -/
def xfSubgInvBody (k : Nat) : Cmd Unit := do
  xfCheck k .subtractGreen
  invSubGreen

/-- XF_SUBG_INV k (R282). -/
def execXfSubgInv (k : Nat) (s : State) : Host.Outcome State Fault Refusal := runCommand (xfSubgInvBody k) s

/-! ### Color -/

/-- `(c − ((m × g) >> 8)) mod 256`, with `m` a signed and `g` an unsigned byte and a floor shift (R284). -/
def colorAdjust (c m g : Byte) : Byte := BitVec.ofInt 8 (c.toNat - m.toInt * g.toNat / 256)

/-- The inverse color transform of a pixel by its block's multiplier word `e` (R284). -/
def invColorPix (e p : Word) : Word :=
  mkPix (chanA p) (colorAdjust (chanR p) (chanB e) (chanG p)) (chanG p) (colorAdjust (chanB p) (chanG e) (chanG p))

/-- One pixel of `InvColor(k)`: index `i` is pixel (i mod W, i div W) in raster order (R284). -/
def State.invColorAt (s : State) (k : Fin 4) (i : Nat) : State :=
  s.setPix i (invColorPix (s.blockWord k (i % s.imgW.toNat) (i / s.imgW.toNat)) (s.pixAt i))

/-- `InvColor(k)` (R284). -/
def invColor (k : Fin 4) : Cmd Unit := do
  let n ← readState State.npix
  forRange (fun i => update fun s => s.invColorAt k i) n 0

/-- The body of XF_COLOR_INV (R285). -/
def xfColorInvBody (k : Nat) : Cmd Unit := do
  xfCheck k .color
  invColor (descOf k)

/-- XF_COLOR_INV k (R285). -/
def execXfColorInv (k : Nat) (s : State) : Host.Outcome State Fault Refusal := runCommand (xfColorInvBody k) s

/-! ### Palette -/

/-- One pixel of `PalApply(k)` (R286). -/
def palApplyPixel (k : Fin 4) (i : Nat) : Cmd Unit := do
  let s ← readState id
  let idx := (chanB (s.pixAt i)).toNat
  raiseIf (s.xfDesc[k].palSize.toNat ≤ idx) .paletteIndexRange idx
  update fun s => s.setPix i (s.elem (.sub k) idx)

/-- `PalApply(k)` (R286). -/
def palApply (k : Fin 4) : Cmd Unit := do
  let n ← readState State.npix
  forRange (palApplyPixel k) n 0

/-- The body of XF_PAL_APPLY (R287). -/
def xfPalApplyBody (k : Nat) : Cmd Unit := do
  xfCheck k .palette
  palApply (descOf k)

/-- XF_PAL_APPLY k (R287). -/
def execXfPalApply (k : Nat) (s : State) : Host.Outcome State Fault Refusal := runCommand (xfPalApplyBody k) s

/-- The body of XF_PAL_INVERT (R288). -/
def xfPalInvertBody (k : Nat) : Cmd Unit := do
  xfCheck k .palette
  raise .paletteNotInvertible k

/-- XF_PAL_INVERT k (R288). -/
def execXfPalInvert (k : Nat) (s : State) : Host.Outcome State Fault Refusal := runCommand (xfPalInvertBody k) s

/-! ### The chain -/

/-- The check of descriptor `k` of the list against its own type (R289). -/
def chainCheck (k : Nat) : Cmd Unit := do
  let ty ← readState fun s => s.xfDesc[descOf k].ty
  xfCheck k ty

/-- The inverse of descriptor `k`, the palette by lookup (R289). -/
def undoTransform (k : Nat) : Cmd Unit := do
  let ty ← readState fun s => s.xfDesc[descOf k].ty
  match ty with
  | .predictor => invPredictor (descOf k)
  | .color => invColor (descOf k)
  | .subtractGreen => invSubGreen
  | .palette => palApply (descOf k)

/-- `for k in n−1 down to 0` (R289). -/
def undoTransforms : Nat → Cmd Unit
  | 0 => pure ()
  | n + 1 => do
    undoTransform n
    undoTransforms n

/-- `InvChain()` (R289): all checks first, then the list in reverse order. -/
def invChain : Cmd Unit := do
  let count ← readState fun s => s.xfCount.toNat
  raiseIf (4 < count) .argumentRange count
  forRange chainCheck count 0
  undoTransforms count

/-- The body of XF_CHAIN_INV (R290). -/
def xfChainInvBody : Cmd Unit := do
  imageCheck
  invChain

/-- XF_CHAIN_INV (R290). -/
def execXfChainInv (s : State) : Host.Outcome State Fault Refusal := runCommand xfChainInvBody s

end Sys2Proof.Machine
end

