-- ==== Sys2Proof/Machine/Orchestrator.lean ====
section
/-! DEFINITION. The header parser, the decode orchestrator and their commands (48_orchestrator.md). -/

namespace Sys2Proof.Machine

/-! ### Header -/

/-- What `ParseHeader` returns (R313). -/
structure Header where
  w     : Nat
  h     : Nat
  alpha : Bool
  deriving DecidableEq, Repr

/-- The signature byte (R312). -/
abbrev signature : Nat := 0x2F

/-- IMG_W, IMG_H and IMG_INFO from a checked header (R313). -/
def State.setImage (s : State) (w h : Nat) (alpha : Bool) (ver : Nat) : State :=
  { s with imgW := trunc32 w, imgH := trunc32 h, imgAlpha := alpha, imgVersion := BitVec.ofNat 3 ver }

/-- `ParseHeader()`, with the capacity check of R314 (R312, R313, R314). -/
def parseHeader : Cmd Header := do
  let len ← readState fun s => s.inLen.toNat
  raiseIf (len < 5) .truncatedHeader len
  let sig ← readBits 8
  raiseIf (sig ≠ signature) .badSignature sig
  let w1 ← readBits 14
  let h1 ← readBits 14
  let a ← readBits 1
  let ver ← readBits 3
  raiseIf (ver ≠ 0) .unsupportedVersion ver
  let w := w1 + 1
  let h := h1 + 1
  raiseIf (w = 0 || h = 0 || Config.maxDim < w || Config.maxDim < h) .badDimensions (w ||| h * 2 ^ 16)
  update fun s => s.setImage w h (a = 1) ver
  let cap ← readState fun s => s.params.pixCapacity
  raiseIf (cap < w * h) .capacityExceeded (w * h)
  pure ⟨w, h, a = 1⟩

/-- The body of HDR_PARSE (R341). -/
def hdrParseBody : Cmd Unit := do
  setStage .header
  inputCheck
  update fun s => s.startReader 0
  let _ ← parseHeader
  pure ()

/-- HDR_PARSE (R341). -/
def execHdrParse (s : State) : Host.Outcome State Fault Refusal := runStaged hdrParseBody s

/-! ### Color-cache size and Huffman groups -/

/-- `ReadCacheBits()` (R319). -/
def readCacheBits : Cmd Nat := do
  let present ← readBits 1
  if present = 0 then pure 0
  else do
    let cb ← readBits 4
    raiseIf (Config.cacheMaxBits < cb) .invalidCacheBits cb
    pure cb

/-- The trees of a group as (slot if primary, alphabet size), in the order green, red, blue, alpha, distance (R326). -/
def groupTrees (cs : Nat) (at_ : Bool) : List (Fin 7 × Nat) :=
  [(0, 256 + Config.nLengthCodes + cs), (1, 256), (2, 256)] ++
    (if at_ then [(3, 256)] else []) ++ [(4, Config.distAlphabet)]

/-- `SCRATCH`, the slot that discards the trees of the groups after the first (R327). -/
def scratchSlot : Fin 7 := 6

/-- One tree: its code lengths, then its table (R326). -/
def readTree (t : Fin 7) (n : Nat) : Cmd Unit := do
  readCodeLengths n
  let L ← readState fun s => s.codeLengths n
  build t L

/-- The trees of a list, in its order (R326). -/
def readTrees (primary : Bool) : List (Fin 7 × Nat) → Cmd Unit
  | [] => pure ()
  | (t, n) :: r => do
    readTree (if primary then t else scratchSlot) n
    readTrees primary r

/-- `ReadGroup(cs, at, primary)` (R326). -/
def readGroup (cs : Nat) (at_ primary : Bool) : Cmd Unit := do
  readTrees primary (groupTrees cs at_)
  if primary && !at_ then update fun s => s.invalidate 3 else pure ()

/-! ### The pixel stream -/

/-- buf[pos] ← p and CacheInsert(p), the end of a literal and of a cache reference (R331, R333). -/
def State.emitPixel (s : State) (buf : Space) (pos : Nat) (p : Word) : State := (s.setElem buf pos p).cacheInsert p

/-- The alpha of a literal pixel: a symbol of the alpha tree, or 0xFF without one (R328, R331). -/
def alphaSym (at_ : Bool) : Cmd Nat := if at_ then decodeSym 3 else pure 0xFF

/-- `Literal(g)`, answering the next position (R331). -/
def literalToken (buf : Space) (at_ : Bool) (pos g : Nat) : Cmd Nat := do
  let r ← decodeSym 1
  let b ← decodeSym 2
  let a ← alphaSym at_
  update fun s => s.emitPixel buf pos (mkPix (BitVec.ofNat 8 a) (BitVec.ofNat 8 r) (BitVec.ofNat 8 g) (BitVec.ofNat 8 b))
  pure (pos + 1)

/-- `BackRef(c)`, answering the next position (R332). -/
def backRefToken (buf : Space) (n pos c : Nat) : Cmd Nat := do
  let len ← prefixValue c
  let dcode ← decodeSym 4
  let dist ← prefixValue dcode
  lzCopy buf pos dist len n true
  pure (pos + len)

/-- `CacheRef(j)`, answering the next position (R333). -/
def cacheRefToken (buf : Space) (pos j : Nat) : Cmd Nat := do
  let p ← cacheGet j
  update fun s => s.emitPixel buf pos p
  pure (pos + 1)

/-- One token of the stream, by the range of its green symbol (R330). -/
def pixelToken (buf : Space) (n : Nat) (at_ : Bool) (pos : Nat) : Cmd Nat := do
  let g ← decodeSym 0
  if g < 256 then literalToken buf at_ pos g
  else if g < 280 then backRefToken buf n pos (g - 256)
  else cacheRefToken buf pos (g - 280)

/-- The loop of R330. Each token advances `pos` by at least 1 (R334), so `n` tokens are enough and the fuel never runs
out with `pos < n`. -/
def pixelLoop (buf : Space) (n : Nat) (at_ : Bool) : (fuel pos : Nat) → Cmd Unit
  | 0, _ => pure ()
  | fuel + 1, pos =>
    if pos < n then do
      let pos' ← pixelToken buf n at_ pos
      pixelLoop buf n at_ fuel pos'
    else pure ()

/-- `PixelStream(buf, n, at)` (R330). -/
def pixelStream (buf : Space) (n : Nat) (at_ : Bool) : Cmd Unit := pixelLoop buf n at_ n 0

/-- `EntropyImage(w, h, dst)` (R320, R321). -/
def entropyImage (w h : Nat) (dst : Space) : Cmd Unit := do
  let cap ← readState fun s => s.params.subCapacity
  raiseIf (cap < w * h) .capacityExceeded (w * h)
  let cb ← readCacheBits
  readGroup (cacheSize cb) true true
  cacheInit cb
  pixelStream dst (w * h) true

/-! ### The transform list -/

/-- XF_DESC_k ← d. -/
def State.setDesc (s : State) (k : Fin 4) (d : XfDesc) : State := { s with xfDesc := s.xfDesc.set k d }

/-- A predictor or color payload: the block bits and the sub-image (R316). -/
def readBlockPayload (k : Fin 4) (w h : Nat) : Cmd Unit := do
  let b ← readBits 3
  entropyImage (ceilDiv w (2 ^ (b + 2))) (ceilDiv h (2 ^ (b + 2))) (.sub k)
  update fun s => s.setDesc k { s.xfDesc[k] with blockBits := BitVec.ofNat 4 (b + 2) }

/-- One step of the palette's delta decoding: SUB_k[i] ← addPix(SUB_k[i], SUB_k[i−1]) (R317). -/
def State.deltaEntry (s : State) (k : Fin 4) (i : Nat) : State :=
  s.setElem (.sub k) i (addPix (s.elem (.sub k) i) (s.elem (.sub k) (i - 1)))

/-- A palette payload: its size, its sub-image and the delta decoding (R317). -/
def readPalette (k : Fin 4) : Cmd Unit := do
  let b ← readBits 8
  entropyImage (b + 1) 1 (.sub k)
  forRange (fun i => update fun s => s.deltaEntry k i) b 1
  update fun s => s.setDesc k { s.xfDesc[k] with palSize := BitVec.ofNat 9 (b + 1) }

/-- PAYLOAD_VALID_k ← 1 and XF_COUNT ← k + 1, the end of R315 (R323). -/
def State.countDesc (s : State) (k : Nat) : State :=
  { s.setDesc (descOf k) { s.xfDesc[descOf k] with payloadValid := true } with xfCount := BitVec.ofNat 3 (k + 1) }

/-- `ReadTransform()`, with the types already read (R315, R322), answering them with the new one. -/
def readTransform (w h : Nat) (seen : List XfType) : Cmd (List XfType) := do
  let c ← readBits 2
  let ty := XfType.ofCode c
  raiseIf (ty ∈ seen) .transformRepeated c
  let k ← readState fun s => s.xfCount.toNat
  update fun s => s.setDesc (descOf k) ⟨ty, 0, 0, false⟩
  match ty with
  | .predictor => readBlockPayload (descOf k) w h
  | .color => readBlockPayload (descOf k) w h
  | .subtractGreen => pure ()
  | .palette => readPalette (descOf k)
  update fun s => s.countDesc k
  pure (ty :: seen)

/-- `while ReadBits(1) = 1: ReadTransform()` (R310 step 2). The fifth entry repeats a type (R322), so five passes are
enough and the fuel never runs out. -/
def transformLoop (w h : Nat) : (fuel : Nat) → List XfType → Cmd Unit
  | 0, _ => pure ()
  | fuel + 1, seen => do
    let more ← readBits 1
    if more = 1 then do
      let seen' ← readTransform w h seen
      transformLoop w h fuel seen'
    else pure ()

/-! ### The entropy image -/

/-- The group index in a word of the entropy image, bits [23:8] (R325). -/
def groupIndex (e : Word) : Nat := e.toNat / 2 ^ 8 % 2 ^ 16

/-- The largest group index in ENT[0..n−1] (R325). -/
def State.maxGroup (s : State) (n : Nat) : Nat :=
  (List.range n).foldl (fun m j => max m (groupIndex (s.ent.read .ent j))) 0

/-- ENT_INFO and NGROUPS ← what the stream declares (R324). -/
def State.setGroups (s : State) (present : Bool) (bits groups : Nat) : State :=
  { s with entPresent := present, entBits := BitVec.ofNat 4 bits, nGroups := trunc32 groups }

/-- `ReadMetaPrefix()` (R324, R325). -/
def readMetaPrefix (w h : Nat) : Cmd Nat := do
  let present ← readBits 1
  if present = 0 then do
    update fun s => s.setGroups false 0 1
    pure 1
  else do
    let b ← readBits 3
    let ew := ceilDiv w (2 ^ (b + 2))
    let eh := ceilDiv h (2 ^ (b + 2))
    entropyImage ew eh .ent
    let ng ← readState fun s => 1 + s.maxGroup (ew * eh)
    update fun s => s.setGroups true (b + 2) ng
    pure ng

/-! ### The conversion -/

/-- The four OUT bytes of pixel `i`, in R, G, B, A order (R340, 20_memory.md R85). -/
def State.convertPixel (s : State) (i : Nat) : State :=
  let p := s.pixAt i
  { s with out := s.out.writeList (4 * i) [chanR p, chanG p, chanB p, chanA p] }

/-- `RgbaConvert()` (R340). -/
def rgbaConvert : Cmd Unit := do
  let n ← readState State.npix
  forRange (fun i => update fun s => s.convertPixel i) n 0

/-- The body of RGBA_CONVERT (R340). -/
def rgbaConvertBody : Cmd Unit := do
  imageCheck
  rgbaConvert

/-- RGBA_CONVERT (R340). -/
def execRgbaConvert (s : State) : Host.Outcome State Fault Refusal := runCommand rgbaConvertBody s

/-! ### The state machine -/

/-- TAB_INFO_s.VALID ← 0 for every slot (R339). -/
def State.invalidateAll (s : State) : State :=
  { s with tabInfo := s.tabInfo.map fun i => { i with valid := false } }

/-- What `DecodeInit` writes once its check has passed (R339). -/
def State.decodeInit (s : State) : State :=
  { (s.startReader 0).invalidateAll.clearCache 0 with
    xfCount := 0, xfDesc := .replicate 4 .zero, nGroups := 0, entPresent := false, entBits := 0 }

/-- `AlphaTree(alpha)` (R328). -/
def State.alphaTree (s : State) (alpha : Bool) : Bool :=
  match s.params.alphaTreePolicy with
  | .always => true
  | .ifAlphaFlag => alpha

/-- DECODE, steps 1 to 9 of R310. -/
def decodeBody : Cmd Unit := do
  setStage .header
  inputCheck
  update State.decodeInit
  let hd ← parseHeader
  setStage .transformList
  transformLoop hd.w hd.h 5 []
  setStage .colorCacheSize
  let cb ← readCacheBits
  setStage .entropyImage
  let ng ← readMetaPrefix hd.w hd.h
  setStage .huffmanGroups
  let at_ ← readState fun s => s.alphaTree hd.alpha
  readGroup (cacheSize cb) at_ true
  forRange (fun _ => readGroup (cacheSize cb) at_ false) (ng - 1) 1
  setStage .pixelStream
  cacheInit cb
  pixelStream .pix (hd.w * hd.h) at_
  setStage .inverseTransforms
  invChain
  setStage .pixelFormatConvert
  rgbaConvert
  setStage .done

/-- DECODE (R311). -/
def execDecode (s : State) : Host.Outcome State Fault Refusal := runStaged decodeBody s

end Sys2Proof.Machine
end

