-- ==== Sys2Proof/Machine/System.lean ====
section
/-! DEFINITION. NOP and SOFT_RESET (70_reset_and_hazards.md R401, R402). -/

namespace Sys2Proof.Machine

/-- NOP: it only completes (R402). -/
def execNop (s : State) : Host.Outcome State Fault Refusal := runCommand (pure ()) s

/-- SOFT_RESET: the return from the error state (R401). -/
def execSoftReset (s : State) : Host.Outcome State Fault Refusal := runCommand (update State.softReset) s

end Sys2Proof.Machine
end

