-- ==== Sys2Proof/Machine/Dispatch.lean ====
section
/-! DEFINITION. The meaning of each command, one arm a constructor. -/

namespace Sys2Proof.Machine

def exec (i : Instr) (s : State) : Host.Outcome State Fault Refusal :=
  match i with
  | .nop => Sys2Proof.Machine.execNop s
  | .softReset => Sys2Proof.Machine.execSoftReset s
  | .brInit => Sys2Proof.Machine.execBrInit s
  | .brRead n => Sys2Proof.Machine.execBrRead n s
  | .brHasdata => Sys2Proof.Machine.execBrHasdata s
  | .brTell => Sys2Proof.Machine.execBrTell s
  | .hufBuild slot => Sys2Proof.Machine.execHufBuild slot s
  | .hufDecode slot => Sys2Proof.Machine.execHufDecode slot s
  | .clRead => Sys2Proof.Machine.execClRead s
  | .ccInit => Sys2Proof.Machine.execCcInit s
  | .ccHash => Sys2Proof.Machine.execCcHash s
  | .ccInsert => Sys2Proof.Machine.execCcInsert s
  | .ccGet => Sys2Proof.Machine.execCcGet s
  | .lzPrefix code => Sys2Proof.Machine.execLzPrefix code s
  | .lzCopy => Sys2Proof.Machine.execLzCopy s
  | .pred mode => Sys2Proof.Machine.execPred mode s
  | .xfPredInv k => Sys2Proof.Machine.execXfPredInv k s
  | .xfColorInv k => Sys2Proof.Machine.execXfColorInv k s
  | .xfSubgInv k => Sys2Proof.Machine.execXfSubgInv k s
  | .xfPalApply k => Sys2Proof.Machine.execXfPalApply k s
  | .xfPalInvert k => Sys2Proof.Machine.execXfPalInvert k s
  | .xfChainInv => Sys2Proof.Machine.execXfChainInv s
  | .hdrParse => Sys2Proof.Machine.execHdrParse s
  | .decode => Sys2Proof.Machine.execDecode s
  | .rgbaConvert => Sys2Proof.Machine.execRgbaConvert s

end Sys2Proof.Machine
end

