-- ==== Sys2Proof/Machine/HostPort.lean ====
section
/-! DEFINITION. The host's side of the block: the register port (10_state.md R34), the memory port (20_memory.md R80, R82, R86, R92) and reads while BUSY (70_reset_and_hazards.md R404). -/

namespace Sys2Proof.Machine

/-! ### Register words (R34) -/

/-- XF_DESC_k: [1:0] TYPE, [7:4] BLOCK_BITS, [16:8] PAL_SIZE, [31] PAYLOAD_VALID. -/
def XfDesc.toWord (d : XfDesc) : Word :=
  BitVec.ofBool d.payloadValid ++ (0#14 ++ (d.palSize ++ (d.blockBits ++ (0#2 ++ d.ty.code))))

/-- The descriptor a written word leaves: reserved bits are dropped. -/
def XfDesc.ofWord (v : Word) : XfDesc :=
  ⟨XfType.ofCode v.toNat, v.extractLsb' 4 4, v.extractLsb' 8 9, v.getLsbD 31⟩

/-- TAB_INFO_s: [3:0] MAXLEN, [15:4] NSYM, [16] SINGLE, [31] VALID. -/
def TabInfo.toWord (i : TabInfo) : Word :=
  BitVec.ofBool i.valid ++ (0#14 ++ (BitVec.ofBool i.single ++ (i.nSym ++ i.maxLen)))

/-- IMG_INFO: [0] ALPHA, [3:1] VERSION. -/
def State.imgInfoWord (s : State) : Word := 0#28 ++ (s.imgVersion ++ BitVec.ofBool s.imgAlpha)

/-- ENT_INFO: [0] PRESENT, [7:4] ENT_BITS. -/
def State.entInfoWord (s : State) : Word := 0#24 ++ (s.entBits ++ (0#3 ++ BitVec.ofBool s.entPresent))

/-- The read value of the register at a byte offset (R34). CMD is write-only and reads 0; an offset the map does not
have reads 0 (R82; log 11). -/
def State.regWord (s : State) (offset : Nat) : Word :=
  match offset with
  | 0x04 => s.statusWord
  | 0x08 => s.errCode.setWidth 32
  | 0x0C => s.errInfo
  | 0x10 => (BitVec.ofBool s.irqEn).setWidth 32
  | 0x14 => s.a0
  | 0x18 => s.a1
  | 0x1C => s.a2
  | 0x20 => s.a3
  | 0x24 => s.res0
  | 0x28 => s.inLen
  | 0x2C => s.brStart
  | 0x30 => s.brBytePos
  | 0x34 => s.brBitPos.setWidth 32
  | 0x38 => s.imgW
  | 0x3C => s.imgH
  | 0x40 => s.imgInfoWord
  | 0x44 => s.ccBits.setWidth 32
  | 0x48 => s.xfCount.setWidth 32
  | 0x4C => s.xfDesc[0].toWord
  | 0x50 => s.xfDesc[1].toWord
  | 0x54 => s.xfDesc[2].toWord
  | 0x58 => s.xfDesc[3].toWord
  | 0x5C => s.nGroups
  | 0x60 => s.entInfoWord
  | 0x64 => s.tabInfo[0].toWord
  | 0x68 => s.tabInfo[1].toWord
  | 0x6C => s.tabInfo[2].toWord
  | 0x70 => s.tabInfo[3].toWord
  | 0x74 => s.tabInfo[4].toWord
  | 0x78 => s.tabInfo[5].toWord
  | 0x7C => s.tabInfo[6].toWord
  | _ => 0

/-- A write to a register other than CMD while BUSY = 0 (R34): the writable fields take their bits, reserved bits are
dropped, and a read-only register or an offset the map does not have ignores it. -/
def State.writeReg (s : State) (offset : Nat) (v : Word) : State :=
  match offset with
  | 0x10 => { s with irqEn := v.getLsbD 0 }
  | 0x14 => { s with a0 := v }
  | 0x18 => { s with a1 := v }
  | 0x1C => { s with a2 := v }
  | 0x20 => { s with a3 := v }
  | 0x28 => { s with inLen := v }
  | 0x38 => { s with imgW := v }
  | 0x3C => { s with imgH := v }
  | 0x48 => { s with xfCount := v.setWidth 3 }
  | 0x4C => { s with xfDesc := s.xfDesc.set 0 (XfDesc.ofWord v) }
  | 0x50 => { s with xfDesc := s.xfDesc.set 1 (XfDesc.ofWord v) }
  | 0x54 => { s with xfDesc := s.xfDesc.set 2 (XfDesc.ofWord v) }
  | 0x58 => { s with xfDesc := s.xfDesc.set 3 (XfDesc.ofWord v) }
  | _ => s

/-! ### The memory port -/

/-- Which spaces the host may write (R80, R92). -/
def hostWritable : Space → Bool
  | .inp => true
  | .pix => true
  | .sub _ => true
  | .clmem => true
  | .out => false
  | .ent => false
  | .tab _ => false
  | .cache => false

/-- Which spaces have 8-bit elements (R80). -/
def byteSpace : Space → Bool
  | .inp => true
  | .out => true
  | .clmem => true
  | .pix => false
  | .sub _ => false
  | .ent => false
  | .tab _ => false
  | .cache => false

/-- A host write of one element while BUSY = 0: ignored outside the space's count (R82) and in a space the host may not
write (R80; log 10). -/
def State.hostWriteElem (s : State) (sp : Space) (i : Nat) (v : Word) : State :=
  if hostWritable sp && decide (i < s.spaceCount sp) then s.setElem sp i v else s

/-- The bytes of a 32-bit access to word `j` of a byte space, byte `4j + n` in bits [8n+7 : 8n] (R86). -/
def State.hostWriteWide (s : State) (sp : Space) (j : Nat) (v : Word) : State :=
  if byteSpace sp then
    (((s.hostWriteElem sp (4 * j) (v >>> 0)).hostWriteElem sp (4 * j + 1) (v >>> 8)).hostWriteElem sp (4 * j + 2)
      (v >>> 16)).hostWriteElem sp (4 * j + 3) (v >>> 24)
  else s

/-! ### Host reads, which change nothing (R88) -/

/-- What the host reads at a register offset: while BUSY = 1 only STATUS is defined, and any other read is the free value
of this offset (R404; DESIGN CHOICE, log 14: it is the same in every state with the same draw count). -/
def State.hostReadReg (s : State) (offset : Nat) : Word :=
  if s.busy && offset ≠ 0x04 then Config.busyRead s.nextDraw none offset else s.regWord offset

/-- What the host reads in a space: 0 outside its count (R82), and while BUSY = 1, at every index, the free value of this
space and index (R404; DESIGN CHOICE, log 14: it is the same in every state with the same draw count). -/
def State.hostReadElem (s : State) (sp : Space) (i : Nat) : Word :=
  if s.busy then Config.busyRead s.nextDraw (some sp) i else if i < s.spaceCount sp then s.elem sp i else 0

/-- What the host reads as word `j` of a byte space, byte `4j + n` in bits [8n+7 : 8n] (R86). While BUSY = 1 the four bytes
are the low bytes of the free values `hostReadElem` gives at the four indices (R404 leaves the word open; DESIGN CHOICE,
log 14). -/
def State.hostReadWide (s : State) (sp : Space) (j : Nat) : Word :=
  let byte (n : Nat) : Word := s.hostReadElem sp (4 * j + n) &&& 0xFF#32
  byte 0 ||| byte 1 <<< 8 ||| byte 2 <<< 16 ||| byte 3 <<< 24

/-- The byte offset of CMD (R34). -/
def cmdOffset : Nat := 0x00

/-- A write of `w` to CMD becomes the host's oldest outstanding write (log 1). -/
def State.queueCommand (s : State) (w : Word) : State := { s with hostOps := .writeReg cmdOffset w :: s.hostOps }

end Sys2Proof.Machine
end

