-- ==== Sys2Proof/Machine/Command.lean ====
section
/-! DEFINITION. Acceptance of a command word (10_state.md R35, 30_encoding.md R113, R116) and the host's writes (20_memory.md R92). -/

namespace Sys2Proof.Machine

/-- The one word accepted while ERR = 1 (R35, R117). -/
def softResetWord : Word := 0x00000002#32

/-- An accepted word: the command it stands for, or ILLEGAL_COMMAND with the word, changing no other state (R113,
60_exceptions.md R368; log 6). -/
def runWord (w : Word) (s : State) : Host.Outcome State Fault Refusal :=
  match decodeWord w with
  | .ok i => exec i s
  | .error _ => .next (s.takeError ⟨.illegalCommand, w⟩)

/-- A write to CMD: ignored while BUSY = 1, ignored while ERR = 1 but for the SOFT_RESET word, else accepted (R35). -/
def writeCmd (w : Word) (s : State) : Host.Outcome State Fault Refusal :=
  if s.busy then .next s
  else if s.err && w ≠ softResetWord then .next s
  else runWord w s.accept

/-- One write of the host, or its hardware reset. While BUSY = 1 every write is ignored (20_memory.md R92,
70_reset_and_hazards.md R404). -/
def hostStep (op : HostOp) (s : State) : Host.Outcome State Fault Refusal :=
  match op with
  | .writeReg offset v =>
    if offset = cmdOffset then writeCmd v s else .next (if s.busy then s else s.writeReg offset v)
  | .writeElem sp i v => .next (if s.busy then s else s.hostWriteElem sp i v)
  | .writeWide sp j v => .next (if s.busy then s else s.hostWriteWide sp j v)
  | .hardReset => .next s.hardReset

/-- The next thing that happens to the block: the host's oldest outstanding write. With none outstanding an idle block
keeps all its state (60_exceptions.md R390, 70_reset_and_hazards.md R400), and a block inside a command is a state this
model does not hold (log 5). -/
def nextEvent (s : State) : Host.Outcome State Fault Refusal :=
  match s.hostOps with
  | [] => if s.busy then .fault .midCommand else .next s
  | op :: rest => hostStep op { s with hostOps := rest }

end Sys2Proof.Machine
end

