-- ==== Sys2Proof/Machine/Step.lean ====
section
/-! DEFINITION. One step of the machine, and a command word placed where the next step takes it. -/

namespace Sys2Proof.Machine

/-- One step: the host's oldest outstanding write, a command being one atomic step (10_state.md R31). -/
def step (s : State) : Host.Outcome State Fault Refusal := nextEvent s

/-- `s` with the word `w` of `nbits` bits as the host's next write to CMD (10_state.md R33, R35): the block has no
program counter and fetches nothing, so its next command is the next word the host writes (log 1). -/
def State.withFetchWord (s : State) (nbits w : Nat) : State := s.queueCommand (trunc32 (w % 2 ^ nbits))

end Sys2Proof.Machine
end

