-- ==== Sys2Proof/Safety.lean ====
section
/-! DEFINITION. What counts as a safe state and a safe run, in the terms the statements use. -/

namespace Sys2Proof.Machine

/-- Every memory is in the canonical form of `Memory.wf`. -/
def State.MemWf (s : State) : Prop :=
  s.inp.wf ∧ s.out.wf ∧ s.pix.wf ∧ s.ent.wf ∧ s.clmem.wf ∧ s.cache.wf ∧
  (∀ k : Fin 4, s.sub[k].wf) ∧ (∀ t : Fin 7, s.tab[t].wf)

/-- The flags and error registers agree: no command is running between steps (10_state.md R36), DONE and ERR exclude each
other (R36, R57), ERR_CODE and ERR_INFO are 0 while ERR = 0 and ERR_CODE is a code of 60_exceptions.md R360 while ERR = 1. -/
def State.FlagsAgree (s : State) : Prop :=
  s.busy = false ∧ (s.err = true → s.done = false) ∧ (s.err = false → s.errCode = 0 ∧ s.errInfo = 0) ∧
  (s.err = true → ∃ k : ErrKind, s.errCode = k.code)

/-- CC_BITS is a legal number of cache bits (10_state.md R44) and the cursor is not before the reader's start
(41_bit_reader.md R140). -/
def State.RegsLegal (s : State) : Prop := s.ccBits.toNat ≤ Config.cacheMaxBits ∧ s.brStart.toNat * 8 ≤ s.pos

/-- Every listed index of a memory is below a count. -/
def Memory.Below {w : Nat} (m : Memory w) (n : Nat) : Prop := ∀ c ∈ m.cells, c.1 < n

/-- No space holds an element outside its count (20_memory.md R80, R82). -/
def State.InBounds (s : State) : Prop :=
  s.ccBits.toNat ≤ Config.cacheMaxBits ∧
  s.inp.Below (s.spaceCount .inp) ∧ s.out.Below (s.spaceCount .out) ∧ s.pix.Below (s.spaceCount .pix) ∧
  s.ent.Below (s.spaceCount .ent) ∧ s.clmem.Below (s.spaceCount .clmem) ∧ s.cache.Below (s.spaceCount .cache) ∧
  (∀ k : Fin 4, s.sub[k].Below (s.spaceCount (.sub k))) ∧ (∀ t : Fin 7, s.tab[t].Below (s.spaceCount (.tab t)))

/-- A slot's table decodes every bit string of MAXLEN bits: each entry is filled, its length is in 1..MAXLEN, and every
entry with the same low LEN bits is the same entry (42_huffman.md R170, R174). -/
def State.TableComplete (s : State) (t : Fin 7) : Prop :=
  1 ≤ s.tabInfo[t].maxLen.toNat ∧
  ∀ j < 2 ^ s.tabInfo[t].maxLen.toNat,
    let e := s.tab[t].read (.tab t) j
    entryFilled e = true ∧ 1 ≤ entryLen e ∧ entryLen e ≤ s.tabInfo[t].maxLen.toNat ∧
    ∀ j' < 2 ^ s.tabInfo[t].maxLen.toNat, j' % 2 ^ entryLen e = j % 2 ^ entryLen e → s.tab[t].read (.tab t) j' = e

/-- Every valid slot holds a complete table, and no error that 60_exceptions.md R363 calls unreachable is recorded. -/
def State.NoImpossibleError (s : State) : Prop :=
  (∀ t : Fin 7, s.tabInfo[t].valid = true → s.TableComplete t) ∧
  s.errCode ≠ ErrKind.badDimensions.code ∧ s.errCode ≠ ErrKind.invalidCode.code ∧
  s.errCode ≠ ErrKind.invalidCodeLengthSymbol.code ∧ s.errCode ≠ ErrKind.tooManyColors.code

/-! ### The words of the statements about the input stream -/

/-- Bit `q` of the input: bit `q mod 8` of byte `q div 8` of IN (20_memory.md R83). -/
def State.inBit (s : State) (q : Nat) : Nat := (s.inp.read .inp (q / 8)).toNat / 2 ^ (q % 8) % 2

/-- The `n`-bit field of the input that begins at bit `q`, its first bit the least significant (R83). -/
def State.field (s : State) (q n : Nat) : Nat := ((List.range n).map fun j => s.inBit (q + j) * 2 ^ j).sum

/-- The cursor at bit `q` of the input (41_bit_reader.md R140). -/
def State.moveTo (s : State) (q : Nat) : State :=
  { s with brBytePos := trunc32 (q / 8), brBitPos := BitVec.ofNat 3 (q % 8) }

/-- The input has the bits of a list from bit `q` on. -/
def State.HasBits (s : State) (q : Nat) (bits : List Nat) : Prop := ∀ j (h : j < bits.length), s.inBit (q + j) = bits[j]

/-! ### The conditions of the shared checks -/

/-- The check of a command that reads input passes (10_state.md R41). -/
def State.InputOk (s : State) : Prop := s.inLen.toNat ≤ s.params.inCapacity

/-- The image-size checks pass (10_state.md R43). -/
def State.ImageOk (s : State) : Prop := s.imgW ≠ 0 ∧ s.imgH ≠ 0 ∧ s.npix ≤ s.params.pixCapacity

/-- The block geometry of a Predictor or Color descriptor is legal and fits SUB (47_transforms.md R280). -/
def State.BlocksOk (s : State) (d : XfDesc) : Prop :=
  2 ≤ d.blockBits.toNat ∧ d.blockBits.toNat ≤ 9 ∧
  blockCount s.imgW.toNat s.imgH.toNat d.blockBits.toNat ≤ s.params.subCapacity

/-- `XfCheck(k, ty)` passes (47_transforms.md R280). -/
def State.XfOk (s : State) (k : Nat) (ty : XfType) : Prop :=
  k ≤ 3 ∧ s.xfCount.toNat ≤ 4 ∧ k < s.xfCount.toNat ∧ s.xfDesc[descOf k].ty = ty ∧
  (ty = .subtractGreen ∨ s.xfDesc[descOf k].payloadValid = true) ∧ s.ImageOk ∧
  match ty with
  | .predictor => s.BlocksOk s.xfDesc[descOf k]
  | .color => s.BlocksOk s.xfDesc[descOf k]
  | .subtractGreen => True
  | .palette => 1 ≤ s.xfDesc[descOf k].palSize.toNat ∧ s.xfDesc[descOf k].palSize.toNat ≤ Config.paletteMax

/-- A step is safe when it answers a next state: the machine has no stop of its own (70_reset_and_hazards.md R411). -/
def SafeStep (s : State) : Prop := ∃ t, step s = .next t

/-- A clean state: ERR = 0, so the results of earlier commands are results (60_exceptions.md R364, 70_reset_and_hazards.md R405). -/
def State.Clean (s : State) : Prop := s.err = false

/-! ### How a command ends, as the statements write it -/

/-- `s` with the command completed: STAGE 0, BUSY 0, DONE 1 (10_state.md R36, R37). -/
abbrev State.completed (s : State) : State := (s.atStage .none).complete

/-- `s` with the command ended by `E(info)`: STAGE 0 and the error entry (60_exceptions.md R380). -/
abbrev State.failed (s : State) (e : ErrKind) (info : Nat) : State :=
  (s.atStage .none).takeError ⟨e, trunc32 info⟩

/-! ### The parts of the state a command may write -/

/-- The parts of the state, for the frame of every command. -/
inductive Region where
  | operands
  | result
  | input
  | cursor
  | image
  | cache
  | transforms
  | groups
  | tableInfo
  | tables
  | lengths
  | metaLengths
  | out
  | pix
  | sub
  | ent
  | model
  deriving DecidableEq, Repr

/-- Two states hold the same in one part. -/
def State.agree (s t : State) : Region → Prop
  | .operands => t.a0 = s.a0 ∧ t.a1 = s.a1 ∧ t.a2 = s.a2 ∧ t.a3 = s.a3
  | .result => t.res0 = s.res0
  | .input => t.inLen = s.inLen ∧ t.irqEn = s.irqEn ∧ t.inp = s.inp
  | .cursor => t.brStart = s.brStart ∧ t.brBytePos = s.brBytePos ∧ t.brBitPos = s.brBitPos
  | .image => t.imgW = s.imgW ∧ t.imgH = s.imgH ∧ t.imgAlpha = s.imgAlpha ∧ t.imgVersion = s.imgVersion
  | .cache => t.ccBits = s.ccBits ∧ t.cache = s.cache
  | .transforms => t.xfCount = s.xfCount ∧ t.xfDesc = s.xfDesc
  | .groups => t.nGroups = s.nGroups ∧ t.entPresent = s.entPresent ∧ t.entBits = s.entBits
  | .tableInfo => t.tabInfo = s.tabInfo
  | .tables => t.tab = s.tab
  | .lengths => t.clmem = s.clmem
  | .metaLengths => t.clm = s.clm
  | .out => t.out = s.out
  | .pix => t.pix = s.pix
  | .sub => t.sub = s.sub
  | .ent => t.ent = s.ent
  | .model => t.params = s.params ∧ t.hostOps = s.hostOps

/-- The parts each command's rule lets it write, beside STATUS, ERR_CODE and ERR_INFO. -/
def writtenRegions : Instr → List Region
  | .nop => []
  | .softReset => [.operands, .result, .cursor, .image, .cache, .transforms, .groups, .tableInfo, .metaLengths]
  | .brInit => [.cursor]
  | .brRead _ => [.cursor, .result]
  | .brHasdata => [.result]
  | .brTell => [.result]
  | .hufBuild _ => [.tableInfo, .tables]
  | .hufDecode _ => [.cursor, .result]
  | .clRead => [.cursor, .lengths, .metaLengths, .tableInfo, .tables]
  | .ccInit => [.cache]
  | .ccHash => [.result]
  | .ccInsert => [.cache]
  | .ccGet => [.result]
  | .lzPrefix _ => [.cursor, .result]
  | .lzCopy => [.pix]
  | .pred _ => [.result]
  | .xfPredInv _ => [.pix]
  | .xfColorInv _ => [.pix]
  | .xfSubgInv _ => [.pix]
  | .xfPalApply _ => [.pix]
  | .xfPalInvert _ => []
  | .xfChainInv => [.pix]
  | .hdrParse => [.cursor, .image]
  | .decode =>
    [.cursor, .image, .cache, .transforms, .groups, .tableInfo, .tables, .lengths, .metaLengths, .out, .pix, .sub, .ent]
  | .rgbaConvert => [.out]

/-! ### Illegal words and the register port, read off the tables of the spec -/

/-- The opcodes of format N (30_encoding.md R115). -/
def nOpcodes : List Nat := [0x01, 0x02, 0x10, 0x12, 0x13, 0x22, 0x30, 0x31, 0x32, 0x33, 0x41, 0x65, 0x70, 0x71, 0x72]

/-- The opcodes of format I (30_encoding.md R115). -/
def iOpcodes : List Nat := [0x11, 0x20, 0x21, 0x40, 0x50, 0x60, 0x61, 0x62, 0x63, 0x64]

/-- The three cases of 30_encoding.md R113. -/
def IllegalWord (w : Word) : Prop :=
  (w.toNat % 256 ∉ nOpcodes ∧ w.toNat % 256 ∉ iOpcodes) ∨
  (w.toNat % 256 ∈ nOpcodes ∧ w.toNat / 2 ^ 8 ≠ 0) ∨
  (w.toNat % 256 ∈ iOpcodes ∧ w.toNat / 2 ^ 16 ≠ 0)

/-- The bits of each register that are not reserved (10_state.md R34). -/
def regMask (offset : Nat) : Word :=
  match offset with
  | 0x04 => 0x000000F7
  | 0x08 => 0x000000FF
  | 0x0C => 0xFFFFFFFF
  | 0x10 => 0x00000001
  | 0x14 => 0xFFFFFFFF
  | 0x18 => 0xFFFFFFFF
  | 0x1C => 0xFFFFFFFF
  | 0x20 => 0xFFFFFFFF
  | 0x24 => 0xFFFFFFFF
  | 0x28 => 0xFFFFFFFF
  | 0x2C => 0xFFFFFFFF
  | 0x30 => 0xFFFFFFFF
  | 0x34 => 0x00000007
  | 0x38 => 0xFFFFFFFF
  | 0x3C => 0xFFFFFFFF
  | 0x40 => 0x0000000F
  | 0x44 => 0x0000000F
  | 0x48 => 0x00000007
  | 0x4C => 0x8001FFF3
  | 0x50 => 0x8001FFF3
  | 0x54 => 0x8001FFF3
  | 0x58 => 0x8001FFF3
  | 0x5C => 0xFFFFFFFF
  | 0x60 => 0x000000F1
  | 0x64 => 0x8001FFFF
  | 0x68 => 0x8001FFFF
  | 0x6C => 0x8001FFFF
  | 0x70 => 0x8001FFFF
  | 0x74 => 0x8001FFFF
  | 0x78 => 0x8001FFFF
  | 0x7C => 0x8001FFFF
  | _ => 0

/-- The byte offsets the register map has, one for each of its 32 registers (10_state.md R34). -/
def Mapped (offset : Nat) : Prop := offset % 4 = 0 ∧ offset ≤ 0x7C

/-- The offsets of the registers the host may write, CMD apart (10_state.md R34). -/
def writableOffsets : List Nat := [0x10, 0x14, 0x18, 0x1C, 0x20, 0x28, 0x38, 0x3C, 0x48, 0x4C, 0x50, 0x54, 0x58]

/-- Every value a hardware reset fixes, and contents that nothing fixes everywhere else (70_reset_and_hazards.md R400). -/
def State.IsReset (s : State) : Prop :=
  (∀ offset, Mapped offset → s.regWord offset = 0) ∧ s.irq = false ∧ s.busy = false ∧
  (∀ i, s.cache.read .cache i = 0) ∧ (∀ m : Fin 19, s.clm[m] = 0) ∧
  (∃ d, s.inp = .unspecified d) ∧ (∃ d, s.out = .unspecified d) ∧ (∃ d, s.pix = .unspecified d) ∧
  (∃ d, s.ent = .unspecified d) ∧ (∃ d, s.clmem = .unspecified d) ∧
  (∀ k : Fin 4, ∃ d, s.sub[k] = .unspecified d) ∧ (∀ t : Fin 7, ∃ d, s.tab[t] = .unspecified d)

/-! ### Channels and blocks -/

/-- The channel of a pixel whose lowest bit is `c`: 24 alpha, 16 red, 8 green, 0 blue (00_scope.md R14). -/
def chan (p : Word) (c : Nat) : Nat := p.toNat / 2 ^ c % 256

/-- `sext_8` of a byte value (00_scope.md R12). -/
def sext8 (n : Nat) : Int := if n < 128 then n else n - 256

/-- The data word of the block of descriptor `k` that holds pixel `i` of the raster (10_state.md R54). -/
def State.blockData (s : State) (k i : Nat) : Word :=
  let bb := s.xfDesc[descOf k].blockBits.toNat
  let x := i % s.imgW.toNat
  let y := i / s.imgW.toNat
  s.elem (.sub (descOf k)) (y / 2 ^ bb * ceilDiv s.imgW.toNat (2 ^ bb) + x / 2 ^ bb)

/-- Byte `i` of the input. -/
def State.inByte (s : State) (i : Nat) : Nat := (s.inp.read .inp i).toNat

/-- Byte `i` of the output. -/
def State.outByte (s : State) (i : Nat) : Nat := (s.out.read .out i).toNat

/-- OUT holds the pixels of PIX as R, G, B, A bytes (20_memory.md R85). -/
def State.OutHoldsPix (s : State) : Prop :=
  ∀ i < s.npix, s.outByte (4 * i) = chan (s.pixAt i) 16 ∧ s.outByte (4 * i + 1) = chan (s.pixAt i) 8 ∧
    s.outByte (4 * i + 2) = chan (s.pixAt i) 0 ∧ s.outByte (4 * i + 3) = chan (s.pixAt i) 24

/-- The width and height a header's bytes give (48_orchestrator.md R312). -/
def State.headerW (s : State) : Nat := s.inByte 1 + s.inByte 2 % 64 * 256 + 1

/-- The height a header's bytes give (R312). -/
def State.headerH (s : State) : Nat := s.inByte 2 / 64 + s.inByte 3 * 4 + s.inByte 4 % 16 * 1024 + 1

/-! ### The chain as a run of single commands -/

/-- The command that undoes descriptor `k` (47_transforms.md R289). -/
def State.undoCommand (s : State) (k : Nat) : Instr :=
  match s.xfDesc[descOf k].ty with
  | .predictor => .xfPredInv k
  | .color => .xfColorInv k
  | .subtractGreen => .xfSubgInv k
  | .palette => .xfPalApply k

/-- The commands for descriptors n−1 down to 0, one after another, ending at the first that takes an error. -/
def undoRun : Nat → State → Host.Outcome State Fault Refusal
  | 0, s => .next s.completed
  | n + 1, s =>
    match exec (s.undoCommand n) s with
    | .next t => if t.err then .next t else undoRun n t
    | r => r

/-! ### Codes and streams as the encoder of a stream writes them -/

/-- The `n` bits of a field as the reader takes them, first bit the least significant (20_memory.md R83). -/
def lsbBits (x n : Nat) : List Nat := (List.range n).map fun j => x / 2 ^ j % 2

/-- The `n` bits of a code, its most significant bit first (00_scope.md R16). -/
def msbBits (c n : Nat) : List Nat := (List.range n).map fun j => c / 2 ^ (n - 1 - j) % 2

/-- The bits of symbol `i` in the canonical code of `L` (42_huffman.md R166). -/
def codeBits (L : List Byte) (i : Nat) : List Nat := msbBits (canonicalCode L i) (lengthAt L i)

/-- The first codes `next[0..15]` of the first loop of 42_huffman.md R166. -/
def loopFirstCodes (L : List Byte) : List Nat :=
  ((List.range 15).foldl (fun (r : Nat × List Nat) len =>
    ((r.1 + lengthCount L len) * 2, r.2 ++ [(r.1 + lengthCount L len) * 2])) (0, [0])).2

/-- The codes `C[0..N−1]` of the second loop of 42_huffman.md R166, with 0 for an unused symbol. -/
def loopCodes (L : List Byte) : List Nat :=
  (L.foldl (fun (r : List Nat × List Nat) b =>
    if b.toNat = 0 then (r.1, r.2 ++ [0])
    else (r.1.set b.toNat (r.1.getD b.toNat 0 + 1), r.2 ++ [r.1.getD b.toNat 0])) (loopFirstCodes L, [])).2

/-- One token of a coded array of code lengths (43_code_lengths.md R195). -/
inductive LenToken where
  | literal (v : Nat)
  | repeatPrev (x : Nat)
  | shortZeros (x : Nat)
  | longZeros (x : Nat)
  deriving DecidableEq, Repr

/-- The meta symbol of a token (R195). -/
def LenToken.symbol : LenToken → Nat
  | .literal v => v
  | .repeatPrev _ => 16
  | .shortZeros _ => 17
  | .longZeros _ => 18

/-- The extra bits of a token (R195, R197, R198). -/
def LenToken.extraBits : LenToken → List Nat
  | .literal _ => []
  | .repeatPrev x => lsbBits x 2
  | .shortZeros x => lsbBits x 3
  | .longZeros x => lsbBits x 7

/-- A literal is at most 15 and an extra value fits its field. -/
def LenToken.Legal : LenToken → Prop
  | .literal v => v ≤ 15
  | .repeatPrev x => x < 4
  | .shortZeros x => x < 8
  | .longZeros x => x < 128

/-- The lengths a token stands for after the previous length `prev` (R195, R196). -/
def LenToken.lengths (prev : Nat) : LenToken → List Nat
  | .literal v => [v]
  | .repeatPrev x => List.replicate (3 + x) prev
  | .shortZeros x => List.replicate (3 + x) 0
  | .longZeros x => List.replicate (11 + x) 0

/-- The previous length after a token (R196). -/
def LenToken.nextPrev (prev : Nat) : LenToken → Nat
  | .literal v => if v = 0 then prev else v
  | .repeatPrev _ => prev
  | .shortZeros _ => prev
  | .longZeros _ => prev

/-- The array a run of tokens stands for. -/
def expandTokens : (prev : Nat) → List LenToken → List Nat
  | _, [] => []
  | prev, t :: r => t.lengths prev ++ expandTokens (t.nextPrev prev) r

/-- The previous length after a run of tokens. -/
def prevAfter : (prev : Nat) → List LenToken → Nat
  | prev, [] => prev
  | prev, t :: r => prevAfter (t.nextPrev prev) r

/-- The bits of a run of tokens in the meta code `M`. -/
def tokenBits (M : List Byte) (ts : List LenToken) : List Nat := ts.flatMap fun t => codeBits M t.symbol ++ t.extraBits

/-- The 19 meta lengths that the values `ms`, in the order `order`, stand for (43_code_lengths.md R193). -/
def metaCode (order ms : List Nat) : List Byte :=
  (List.range 19).map fun m => BitVec.ofNat 8 (ms.getD (order.idxOf m) 0)

/-- The bits of the flag, the count and the meta lengths of a coded array (R191, R193). -/
def metaBits (ms : List Nat) : List Nat := [1] ++ lsbBits (ms.length - 4) 4 ++ ms.flatMap fun v => lsbBits v 3

/-- A meta code is read from `ms`: 4 to 19 values of 3 bits. -/
def MetaOk (ms : List Nat) : Prop := 4 ≤ ms.length ∧ ms.length ≤ 19 ∧ ∀ v ∈ ms, v < 8

/-- A build of `L` passes: a complete code, or the single symbol of length 1 (42_huffman.md R162, R164). -/
def Buildable (L : List Byte) : Prop := (∀ b ∈ L, b.toNat ≤ 15) ∧ (kraftSum L = 2 ^ 15 ∨ isSingle L = true)

/-- The bits of a tree with sixteen symbols of length 4, in the literal form (43_code_lengths.md R192). -/
def sixteenTree : List Nat := [0] ++ lsbBits 12 4 ++ (List.replicate 16 4).flatMap fun v => lsbBits v 3

/-- The bits of one pixel in such trees: green, red, blue and, if there is an alpha tree, alpha (48_orchestrator.md R331). -/
def pixelBits (alpha : Bool) (p : Word) : List Nat :=
  msbBits (chan p 8) 4 ++ msbBits (chan p 16) 4 ++ msbBits (chan p 0) 4 ++ if alpha then msbBits (chan p 24) 4 else []

/-- The stream of literal pixels of a `w × h` image whose coded channels are below 16, with every tree `sixteenTree`: the
header, the transform list (one subtract-green transform or none), no color cache, no entropy image, the trees and the
pixels (48_orchestrator.md R310). -/
def literalStream (w h : Nat) (alpha subGreen : Bool) (px : Nat → Word) : List Nat :=
  lsbBits 0x2F 8 ++ lsbBits (w - 1) 14 ++ lsbBits (h - 1) 14 ++ [alpha.toNat] ++ lsbBits 0 3 ++
  (if subGreen then [1] ++ lsbBits 2 2 ++ [0] else [0]) ++ [0] ++ [0] ++
  (List.replicate (if alpha then 5 else 4) sixteenTree).flatten ++
  (List.range (w * h)).flatMap fun i => pixelBits alpha (px i)

/-! ### Whole streams as an encoder writes them (48_orchestrator.md R310) -/

/-- One array of code lengths in a stream: the literal lengths, or the meta lengths and the tokens (43_code_lengths.md R191). -/
inductive TreeCode where
  | literal (vs : List Nat)
  | coded (ms : List Nat) (ts : List LenToken)
  deriving DecidableEq, Repr

/-- The bits of an array, with the meta lengths in the order of `CL_CODE_ORDER` (R192, R193, R195). -/
def TreeCode.bits (order : List Nat) : TreeCode → List Nat
  | .literal vs => [0] ++ lsbBits (vs.length - 4) 4 ++ vs.flatMap fun v => lsbBits v 3
  | .coded ms ts => metaBits ms ++ tokenBits (metaCode order ms) ts

/-- The lengths an array of `n` symbols stands for (R192, R195). -/
def TreeCode.lengths (n : Nat) : TreeCode → List Byte
  | .literal vs => (vs ++ List.replicate (n - vs.length) 0).map (BitVec.ofNat 8)
  | .coded _ ts => (expandTokens 8 ts).map (BitVec.ofNat 8)

/-- The array can be read and its code builds (R192 to R198, 42_huffman.md R161). -/
def TreeCode.Ok (order : List Nat) (n : Nat) (c : TreeCode) : Prop :=
  Buildable (c.lengths n) ∧
  match c with
  | .literal vs => 4 ≤ vs.length ∧ vs.length ≤ 19 ∧ vs.length ≤ n ∧ ∀ v ∈ vs, v < 8
  | .coded ms ts => MetaOk ms ∧ Buildable (metaCode order ms) ∧
    (∀ k ∈ ts, k.Legal ∧ lengthAt (metaCode order ms) k.symbol ≠ 0) ∧ (expandTokens 8 ts).length = n

/-- The trees of a group; `alpha` is no part of a group without an alpha tree (48_orchestrator.md R326). -/
structure GroupCode where
  green : TreeCode
  red   : TreeCode
  blue  : TreeCode
  alpha : TreeCode
  dist  : TreeCode
  deriving DecidableEq, Repr

/-- The trees in their order, each with its slot in the main group and its number of symbols, beside a color cache of `cs`
entries (R326). -/
def GroupCode.trees (g : GroupCode) (cs : Nat) (at_ : Bool) : List (Fin 7 × TreeCode × Nat) :=
  [(0, g.green, 280 + cs), (1, g.red, 256), (2, g.blue, 256)] ++ (if at_ then [(3, g.alpha, 256)] else []) ++
    [(4, g.dist, 40)]

/-- The bits of a group (R326). -/
def GroupCode.bits (order : List Nat) (cs : Nat) (at_ : Bool) (g : GroupCode) : List Nat :=
  (g.trees cs at_).flatMap fun x => x.2.1.bits order

/-- Every tree of the group can be read and builds. -/
def GroupCode.Ok (order : List Nat) (cs : Nat) (at_ : Bool) (g : GroupCode) : Prop :=
  ∀ x ∈ g.trees cs at_, x.2.1.Ok order x.2.2

/-- One token of a pixel stream: a pixel, a reference `len`, `dist` by prefix codes `c`, `d` and their extra bits `x`, `y`,
or an index of the color cache (R330 to R333). -/
inductive PixelToken where
  | literal (p : Word)
  | backRef (c x d y : Nat)
  | cacheRef (j : Nat)
  deriving DecidableEq, Repr

/-- The bits of a token in the codes of a group (R331, R332, R333). -/
def PixelToken.bits (g : GroupCode) (cs : Nat) (at_ : Bool) : PixelToken → List Nat
  | .literal p =>
    codeBits (g.green.lengths (280 + cs)) (chan p 8) ++ codeBits (g.red.lengths 256) (chan p 16) ++
      codeBits (g.blue.lengths 256) (chan p 0) ++ if at_ then codeBits (g.alpha.lengths 256) (chan p 24) else []
  | .backRef c x d y =>
    codeBits (g.green.lengths (280 + cs)) (256 + c) ++ lsbBits x (prefixExtra c) ++ codeBits (g.dist.lengths 40) d ++
      lsbBits y (prefixExtra d)
  | .cacheRef j => codeBits (g.green.lengths (280 + cs)) (280 + j)

/-- How many pixels a token stands for. -/
def PixelToken.size : PixelToken → Nat
  | .literal _ => 1
  | .backRef c x _ _ => prefixBase c + x
  | .cacheRef _ => 1

/-- A token may stand after `pos` of `n` pixels: its symbols have codes, a pixel has alpha 0xFF without an alpha tree, a
reference reaches back to a pixel of the buffer and ends inside it, and an index is one of the active cache. -/
def PixelToken.Legal (g : GroupCode) (cs : Nat) (at_ : Bool) (maxDist n pos : Nat) : PixelToken → Prop
  | .literal p =>
    lengthAt (g.green.lengths (280 + cs)) (chan p 8) ≠ 0 ∧ lengthAt (g.red.lengths 256) (chan p 16) ≠ 0 ∧
      lengthAt (g.blue.lengths 256) (chan p 0) ≠ 0 ∧
      if at_ then lengthAt (g.alpha.lengths 256) (chan p 24) ≠ 0 else chan p 24 = 255
  | .backRef c x d y =>
    c < 24 ∧ x < 2 ^ prefixExtra c ∧ d < 40 ∧ y < 2 ^ prefixExtra d ∧
      lengthAt (g.green.lengths (280 + cs)) (256 + c) ≠ 0 ∧ lengthAt (g.dist.lengths 40) d ≠ 0 ∧
      prefixBase d + y ≤ maxDist ∧ prefixBase d + y ≤ pos ∧ pos + (prefixBase c + x) ≤ n
  | .cacheRef j => j < cs ∧ lengthAt (g.green.lengths (280 + cs)) (280 + j) ≠ 0

/-- The tokens may follow one another from pixel `pos` on and end at pixel `n` (R330). -/
def TokensOk (g : GroupCode) (cs : Nat) (at_ : Bool) (maxDist n : Nat) : (pos : Nat) → List PixelToken → Prop
  | pos, [] => pos = n
  | pos, t :: r => pos < n ∧ t.Legal g cs at_ maxDist n pos ∧ TokensOk g cs at_ maxDist n (pos + t.size) r

/-- The pixels decoded so far, and the color cache beside them. -/
structure Canvas where
  px    : List Word
  cache : Nat → Word

/-- Nothing decoded, and a cleared cache (44_color_cache.md R210). -/
def Canvas.empty : Canvas := ⟨[], fun _ => 0⟩

/-- One more pixel, which also goes into a cache of `bits` index bits at its hash (44_color_cache.md R211, R212, R217). -/
def Canvas.put (bits : Nat) (c : Canvas) (p : Word) : Canvas :=
  ⟨c.px ++ [p], fun j =>
    if bits ≠ 0 ∧ j = p.toNat * 0x1E35A7BD % 2 ^ 32 / 2 ^ (32 - bits) then p else c.cache j⟩

/-- `n` pixels copied from `dist` pixels back, one by one (45_lz77.md R235, R406). -/
def Canvas.copy (bits dist : Nat) (c : Canvas) : (n : Nat) → Canvas
  | 0 => c
  | n + 1 => (c.put bits (c.px.getD (c.px.length - dist) 0)).copy bits dist n

/-- What a token adds (48_orchestrator.md R331, R332, R333). -/
def Canvas.token (bits : Nat) (c : Canvas) : PixelToken → Canvas
  | .literal p => c.put bits p
  | .backRef k x d y => c.copy bits (prefixBase d + y) (prefixBase k + x)
  | .cacheRef j => c.put bits (c.cache j)

/-- What a run of tokens leaves. -/
def drawTokens (bits : Nat) (ts : List PixelToken) : Canvas := ts.foldl (Canvas.token bits) .empty

/-- The cache-size field: absent, or present with its bits (48_orchestrator.md R319). -/
def cacheField : Option Nat → List Nat
  | none => [0]
  | some cb => [1] ++ lsbBits cb 4

/-- A sub-image: its cache-size field, its one group and its tokens (R320). -/
structure SubImage where
  cache  : Option Nat
  codes  : GroupCode
  tokens : List PixelToken
  deriving DecidableEq, Repr

/-- The number of cache bits of a field, 0 for no cache (R319). -/
def fieldBits (cache : Option Nat) : Nat := cache.getD 0

/-- The bits of a sub-image (R320). -/
def SubImage.bits (order : List Nat) (m : SubImage) : List Nat :=
  cacheField m.cache ++ m.codes.bits order (cacheSize (fieldBits m.cache)) true ++
    m.tokens.flatMap (PixelToken.bits m.codes (cacheSize (fieldBits m.cache)) true)

/-- The sub-image of `n` words can be read and fits its space (R320). -/
def SubImage.Ok (p : Params) (n : Nat) (m : SubImage) : Prop :=
  n ≤ p.subCapacity ∧ fieldBits m.cache ≤ 11 ∧ m.codes.Ok p.clCodeOrder (cacheSize (fieldBits m.cache)) true ∧
  TokensOk m.codes (cacheSize (fieldBits m.cache)) true p.lzMaxDistance n 0 m.tokens

/-- The words of a sub-image. -/
def SubImage.words (m : SubImage) : List Word := (drawTokens (fieldBits m.cache) m.tokens).px

/-- Each word added, channel by channel modulo 256, to the entry before it (R317). -/
def sumEntries (prev : Word) : List Word → List Word
  | [] => []
  | q :: r => addPix q prev :: sumEntries (addPix q prev) r

/-- The entries of a palette from its coded differences, the first as it stands (R317). -/
def paletteEntries : List Word → List Word
  | [] => []
  | q :: r => q :: sumEntries q r

/-- One entry of the transform list (R315, R316, R317). -/
inductive TransformCode where
  | predictor (b : Nat) (m : SubImage)
  | color (b : Nat) (m : SubImage)
  | subtractGreen
  | palette (b : Nat) (m : SubImage)
  deriving DecidableEq, Repr

/-- The type of an entry. -/
def TransformCode.ty : TransformCode → XfType
  | .predictor _ _ => .predictor
  | .color _ _ => .color
  | .subtractGreen => .subtractGreen
  | .palette _ _ => .palette

/-- The bits of an entry, the bit that announces it among them (R310 step 2, R315, R316, R317). -/
def TransformCode.bits (order : List Nat) : TransformCode → List Nat
  | .predictor b m => [1] ++ lsbBits 0 2 ++ lsbBits b 3 ++ m.bits order
  | .color b m => [1] ++ lsbBits 1 2 ++ lsbBits b 3 ++ m.bits order
  | .subtractGreen => [1] ++ lsbBits 2 2
  | .palette b m => [1] ++ lsbBits 3 2 ++ lsbBits b 8 ++ m.bits order

/-- The number of blocks of a `w × h` image on the grid a 3-bit field `b` names (R316, R324). -/
def gridCount (w h b : Nat) : Nat := ceilDiv w (2 ^ (b + 2)) * ceilDiv h (2 ^ (b + 2))

/-- The entry can be read beside a `w × h` image. -/
def TransformCode.Ok (p : Params) (w h : Nat) : TransformCode → Prop
  | .predictor b m => b < 8 ∧ m.Ok p (gridCount w h b)
  | .color b m => b < 8 ∧ m.Ok p (gridCount w h b)
  | .subtractGreen => True
  | .palette b m => b < 256 ∧ m.Ok p (b + 1)

/-- The descriptor an entry leaves (10_state.md R53, 48_orchestrator.md R315 to R318). -/
def TransformCode.desc : TransformCode → XfDesc
  | .predictor b _ => ⟨.predictor, BitVec.ofNat 4 (b + 2), 0, true⟩
  | .color b _ => ⟨.color, BitVec.ofNat 4 (b + 2), 0, true⟩
  | .subtractGreen => ⟨.subtractGreen, 0, 0, true⟩
  | .palette b _ => ⟨.palette, 0, BitVec.ofNat 9 (b + 1), true⟩

/-- The payload words an entry leaves in its SUB space (R316, R317). -/
def TransformCode.payload : TransformCode → List Word
  | .predictor _ m => m.words
  | .color _ m => m.words
  | .subtractGreen => []
  | .palette _ m => paletteEntries m.words

/-- A whole stream: the header's fields, the transform list, the cache-size field, the entropy image with the 3-bit field of
its block bits, the main group, the groups after it, and the tokens (R310). -/
structure StreamCode where
  w          : Nat
  h          : Nat
  alpha      : Bool
  transforms : List TransformCode
  cache      : Option Nat
  entropy    : Option (Nat × SubImage)
  main       : GroupCode
  others     : List GroupCode
  tokens     : List PixelToken
  deriving DecidableEq, Repr

/-- Whether the main image has an alpha tree (R328). -/
def StreamCode.alphaTree (p : Params) (d : StreamCode) : Bool :=
  match p.alphaTreePolicy with
  | .always => true
  | .ifAlphaFlag => d.alpha

/-- The bits of the entropy image's part (R324). -/
def entropyBits (order : List Nat) : Option (Nat × SubImage) → List Nat
  | none => [0]
  | some (b, m) => [1] ++ lsbBits b 3 ++ m.bits order

/-- The bits of a stream (R310, R312). -/
def StreamCode.bits (p : Params) (d : StreamCode) : List Nat :=
  let cs := cacheSize (fieldBits d.cache)
  let at_ := d.alphaTree p
  lsbBits 0x2F 8 ++ lsbBits (d.w - 1) 14 ++ lsbBits (d.h - 1) 14 ++ [d.alpha.toNat] ++ lsbBits 0 3 ++
    d.transforms.flatMap (TransformCode.bits p.clCodeOrder) ++ [0] ++ cacheField d.cache ++
    entropyBits p.clCodeOrder d.entropy ++ d.main.bits p.clCodeOrder cs at_ ++
    d.others.flatMap (GroupCode.bits p.clCodeOrder cs at_) ++ d.tokens.flatMap (PixelToken.bits d.main cs at_)

/-- The words of the entropy image, none without one. -/
def entropyWords : Option (Nat × SubImage) → List Word
  | none => []
  | some (_, m) => m.words

/-- The stream can be read: the size fits, the types of the list differ, every sub-image and tree can be read, there are as
many groups after the first as the largest group index of the entropy image, and the tokens fill the image (R314, R322,
R325, R327, R330). -/
def StreamCode.Ok (p : Params) (d : StreamCode) : Prop :=
  let cs := cacheSize (fieldBits d.cache)
  let at_ := d.alphaTree p
  1 ≤ d.w ∧ d.w ≤ 16384 ∧ 1 ≤ d.h ∧ d.h ≤ 16384 ∧ d.w * d.h ≤ p.pixCapacity ∧
  (∀ t ∈ d.transforms, t.Ok p d.w d.h) ∧ (d.transforms.map TransformCode.ty).Nodup ∧ fieldBits d.cache ≤ 11 ∧
  (∀ e, d.entropy = some e → e.1 < 8 ∧ e.2.Ok p (gridCount d.w d.h e.1)) ∧
  d.others.length = ((entropyWords d.entropy).map fun e => e.toNat / 2 ^ 8 % 2 ^ 16).foldl max 0 ∧
  d.main.Ok p.clCodeOrder cs at_ ∧ (∀ g ∈ d.others, g.Ok p.clCodeOrder cs at_) ∧
  TokensOk d.main cs at_ p.lzMaxDistance (d.w * d.h) 0 d.tokens

/-- The slot holds the table of a code (42_huffman.md R167, R168, R169). -/
def State.SlotHolds (s : State) (t : Fin 7) (L : List Byte) : Prop :=
  s.tabInfo[t] = builtInfo L ∧ ∃ tab, s.tab[t] = builtTable L tab

/-- A space holds the words of a list from index 0 on. -/
def State.SpaceHolds (s : State) (sp : Space) (vs : List Word) : Prop := ∀ i (h : i < vs.length), s.elem sp i = vs[i]

/-- What the stream `d` leaves in the registers and memories once its last token is read, before the inverse transforms:
the header's fields, the cursor at the end of the stream, the list and its payloads, the entropy image and the number of
groups, the tables of the main group, the color cache and the pixels. -/
structure State.Holds (s : State) (d : StreamCode) : Prop where
  imgW       : s.imgW.toNat = d.w
  imgH       : s.imgH.toNat = d.h
  imgAlpha   : s.imgAlpha = d.alpha
  imgVersion : s.imgVersion = 0
  brStart    : s.brStart = 0
  pos        : s.pos = (d.bits s.params).length
  xfCount    : s.xfCount.toNat = d.transforms.length
  xfDesc     : ∀ k (h : k < d.transforms.length), s.xfDesc[descOf k] = d.transforms[k].desc
  payload    : ∀ k (h : k < d.transforms.length), s.SpaceHolds (.sub (descOf k)) d.transforms[k].payload
  entPresent : s.entPresent = d.entropy.isSome
  entBits    : s.entBits.toNat = d.entropy.elim 0 fun e => e.1 + 2
  ent        : s.SpaceHolds .ent (entropyWords d.entropy)
  nGroups    : s.nGroups.toNat = 1 + d.others.length
  tables     : ∀ x ∈ d.main.trees (cacheSize (fieldBits d.cache)) (d.alphaTree s.params), s.SlotHolds x.1 (x.2.1.lengths x.2.2)
  noAlpha    : d.alphaTree s.params = false → s.tabInfo[(3 : Fin 7)].valid = false
  ccBits     : s.ccBits.toNat = fieldBits d.cache
  cache      : ∀ j, s.cache.read .cache j = (drawTokens (fieldBits d.cache) d.tokens).cache j
  pix        : s.SpaceHolds .pix (drawTokens (fieldBits d.cache) d.tokens).px

/-- The errors a DECODE may end in with STAGE = `st` (48_orchestrator.md R345). -/
def decodeErrors (st : Stage) : List ErrKind :=
  let trees : List ErrKind := [.readPastEnd, .oversizedMetaAlphabet, .emptyAlphabet, .overSubscribed, .underSubscribed,
    .repeatOverflow]
  let stream : List ErrKind := [.readPastEnd, .lzDistanceRange, .lzHistory, .lzBounds]
  let subImage : List ErrKind := [.capacityExceeded, .invalidCacheBits] ++ trees ++ stream
  match st with
  | .none => []
  | .header => [.argumentRange, .truncatedHeader, .badSignature, .unsupportedVersion, .capacityExceeded]
  | .transformList => [.readPastEnd, .transformRepeated] ++ subImage
  | .colorCacheSize => [.readPastEnd, .invalidCacheBits]
  | .entropyImage => [.readPastEnd] ++ subImage
  | .huffmanGroups => trees
  | .pixelStream => stream
  | .inverseTransforms => [.invalidPredictorMode, .paletteIndexRange]
  | .pixelFormatConvert => []
  | .done => []

end Sys2Proof.Machine
end

