-- ==== Sys2Proof/Certificates/Slice0/Obligations.lean ====
section
/-! DEFINITION. The statements about the machine: words and steps, reset and the ports, what every command keeps, and each command's result, frame and errors. -/

open Sys2Proof Sys2Proof.Machine

/-! ## Words and steps -/

/-- Where the host's oldest outstanding write is a command word that decodes, a step is that command's meaning on the state
with the write taken and BUSY set, DONE cleared; a table word placed by `withFetchWord` runs in the same way. The list of
outstanding writes is the model's form of the host (log 1). -/
def Obligations.StepRunsDecodedCommand : Prop :=
  (∀ (s : State) (w : Word) (rest : List HostOp) (i : Instr),
    s.hostOps = .writeReg 0x00 w :: rest → s.busy = false → (s.err = false ∨ i = .softReset) → decodeWord w = .ok i →
    step s = exec i { s with hostOps := rest, busy := true, done := false }) ∧
  (∀ (s : State) (nbits w : Nat) (i : Instr),
    s.busy = false → (s.err = false ∨ i = .softReset) → decodeTableWord nbits w = some i →
    step (s.withFetchWord nbits w) = exec i { s with busy := true, done := false })

/-- R35: a write to CMD is ignored while BUSY = 1, ignored while ERR = 1 but for the SOFT_RESET word, and otherwise
accepted: BUSY 1, DONE 0, the word decoded and executed. CMD reads 0. -/
def Obligations.CommandAcceptance : Prop :=
  ∀ (s : State) (w : Word),
    s.regWord 0x00 = 0 ∧
    (s.busy = true → hostStep (.writeReg 0x00 w) s = .next s) ∧
    (s.busy = false → s.err = true → w ≠ 0x00000002#32 → hostStep (.writeReg 0x00 w) s = .next s) ∧
    (s.busy = false → (s.err = false ∨ w = 0x00000002#32) →
      (∀ i, decodeWord w = .ok i → hostStep (.writeReg 0x00 w) s = exec i { s with busy := true, done := false }) ∧
      (∀ e, decodeWord w = .error e → ∃ t, hostStep (.writeReg 0x00 w) s = .next t ∧
        t.err = true ∧ t.errCode = ErrKind.illegalCommand.code ∧ t.errInfo = w))

/-- R113, R368: the decoder refuses exactly the words the three cases of R113 name, 0 among them, and an accepted illegal
word raises ILLEGAL_COMMAND with the word and changes nothing but the error entry (STAGE too: log 6). -/
def Obligations.IllegalWords : Prop :=
  (∀ w : Word, IllegalWord w ↔ ∃ e, decodeWord w = .error e) ∧ IllegalWord 0 ∧
  ∀ (s : State) (w : Word), s.busy = false → s.err = false → IllegalWord w →
    hostStep (.writeReg 0x00 w) s = .next { s with done := false, err := true, errCode := 0x60, errInfo := w }

/-- Every well-formed command's word decodes to that command, at every IMM8. -/
def Obligations.DecodeEncode : Prop := ∀ i : Instr, i.WellFormed → decodeWord (encode i) = .ok i

/-- A word that decodes is the one word of its command: the command is well formed and encodes to that word. -/
def Obligations.EncodeDecode : Prop :=
  ∀ (w : Word) (i : Instr), decodeWord w = .ok i → i.WellFormed ∧ encode i = w

/-- Words written out from R110, R115 and R117 decode to the commands they stand for, one of each family. -/
def Obligations.DecodedWords : Prop :=
  decodeWord 0x00000001#32 = .ok .nop ∧ decodeWord 0x00000002#32 = .ok .softReset ∧
  decodeWord 0x00000311#32 = .ok (.brRead 3) ∧ decodeWord 0x00000621#32 = .ok (.hufDecode 6) ∧
  decodeWord 0x00000022#32 = .ok .clRead ∧ decodeWord 0x00000033#32 = .ok .ccGet ∧
  decodeWord 0x00002740#32 = .ok (.lzPrefix 39) ∧ decodeWord 0x00000D50#32 = .ok (.pred 13) ∧
  decodeWord 0x00000363#32 = .ok (.xfPalApply 3) ∧ decodeWord 0x00000071#32 = .ok .decode

/-! ## Reset and the host's ports -/

/-- R400: after a hardware reset, and in the model's reset state, every register reads 0, the interrupt output is low, the
block is idle, CACHE and CLM are 0, and no element of any other memory has a fixed value. -/
def Obligations.HardwareReset : Prop :=
  State.reset.IsReset ∧ ∀ s : State, ∃ t, hostStep .hardReset s = .next t ∧ t.IsReset

/-- R34: each register's writable fields read back what was written, reserved bits read 0 and ignore writes, read-only
registers ignore writes, no write touches another register or a memory, CMD reads 0, and every register is 0 at reset. -/
def Obligations.RegisterPort : Prop :=
  ∀ (s : State) (offset : Nat) (v : Word), Mapped offset →
    s.regWord offset &&& ~~~ regMask offset = 0 ∧ s.regWord 0x00 = 0 ∧ State.reset.regWord offset = 0 ∧
    (s.busy = false → offset ≠ 0x00 → hostStep (.writeReg offset v) s = .next (s.writeReg offset v)) ∧
    (offset ∈ writableOffsets → (s.writeReg offset v).regWord offset = v &&& regMask offset) ∧
    (offset ∉ writableOffsets → s.writeReg offset v = s) ∧
    (∀ other, Mapped other → other ≠ offset → (s.writeReg offset v).regWord other = s.regWord other) ∧
    (∀ sp i, (s.writeReg offset v).elem sp i = s.elem sp i)

/-- The memory port: a host write of an element of IN, PIX, SUB_k or CLMEM inside the space's count reads back, narrowed to
the element; every other element and every register stays; outside the count reads give 0 and writes do nothing (R82); the
other spaces ignore writes (log 10), and an offset the register map does not have reads 0 and ignores writes (log 11). -/
def Obligations.MemoryPort : Prop :=
  ∀ (s : State) (sp : Space) (i : Nat) (v : Word), s.busy = false → s.MemWf →
    hostStep (.writeElem sp i v) s = .next (s.hostWriteElem sp i v) ∧
    (sp ∈ [.inp, .clmem] → i < s.spaceCount sp → (s.hostWriteElem sp i v).hostReadElem sp i = v &&& 0xFF#32) ∧
    (sp ∈ [.pix, .sub 0, .sub 1, .sub 2, .sub 3] → i < s.spaceCount sp →
      (s.hostWriteElem sp i v).hostReadElem sp i = v) ∧
    (∀ sp' j, ¬ (sp' = sp ∧ j = i) → (s.hostWriteElem sp i v).hostReadElem sp' j = s.hostReadElem sp' j) ∧
    (∀ offset, (s.hostWriteElem sp i v).regWord offset = s.regWord offset) ∧
    (s.spaceCount sp ≤ i → s.hostReadElem sp i = 0 ∧ s.hostWriteElem sp i v = s) ∧
    (sp ∉ [.inp, .clmem, .pix, .sub 0, .sub 1, .sub 2, .sub 3] → s.hostWriteElem sp i v = s) ∧
    (∀ offset, ¬ Mapped offset → s.regWord offset = 0 ∧ s.writeReg offset v = s)

/-- R86: byte index 4j + n of a byte space is bits [8n+7 : 8n] of the host's word j, for reads and for writes. Of a word that
straddles the end of its space the bytes inside the count are read and written and the others read 0 and ignore writes: log 18
(DEDUCED), the model's choice. -/
def Obligations.WidePort : Prop :=
  ∀ (s : State) (j : Nat) (v : Word), s.busy = false → s.MemWf →
    (∀ sp ∈ [Space.inp, .out, .clmem], ∀ n < 4,
      (s.hostReadWide sp j >>> (8 * n)) &&& 0xFF#32 = s.hostReadElem sp (4 * j + n)) ∧
    (∀ sp ∈ [Space.inp, .clmem],
      hostStep (.writeWide sp j v) s = .next (s.hostWriteWide sp j v) ∧
      (∀ n < 4, 4 * j + n < s.spaceCount sp →
        (s.hostWriteWide sp j v).hostReadElem sp (4 * j + n) = (v >>> (8 * n)) &&& 0xFF#32) ∧
      (∀ sp' i, ¬ (sp' = sp ∧ 4 * j ≤ i ∧ i < 4 * j + 4) →
        (s.hostWriteWide sp j v).hostReadElem sp' i = s.hostReadElem sp' i))

/-- While BUSY = 1 every host write is ignored and STATUS reads as it is with BUSY set; an idle block with no host write
outstanding keeps all its state (R390). -/
def Obligations.BusyAndIdle : Prop :=
  (∀ (op : HostOp) (s : State), s.busy = true → op ≠ .hardReset →
    hostStep op s = .next s ∧ s.hostReadReg 0x04 = s.regWord 0x04 ∧ (s.hostReadReg 0x04).getLsbD 0 = true) ∧
  (∀ s : State, s.busy = false → s.hostOps = [] → step s = .next s)

/-- R375: IRQ is IRQ_EN and (DONE or ERR), read off the registers; every command ends with it equal to IRQ_EN, acceptance
clears DONE and so leaves only an error pending, and SOFT_RESET and a hardware reset clear ERR. -/
def Obligations.Interrupt : Prop :=
  (∀ s : State, s.irq =
    ((s.regWord 0x10).getLsbD 0 && ((s.regWord 0x04).getLsbD 1 || (s.regWord 0x04).getLsbD 2))) ∧
  (∀ (i : Instr) (s t : State), exec i s = .next t → t.irq = s.irqEn) ∧
  (∀ s : State, s.accept.irq = (s.irqEn && s.err)) ∧
  (∀ s t : State, exec .softReset s = .next t → t.err = false) ∧
  (∀ s t : State, hostStep .hardReset s = .next t → t.err = false ∧ t.irq = false)

/-- R381: while ERR = 1, whatever the host writes but the SOFT_RESET word (or a hardware reset), ERR, ERR_CODE and ERR_INFO
keep the first error; a write to CMD changes nothing at all, every other write has its effect, and every read gives the
register or the element. -/
def Obligations.ErrorStaysFirst : Prop :=
  ∀ s : State, s.err = true → s.busy = false →
    (∀ offset, s.hostReadReg offset = s.regWord offset) ∧
    (∀ sp i, i < s.spaceCount sp → s.hostReadElem sp i = s.elem sp i) ∧
    ∀ op, op ≠ .writeReg 0x00 0x00000002#32 → op ≠ .hardReset → ∃ t,
      hostStep op s = .next t ∧ t.err = true ∧ t.errCode = s.errCode ∧ t.errInfo = s.errInfo ∧
      (∀ w, op = .writeReg 0x00 w → t = s) ∧
      (∀ offset v, offset ≠ 0x00 → op = .writeReg offset v → t = s.writeReg offset v) ∧
      (∀ sp i v, op = .writeElem sp i v → t = s.hostWriteElem sp i v) ∧
      (∀ sp j v, op = .writeWide sp j v → t = s.hostWriteWide sp j v)

/-! ## What every step keeps -/

/-- The reset state satisfies every invariant stated below. -/
def Obligations.ResetMeetsInvariants : Prop :=
  State.reset.MemWf ∧ State.reset.FlagsAgree ∧ State.reset.RegsLegal ∧ State.reset.InBounds ∧
  State.reset.NoImpossibleError

/-- Every step keeps every memory in its canonical form. -/
def Obligations.StepKeepsMemWf : Prop := ∀ s t : State, s.MemWf → step s = .next t → t.MemWf

/-- Every step keeps the flags and the error registers in agreement: BUSY 0 between steps, ERR and DONE never both 1,
ERR_CODE and ERR_INFO 0 while ERR = 0, ERR_CODE a code of R360 while ERR = 1. -/
def Obligations.StepKeepsFlagsAgree : Prop := ∀ s t : State, s.FlagsAgree → step s = .next t → t.FlagsAgree

/-- Every step keeps CC_BITS in 0..11 and the cursor at or after the reader's start (R44, R140). -/
def Obligations.StepKeepsRegsLegal : Prop := ∀ s t : State, s.RegsLegal → step s = .next t → t.RegsLegal

/-- No step writes an element outside its space's count (R82). -/
def Obligations.StepKeepsInBounds : Prop := ∀ s t : State, s.InBounds → step s = .next t → t.InBounds

/-- With the memories in their canonical form, every valid slot keeps a table that decodes every bit string, and the four
errors R363 calls unreachable are never recorded. -/
def Obligations.StepKeepsNoImpossibleError : Prop :=
  ∀ s t : State, s.MemWf → s.NoImpossibleError → step s = .next t → t.NoImpossibleError

/-- R411: every step between commands answers a next state: the machine never stops by itself. -/
def Obligations.StepNeverStops : Prop := ∀ s : State, s.busy = false → ∃ t, step s = .next t

/-- R36: every command, from every state, ends in one of two ways: DONE with the error registers as they were (cleared by
SOFT_RESET), or ERR with a code of R360 and DONE 0. BUSY is 0 in both, and ERR_CODE and ERR_INFO stay 0 while ERR = 0. -/
def Obligations.CommandOutcome : Prop :=
  ∀ (i : Instr) (s : State), ∃ t, exec i s = .next t ∧ t.busy = false ∧
    ((s.err = false → s.errCode = 0 ∧ s.errInfo = 0) → t.err = false → t.errCode = 0 ∧ t.errInfo = 0) ∧
    ((t.done = true ∧
        (i ≠ .softReset → t.err = s.err ∧ t.errCode = s.errCode ∧ t.errInfo = s.errInfo) ∧
        (i = .softReset → t.err = false ∧ t.errCode = 0 ∧ t.errInfo = 0)) ∨
      (t.done = false ∧ t.err = true ∧ ∃ k : ErrKind, t.errCode = k.code))

/-- Each command changes only the parts of the state its rule names, whether it completes or ends in error; no command but
SOFT_RESET writes A0 to A3, none writes IN, IN_LEN or CTRL, and a command that ends in error leaves RES0. -/
def Obligations.CommandFrame : Prop :=
  ∀ (i : Instr) (s t : State), exec i s = .next t →
    (∀ r, r ∉ writtenRegions i → s.agree t r) ∧ (t.done = false → t.res0 = s.res0)

/-- STAGE after a command: 0 after every command but DECODE and HDR_PARSE, 1 after HDR_PARSE, 9 after a DECODE that
completed, and after one that failed the state it failed in, 1 to 7. -/
def Obligations.StageAfterCommand : Prop :=
  ∀ (i : Instr) (s t : State), exec i s = .next t →
    (i ≠ .decode → i ≠ .hdrParse → t.stage.code = 0) ∧ (i = .hdrParse → t.stage.code = 1) ∧
    (i = .decode → t.done = true → t.stage.code = 9) ∧
    (i = .decode → t.done = false → 1 ≤ t.stage.code.toNat ∧ t.stage.code.toNat ≤ 7)

/-! ## NOP and SOFT_RESET -/

/-- R402: NOP, the word 0x00000001, only completes: STAGE 0, BUSY 0, DONE 1, everything else as it was; while ERR = 1 it is
ignored. -/
def Obligations.NopCompletes : Prop :=
  ∀ s : State, exec .nop s = .next { s with stage := .none, busy := false, done := true } ∧
    decodeWord 0x00000001#32 = .ok .nop ∧
    (s.busy = false → s.err = true → hostStep (.writeReg 0x00 0x00000001#32) s = .next s)

/-- R401: SOFT_RESET, the word 0x00000002, is accepted with ERR = 1 too and ignored while BUSY = 1; it completes with every
register but STATUS, IN_LEN and CTRL at its reset value and STATUS = DONE, CACHE and CLM cleared, and IN_LEN, CTRL and the
memories IN, OUT, PIX, SUB_k, ENT, CLMEM and TAB_s as they were. That A0 to A3 are among the registers cleared is the model's
choice between R401 and R32: log 22 (DEDUCED). -/
def Obligations.SoftResetCompletes : Prop :=
  ∀ s : State, (s.busy = true → hostStep (.writeReg 0x00 0x00000002#32) s = .next s) ∧
    (s.busy = false → hostStep (.writeReg 0x00 0x00000002#32) s =
      exec .softReset { s with busy := true, done := false }) ∧
    ∃ t, exec .softReset s = .next t ∧ t.regWord 0x04 = 0x00000002#32 ∧
    (∀ offset, offset ≠ 0x04 → offset ≠ 0x10 → offset ≠ 0x28 → t.regWord offset = State.reset.regWord offset) ∧
    t.irqEn = s.irqEn ∧ t.inLen = s.inLen ∧ (∀ i, t.cache.read .cache i = 0) ∧ (∀ m : Fin 19, t.clm[m] = 0) ∧
    t.inp = s.inp ∧ t.out = s.out ∧ t.pix = s.pix ∧ t.sub = s.sub ∧ t.ent = s.ent ∧ t.clmem = s.clmem ∧ t.tab = s.tab

/-! ## Bit reader -/

/-- R145: BR_INIT sets the start and the cursor to byte A0, up to and including IN_LEN, and its two checks stop it in
their order. -/
def Obligations.BrInit : Prop :=
  ∀ s : State,
    (s.InputOk → s.a0.toNat ≤ s.inLen.toNat →
      exec .brInit s = .next ({ s with brStart := s.a0, brBytePos := s.a0, brBitPos := 0 } : State).completed) ∧
    (¬ s.InputOk → exec .brInit s = .next (s.failed .argumentRange s.inLen.toNat)) ∧
    (s.InputOk → s.inLen.toNat < s.a0.toNat → exec .brInit s = .next (s.failed .argumentRange s.a0.toNat))

/-- R141, R142, R143, R146: BR_READ n answers the next n bits, the first the least significant, and moves the cursor n bits
on, changing nothing else; its three checks stop it in their order with the cursor and RES0 as they were. -/
def Obligations.BrRead : Prop :=
  ∀ (s : State) (n : Nat),
    (s.InputOk → 1 ≤ n → n ≤ 16 → s.pos + n ≤ s.endPos →
      exec (.brRead n) s =
        .next ({ s.moveTo (s.pos + n) with res0 := trunc32 (s.field s.pos n) } : State).completed ∧
      s.field s.pos n < 2 ^ n ∧ (s.moveTo (s.pos + n)).pos = s.pos + n) ∧
    (¬ s.InputOk → exec (.brRead n) s = .next (s.failed .argumentRange s.inLen.toNat)) ∧
    (s.InputOk → (n = 0 ∨ 16 < n) → exec (.brRead n) s = .next (s.failed .invalidBitCount n)) ∧
    (s.InputOk → 1 ≤ n → n ≤ 16 → s.endPos < s.pos + n → exec (.brRead n) s = .next (s.failed .readPastEnd n))

/-- R149: reading a bits and then b bits gives x and y with x | (y << a) what reading a + b bits at once gives, and leaves
the same cursor; on a one-byte input split at n the two give the byte back. -/
def Obligations.BrReadSplit : Prop :=
  ∀ (s : State) (a b : Nat), s.InputOk → 1 ≤ a → 1 ≤ b → a + b ≤ 16 → s.pos + (a + b) ≤ s.endPos →
    ∃ t u v, exec (.brRead a) s = .next t ∧ exec (.brRead b) t = .next u ∧ exec (.brRead (a + b)) s = .next v ∧
      t.res0 ||| (u.res0 <<< a) = v.res0 ∧ u.pos = v.pos ∧
      (s.inLen = 1 → s.pos = 0 → a + b = 8 → t.res0 ||| (u.res0 <<< a) = trunc32 (s.inByte 0))

/-- R147, R148: BR_HASDATA answers 1 while the cursor's byte is inside the input and else 0, which is 0 exactly at END for
a cursor not past it; BR_TELL answers the bits consumed since the reader's start, modulo 2^32, which is exact for a cursor
not before the start and less than 2^32 bits past it. Each writes RES0 alone. -/
def Obligations.BrHasdataAndTell : Prop :=
  ∀ s : State, ∃ d r : Word,
    exec .brHasdata s = .next ({ s with res0 := d } : State).completed ∧
    d = (if s.brBytePos.toNat < s.inLen.toNat then 1 else 0) ∧ (s.pos ≤ s.endPos → (d = 0 ↔ s.pos = s.endPos)) ∧
    exec .brTell s = .next ({ s with res0 := r } : State).completed ∧
    r = BitVec.ofInt 32 (((s.brBytePos.toNat : Int) - s.brStart.toNat) * 8 + s.brBitPos.toNat) ∧
    (s.brStart.toNat * 8 ≤ s.pos → s.pos - s.brStart.toNat * 8 < 2 ^ 32 → r.toNat = s.pos - s.brStart.toNat * 8)

/-! ## Huffman decoder -/

/-- R166: the code the machine gives a used symbol, its length's first code plus its rank among the symbols of that length,
is the code the two loops of the rule assign. -/
def Obligations.CanonicalCodesFollowTheLoop : Prop :=
  ∀ L : List Byte, (∀ b ∈ L, b.toNat ≤ 15) → ∀ i < L.length, lengthAt L i ≠ 0 →
    canonicalCode L i = (loopCodes L).getD i 0

/-- R160, R161: HUF_BUILD's operand checks and then Build's checks, in their order, each with its offending value; a build
error leaves the slot's VALID at 0 and everything outside the slot as it was. -/
def Obligations.HufBuildErrors : Prop :=
  ∀ (s : State) (slot : Nat),
    (6 < slot → exec (.hufBuild slot) s = .next (s.failed .argumentRange slot)) ∧
    (slot ≤ 6 → 2328 < s.a0.toNat → exec (.hufBuild slot) s = .next (s.failed .argumentRange s.a0.toNat)) ∧
    (slot ≤ 6 → s.a0.toNat ≤ 2328 →
      let L := s.codeLengths s.a0.toNat
      let fails (e : ErrKind) (info : Nat) : Prop := ∃ t, exec (.hufBuild slot) s = .next t ∧
        t = ({ s with
                tab := t.tab, nextDraw := t.nextDraw
                tabInfo := (s.tabInfo.set (slotOf slot) { s.tabInfo[slotOf slot] with valid := false }) } :
              State).failed e info ∧
        ∀ u : Fin 7, u ≠ slotOf slot → t.tab[u] = s.tab[u]
      (s.a0 = 0 → fails .emptyAlphabet 0) ∧
      (∀ i < L.length, 15 < lengthAt L i → (∀ j < i, lengthAt L j ≤ 15) →
        fails .codeLengthTooLong ((i <<< 8) ||| lengthAt L i)) ∧
      ((∀ b ∈ L, b.toNat ≤ 15) → s.a0 ≠ 0 → (∀ b ∈ L, b = 0) → fails .emptyAlphabet s.a0.toNat) ∧
      ((∀ b ∈ L, b.toNat ≤ 15) → 2 ^ 15 < kraftSum L → fails .overSubscribed (kraftSum L)) ∧
      ((∀ b ∈ L, b.toNat ≤ 15) → (∃ b ∈ L, b ≠ 0) → kraftSum L < 2 ^ 15 → ¬ (usedCount L = 1 ∧ ∃ b ∈ L, b = 1) →
        fails .underSubscribed (kraftSum L)))

/-- R167, R169, R170: a complete code is built: the slot becomes valid with MAXLEN, NSYM and SINGLE 0; entry j is
{1, L[i], i} for the one used symbol i whose reversed code is j's low L[i] bits; the other slots and everything else are as
they were. That the entries from 2^MAXLEN on stay is the model's choice: log 9 (DEDUCED). -/
def Obligations.HufBuildComplete : Prop :=
  ∀ (s : State) (slot : Nat), slot ≤ 6 → s.a0.toNat ≤ 2328 →
    let L := s.codeLengths s.a0.toNat
    (∀ b ∈ L, b.toNat ≤ 15) → kraftSum L = 2 ^ 15 →
    ∃ (t : State) (m : Nat), exec (.hufBuild slot) s = .next t ∧
      (∀ i < L.length, lengthAt L i ≤ m) ∧ (∃ i < L.length, lengthAt L i = m) ∧
      t = ({ s with
              tab := s.tab.set (slotOf slot) t.tab[slotOf slot]
              tabInfo := s.tabInfo.set (slotOf slot) ⟨BitVec.ofNat 4 m, BitVec.ofNat 12 (usedCount L), false, true⟩ } :
            State).completed ∧
      (∀ j < 2 ^ m, ∃ i < L.length, lengthAt L i ≠ 0 ∧ j % 2 ^ lengthAt L i = bitrev (canonicalCode L i) (lengthAt L i) ∧
        t.tab[slotOf slot].read (.tab (slotOf slot)) j = mkEntry (lengthAt L i) i ∧
        ∀ i' < L.length, lengthAt L i' ≠ 0 → j % 2 ^ lengthAt L i' = bitrev (canonicalCode L i') (lengthAt L i') → i' = i) ∧
      (∀ j, 2 ^ m ≤ j →
        t.tab[slotOf slot].read (.tab (slotOf slot)) j = s.tab[slotOf slot].read (.tab (slotOf slot)) j)

/-- R168: the single symbol of length 1 is built as a one-bit table with both entries that symbol, SINGLE 1, and decodes
from either bit value, consuming one bit. That the entries from index 2 on stay is the model's choice: log 9 (DEDUCED). -/
def Obligations.HufSingleSymbol : Prop :=
  ∀ (s : State) (slot i : Nat), slot ≤ 6 → s.a0.toNat ≤ 2328 → i < s.a0.toNat →
    (∀ j < s.a0.toNat, s.clmem.read .clmem j = if j = i then 1 else 0) →
    ∃ t, exec (.hufBuild slot) s = .next t ∧
      t = ({ s with
              tab := s.tab.set (slotOf slot) t.tab[slotOf slot]
              tabInfo := s.tabInfo.set (slotOf slot) ⟨1, 1, true, true⟩ } : State).completed ∧
      (∀ j, t.tab[slotOf slot].read (.tab (slotOf slot)) j =
        if j < 2 then mkEntry 1 i else s.tab[slotOf slot].read (.tab (slotOf slot)) j) ∧
      (t.InputOk → t.pos + 1 ≤ t.endPos →
        exec (.hufDecode slot) t = .next ({ t.moveTo (t.pos + 1) with res0 := trunc32 i } : State).completed)

/-- R171, R172: HUF_DECODE's operand checks in their order; then the first prefix whose entry was filled for exactly its
length gives the symbol and consumes that many bits; MAXLEN bits without a match raise INVALID_CODE with the pattern; input
that ends first raises READ_PAST_END(1) with the bits before it consumed (R173). -/
def Obligations.HufDecode : Prop :=
  ∀ (s : State) (slot : Nat),
    (6 < slot → exec (.hufDecode slot) s = .next (s.failed .argumentRange slot)) ∧
    (slot ≤ 6 → s.tabInfo[slotOf slot].valid = false →
      exec (.hufDecode slot) s = .next (s.failed .tableNotBuilt slot)) ∧
    (slot ≤ 6 → s.tabInfo[slotOf slot].valid = true → ¬ s.InputOk →
      exec (.hufDecode slot) s = .next (s.failed .argumentRange s.inLen.toNat)) ∧
    (slot ≤ 6 → s.tabInfo[slotOf slot].valid = true → s.InputOk →
      let maxLen := s.tabInfo[slotOf slot].maxLen.toNat
      let entry (k : Nat) : BitVec 17 := s.tab[slotOf slot].read (.tab (slotOf slot)) (s.field s.pos k)
      let hit (k : Nat) : Prop := entryFilled (entry k) = true ∧ entryLen (entry k) = k
      (∀ k, 1 ≤ k → k ≤ maxLen → s.pos + k ≤ s.endPos → hit k → (∀ k', 1 ≤ k' → k' < k → ¬ hit k') →
        exec (.hufDecode slot) s =
          .next ({ s.moveTo (s.pos + k) with res0 := trunc32 (entrySym (entry k)) } : State).completed) ∧
      (maxLen ≤ s.endPos - s.pos → (∀ k, 1 ≤ k → k ≤ maxLen → ¬ hit k) →
        exec (.hufDecode slot) s =
          .next ((s.moveTo (s.pos + maxLen)).failed .invalidCode (s.field s.pos maxLen ||| (maxLen <<< 16)))) ∧
      (s.endPos - s.pos < maxLen → (∀ k, 1 ≤ k → k ≤ s.endPos - s.pos → ¬ hit k) →
        exec (.hufDecode slot) s = .next ((s.moveTo (s.pos + (s.endPos - s.pos))).failed .readPastEnd 1)))

/-- R175: every code-length array with K = 2^15 builds, and then, in any state that holds the built slot, feeding the bits
of a used symbol's code, most significant first, decodes that symbol and consumes its length; K above 2^15 fails with
OVER_SUBSCRIBED, and K below it outside the single-symbol case with UNDER_SUBSCRIBED (some symbol used: R161). -/
def Obligations.HufRoundTrip : Prop :=
  ∀ (s : State) (slot : Nat), slot ≤ 6 → s.a0.toNat ≤ 2328 →
    let L := s.codeLengths s.a0.toNat
    (∀ b ∈ L, b.toNat ≤ 15) →
    (kraftSum L = 2 ^ 15 → ∃ t, exec (.hufBuild slot) s = .next t ∧ t.done = true ∧
      ∀ (u : State) (i : Nat), u.tab[slotOf slot] = t.tab[slotOf slot] → u.tabInfo[slotOf slot] = t.tabInfo[slotOf slot] →
        i < L.length → lengthAt L i ≠ 0 → u.InputOk → u.HasBits u.pos (codeBits L i) →
        u.pos + lengthAt L i ≤ u.endPos →
        exec (.hufDecode slot) u =
          .next ({ u.moveTo (u.pos + lengthAt L i) with res0 := trunc32 i } : State).completed) ∧
    (2 ^ 15 < kraftSum L → ∃ t, exec (.hufBuild slot) s = .next t ∧ t.errCode = ErrKind.overSubscribed.code) ∧
    (kraftSum L < 2 ^ 15 → (∃ b ∈ L, b ≠ 0) → isSingle L = false →
      ∃ t, exec (.hufBuild slot) s = .next t ∧ t.errCode = ErrKind.underSubscribed.code)

/-! ## Code lengths -/

/-- R191, R192: CL_READ in the literal form: flag 0, cnt = 4 + a 4-bit value, cnt literal lengths of 3 bits for the symbols
0..cnt−1 and 0 for the rest up to A0; CLMEM from A0 on, slot 5, CLM and all else as they were. -/
def Obligations.ClReadLiteral : Prop :=
  ∀ (s : State) (cnt : Nat), s.clmem.wf → s.InputOk → 1 ≤ s.a0.toNat → s.a0.toNat ≤ 2328 →
    s.field s.pos 1 = 0 → cnt = 4 + s.field (s.pos + 1) 4 → cnt ≤ s.a0.toNat → s.pos + 5 + 3 * cnt ≤ s.endPos →
    ∃ t, exec .clRead s = .next t ∧
      t = ({ s.moveTo (s.pos + 5 + 3 * cnt) with clmem := t.clmem } : State).completed ∧
      ∀ j, t.clmem.read .clmem j =
        if j < cnt then BitVec.ofNat 8 (s.field (s.pos + 5 + 3 * j) 3)
        else if j < s.a0.toNat then 0 else s.clmem.read .clmem j

/-- R193 to R198: CL_READ in the coded form: for every meta code that builds and every run of tokens (literals 0 to 15, and
the repeats 16, 17 and 18 with their extra bits) whose lengths fill the array, the stream of their bits leaves exactly
those lengths in CLMEM, the meta lengths in CLM and the meta code in slot 5: TAB_INFO_5, and TAB_5 filled as a build of the
meta lengths fills it (R167, R168). That the entries of TAB_5 past the meta code's table stay is the model's choice: log 9
(DEDUCED). -/
def Obligations.ClReadCoded : Prop :=
  ∀ (s : State) (ms : List Nat) (ts : List LenToken), s.clmem.wf → s.params.Admissible → s.InputOk →
    1 ≤ s.a0.toNat → s.a0.toNat ≤ 2328 → MetaOk ms →
    let M := metaCode s.params.clCodeOrder ms
    let bits := metaBits ms ++ tokenBits M ts
    Buildable M → (∀ k ∈ ts, k.Legal ∧ lengthAt M k.symbol ≠ 0) → (expandTokens 8 ts).length = s.a0.toNat →
    s.HasBits s.pos bits → s.pos + bits.length ≤ s.endPos →
    ∃ t, exec .clRead s = .next t ∧
      t = ({ s.moveTo (s.pos + bits.length) with
              clmem := t.clmem, clm := t.clm, tab := s.tab.set 5 (builtTable M s.tab[(5 : Fin 7)])
              tabInfo := s.tabInfo.set 5
                ⟨BitVec.ofNat 4 (maxLength M), BitVec.ofNat 12 (usedCount M), isSingle M, true⟩ } : State).completed ∧
      t.clm.toList = M ∧
      ∀ j, t.clmem.read .clmem j =
        if h : j < (expandTokens 8 ts).length then BitVec.ofNat 8 (expandTokens 8 ts)[j] else s.clmem.read .clmem j

/-- R190 to R193: the checks of CL_READ, in their order: A0 outside 1..2328, IN_LEN, the two reads that can pass the end, and
in the literal form a count above A0; then READ_PAST_END(3) at literal length m, with the lengths below m in CLMEM, or at
meta length m, with the values below m in CLM and the other meta lengths 0, the cursor after the m fields read. That the
lengths written before the error stay is the model's choice: log 7 (DEDUCED). -/
def Obligations.ClReadErrors : Prop :=
  ∀ s : State,
    ((s.a0 = 0 ∨ 2328 < s.a0.toNat) → exec .clRead s = .next (s.failed .argumentRange s.a0.toNat)) ∧
    (1 ≤ s.a0.toNat → s.a0.toNat ≤ 2328 → ¬ s.InputOk → exec .clRead s = .next (s.failed .argumentRange s.inLen.toNat)) ∧
    (1 ≤ s.a0.toNat → s.a0.toNat ≤ 2328 → s.InputOk →
      (s.endPos < s.pos + 1 → exec .clRead s = .next (s.failed .readPastEnd 1)) ∧
      (s.pos + 1 ≤ s.endPos → s.endPos < s.pos + 5 →
        exec .clRead s = .next ((s.moveTo (s.pos + 1)).failed .readPastEnd 4)) ∧
      (s.pos + 5 ≤ s.endPos → s.field s.pos 1 = 0 → s.a0.toNat < 4 + s.field (s.pos + 1) 4 →
        exec .clRead s =
          .next ((s.moveTo (s.pos + 5)).failed .oversizedMetaAlphabet (4 + s.field (s.pos + 1) 4))) ∧
      (∀ m < 4 + s.field (s.pos + 1) 4, s.pos + 5 + 3 * m ≤ s.endPos → s.endPos < s.pos + 5 + 3 * m + 3 →
        (s.field s.pos 1 = 0 → 4 + s.field (s.pos + 1) 4 ≤ s.a0.toNat → s.clmem.wf → ∃ t, exec .clRead s = .next t ∧
          t = ({ s.moveTo (s.pos + 5 + 3 * m) with clmem := t.clmem } : State).failed .readPastEnd 3 ∧
          ∀ j, t.clmem.read .clmem j =
            if j < m then BitVec.ofNat 8 (s.field (s.pos + 5 + 3 * j) 3) else s.clmem.read .clmem j) ∧
        (s.field s.pos 1 = 1 → s.params.Admissible → ∃ t, exec .clRead s = .next t ∧
          t = ({ s.moveTo (s.pos + 5 + 3 * m) with clm := t.clm } : State).failed .readPastEnd 3 ∧
          t.clm.toList = metaCode s.params.clCodeOrder ((List.range m).map fun j => s.field (s.pos + 5 + 3 * j) 3))))

/-- R194, R197, R198, R202: in the coded form a meta code that does not build ends the command with that build error and
slot 5 invalid, CLMEM as it was; a run that would pass the array's end raises REPEAT_OVERFLOW with its end index and writes
nothing of that run, the lengths before it staying. Input that ends inside a token raises READ_PAST_END and writes nothing of
that token: inside its symbol's code with the value 1 and the cursor at the end, inside its extra bits with their number and
the cursor after the symbol; the lengths before the token, CLM and the meta code in slot 5 stay. What an error leaves in CLMEM
and past the meta code's table is exact by the model's choice: logs 7 and 9 (DEDUCED). -/
def Obligations.ClReadCodedErrors : Prop :=
  ∀ (s : State) (ms : List Nat), s.clmem.wf → s.params.Admissible → s.InputOk →
    1 ≤ s.a0.toNat → s.a0.toNat ≤ 2328 → MetaOk ms →
    let M := metaCode s.params.clCodeOrder ms
    (∀ e info, s.HasBits s.pos (metaBits ms) → s.pos + (metaBits ms).length ≤ s.endPos →
      ((usedCount M = 0 ∧ e = .emptyAlphabet ∧ info = 19) ∨
        (2 ^ 15 < kraftSum M ∧ e = .overSubscribed ∧ info = kraftSum M) ∨
        (0 < usedCount M ∧ kraftSum M < 2 ^ 15 ∧ isSingle M = false ∧ e = .underSubscribed ∧ info = kraftSum M)) →
      ∃ t, exec .clRead s = .next t ∧ t.errCode = ErrKind.code e ∧ t.errInfo = trunc32 info ∧ t.clmem = s.clmem ∧
        t.clm.toList = M ∧ t.tabInfo[(5 : Fin 7)].valid = false) ∧
    (∀ (ts : List LenToken) (k : LenToken), Buildable M → (∀ k' ∈ k :: ts, k'.Legal ∧ lengthAt M k'.symbol ≠ 0) →
      (expandTokens 8 ts).length < s.a0.toNat →
      s.a0.toNat < (expandTokens 8 ts).length + (k.lengths (prevAfter 8 ts)).length →
      s.HasBits s.pos (metaBits ms ++ tokenBits M (ts ++ [k])) →
      s.pos + (metaBits ms ++ tokenBits M (ts ++ [k])).length ≤ s.endPos →
      ∃ t, exec .clRead s = .next t ∧ t.errCode = ErrKind.repeatOverflow.code ∧
        t.errInfo = trunc32 ((expandTokens 8 ts).length + (k.lengths (prevAfter 8 ts)).length) ∧
        ∀ j, t.clmem.read .clmem j =
          if h : j < (expandTokens 8 ts).length then BitVec.ofNat 8 (expandTokens 8 ts)[j] else s.clmem.read .clmem j) ∧
    (∀ (ts : List LenToken) (k : LenToken) (q info : Nat), Buildable M →
      (∀ k' ∈ k :: ts, k'.Legal ∧ lengthAt M k'.symbol ≠ 0) → (expandTokens 8 ts).length < s.a0.toNat →
      let bits := metaBits ms ++ tokenBits M ts
      let p := s.pos + bits.length
      s.HasBits s.pos bits → p ≤ s.endPos →
      ((s.endPos < p + lengthAt M k.symbol ∧ s.HasBits p ((codeBits M k.symbol).take (s.endPos - p)) ∧
          q = s.endPos ∧ info = 1) ∨
        (s.HasBits p (codeBits M k.symbol) ∧ q = p + lengthAt M k.symbol ∧ q ≤ s.endPos ∧
          s.endPos < q + k.extraBits.length ∧ info = k.extraBits.length)) →
      ∃ t, exec .clRead s = .next t ∧
        t = ({ s.moveTo q with
                clmem := t.clmem, clm := t.clm, tab := s.tab.set 5 (builtTable M s.tab[(5 : Fin 7)])
                tabInfo := s.tabInfo.set 5
                  ⟨BitVec.ofNat 4 (maxLength M), BitVec.ofNat 12 (usedCount M), isSingle M, true⟩ } : State).failed
              .readPastEnd info ∧
        t.clm.toList = M ∧
        ∀ j, t.clmem.read .clmem j =
          if h : j < (expandTokens 8 ts).length then BitVec.ofNat 8 (expandTokens 8 ts)[j] else s.clmem.read .clmem j)

/-! ## Color cache -/

/-- R210, R211, R214: CC_INIT with A0 at most 11 sets CC_BITS and clears every CACHE word, and a larger A0 raises
INVALID_CACHE_BITS and changes neither; CC_HASH answers the top CC_BITS bits of A0 × 0x1E35A7BD modulo 2^32, an index of the
active cache, and 0 when the cache is disabled. -/
def Obligations.CcInitAndHash : Prop :=
  ∀ s : State,
    (s.a0.toNat ≤ 11 → ∃ t, exec .ccInit s = .next t ∧
      t = ({ s with ccBits := s.a0.setWidth 4, cache := t.cache } : State).completed ∧ t.ccBits.toNat = s.a0.toNat ∧
      ∀ j, t.cache.read .cache j = 0) ∧
    (11 < s.a0.toNat → exec .ccInit s = .next (s.failed .invalidCacheBits s.a0.toNat)) ∧
    ∃ r : Word, exec .ccHash s = .next ({ s with res0 := r } : State).completed ∧
      (s.ccBits = 0 → r = 0) ∧
      (s.ccBits ≠ 0 → r.toNat = s.a0.toNat * 0x1E35A7BD % 2 ^ 32 / 2 ^ (32 - s.ccBits.toNat) ∧
        r.toNat < 2 ^ s.ccBits.toNat)

/-- R212, R213, R215, R216: CC_INSERT writes A0 at its hash and nothing else, and does nothing to a disabled cache; CC_GET
answers the entry at A0 below CC_SIZE, 2^CC_BITS or 0 when the cache is disabled, and raises CACHE_INDEX_RANGE from CC_SIZE
on. -/
def Obligations.CcInsertAndGet : Prop :=
  ∀ s : State,
    let size := if s.ccBits = 0 then 0 else 2 ^ s.ccBits.toNat
    (s.ccBits = 0 → exec .ccInsert s = .next s.completed) ∧
    (s.cache.wf → s.ccBits ≠ 0 → ∃ t, exec .ccInsert s = .next t ∧ t = ({ s with cache := t.cache } : State).completed ∧
      ∀ j, t.cache.read .cache j =
        if j = s.a0.toNat * 0x1E35A7BD % 2 ^ 32 / 2 ^ (32 - s.ccBits.toNat) then s.a0 else s.cache.read .cache j) ∧
    (s.a0.toNat < size →
      exec .ccGet s = .next ({ s with res0 := s.cache.read .cache s.a0.toNat } : State).completed) ∧
    (size ≤ s.a0.toNat → exec .ccGet s = .next (s.failed .cacheIndexRange s.a0.toNat))

/-! ## LZ77 -/

/-- R230, R231, R232, R144: LZ_PREFIX c answers c + 1 without reading for c < 4, and for c up to 39 the offset plus the
extra bits plus 1; the checks stop it in their order, and only a field above 16 bits can lose its first 16 bits. -/
def Obligations.LzPrefix : Prop :=
  ∀ (s : State) (c : Nat),
    let extra := (c - 2) / 2
    let offset := (2 + c % 2) * 2 ^ extra
    (39 < c → exec (.lzPrefix c) s = .next (s.failed .invalidPrefixCode c)) ∧
    (c ≤ 39 → ¬ s.InputOk → exec (.lzPrefix c) s = .next (s.failed .argumentRange s.inLen.toNat)) ∧
    (c < 4 → s.InputOk → exec (.lzPrefix c) s = .next ({ s with res0 := trunc32 (c + 1) } : State).completed) ∧
    (4 ≤ c → c ≤ 39 → s.InputOk → s.pos + extra ≤ s.endPos →
      exec (.lzPrefix c) s = .next
        ({ s.moveTo (s.pos + extra) with res0 := trunc32 (offset + s.field s.pos extra + 1) } : State).completed) ∧
    (4 ≤ c → c ≤ 39 → s.InputOk → extra ≤ 16 → s.endPos < s.pos + extra →
      exec (.lzPrefix c) s = .next (s.failed .readPastEnd extra)) ∧
    (4 ≤ c → c ≤ 39 → s.InputOk → 16 < extra → s.endPos < s.pos + 16 →
      exec (.lzPrefix c) s = .next (s.failed .readPastEnd 16)) ∧
    (4 ≤ c → c ≤ 39 → s.InputOk → s.pos + 16 ≤ s.endPos → s.endPos < s.pos + extra →
      exec (.lzPrefix c) s = .next ((s.moveTo (s.pos + 16)).failed .readPastEnd (extra - 16)))

/-- R233: the ranges of the prefix codes are contiguous from 1 to 2^20: every value there has exactly one code of 0..39 and
one extra-bit value, and every such pair gives a value there. -/
def Obligations.PrefixCodesCoverOnce : Prop :=
  (∀ v, 1 ≤ v → v ≤ 2 ^ 20 → ∃ c x, c ≤ 39 ∧ x < 2 ^ prefixExtra c ∧ v = prefixBase c + x ∧
    ∀ c' x', c' ≤ 39 → x' < 2 ^ prefixExtra c' → v = prefixBase c' + x' → c' = c ∧ x' = x) ∧
  (∀ c x, c ≤ 39 → x < 2 ^ prefixExtra c → 1 ≤ prefixBase c + x ∧ prefixBase c + x ≤ 2 ^ 20) ∧
  (∀ c, c < 39 → prefixBase (c + 1) = prefixBase c + 2 ^ prefixExtra c)

/-- R237, R236: a copy whose checks pass writes PIX[pos + t] = PIX[pos − dist + (t mod dist)] of before the copy for every
t below the length, and changes nothing else, the color cache included. -/
def Obligations.LzCopy : Prop :=
  ∀ s : State, s.pix.wf → s.ImageOk →
    let pos := s.a0.toNat
    let dist := s.a1.toNat
    let len := s.a2.toNat
    1 ≤ dist → dist ≤ s.params.lzMaxDistance → dist ≤ pos → 1 ≤ len → len ≤ 4096 → pos + len ≤ s.npix →
    ∃ t, exec .lzCopy s = .next t ∧ t = ({ s with pix := t.pix } : State).completed ∧
      (∀ k < len, t.pixAt (pos + k) = s.pixAt (pos - dist + k % dist)) ∧
      ∀ i, ¬ (pos ≤ i ∧ i < pos + len) → t.pixAt i = s.pixAt i

/-- R43, R235: the checks of LZ_COPY in their order, the image size, the distance's range, the history, the length's range
and the bounds; no pixel is written when one of them fails. -/
def Obligations.LzCopyErrors : Prop :=
  ∀ s : State,
    let pos := s.a0.toNat
    let dist := s.a1.toNat
    let len := s.a2.toNat
    (s.imgW = 0 → exec .lzCopy s = .next (s.failed .argumentRange s.imgW.toNat)) ∧
    (s.imgW ≠ 0 → s.imgH = 0 → exec .lzCopy s = .next (s.failed .argumentRange s.imgH.toNat)) ∧
    (s.imgW ≠ 0 → s.imgH ≠ 0 → s.params.pixCapacity < s.imgW.toNat * s.imgH.toNat →
      exec .lzCopy s = .next (s.failed .capacityExceeded (s.imgW.toNat * s.imgH.toNat))) ∧
    (s.ImageOk →
      ((dist = 0 ∨ s.params.lzMaxDistance < dist) → exec .lzCopy s = .next (s.failed .lzDistanceRange dist)) ∧
      (1 ≤ dist → dist ≤ s.params.lzMaxDistance →
        (pos < dist → exec .lzCopy s = .next (s.failed .lzHistory dist)) ∧
        (dist ≤ pos → (len = 0 ∨ 4096 < len) → exec .lzCopy s = .next (s.failed .lzLengthRange len)) ∧
        (dist ≤ pos → 1 ≤ len → len ≤ 4096 → s.imgW.toNat * s.imgH.toNat < pos + len →
          exec .lzCopy s = .next (s.failed .lzBounds (pos + len)))))

/-! ## Predictors -/

/-- R250 to R257: PRED m answers, for each mode 0 to 13, the predicted pixel the rules give, channel by channel, and changes
nothing else; a mode above 13 raises INVALID_PREDICTOR_MODE. -/
def Obligations.Pred : Prop :=
  ∀ (s : State) (m : Nat),
    let dist (p q : Word) : Nat := ([24, 16, 8, 0].map fun c => ((chan p c : Int) - chan q c).natAbs).sum
    let avg (r p q : Word) : Prop := ∀ c ∈ [24, 16, 8, 0], chan r c = (chan p c + chan q c) / 2
    (m ≤ 13 → ∃ r : Word, exec (.pred m) s = .next ({ s with res0 := r } : State).completed ∧
      (m = 0 → r = s.params.mode0Black) ∧ (m = 1 → r = s.a0) ∧ (m = 2 → r = s.a1) ∧ (m = 3 → r = s.a3) ∧
      (m = 4 → r = s.a2) ∧ (m = 5 → avg r s.a0 s.a3) ∧ (m = 6 → avg r s.a0 s.a2) ∧ (m = 7 → avg r s.a0 s.a1) ∧
      (m = 8 → avg r s.a2 s.a1) ∧ (m = 9 → avg r s.a1 s.a3) ∧ (m = 10 → avg r s.a2 s.a3) ∧
      (m = 11 → r = if dist s.a0 s.a2 < dist s.a1 s.a2 then s.a0 else s.a1) ∧
      (m = 12 → ∀ c ∈ [24, 16, 8, 0],
        (chan r c : Int) = min 255 (max 0 ((chan s.a0 c : Int) + chan s.a1 c - chan s.a2 c))) ∧
      (m = 13 → avg r s.a0 s.a3)) ∧
    (13 < m → exec (.pred m) s = .next (s.failed .invalidPredictorMode m)) ∧
    Params.default.mode0Black = 0xFF000000#32

/-- R258 to R261: XF_PRED_INV walks the image in raster order: each pixel becomes, channel by channel modulo 256, its
residual plus the prediction of its block's mode from the neighbours already reconstructed, 0 beyond the edge. The walk
ends at the first pixel whose block has mode 14 or 15, with INVALID_PREDICTOR_MODE and the pixels from there on as they
were; without one it completes. Nothing but PIX changes. What the error leaves in PIX is exact by the model's choice: log 7
(DEDUCED). -/
def Obligations.XfPredInv : Prop :=
  ∀ (s : State) (k : Nat), s.pix.wf → s.XfOk k .predictor →
    let w := s.imgW.toNat
    let mode (i : Nat) : Nat := (s.blockData k i).toNat / 2 ^ 8 % 16
    let rebuilt (t : State) (i : Nat) : Prop :=
      let left := if 0 < i % w then t.pixAt (i - 1) else 0
      let top := if 0 < i / w then t.pixAt (i - w) else 0
      let topLeft := if 0 < i % w ∧ 0 < i / w then t.pixAt (i - w - 1) else 0
      let topRight := if 0 < i / w ∧ i % w < w - 1 then t.pixAt (i - w + 1) else 0
      ∃ p, predictPix s.params.mode0Black (mode i) left top topLeft topRight = some p ∧
        ∀ c ∈ [24, 16, 8, 0], chan (t.pixAt i) c = (chan (s.pixAt i) c + chan p c) % 256
    ((∀ i < s.npix, mode i ≤ 13) → ∃ t, exec (.xfPredInv k) s = .next t ∧
      t = ({ s with pix := t.pix } : State).completed ∧ (∀ i < s.npix, rebuilt t i) ∧
      ∀ i, s.npix ≤ i → t.pixAt i = s.pixAt i) ∧
    (∀ n < s.npix, 13 < mode n → (∀ i < n, mode i ≤ 13) → ∃ t, exec (.xfPredInv k) s = .next t ∧
      t = ({ s with pix := t.pix } : State).failed .invalidPredictorMode (mode n) ∧ (∀ i < n, rebuilt t i) ∧
      ∀ i, n ≤ i → t.pixAt i = s.pixAt i)

/-! ## Transforms -/

/-- R280: the checks of XfCheck, in their order, for the five commands that undo a descriptor: each stops its command with
the error and the value the rule names and changes nothing else. -/
def Obligations.XfChecks : Prop :=
  ∀ (s : State) (k : Nat) (i : Instr) (ty : XfType),
    (i, ty) ∈ [(Instr.xfPredInv k, XfType.predictor), (.xfColorInv k, .color), (.xfSubgInv k, .subtractGreen),
      (.xfPalApply k, .palette), (.xfPalInvert k, .palette)] →
    let d := s.xfDesc[descOf k]
    let n := ceilDiv s.imgW.toNat (2 ^ d.blockBits.toNat) * ceilDiv s.imgH.toNat (2 ^ d.blockBits.toNat)
    (3 < k → exec i s = .next (s.failed .argumentRange k)) ∧
    (k ≤ 3 → 4 < s.xfCount.toNat → exec i s = .next (s.failed .argumentRange s.xfCount.toNat)) ∧
    (k ≤ 3 → s.xfCount.toNat ≤ 4 →
      (s.xfCount.toNat ≤ k ∨ d.ty ≠ ty) → exec i s = .next (s.failed .argumentRange k)) ∧
    (k < s.xfCount.toNat → s.xfCount.toNat ≤ 4 → d.ty = ty →
      (ty ≠ .subtractGreen → d.payloadValid = false → exec i s = .next (s.failed .missingPayload k)) ∧
      ((ty = .subtractGreen ∨ d.payloadValid = true) →
        (s.imgW = 0 → exec i s = .next (s.failed .argumentRange s.imgW.toNat)) ∧
        (s.imgW ≠ 0 → s.imgH = 0 → exec i s = .next (s.failed .argumentRange s.imgH.toNat)) ∧
        (s.imgW ≠ 0 → s.imgH ≠ 0 → s.params.pixCapacity < s.npix →
          exec i s = .next (s.failed .capacityExceeded s.npix)) ∧
        (s.ImageOk →
          ((ty = .predictor ∨ ty = .color) → (d.blockBits.toNat < 2 ∨ 9 < d.blockBits.toNat) →
            exec i s = .next (s.failed .argumentRange d.blockBits.toNat)) ∧
          ((ty = .predictor ∨ ty = .color) → 2 ≤ d.blockBits.toNat → d.blockBits.toNat ≤ 9 → s.params.subCapacity < n →
            exec i s = .next (s.failed .capacityExceeded n)) ∧
          (ty = .palette → (d.palSize = 0 ∨ 256 < d.palSize.toNat) →
            exec i s = .next (s.failed .argumentRange d.palSize.toNat)))))

/-- R281, R282, R283: XF_SUBG_INV adds each pixel's green to its red and its blue modulo 256, leaving alpha and green and
everything but PIX; so it undoes the forward transform of every pixel. -/
def Obligations.XfSubgInv : Prop :=
  ∀ (s : State) (k : Nat), s.pix.wf → s.XfOk k .subtractGreen →
    ∃ t, exec (.xfSubgInv k) s = .next t ∧ t = ({ s with pix := t.pix } : State).completed ∧
      (∀ i < s.npix, chan (t.pixAt i) 24 = chan (s.pixAt i) 24 ∧ chan (t.pixAt i) 8 = chan (s.pixAt i) 8 ∧
        chan (t.pixAt i) 16 = (chan (s.pixAt i) 16 + chan (s.pixAt i) 8) % 256 ∧
        chan (t.pixAt i) 0 = (chan (s.pixAt i) 0 + chan (s.pixAt i) 8) % 256) ∧
      (∀ i, s.npix ≤ i → t.pixAt i = s.pixAt i) ∧
      ∀ i < s.npix, ∀ p : Word, chan (s.pixAt i) 24 = chan p 24 → chan (s.pixAt i) 8 = chan p 8 →
        chan (s.pixAt i) 16 = (chan p 16 + (256 - chan p 8)) % 256 →
        chan (s.pixAt i) 0 = (chan p 0 + (256 - chan p 8)) % 256 → t.pixAt i = p

/-- R284, R285: XF_COLOR_INV subtracts from red and blue, modulo 256, the floor of the block's signed multiplier times the
unsigned green over 256, leaving alpha and green and everything but PIX. -/
def Obligations.XfColorInv : Prop :=
  ∀ (s : State) (k : Nat), s.pix.wf → s.XfOk k .color →
    ∃ t, exec (.xfColorInv k) s = .next t ∧ t = ({ s with pix := t.pix } : State).completed ∧
      (∀ i < s.npix, chan (t.pixAt i) 24 = chan (s.pixAt i) 24 ∧ chan (t.pixAt i) 8 = chan (s.pixAt i) 8 ∧
        (chan (t.pixAt i) 16 : Int) =
          ((chan (s.pixAt i) 16 : Int) - sext8 (chan (s.blockData k i) 0) * chan (s.pixAt i) 8 / 256) % 256 ∧
        (chan (t.pixAt i) 0 : Int) =
          ((chan (s.pixAt i) 0 : Int) - sext8 (chan (s.blockData k i) 8) * chan (s.pixAt i) 8 / 256) % 256) ∧
      ∀ i, s.npix ≤ i → t.pixAt i = s.pixAt i

/-- R286, R287: XF_PAL_APPLY replaces each pixel by the palette word its low 8 bits index; the first index from PAL_SIZE on
raises PALETTE_INDEX_RANGE, with the pixels before it replaced and the others as they were. Nothing but PIX changes. What the
error leaves in PIX is exact by the model's choice: log 7 (DEDUCED); a palette word past SUB_CAPACITY is what the model reads
there: log 16 (DESIGN CHOICE). -/
def Obligations.XfPalApply : Prop :=
  ∀ (s : State) (k : Nat), s.pix.wf → s.XfOk k .palette →
    let index (i : Nat) : Nat := chan (s.pixAt i) 0
    let size := s.xfDesc[descOf k].palSize.toNat
    ((∀ i < s.npix, index i < size) → ∃ t, exec (.xfPalApply k) s = .next t ∧
      t = ({ s with pix := t.pix } : State).completed ∧
      (∀ i < s.npix, t.pixAt i = s.elem (.sub (descOf k)) (index i)) ∧ ∀ i, s.npix ≤ i → t.pixAt i = s.pixAt i) ∧
    (∀ n < s.npix, size ≤ index n → (∀ i < n, index i < size) → ∃ t, exec (.xfPalApply k) s = .next t ∧
      t = ({ s with pix := t.pix } : State).failed .paletteIndexRange (index n) ∧
      (∀ i < n, t.pixAt i = s.elem (.sub (descOf k)) (index i)) ∧ ∀ i, n ≤ i → t.pixAt i = s.pixAt i)

/-- R288: XF_PAL_INVERT on a descriptor that passes its checks always ends in PALETTE_NOT_INVERTIBLE(k), its whole effect,
and on any other in the error of a check, so that nothing but STAGE and the error entry ever changes. -/
def Obligations.XfPalInvert : Prop :=
  ∀ (s : State) (k : Nat),
    (s.XfOk k .palette → exec (.xfPalInvert k) s = .next (s.failed .paletteNotInvertible k)) ∧
    (¬ s.XfOk k .palette → ∃ e ∈ [ErrKind.argumentRange, .missingPayload, .capacityExceeded], ∃ info,
      exec (.xfPalInvert k) s = .next (s.failed e info))

/-- R289, R290: the checks of XF_CHAIN_INV in their order, the image size, the count, and then each descriptor of the list in
ascending order, before any pixel changes: the first descriptor that fails stops the chain exactly as it stops its own
single command. With every descriptor passing, XF_CHAIN_INV is the single commands of the list run in reverse order, ending
at the first that takes an error; with no palette below 256 entries and no block mode above 13 it completes. What an error
leaves in PIX is exact by the model's choice: log 7 (DEDUCED). -/
def Obligations.XfChainInv : Prop :=
  ∀ s : State,
    (s.imgW = 0 → exec .xfChainInv s = .next (s.failed .argumentRange s.imgW.toNat)) ∧
    (s.imgW ≠ 0 → s.imgH = 0 → exec .xfChainInv s = .next (s.failed .argumentRange s.imgH.toNat)) ∧
    (s.imgW ≠ 0 → s.imgH ≠ 0 → s.params.pixCapacity < s.npix →
      exec .xfChainInv s = .next (s.failed .capacityExceeded s.npix)) ∧
    (s.ImageOk →
      (4 < s.xfCount.toNat → exec .xfChainInv s = .next (s.failed .argumentRange s.xfCount.toNat)) ∧
      (s.xfCount.toNat ≤ 4 →
        (∀ n < s.xfCount.toNat, (∀ k < n, s.XfOk k s.xfDesc[descOf k].ty) → ¬ s.XfOk n s.xfDesc[descOf n].ty →
          exec .xfChainInv s = exec (s.undoCommand n) s ∧
          ∃ e ∈ [ErrKind.argumentRange, .missingPayload, .capacityExceeded], ∃ info,
            exec .xfChainInv s = .next (s.failed e info)) ∧
        (s.err = false → (∀ k < s.xfCount.toNat, s.XfOk k s.xfDesc[descOf k].ty) →
          exec .xfChainInv s = undoRun s.xfCount.toNat s ∧
          ((∀ k < s.xfCount.toNat, (s.xfDesc[descOf k].ty = .palette → s.xfDesc[descOf k].palSize.toNat = 256) ∧
              (s.xfDesc[descOf k].ty = .predictor →
                ∀ i < s.npix, (s.blockData k i).toNat / 2 ^ 8 % 16 ≤ 13)) →
            ∃ t, exec .xfChainInv s = .next t ∧ t.done = true ∧ t = ({ s with pix := t.pix } : State).completed ∧
              ∀ i, s.npix ≤ i → t.pixAt i = s.pixAt i))))

/-! ## Header, conversion and decode -/

/-- R312, R313, R314, R341: HDR_PARSE on a sound header writes the width, the height and the alpha flag its bytes hold and
leaves the cursor at byte 5, with STAGE 1 and nothing else changed. Its checks stop it in their order: IN_LEN against
IN_CAPACITY, the length, the signature, the version and the capacity, each with its value, the cursor where the reads before
the check left it and STAGE 1. -/
def Obligations.HdrParse : Prop :=
  ∀ s : State,
    let start : State := { s with stage := .header, brStart := 0, brBytePos := 0, brBitPos := 0 }
    (s.InputOk → 5 ≤ s.inLen.toNat → s.inByte 0 = 0x2F → s.inByte 4 / 32 = 0 →
      s.headerW * s.headerH ≤ s.params.pixCapacity →
      exec .hdrParse s = .next { s with
        stage := .header, brStart := 0, brBytePos := 5, brBitPos := 0
        imgW := trunc32 s.headerW, imgH := trunc32 s.headerH, imgAlpha := s.inByte 4 / 16 % 2 = 1, imgVersion := 0
        busy := false, done := true }) ∧
    (¬ s.InputOk →
      exec .hdrParse s = .next (({ s with stage := .header } : State).takeError ⟨.argumentRange, s.inLen⟩)) ∧
    (s.InputOk → s.inLen.toNat < 5 → exec .hdrParse s = .next (start.takeError ⟨.truncatedHeader, s.inLen⟩)) ∧
    (s.InputOk → 5 ≤ s.inLen.toNat →
      (s.inByte 0 ≠ 0x2F → exec .hdrParse s =
        .next ((start.moveTo 8).takeError ⟨.badSignature, trunc32 (s.inByte 0)⟩)) ∧
      (s.inByte 0 = 0x2F → s.inByte 4 / 32 ≠ 0 → exec .hdrParse s =
        .next ((start.moveTo 40).takeError ⟨.unsupportedVersion, trunc32 (s.inByte 4 / 32)⟩)) ∧
      (s.inByte 0 = 0x2F → s.inByte 4 / 32 = 0 → s.params.pixCapacity < s.headerW * s.headerH →
        ∃ t, exec .hdrParse s = .next (t.takeError ⟨.capacityExceeded, trunc32 (s.headerW * s.headerH)⟩) ∧
          t = { start.moveTo 40 with imgW := trunc32 s.headerW, imgH := trunc32 s.headerH,
                                     imgAlpha := s.inByte 4 / 16 % 2 = 1, imgVersion := 0 }))

/-- R310 to R336: DECODE of any stream an encoder may write, each part in any of its forms: every list of
transforms with their sub-images (R316, R317, R320), a color cache (R319), an entropy image and the groups after the first
(R324 to R327), and tokens that are pixels, back references and cache references (R330 to R333). DECODE goes through a state
`u` that holds what the stream says, and then does what XF_CHAIN_INV does to `u`: if that completes, DECODE completes with
its registers and pixels and with OUT the R, G, B, A bytes of its PIX; if not, DECODE ends in its error with STAGE at the
inverse transforms. The alpha tree follows the parameter (log 2, DEDUCED), and what an error of the chain leaves in PIX is
exact by the model's choice: log 7 (DEDUCED). -/
def Obligations.DecodeStreams : Prop :=
  ∀ (s : State) (d : StreamCode), s.MemWf → s.InputOk → s.params.Admissible → d.Ok s.params →
    s.HasBits 0 (d.bits s.params) → (d.bits s.params).length ≤ s.endPos →
    ∃ u v : State, u.Holds d ∧ u.params = s.params ∧ u.inp = s.inp ∧ u.inLen = s.inLen ∧ u.err = s.err ∧
      exec .xfChainInv u = .next v ∧
      (v.done = true → ∃ t, exec .decode s = .next t ∧ t = { v with stage := .done, out := t.out } ∧ t.OutHoldsPix) ∧
      (v.done = false → exec .decode s = .next { v with stage := .inverseTransforms })

/-- R340, R85: RGBA_CONVERT writes each pixel as four bytes in R, G, B, A order, for the pixels of the image and no byte
more, and changes nothing but OUT; the image-size checks stop it in their order. -/
def Obligations.RgbaConvert : Prop :=
  ∀ s : State,
    (s.out.wf → s.ImageOk → ∃ t, exec .rgbaConvert s = .next t ∧ t = ({ s with out := t.out } : State).completed ∧
      t.OutHoldsPix ∧ ∀ j, 4 * s.npix ≤ j → t.out.read .out j = s.out.read .out j) ∧
    (s.imgW = 0 → exec .rgbaConvert s = .next (s.failed .argumentRange s.imgW.toNat)) ∧
    (s.imgW ≠ 0 → s.imgH = 0 → exec .rgbaConvert s = .next (s.failed .argumentRange s.imgH.toNat)) ∧
    (s.imgW ≠ 0 → s.imgH ≠ 0 → s.params.pixCapacity < s.npix →
      exec .rgbaConvert s = .next (s.failed .capacityExceeded s.npix))

/-- DECODE completes on the streams of `literalStream`: literal pixels with coded channels below 16, every tree the one of
sixteen symbols of length 4 in the literal form, no color cache, no entropy image, and no transform but at most one
subtract-green; for every width, height and alpha flag, and every such pixels. The image registers, the pixels and the output
bytes are those of the stream, and the cursor is at its end. The alpha tree follows the header's flag, the default of the
parameter (log 2). The general case, any trees, tokens, cache, entropy image and transforms, is DecodeStreams. -/
def Obligations.DecodeLiteralImages : Prop :=
  ∀ (s : State) (w h : Nat) (alpha subGreen : Bool) (px : Nat → Word), s.MemWf → s.InputOk →
    s.params.alphaTreePolicy = .ifAlphaFlag → 1 ≤ w → w ≤ 16384 → 1 ≤ h → h ≤ 16384 → w * h ≤ s.params.pixCapacity →
    (∀ i < w * h, chan (px i) 16 < 16 ∧ chan (px i) 8 < 16 ∧ chan (px i) 0 < 16 ∧ (alpha = true → chan (px i) 24 < 16)) →
    s.HasBits 0 (literalStream w h alpha subGreen px) → (literalStream w h alpha subGreen px).length ≤ s.endPos →
    ∃ t, exec .decode s = .next t ∧ t.done = true ∧ t.stage = .done ∧ t.err = s.err ∧ t.imgW.toNat = w ∧ t.imgH.toNat = h ∧
      t.imgAlpha = alpha ∧ t.imgVersion = 0 ∧ t.brStart = 0 ∧ t.pos = (literalStream w h alpha subGreen px).length ∧
      t.nGroups = 1 ∧ t.entPresent = false ∧ t.ccBits = 0 ∧ t.xfCount.toNat = subGreen.toNat ∧ t.OutHoldsPix ∧
      ∀ i < w * h, chan (t.pixAt i) 24 = (if alpha then chan (px i) 24 else 255) ∧ chan (t.pixAt i) 8 = chan (px i) 8 ∧
        chan (t.pixAt i) 16 = chan (px i) 16 + (if subGreen then chan (px i) 8 else 0) ∧
        chan (t.pixAt i) 0 = chan (px i) 0 + (if subGreen then chan (px i) 8 else 0)

/-- What a DECODE that completes leaves: the header's fields, a cursor past the header and not past the end, at most four
descriptors of distinct types that pass their checks, 1 to 65536 groups (1 without an entropy image), a legal cache, the
tables of the main group valid, and OUT the R, G, B, A bytes of PIX. -/
def Obligations.DecodeResults : Prop :=
  ∀ s t : State, s.MemWf → exec .decode s = .next t → t.done = true →
    t.stage = .done ∧ t.err = s.err ∧ t.brStart = 0 ∧ 40 ≤ t.pos ∧ t.pos ≤ t.endPos ∧
    s.inByte 0 = 0x2F ∧ s.inByte 4 / 32 = 0 ∧ t.imgW.toNat = s.headerW ∧ t.imgH.toNat = s.headerH ∧
    t.imgAlpha = decide (s.inByte 4 / 16 % 2 = 1) ∧ t.imgVersion = 0 ∧ t.ImageOk ∧
    t.xfCount.toNat ≤ 4 ∧ (∀ k < t.xfCount.toNat, t.XfOk k t.xfDesc[descOf k].ty) ∧
    (∀ k < t.xfCount.toNat, ∀ k' < t.xfCount.toNat, t.xfDesc[descOf k].ty = t.xfDesc[descOf k'].ty → k = k') ∧
    1 ≤ t.nGroups.toNat ∧ t.nGroups.toNat ≤ 65536 ∧ (t.entPresent = false → t.nGroups = 1 ∧ t.entBits = 0) ∧
    (t.entPresent = true → 2 ≤ t.entBits.toNat ∧ t.entBits.toNat ≤ 9) ∧ t.ccBits.toNat ≤ 11 ∧
    (∀ u ∈ [(0 : Fin 7), 1, 2, 4], t.tabInfo[u].valid = true) ∧
    (t.tabInfo[(3 : Fin 7)].valid = true ↔ (s.params.alphaTreePolicy = .always ∨ t.imgAlpha = true)) ∧
    t.OutHoldsPix

/-- R345: with every memory in its canonical form, a DECODE that fails has STAGE at the state it failed in and one of the errors the
rule lists for that state; so the errors the rule says never arise in DECODE never do. -/
def Obligations.DecodeErrorsByStage : Prop :=
  ∀ s t : State, s.MemWf → exec .decode s = .next t → t.done = false → ∃ e ∈ decodeErrors t.stage, t.errCode = e.code

/-- Nothing an earlier command left affects a DECODE: two states with the same parameters and the same input bytes decode
alike, in success with the same image, pixels, output, cursor, list, groups and cache, in failure with the same error in
the same state. -/
def Obligations.DecodeDependsOnInputOnly : Prop :=
  ∀ s s' t t' : State, s.MemWf → s'.MemWf → s.params = s'.params → s.inLen = s'.inLen →
    (∀ i < s.inLen.toNat, s.inByte i = s'.inByte i) → exec .decode s = .next t → exec .decode s' = .next t' →
    t.done = t'.done ∧ t.stage = t'.stage ∧
    (t.done = false → t.errCode = t'.errCode ∧ t.errInfo = t'.errInfo) ∧
    (t.done = true → t.imgW = t'.imgW ∧ t.imgH = t'.imgH ∧ t.imgAlpha = t'.imgAlpha ∧ t.pos = t'.pos ∧
      t.xfCount = t'.xfCount ∧ t.xfDesc = t'.xfDesc ∧ t.nGroups = t'.nGroups ∧ t.entPresent = t'.entPresent ∧
      t.entBits = t'.entBits ∧ t.ccBits = t'.ccBits ∧ t.cache = t'.cache ∧
      (∀ i < t.npix, t.pixAt i = t'.pixAt i) ∧ ∀ i < 4 * t.npix, t.outByte i = t'.outByte i)
end

