-- ==== Sys2Proof/Laws/Cmd.lean ====
section
/-! SUPPORT. The laws of the command monad: what each operation answers on a state, what `finish` makes of it, and the packaged induction "every piece keeps P, so the command keeps P". -/

namespace Sys2Proof.Machine

variable {α β : Type}

@[simp] theorem cmd_pure_apply (a : α) (s : State) : (pure a : Cmd α) s = .ok a s := rfl

theorem cmd_bind_apply (x : Cmd α) (f : α → Cmd β) (s : State) :
    (x >>= f) s = match x s with
      | .ok a t => f a t
      | .error e t => .error e t := by
  show EStateM.bind x f s = _
  unfold EStateM.bind
  cases x s <;> rfl

theorem cmd_bind_of_ok {x : Cmd α} {f : α → Cmd β} {s t : State} {a : α} (h : x s = .ok a t) :
    (x >>= f) s = f a t := by rw [cmd_bind_apply, h]

theorem cmd_bind_of_error {x : Cmd α} {f : α → Cmd β} {s t : State} {e : Trap} (h : x s = .error e t) :
    (x >>= f) s = .error e t := by rw [cmd_bind_apply, h]

/-- The one inversion of a sequence that completed. -/
theorem cmd_bind_ok {x : Cmd α} {f : α → Cmd β} {s u : State} {b : β} (h : (x >>= f) s = .ok b u) :
    ∃ a t, x s = .ok a t ∧ f a t = .ok b u := by
  rw [cmd_bind_apply] at h
  cases hx : x s with
  | ok a t => rw [hx] at h; exact ⟨a, t, rfl, h⟩
  | error e t => rw [hx] at h; cases h

/-- The one inversion of a sequence that raised an error. -/
theorem cmd_bind_error {x : Cmd α} {f : α → Cmd β} {s u : State} {e : Trap} (h : (x >>= f) s = .error e u) :
    x s = .error e u ∨ ∃ a t, x s = .ok a t ∧ f a t = .error e u := by
  rw [cmd_bind_apply] at h
  cases hx : x s with
  | ok a t => rw [hx] at h; exact .inr ⟨a, t, rfl, h⟩
  | error e' t => rw [hx] at h; cases h; exact .inl rfl

@[simp] theorem readState_apply (f : State → α) (s : State) : readState f s = .ok (f s) s := rfl

@[simp] theorem update_apply (f : State → State) (s : State) : update f s = .ok () (f s) := rfl

@[simp] theorem takeState_apply (f : State → α × State) (s : State) : takeState f s = .ok (f s).1 (f s).2 := rfl

@[simp] theorem raise_apply (e : ErrKind) (info : Nat) (s : State) :
    (raise e info : Cmd α) s = .error ⟨e, trunc32 info⟩ s := rfl

theorem raiseIf_apply (c : Bool) (e : ErrKind) (info : Nat) (s : State) :
    raiseIf c e info s = if c then .error ⟨e, trunc32 info⟩ s else .ok () s := by
  unfold raiseIf; cases c <;> rfl

@[simp] theorem raiseIf_false (e : ErrKind) (info : Nat) (s : State) : raiseIf false e info s = .ok () s := rfl

@[simp] theorem raiseIf_true (e : ErrKind) (info : Nat) (s : State) :
    raiseIf true e info s = .error ⟨e, trunc32 info⟩ s := rfl

@[simp] theorem setRes0_apply (v : Word) (s : State) : setRes0 v s = .ok () (s.withRes0 v) := rfl

@[simp] theorem setStage_apply (st : Stage) (s : State) : setStage st s = .ok () (s.atStage st) := rfl

@[simp] theorem forRange_zero (f : Nat → Cmd Unit) (lo : Nat) : forRange f 0 lo = pure () := rfl

theorem forRange_succ (f : Nat → Cmd Unit) (n lo : Nat) :
    forRange f (n + 1) lo = (do f lo; forRange f n (lo + 1)) := rfl

/-- A loop whose every pass succeeds and carries an invariant of the index on. -/
theorem forRange_ok {f : Nat → Cmd Unit} {P : Nat → State → Prop} {lo : Nat} (n : Nat)
    (hf : ∀ i s, lo ≤ i → i < lo + n → P i s → ∃ t, f i s = .ok () t ∧ P (i + 1) t) {s : State} (hs : P lo s) :
    ∃ t, forRange f n lo s = .ok () t ∧ P (lo + n) t := by
  induction n generalizing lo s with
  | zero => exact ⟨s, rfl, by simpa using hs⟩
  | succ n ih =>
    obtain ⟨u, hu, hPu⟩ := hf lo s (Nat.le_refl _) (by omega) hs
    obtain ⟨t, ht, hPt⟩ := ih (fun i s h1 h2 hP => hf i s (by omega) (by omega) hP) hPu
    exact ⟨t, by rw [forRange_succ, cmd_bind_of_ok hu, ht], by rw [show lo + (n + 1) = lo + 1 + n by omega]; exact hPt⟩

/-! ### How a command ends -/

@[simp] theorem finish_ok (t : State) : finish (.ok () t) = .next t.complete := rfl

@[simp] theorem finish_error (e : Trap) (t : State) : finish (.error e t) = .next (t.takeError e) := rfl

/-- Everything a command can end in: it completes, or it takes the error its body raised. -/
theorem finish_cases {r : EStateM.Result Trap State Unit} {t : State} (h : finish r = .next t) :
    (∃ u, r = .ok () u ∧ t = u.complete) ∨ (∃ e u, r = .error e u ∧ t = u.takeError e) := by
  cases r with
  | ok a u => cases a; simp only [finish_ok, Host.Outcome.next.injEq] at h; exact .inl ⟨u, rfl, h.symm⟩
  | error e u => simp only [finish_error, Host.Outcome.next.injEq] at h; exact .inr ⟨e, u, rfl, h.symm⟩

/-- A command always answers a next state (70_reset_and_hazards.md R411). -/
theorem finish_next (r : EStateM.Result Trap State Unit) : ∃ t, finish r = .next t := by
  cases r with
  | ok a u => exact ⟨_, rfl⟩
  | error e u => exact ⟨_, rfl⟩

theorem runCommand_ok {body : Cmd Unit} {s t : State} (h : body (s.atStage .none) = .ok () t) :
    runCommand body s = .next t.complete := by unfold runCommand; rw [h, finish_ok]

theorem runCommand_error {body : Cmd Unit} {s t : State} {e : Trap} (h : body (s.atStage .none) = .error e t) :
    runCommand body s = .next (t.takeError e) := by unfold runCommand; rw [h, finish_error]

theorem runStaged_ok {body : Cmd Unit} {s t : State} (h : body s = .ok () t) : runStaged body s = .next t.complete := by
  unfold runStaged; rw [h, finish_ok]

theorem runStaged_error {body : Cmd Unit} {s t : State} {e : Trap} (h : body s = .error e t) :
    runStaged body s = .next (t.takeError e) := by unfold runStaged; rw [h, finish_error]

/-! ### Pieces that keep a property -/

/-- Whatever a piece of a command answers, the state it has reached satisfies `P` if the state it began in did. -/
def Keeps (P : State → Prop) (x : Cmd α) : Prop :=
  ∀ s, P s → match x s with
    | .ok _ t => P t
    | .error _ t => P t

variable {P : State → Prop}

theorem Keeps.ok {x : Cmd α} (h : Keeps P x) {s t : State} {a : α} (hs : P s) (hx : x s = .ok a t) : P t := by
  have := h s hs; rwa [hx] at this

theorem Keeps.error {x : Cmd α} (h : Keeps P x) {s t : State} {e : Trap} (hs : P s) (hx : x s = .error e t) : P t := by
  have := h s hs; rwa [hx] at this

theorem keeps_pure (a : α) : Keeps P (pure a) := fun _ hs => hs

theorem keeps_readState (f : State → α) : Keeps P (readState f) := fun _ hs => hs

theorem keeps_raise (e : ErrKind) (info : Nat) : Keeps P (raise e info : Cmd α) := fun _ hs => hs

theorem keeps_raiseIf (c : Bool) (e : ErrKind) (info : Nat) : Keeps P (raiseIf c e info) := by
  intro s hs; cases c <;> exact hs

theorem keeps_update {f : State → State} (h : ∀ s, P s → P (f s)) : Keeps P (update f) := fun s hs => h s hs

theorem Keeps.bind {x : Cmd α} {f : α → Cmd β} (hx : Keeps P x) (hf : ∀ a, Keeps P (f a)) : Keeps P (x >>= f) := by
  intro s hs
  rw [cmd_bind_apply]
  have h := hx s hs
  cases hxs : x s with
  | ok a t => rw [hxs] at h; exact hf a t h
  | error e t => rw [hxs] at h; exact h

theorem Keeps.ite {c : Prop} [Decidable c] {x y : Cmd α} (hx : c → Keeps P x) (hy : ¬ c → Keeps P y) :
    Keeps P (if c then x else y) := by
  by_cases h : c
  · rw [if_pos h]; exact hx h
  · rw [if_neg h]; exact hy h

/-- A check passed is known to the rest. -/
theorem keeps_raiseIf_bind {c : Bool} {e : ErrKind} {info : Nat} {y : Unit → Cmd α} (h : c = false → Keeps P (y ())) :
    Keeps P (raiseIf c e info >>= y) := by
  intro s hs
  cases c
  · rw [cmd_bind_of_ok (raiseIf_false _ _ _)]; exact h rfl s hs
  · rw [cmd_bind_of_error (raiseIf_true _ _ _)]; exact hs

/-- A value read is known to be the state's, which the property may speak of. -/
theorem keeps_readState_bind {γ : Type} {f : State → γ} {y : γ → Cmd α} (h : ∀ s, P s → Keeps (fun t => P t) (y (f s))) :
    Keeps P (readState f >>= y) := by
  intro s hs
  rw [cmd_bind_of_ok (readState_apply _ _)]; exact h s hs s hs

theorem keeps_forRange_lt {f : Nat → Cmd Unit} (n lo : Nat) (h : ∀ i, lo ≤ i → i < lo + n → Keeps P (f i)) :
    Keeps P (forRange f n lo) := by
  induction n generalizing lo with
  | zero => exact keeps_pure ()
  | succ n ih => exact (h lo (Nat.le_refl _) (by omega)).bind fun _ => ih (lo + 1) fun i h1 h2 => h i (by omega) (by omega)

theorem keeps_forRange {f : Nat → Cmd Unit} (h : ∀ i, Keeps P (f i)) (n lo : Nat) : Keeps P (forRange f n lo) := by
  induction n generalizing lo with
  | zero => exact keeps_pure ()
  | succ n ih => exact (h lo).bind fun _ => ih (lo + 1)

/-- A command whose body keeps `P` ends in a state with `P`, if completing and taking an error keep it. -/
theorem Keeps.finish {body : Cmd Unit} (h : Keeps P body) (hc : ∀ s, P s → P s.complete)
    (he : ∀ s e, P s → P (s.takeError e)) {s t : State} (hs : P s) (ht : Machine.finish (body s) = .next t) : P t := by
  rcases finish_cases ht with ⟨u, hu, rfl⟩ | ⟨e, u, hu, rfl⟩
  · exact hc u (h.ok hs hu)
  · exact he u e (h.error hs hu)

/-! ### Triples -/

/-- From every state with `P` a piece either goes on with a value and a state that satisfy `Q`, or raises an error in a
state that satisfy `E`. -/
def Hoare (P : State → Prop) (x : Cmd α) (Q : α → State → Prop) (E : Trap → State → Prop) : Prop :=
  ∀ s, P s → match x s with
    | .ok a t => Q a t
    | .error e t => E e t

section Triples

variable {Q : α → State → Prop} {E : Trap → State → Prop}

theorem Hoare.ok {x : Cmd α} (h : Hoare P x Q E) {s t : State} {a : α} (hs : P s) (hx : x s = .ok a t) : Q a t := by
  have := h s hs; rwa [hx] at this

theorem Hoare.error {x : Cmd α} (h : Hoare P x Q E) {s t : State} {e : Trap} (hs : P s) (hx : x s = .error e t) :
    E e t := by
  have := h s hs; rwa [hx] at this

theorem Keeps.hoare {x : Cmd α} (h : Keeps P x) : Hoare P x (fun _ => P) (fun _ => P) := h

theorem Hoare.keeps {x : Cmd α} (h : Hoare P x (fun _ => P) (fun _ => P)) : Keeps P x := h

theorem Hoare.conseq {P' : State → Prop} {Q' : α → State → Prop} {E' : Trap → State → Prop} {x : Cmd α}
    (h : Hoare P x Q E) (hP : ∀ s, P' s → P s) (hQ : ∀ a s, Q a s → Q' a s) (hE : ∀ e s, E e s → E' e s) :
    Hoare P' x Q' E' := by
  intro s hs
  have := h s (hP s hs)
  cases hx : x s with
  | ok a t => rw [hx] at this; exact hQ a t this
  | error e t => rw [hx] at this; exact hE e t this

theorem hoare_pure {a : α} (h : ∀ s, P s → Q a s) : Hoare P (pure a) Q E := h

theorem hoare_readState {f : State → α} (h : ∀ s, P s → Q (f s) s) : Hoare P (readState f) Q E := h

theorem hoare_raise {e : ErrKind} {info : Nat} (h : ∀ s, P s → E ⟨e, trunc32 info⟩ s) : Hoare P (raise e info : Cmd α) Q E := h

theorem hoare_update {f : State → State} {Q : Unit → State → Prop} (h : ∀ s, P s → Q () (f s)) : Hoare P (update f) Q E := h

theorem hoare_raiseIf {c : Bool} {e : ErrKind} {info : Nat} {Q : Unit → State → Prop}
    (hc : ∀ s, P s → c = true → E ⟨e, trunc32 info⟩ s) (hn : ∀ s, P s → c = false → Q () s) :
    Hoare P (raiseIf c e info) Q E := by
  intro s hs; cases c
  · exact hn s hs rfl
  · exact hc s hs rfl

theorem Hoare.bind {x : Cmd α} {f : α → Cmd β} {R : α → State → Prop} {Q : β → State → Prop} (hx : Hoare P x R E)
    (hf : ∀ a, Hoare (R a) (f a) Q E) : Hoare P (x >>= f) Q E := by
  intro s hs
  rw [cmd_bind_apply]
  have h := hx s hs
  cases hxs : x s with
  | ok a t => rw [hxs] at h; exact hf a t h
  | error e t => rw [hxs] at h; exact h

theorem Hoare.ite {c : Prop} [Decidable c] {x y : Cmd α} (hx : c → Hoare P x Q E) (hy : ¬ c → Hoare P y Q E) :
    Hoare P (if c then x else y) Q E := by
  by_cases h : c
  · rw [if_pos h]; exact hx h
  · rw [if_neg h]; exact hy h

/-- A loop whose every pass carries an invariant of the index on. -/
theorem hoare_forRange {f : Nat → Cmd Unit} {I : Nat → State → Prop} {lo : Nat} (n : Nat)
    (h : ∀ i, lo ≤ i → i < lo + n → Hoare (I i) (f i) (fun _ => I (i + 1)) E) :
    Hoare (I lo) (forRange f n lo) (fun _ => I (lo + n)) E := by
  induction n generalizing lo with
  | zero => exact hoare_pure fun s hs => hs
  | succ n ih =>
    rw [forRange_succ]
    refine (h lo (Nat.le_refl _) (by omega)).bind fun _ => ?_
    have := ih (lo := lo + 1) fun i h1 h2 => h i (by omega) (by omega)
    rwa [show lo + 1 + n = lo + (n + 1) by omega] at this

/-- A property that does not depend on the outcome is carried along a triple. -/
theorem Hoare.and {P' : State → Prop} {Q' : α → State → Prop} {E' : Trap → State → Prop} {x : Cmd α}
    (h : Hoare P x Q E) (h' : Hoare P' x Q' E') :
    Hoare (fun s => P s ∧ P' s) x (fun a s => Q a s ∧ Q' a s) (fun e s => E e s ∧ E' e s) := by
  intro s hs
  have h1 := h s hs.1
  have h2 := h' s hs.2
  cases hx : x s with
  | ok a t => rw [hx] at h1 h2; exact ⟨h1, h2⟩
  | error e t => rw [hx] at h1 h2; exact ⟨h1, h2⟩

/-- How a command ends, from a triple of its body. -/
theorem Hoare.finish {body : Cmd Unit} {Q : Unit → State → Prop} (h : Hoare P body Q E) {s t : State} (hs : P s)
    (ht : Machine.finish (body s) = .next t) :
    (∃ u, Q () u ∧ t = u.complete) ∨ (∃ e u, E e u ∧ t = u.takeError e) := by
  rcases finish_cases ht with ⟨u, hu, rfl⟩ | ⟨e, u, hu, rfl⟩
  · exact .inl ⟨u, h.ok hs hu, rfl⟩
  · exact .inr ⟨e, u, h.error hs hu, rfl⟩

end Triples

/-! ### Registers held in a vector -/

theorem vget_set_self {γ : Type} {n : Nat} (v : Vector γ n) (i : Fin n) (x : γ) : (v.set i x)[i] = x := by
  simp

theorem vget_set_ne {γ : Type} {n : Nat} (v : Vector γ n) {i j : Fin n} (h : j ≠ i) (x : γ) : (v.set i x)[j] = v[j] := by
  have : (i : Nat) ≠ (j : Nat) := fun e => h (Fin.ext e.symm)
  show (v.set i x)[(j : Nat)] = v[(j : Nat)]
  rw [Vector.getElem_set_ne _ _ this]

theorem vset_set {γ : Type} {n : Nat} (v : Vector γ n) (i : Fin n) (x y : γ) : (v.set i x).set i y = v.set i y := by
  simp

end Sys2Proof.Machine
end

