-- ==== Sys2Proof/Laws/State.lean ====
section
/-! SUPPORT. One lemma per field per named update of State, so that no later proof unfolds a record update. -/

namespace Sys2Proof.Machine

/-! ### `State.accept` -/

@[simp] theorem State.accept_busy (s : State) : (s.accept).busy = true := rfl
@[simp] theorem State.accept_done (s : State) : (s.accept).done = false := rfl
@[simp] theorem State.accept_err (s : State) : (s.accept).err = s.err := rfl
@[simp] theorem State.accept_stage (s : State) : (s.accept).stage = s.stage := rfl
@[simp] theorem State.accept_errCode (s : State) : (s.accept).errCode = s.errCode := rfl
@[simp] theorem State.accept_errInfo (s : State) : (s.accept).errInfo = s.errInfo := rfl
@[simp] theorem State.accept_irqEn (s : State) : (s.accept).irqEn = s.irqEn := rfl
@[simp] theorem State.accept_a0 (s : State) : (s.accept).a0 = s.a0 := rfl
@[simp] theorem State.accept_a1 (s : State) : (s.accept).a1 = s.a1 := rfl
@[simp] theorem State.accept_a2 (s : State) : (s.accept).a2 = s.a2 := rfl
@[simp] theorem State.accept_a3 (s : State) : (s.accept).a3 = s.a3 := rfl
@[simp] theorem State.accept_res0 (s : State) : (s.accept).res0 = s.res0 := rfl
@[simp] theorem State.accept_inLen (s : State) : (s.accept).inLen = s.inLen := rfl
@[simp] theorem State.accept_brStart (s : State) : (s.accept).brStart = s.brStart := rfl
@[simp] theorem State.accept_brBytePos (s : State) : (s.accept).brBytePos = s.brBytePos := rfl
@[simp] theorem State.accept_brBitPos (s : State) : (s.accept).brBitPos = s.brBitPos := rfl
@[simp] theorem State.accept_imgW (s : State) : (s.accept).imgW = s.imgW := rfl
@[simp] theorem State.accept_imgH (s : State) : (s.accept).imgH = s.imgH := rfl
@[simp] theorem State.accept_imgAlpha (s : State) : (s.accept).imgAlpha = s.imgAlpha := rfl
@[simp] theorem State.accept_imgVersion (s : State) : (s.accept).imgVersion = s.imgVersion := rfl
@[simp] theorem State.accept_ccBits (s : State) : (s.accept).ccBits = s.ccBits := rfl
@[simp] theorem State.accept_cache (s : State) : (s.accept).cache = s.cache := rfl
@[simp] theorem State.accept_xfCount (s : State) : (s.accept).xfCount = s.xfCount := rfl
@[simp] theorem State.accept_xfDesc (s : State) : (s.accept).xfDesc = s.xfDesc := rfl
@[simp] theorem State.accept_nGroups (s : State) : (s.accept).nGroups = s.nGroups := rfl
@[simp] theorem State.accept_entPresent (s : State) : (s.accept).entPresent = s.entPresent := rfl
@[simp] theorem State.accept_entBits (s : State) : (s.accept).entBits = s.entBits := rfl
@[simp] theorem State.accept_tabInfo (s : State) : (s.accept).tabInfo = s.tabInfo := rfl
@[simp] theorem State.accept_tab (s : State) : (s.accept).tab = s.tab := rfl
@[simp] theorem State.accept_clm (s : State) : (s.accept).clm = s.clm := rfl
@[simp] theorem State.accept_inp (s : State) : (s.accept).inp = s.inp := rfl
@[simp] theorem State.accept_out (s : State) : (s.accept).out = s.out := rfl
@[simp] theorem State.accept_pix (s : State) : (s.accept).pix = s.pix := rfl
@[simp] theorem State.accept_sub (s : State) : (s.accept).sub = s.sub := rfl
@[simp] theorem State.accept_ent (s : State) : (s.accept).ent = s.ent := rfl
@[simp] theorem State.accept_clmem (s : State) : (s.accept).clmem = s.clmem := rfl
@[simp] theorem State.accept_params (s : State) : (s.accept).params = s.params := rfl
@[simp] theorem State.accept_nextDraw (s : State) : (s.accept).nextDraw = s.nextDraw := rfl
@[simp] theorem State.accept_hostOps (s : State) : (s.accept).hostOps = s.hostOps := rfl

/-! ### `State.complete` -/

@[simp] theorem State.complete_busy (s : State) : (s.complete).busy = false := rfl
@[simp] theorem State.complete_done (s : State) : (s.complete).done = true := rfl
@[simp] theorem State.complete_err (s : State) : (s.complete).err = s.err := rfl
@[simp] theorem State.complete_stage (s : State) : (s.complete).stage = s.stage := rfl
@[simp] theorem State.complete_errCode (s : State) : (s.complete).errCode = s.errCode := rfl
@[simp] theorem State.complete_errInfo (s : State) : (s.complete).errInfo = s.errInfo := rfl
@[simp] theorem State.complete_irqEn (s : State) : (s.complete).irqEn = s.irqEn := rfl
@[simp] theorem State.complete_a0 (s : State) : (s.complete).a0 = s.a0 := rfl
@[simp] theorem State.complete_a1 (s : State) : (s.complete).a1 = s.a1 := rfl
@[simp] theorem State.complete_a2 (s : State) : (s.complete).a2 = s.a2 := rfl
@[simp] theorem State.complete_a3 (s : State) : (s.complete).a3 = s.a3 := rfl
@[simp] theorem State.complete_res0 (s : State) : (s.complete).res0 = s.res0 := rfl
@[simp] theorem State.complete_inLen (s : State) : (s.complete).inLen = s.inLen := rfl
@[simp] theorem State.complete_brStart (s : State) : (s.complete).brStart = s.brStart := rfl
@[simp] theorem State.complete_brBytePos (s : State) : (s.complete).brBytePos = s.brBytePos := rfl
@[simp] theorem State.complete_brBitPos (s : State) : (s.complete).brBitPos = s.brBitPos := rfl
@[simp] theorem State.complete_imgW (s : State) : (s.complete).imgW = s.imgW := rfl
@[simp] theorem State.complete_imgH (s : State) : (s.complete).imgH = s.imgH := rfl
@[simp] theorem State.complete_imgAlpha (s : State) : (s.complete).imgAlpha = s.imgAlpha := rfl
@[simp] theorem State.complete_imgVersion (s : State) : (s.complete).imgVersion = s.imgVersion := rfl
@[simp] theorem State.complete_ccBits (s : State) : (s.complete).ccBits = s.ccBits := rfl
@[simp] theorem State.complete_cache (s : State) : (s.complete).cache = s.cache := rfl
@[simp] theorem State.complete_xfCount (s : State) : (s.complete).xfCount = s.xfCount := rfl
@[simp] theorem State.complete_xfDesc (s : State) : (s.complete).xfDesc = s.xfDesc := rfl
@[simp] theorem State.complete_nGroups (s : State) : (s.complete).nGroups = s.nGroups := rfl
@[simp] theorem State.complete_entPresent (s : State) : (s.complete).entPresent = s.entPresent := rfl
@[simp] theorem State.complete_entBits (s : State) : (s.complete).entBits = s.entBits := rfl
@[simp] theorem State.complete_tabInfo (s : State) : (s.complete).tabInfo = s.tabInfo := rfl
@[simp] theorem State.complete_tab (s : State) : (s.complete).tab = s.tab := rfl
@[simp] theorem State.complete_clm (s : State) : (s.complete).clm = s.clm := rfl
@[simp] theorem State.complete_inp (s : State) : (s.complete).inp = s.inp := rfl
@[simp] theorem State.complete_out (s : State) : (s.complete).out = s.out := rfl
@[simp] theorem State.complete_pix (s : State) : (s.complete).pix = s.pix := rfl
@[simp] theorem State.complete_sub (s : State) : (s.complete).sub = s.sub := rfl
@[simp] theorem State.complete_ent (s : State) : (s.complete).ent = s.ent := rfl
@[simp] theorem State.complete_clmem (s : State) : (s.complete).clmem = s.clmem := rfl
@[simp] theorem State.complete_params (s : State) : (s.complete).params = s.params := rfl
@[simp] theorem State.complete_nextDraw (s : State) : (s.complete).nextDraw = s.nextDraw := rfl
@[simp] theorem State.complete_hostOps (s : State) : (s.complete).hostOps = s.hostOps := rfl

/-! ### `State.takeError` -/

@[simp] theorem State.takeError_busy (s : State) (e : Trap) : (s.takeError e).busy = false := rfl
@[simp] theorem State.takeError_done (s : State) (e : Trap) : (s.takeError e).done = false := rfl
@[simp] theorem State.takeError_err (s : State) (e : Trap) : (s.takeError e).err = true := rfl
@[simp] theorem State.takeError_stage (s : State) (e : Trap) : (s.takeError e).stage = s.stage := rfl
@[simp] theorem State.takeError_errCode (s : State) (e : Trap) : (s.takeError e).errCode = e.kind.code := rfl
@[simp] theorem State.takeError_errInfo (s : State) (e : Trap) : (s.takeError e).errInfo = e.info := rfl
@[simp] theorem State.takeError_irqEn (s : State) (e : Trap) : (s.takeError e).irqEn = s.irqEn := rfl
@[simp] theorem State.takeError_a0 (s : State) (e : Trap) : (s.takeError e).a0 = s.a0 := rfl
@[simp] theorem State.takeError_a1 (s : State) (e : Trap) : (s.takeError e).a1 = s.a1 := rfl
@[simp] theorem State.takeError_a2 (s : State) (e : Trap) : (s.takeError e).a2 = s.a2 := rfl
@[simp] theorem State.takeError_a3 (s : State) (e : Trap) : (s.takeError e).a3 = s.a3 := rfl
@[simp] theorem State.takeError_res0 (s : State) (e : Trap) : (s.takeError e).res0 = s.res0 := rfl
@[simp] theorem State.takeError_inLen (s : State) (e : Trap) : (s.takeError e).inLen = s.inLen := rfl
@[simp] theorem State.takeError_brStart (s : State) (e : Trap) : (s.takeError e).brStart = s.brStart := rfl
@[simp] theorem State.takeError_brBytePos (s : State) (e : Trap) : (s.takeError e).brBytePos = s.brBytePos := rfl
@[simp] theorem State.takeError_brBitPos (s : State) (e : Trap) : (s.takeError e).brBitPos = s.brBitPos := rfl
@[simp] theorem State.takeError_imgW (s : State) (e : Trap) : (s.takeError e).imgW = s.imgW := rfl
@[simp] theorem State.takeError_imgH (s : State) (e : Trap) : (s.takeError e).imgH = s.imgH := rfl
@[simp] theorem State.takeError_imgAlpha (s : State) (e : Trap) : (s.takeError e).imgAlpha = s.imgAlpha := rfl
@[simp] theorem State.takeError_imgVersion (s : State) (e : Trap) : (s.takeError e).imgVersion = s.imgVersion := rfl
@[simp] theorem State.takeError_ccBits (s : State) (e : Trap) : (s.takeError e).ccBits = s.ccBits := rfl
@[simp] theorem State.takeError_cache (s : State) (e : Trap) : (s.takeError e).cache = s.cache := rfl
@[simp] theorem State.takeError_xfCount (s : State) (e : Trap) : (s.takeError e).xfCount = s.xfCount := rfl
@[simp] theorem State.takeError_xfDesc (s : State) (e : Trap) : (s.takeError e).xfDesc = s.xfDesc := rfl
@[simp] theorem State.takeError_nGroups (s : State) (e : Trap) : (s.takeError e).nGroups = s.nGroups := rfl
@[simp] theorem State.takeError_entPresent (s : State) (e : Trap) : (s.takeError e).entPresent = s.entPresent := rfl
@[simp] theorem State.takeError_entBits (s : State) (e : Trap) : (s.takeError e).entBits = s.entBits := rfl
@[simp] theorem State.takeError_tabInfo (s : State) (e : Trap) : (s.takeError e).tabInfo = s.tabInfo := rfl
@[simp] theorem State.takeError_tab (s : State) (e : Trap) : (s.takeError e).tab = s.tab := rfl
@[simp] theorem State.takeError_clm (s : State) (e : Trap) : (s.takeError e).clm = s.clm := rfl
@[simp] theorem State.takeError_inp (s : State) (e : Trap) : (s.takeError e).inp = s.inp := rfl
@[simp] theorem State.takeError_out (s : State) (e : Trap) : (s.takeError e).out = s.out := rfl
@[simp] theorem State.takeError_pix (s : State) (e : Trap) : (s.takeError e).pix = s.pix := rfl
@[simp] theorem State.takeError_sub (s : State) (e : Trap) : (s.takeError e).sub = s.sub := rfl
@[simp] theorem State.takeError_ent (s : State) (e : Trap) : (s.takeError e).ent = s.ent := rfl
@[simp] theorem State.takeError_clmem (s : State) (e : Trap) : (s.takeError e).clmem = s.clmem := rfl
@[simp] theorem State.takeError_params (s : State) (e : Trap) : (s.takeError e).params = s.params := rfl
@[simp] theorem State.takeError_nextDraw (s : State) (e : Trap) : (s.takeError e).nextDraw = s.nextDraw := rfl
@[simp] theorem State.takeError_hostOps (s : State) (e : Trap) : (s.takeError e).hostOps = s.hostOps := rfl

/-! ### `State.withRes0` -/

@[simp] theorem State.withRes0_busy (s : State) (v : Word) : (s.withRes0 v).busy = s.busy := rfl
@[simp] theorem State.withRes0_done (s : State) (v : Word) : (s.withRes0 v).done = s.done := rfl
@[simp] theorem State.withRes0_err (s : State) (v : Word) : (s.withRes0 v).err = s.err := rfl
@[simp] theorem State.withRes0_stage (s : State) (v : Word) : (s.withRes0 v).stage = s.stage := rfl
@[simp] theorem State.withRes0_errCode (s : State) (v : Word) : (s.withRes0 v).errCode = s.errCode := rfl
@[simp] theorem State.withRes0_errInfo (s : State) (v : Word) : (s.withRes0 v).errInfo = s.errInfo := rfl
@[simp] theorem State.withRes0_irqEn (s : State) (v : Word) : (s.withRes0 v).irqEn = s.irqEn := rfl
@[simp] theorem State.withRes0_a0 (s : State) (v : Word) : (s.withRes0 v).a0 = s.a0 := rfl
@[simp] theorem State.withRes0_a1 (s : State) (v : Word) : (s.withRes0 v).a1 = s.a1 := rfl
@[simp] theorem State.withRes0_a2 (s : State) (v : Word) : (s.withRes0 v).a2 = s.a2 := rfl
@[simp] theorem State.withRes0_a3 (s : State) (v : Word) : (s.withRes0 v).a3 = s.a3 := rfl
@[simp] theorem State.withRes0_res0 (s : State) (v : Word) : (s.withRes0 v).res0 = v := rfl
@[simp] theorem State.withRes0_inLen (s : State) (v : Word) : (s.withRes0 v).inLen = s.inLen := rfl
@[simp] theorem State.withRes0_brStart (s : State) (v : Word) : (s.withRes0 v).brStart = s.brStart := rfl
@[simp] theorem State.withRes0_brBytePos (s : State) (v : Word) : (s.withRes0 v).brBytePos = s.brBytePos := rfl
@[simp] theorem State.withRes0_brBitPos (s : State) (v : Word) : (s.withRes0 v).brBitPos = s.brBitPos := rfl
@[simp] theorem State.withRes0_imgW (s : State) (v : Word) : (s.withRes0 v).imgW = s.imgW := rfl
@[simp] theorem State.withRes0_imgH (s : State) (v : Word) : (s.withRes0 v).imgH = s.imgH := rfl
@[simp] theorem State.withRes0_imgAlpha (s : State) (v : Word) : (s.withRes0 v).imgAlpha = s.imgAlpha := rfl
@[simp] theorem State.withRes0_imgVersion (s : State) (v : Word) : (s.withRes0 v).imgVersion = s.imgVersion := rfl
@[simp] theorem State.withRes0_ccBits (s : State) (v : Word) : (s.withRes0 v).ccBits = s.ccBits := rfl
@[simp] theorem State.withRes0_cache (s : State) (v : Word) : (s.withRes0 v).cache = s.cache := rfl
@[simp] theorem State.withRes0_xfCount (s : State) (v : Word) : (s.withRes0 v).xfCount = s.xfCount := rfl
@[simp] theorem State.withRes0_xfDesc (s : State) (v : Word) : (s.withRes0 v).xfDesc = s.xfDesc := rfl
@[simp] theorem State.withRes0_nGroups (s : State) (v : Word) : (s.withRes0 v).nGroups = s.nGroups := rfl
@[simp] theorem State.withRes0_entPresent (s : State) (v : Word) : (s.withRes0 v).entPresent = s.entPresent := rfl
@[simp] theorem State.withRes0_entBits (s : State) (v : Word) : (s.withRes0 v).entBits = s.entBits := rfl
@[simp] theorem State.withRes0_tabInfo (s : State) (v : Word) : (s.withRes0 v).tabInfo = s.tabInfo := rfl
@[simp] theorem State.withRes0_tab (s : State) (v : Word) : (s.withRes0 v).tab = s.tab := rfl
@[simp] theorem State.withRes0_clm (s : State) (v : Word) : (s.withRes0 v).clm = s.clm := rfl
@[simp] theorem State.withRes0_inp (s : State) (v : Word) : (s.withRes0 v).inp = s.inp := rfl
@[simp] theorem State.withRes0_out (s : State) (v : Word) : (s.withRes0 v).out = s.out := rfl
@[simp] theorem State.withRes0_pix (s : State) (v : Word) : (s.withRes0 v).pix = s.pix := rfl
@[simp] theorem State.withRes0_sub (s : State) (v : Word) : (s.withRes0 v).sub = s.sub := rfl
@[simp] theorem State.withRes0_ent (s : State) (v : Word) : (s.withRes0 v).ent = s.ent := rfl
@[simp] theorem State.withRes0_clmem (s : State) (v : Word) : (s.withRes0 v).clmem = s.clmem := rfl
@[simp] theorem State.withRes0_params (s : State) (v : Word) : (s.withRes0 v).params = s.params := rfl
@[simp] theorem State.withRes0_nextDraw (s : State) (v : Word) : (s.withRes0 v).nextDraw = s.nextDraw := rfl
@[simp] theorem State.withRes0_hostOps (s : State) (v : Word) : (s.withRes0 v).hostOps = s.hostOps := rfl

/-! ### `State.atStage` -/

@[simp] theorem State.atStage_busy (s : State) (st : Stage) : (s.atStage st).busy = s.busy := rfl
@[simp] theorem State.atStage_done (s : State) (st : Stage) : (s.atStage st).done = s.done := rfl
@[simp] theorem State.atStage_err (s : State) (st : Stage) : (s.atStage st).err = s.err := rfl
@[simp] theorem State.atStage_stage (s : State) (st : Stage) : (s.atStage st).stage = st := rfl
@[simp] theorem State.atStage_errCode (s : State) (st : Stage) : (s.atStage st).errCode = s.errCode := rfl
@[simp] theorem State.atStage_errInfo (s : State) (st : Stage) : (s.atStage st).errInfo = s.errInfo := rfl
@[simp] theorem State.atStage_irqEn (s : State) (st : Stage) : (s.atStage st).irqEn = s.irqEn := rfl
@[simp] theorem State.atStage_a0 (s : State) (st : Stage) : (s.atStage st).a0 = s.a0 := rfl
@[simp] theorem State.atStage_a1 (s : State) (st : Stage) : (s.atStage st).a1 = s.a1 := rfl
@[simp] theorem State.atStage_a2 (s : State) (st : Stage) : (s.atStage st).a2 = s.a2 := rfl
@[simp] theorem State.atStage_a3 (s : State) (st : Stage) : (s.atStage st).a3 = s.a3 := rfl
@[simp] theorem State.atStage_res0 (s : State) (st : Stage) : (s.atStage st).res0 = s.res0 := rfl
@[simp] theorem State.atStage_inLen (s : State) (st : Stage) : (s.atStage st).inLen = s.inLen := rfl
@[simp] theorem State.atStage_brStart (s : State) (st : Stage) : (s.atStage st).brStart = s.brStart := rfl
@[simp] theorem State.atStage_brBytePos (s : State) (st : Stage) : (s.atStage st).brBytePos = s.brBytePos := rfl
@[simp] theorem State.atStage_brBitPos (s : State) (st : Stage) : (s.atStage st).brBitPos = s.brBitPos := rfl
@[simp] theorem State.atStage_imgW (s : State) (st : Stage) : (s.atStage st).imgW = s.imgW := rfl
@[simp] theorem State.atStage_imgH (s : State) (st : Stage) : (s.atStage st).imgH = s.imgH := rfl
@[simp] theorem State.atStage_imgAlpha (s : State) (st : Stage) : (s.atStage st).imgAlpha = s.imgAlpha := rfl
@[simp] theorem State.atStage_imgVersion (s : State) (st : Stage) : (s.atStage st).imgVersion = s.imgVersion := rfl
@[simp] theorem State.atStage_ccBits (s : State) (st : Stage) : (s.atStage st).ccBits = s.ccBits := rfl
@[simp] theorem State.atStage_cache (s : State) (st : Stage) : (s.atStage st).cache = s.cache := rfl
@[simp] theorem State.atStage_xfCount (s : State) (st : Stage) : (s.atStage st).xfCount = s.xfCount := rfl
@[simp] theorem State.atStage_xfDesc (s : State) (st : Stage) : (s.atStage st).xfDesc = s.xfDesc := rfl
@[simp] theorem State.atStage_nGroups (s : State) (st : Stage) : (s.atStage st).nGroups = s.nGroups := rfl
@[simp] theorem State.atStage_entPresent (s : State) (st : Stage) : (s.atStage st).entPresent = s.entPresent := rfl
@[simp] theorem State.atStage_entBits (s : State) (st : Stage) : (s.atStage st).entBits = s.entBits := rfl
@[simp] theorem State.atStage_tabInfo (s : State) (st : Stage) : (s.atStage st).tabInfo = s.tabInfo := rfl
@[simp] theorem State.atStage_tab (s : State) (st : Stage) : (s.atStage st).tab = s.tab := rfl
@[simp] theorem State.atStage_clm (s : State) (st : Stage) : (s.atStage st).clm = s.clm := rfl
@[simp] theorem State.atStage_inp (s : State) (st : Stage) : (s.atStage st).inp = s.inp := rfl
@[simp] theorem State.atStage_out (s : State) (st : Stage) : (s.atStage st).out = s.out := rfl
@[simp] theorem State.atStage_pix (s : State) (st : Stage) : (s.atStage st).pix = s.pix := rfl
@[simp] theorem State.atStage_sub (s : State) (st : Stage) : (s.atStage st).sub = s.sub := rfl
@[simp] theorem State.atStage_ent (s : State) (st : Stage) : (s.atStage st).ent = s.ent := rfl
@[simp] theorem State.atStage_clmem (s : State) (st : Stage) : (s.atStage st).clmem = s.clmem := rfl
@[simp] theorem State.atStage_params (s : State) (st : Stage) : (s.atStage st).params = s.params := rfl
@[simp] theorem State.atStage_nextDraw (s : State) (st : Stage) : (s.atStage st).nextDraw = s.nextDraw := rfl
@[simp] theorem State.atStage_hostOps (s : State) (st : Stage) : (s.atStage st).hostOps = s.hostOps := rfl

/-! ### `State.startReader` -/

@[simp] theorem State.startReader_busy (s : State) (b : Word) : (s.startReader b).busy = s.busy := rfl
@[simp] theorem State.startReader_done (s : State) (b : Word) : (s.startReader b).done = s.done := rfl
@[simp] theorem State.startReader_err (s : State) (b : Word) : (s.startReader b).err = s.err := rfl
@[simp] theorem State.startReader_stage (s : State) (b : Word) : (s.startReader b).stage = s.stage := rfl
@[simp] theorem State.startReader_errCode (s : State) (b : Word) : (s.startReader b).errCode = s.errCode := rfl
@[simp] theorem State.startReader_errInfo (s : State) (b : Word) : (s.startReader b).errInfo = s.errInfo := rfl
@[simp] theorem State.startReader_irqEn (s : State) (b : Word) : (s.startReader b).irqEn = s.irqEn := rfl
@[simp] theorem State.startReader_a0 (s : State) (b : Word) : (s.startReader b).a0 = s.a0 := rfl
@[simp] theorem State.startReader_a1 (s : State) (b : Word) : (s.startReader b).a1 = s.a1 := rfl
@[simp] theorem State.startReader_a2 (s : State) (b : Word) : (s.startReader b).a2 = s.a2 := rfl
@[simp] theorem State.startReader_a3 (s : State) (b : Word) : (s.startReader b).a3 = s.a3 := rfl
@[simp] theorem State.startReader_res0 (s : State) (b : Word) : (s.startReader b).res0 = s.res0 := rfl
@[simp] theorem State.startReader_inLen (s : State) (b : Word) : (s.startReader b).inLen = s.inLen := rfl
@[simp] theorem State.startReader_brStart (s : State) (b : Word) : (s.startReader b).brStart = b := rfl
@[simp] theorem State.startReader_brBytePos (s : State) (b : Word) : (s.startReader b).brBytePos = b := rfl
@[simp] theorem State.startReader_brBitPos (s : State) (b : Word) : (s.startReader b).brBitPos = 0 := rfl
@[simp] theorem State.startReader_imgW (s : State) (b : Word) : (s.startReader b).imgW = s.imgW := rfl
@[simp] theorem State.startReader_imgH (s : State) (b : Word) : (s.startReader b).imgH = s.imgH := rfl
@[simp] theorem State.startReader_imgAlpha (s : State) (b : Word) : (s.startReader b).imgAlpha = s.imgAlpha := rfl
@[simp] theorem State.startReader_imgVersion (s : State) (b : Word) :
    (s.startReader b).imgVersion = s.imgVersion := rfl
@[simp] theorem State.startReader_ccBits (s : State) (b : Word) : (s.startReader b).ccBits = s.ccBits := rfl
@[simp] theorem State.startReader_cache (s : State) (b : Word) : (s.startReader b).cache = s.cache := rfl
@[simp] theorem State.startReader_xfCount (s : State) (b : Word) : (s.startReader b).xfCount = s.xfCount := rfl
@[simp] theorem State.startReader_xfDesc (s : State) (b : Word) : (s.startReader b).xfDesc = s.xfDesc := rfl
@[simp] theorem State.startReader_nGroups (s : State) (b : Word) : (s.startReader b).nGroups = s.nGroups := rfl
@[simp] theorem State.startReader_entPresent (s : State) (b : Word) :
    (s.startReader b).entPresent = s.entPresent := rfl
@[simp] theorem State.startReader_entBits (s : State) (b : Word) : (s.startReader b).entBits = s.entBits := rfl
@[simp] theorem State.startReader_tabInfo (s : State) (b : Word) : (s.startReader b).tabInfo = s.tabInfo := rfl
@[simp] theorem State.startReader_tab (s : State) (b : Word) : (s.startReader b).tab = s.tab := rfl
@[simp] theorem State.startReader_clm (s : State) (b : Word) : (s.startReader b).clm = s.clm := rfl
@[simp] theorem State.startReader_inp (s : State) (b : Word) : (s.startReader b).inp = s.inp := rfl
@[simp] theorem State.startReader_out (s : State) (b : Word) : (s.startReader b).out = s.out := rfl
@[simp] theorem State.startReader_pix (s : State) (b : Word) : (s.startReader b).pix = s.pix := rfl
@[simp] theorem State.startReader_sub (s : State) (b : Word) : (s.startReader b).sub = s.sub := rfl
@[simp] theorem State.startReader_ent (s : State) (b : Word) : (s.startReader b).ent = s.ent := rfl
@[simp] theorem State.startReader_clmem (s : State) (b : Word) : (s.startReader b).clmem = s.clmem := rfl
@[simp] theorem State.startReader_params (s : State) (b : Word) : (s.startReader b).params = s.params := rfl
@[simp] theorem State.startReader_nextDraw (s : State) (b : Word) : (s.startReader b).nextDraw = s.nextDraw := rfl
@[simp] theorem State.startReader_hostOps (s : State) (b : Word) : (s.startReader b).hostOps = s.hostOps := rfl

/-! ### `State.setTabInfo` -/

@[simp] theorem State.setTabInfo_busy (s : State) (t : Fin 7) (i : TabInfo) : (s.setTabInfo t i).busy = s.busy := rfl
@[simp] theorem State.setTabInfo_done (s : State) (t : Fin 7) (i : TabInfo) : (s.setTabInfo t i).done = s.done := rfl
@[simp] theorem State.setTabInfo_err (s : State) (t : Fin 7) (i : TabInfo) : (s.setTabInfo t i).err = s.err := rfl
@[simp] theorem State.setTabInfo_stage (s : State) (t : Fin 7) (i : TabInfo) :
    (s.setTabInfo t i).stage = s.stage := rfl
@[simp] theorem State.setTabInfo_errCode (s : State) (t : Fin 7) (i : TabInfo) :
    (s.setTabInfo t i).errCode = s.errCode := rfl
@[simp] theorem State.setTabInfo_errInfo (s : State) (t : Fin 7) (i : TabInfo) :
    (s.setTabInfo t i).errInfo = s.errInfo := rfl
@[simp] theorem State.setTabInfo_irqEn (s : State) (t : Fin 7) (i : TabInfo) :
    (s.setTabInfo t i).irqEn = s.irqEn := rfl
@[simp] theorem State.setTabInfo_a0 (s : State) (t : Fin 7) (i : TabInfo) : (s.setTabInfo t i).a0 = s.a0 := rfl
@[simp] theorem State.setTabInfo_a1 (s : State) (t : Fin 7) (i : TabInfo) : (s.setTabInfo t i).a1 = s.a1 := rfl
@[simp] theorem State.setTabInfo_a2 (s : State) (t : Fin 7) (i : TabInfo) : (s.setTabInfo t i).a2 = s.a2 := rfl
@[simp] theorem State.setTabInfo_a3 (s : State) (t : Fin 7) (i : TabInfo) : (s.setTabInfo t i).a3 = s.a3 := rfl
@[simp] theorem State.setTabInfo_res0 (s : State) (t : Fin 7) (i : TabInfo) : (s.setTabInfo t i).res0 = s.res0 := rfl
@[simp] theorem State.setTabInfo_inLen (s : State) (t : Fin 7) (i : TabInfo) :
    (s.setTabInfo t i).inLen = s.inLen := rfl
@[simp] theorem State.setTabInfo_brStart (s : State) (t : Fin 7) (i : TabInfo) :
    (s.setTabInfo t i).brStart = s.brStart := rfl
@[simp] theorem State.setTabInfo_brBytePos (s : State) (t : Fin 7) (i : TabInfo) :
    (s.setTabInfo t i).brBytePos = s.brBytePos := rfl
@[simp] theorem State.setTabInfo_brBitPos (s : State) (t : Fin 7) (i : TabInfo) :
    (s.setTabInfo t i).brBitPos = s.brBitPos := rfl
@[simp] theorem State.setTabInfo_imgW (s : State) (t : Fin 7) (i : TabInfo) : (s.setTabInfo t i).imgW = s.imgW := rfl
@[simp] theorem State.setTabInfo_imgH (s : State) (t : Fin 7) (i : TabInfo) : (s.setTabInfo t i).imgH = s.imgH := rfl
@[simp] theorem State.setTabInfo_imgAlpha (s : State) (t : Fin 7) (i : TabInfo) :
    (s.setTabInfo t i).imgAlpha = s.imgAlpha := rfl
@[simp] theorem State.setTabInfo_imgVersion (s : State) (t : Fin 7) (i : TabInfo) :
    (s.setTabInfo t i).imgVersion = s.imgVersion := rfl
@[simp] theorem State.setTabInfo_ccBits (s : State) (t : Fin 7) (i : TabInfo) :
    (s.setTabInfo t i).ccBits = s.ccBits := rfl
@[simp] theorem State.setTabInfo_cache (s : State) (t : Fin 7) (i : TabInfo) :
    (s.setTabInfo t i).cache = s.cache := rfl
@[simp] theorem State.setTabInfo_xfCount (s : State) (t : Fin 7) (i : TabInfo) :
    (s.setTabInfo t i).xfCount = s.xfCount := rfl
@[simp] theorem State.setTabInfo_xfDesc (s : State) (t : Fin 7) (i : TabInfo) :
    (s.setTabInfo t i).xfDesc = s.xfDesc := rfl
@[simp] theorem State.setTabInfo_nGroups (s : State) (t : Fin 7) (i : TabInfo) :
    (s.setTabInfo t i).nGroups = s.nGroups := rfl
@[simp] theorem State.setTabInfo_entPresent (s : State) (t : Fin 7) (i : TabInfo) :
    (s.setTabInfo t i).entPresent = s.entPresent := rfl
@[simp] theorem State.setTabInfo_entBits (s : State) (t : Fin 7) (i : TabInfo) :
    (s.setTabInfo t i).entBits = s.entBits := rfl
@[simp] theorem State.setTabInfo_tabInfo (s : State) (t : Fin 7) (i : TabInfo) :
    (s.setTabInfo t i).tabInfo = s.tabInfo.set t i := rfl
@[simp] theorem State.setTabInfo_tab (s : State) (t : Fin 7) (i : TabInfo) : (s.setTabInfo t i).tab = s.tab := rfl
@[simp] theorem State.setTabInfo_clm (s : State) (t : Fin 7) (i : TabInfo) : (s.setTabInfo t i).clm = s.clm := rfl
@[simp] theorem State.setTabInfo_inp (s : State) (t : Fin 7) (i : TabInfo) : (s.setTabInfo t i).inp = s.inp := rfl
@[simp] theorem State.setTabInfo_out (s : State) (t : Fin 7) (i : TabInfo) : (s.setTabInfo t i).out = s.out := rfl
@[simp] theorem State.setTabInfo_pix (s : State) (t : Fin 7) (i : TabInfo) : (s.setTabInfo t i).pix = s.pix := rfl
@[simp] theorem State.setTabInfo_sub (s : State) (t : Fin 7) (i : TabInfo) : (s.setTabInfo t i).sub = s.sub := rfl
@[simp] theorem State.setTabInfo_ent (s : State) (t : Fin 7) (i : TabInfo) : (s.setTabInfo t i).ent = s.ent := rfl
@[simp] theorem State.setTabInfo_clmem (s : State) (t : Fin 7) (i : TabInfo) :
    (s.setTabInfo t i).clmem = s.clmem := rfl
@[simp] theorem State.setTabInfo_params (s : State) (t : Fin 7) (i : TabInfo) :
    (s.setTabInfo t i).params = s.params := rfl
@[simp] theorem State.setTabInfo_nextDraw (s : State) (t : Fin 7) (i : TabInfo) :
    (s.setTabInfo t i).nextDraw = s.nextDraw := rfl
@[simp] theorem State.setTabInfo_hostOps (s : State) (t : Fin 7) (i : TabInfo) :
    (s.setTabInfo t i).hostOps = s.hostOps := rfl

/-! ### `State.forgetTab` -/

@[simp] theorem State.forgetTab_busy (s : State) (t : Fin 7) : (s.forgetTab t).busy = s.busy := rfl
@[simp] theorem State.forgetTab_done (s : State) (t : Fin 7) : (s.forgetTab t).done = s.done := rfl
@[simp] theorem State.forgetTab_err (s : State) (t : Fin 7) : (s.forgetTab t).err = s.err := rfl
@[simp] theorem State.forgetTab_stage (s : State) (t : Fin 7) : (s.forgetTab t).stage = s.stage := rfl
@[simp] theorem State.forgetTab_errCode (s : State) (t : Fin 7) : (s.forgetTab t).errCode = s.errCode := rfl
@[simp] theorem State.forgetTab_errInfo (s : State) (t : Fin 7) : (s.forgetTab t).errInfo = s.errInfo := rfl
@[simp] theorem State.forgetTab_irqEn (s : State) (t : Fin 7) : (s.forgetTab t).irqEn = s.irqEn := rfl
@[simp] theorem State.forgetTab_a0 (s : State) (t : Fin 7) : (s.forgetTab t).a0 = s.a0 := rfl
@[simp] theorem State.forgetTab_a1 (s : State) (t : Fin 7) : (s.forgetTab t).a1 = s.a1 := rfl
@[simp] theorem State.forgetTab_a2 (s : State) (t : Fin 7) : (s.forgetTab t).a2 = s.a2 := rfl
@[simp] theorem State.forgetTab_a3 (s : State) (t : Fin 7) : (s.forgetTab t).a3 = s.a3 := rfl
@[simp] theorem State.forgetTab_res0 (s : State) (t : Fin 7) : (s.forgetTab t).res0 = s.res0 := rfl
@[simp] theorem State.forgetTab_inLen (s : State) (t : Fin 7) : (s.forgetTab t).inLen = s.inLen := rfl
@[simp] theorem State.forgetTab_brStart (s : State) (t : Fin 7) : (s.forgetTab t).brStart = s.brStart := rfl
@[simp] theorem State.forgetTab_brBytePos (s : State) (t : Fin 7) : (s.forgetTab t).brBytePos = s.brBytePos := rfl
@[simp] theorem State.forgetTab_brBitPos (s : State) (t : Fin 7) : (s.forgetTab t).brBitPos = s.brBitPos := rfl
@[simp] theorem State.forgetTab_imgW (s : State) (t : Fin 7) : (s.forgetTab t).imgW = s.imgW := rfl
@[simp] theorem State.forgetTab_imgH (s : State) (t : Fin 7) : (s.forgetTab t).imgH = s.imgH := rfl
@[simp] theorem State.forgetTab_imgAlpha (s : State) (t : Fin 7) : (s.forgetTab t).imgAlpha = s.imgAlpha := rfl
@[simp] theorem State.forgetTab_imgVersion (s : State) (t : Fin 7) : (s.forgetTab t).imgVersion = s.imgVersion := rfl
@[simp] theorem State.forgetTab_ccBits (s : State) (t : Fin 7) : (s.forgetTab t).ccBits = s.ccBits := rfl
@[simp] theorem State.forgetTab_cache (s : State) (t : Fin 7) : (s.forgetTab t).cache = s.cache := rfl
@[simp] theorem State.forgetTab_xfCount (s : State) (t : Fin 7) : (s.forgetTab t).xfCount = s.xfCount := rfl
@[simp] theorem State.forgetTab_xfDesc (s : State) (t : Fin 7) : (s.forgetTab t).xfDesc = s.xfDesc := rfl
@[simp] theorem State.forgetTab_nGroups (s : State) (t : Fin 7) : (s.forgetTab t).nGroups = s.nGroups := rfl
@[simp] theorem State.forgetTab_entPresent (s : State) (t : Fin 7) : (s.forgetTab t).entPresent = s.entPresent := rfl
@[simp] theorem State.forgetTab_entBits (s : State) (t : Fin 7) : (s.forgetTab t).entBits = s.entBits := rfl
@[simp] theorem State.forgetTab_tabInfo (s : State) (t : Fin 7) : (s.forgetTab t).tabInfo = s.tabInfo := rfl
@[simp] theorem State.forgetTab_tab (s : State) (t : Fin 7) :
    (s.forgetTab t).tab = s.tab.set t (.unspecified s.nextDraw) := rfl
@[simp] theorem State.forgetTab_clm (s : State) (t : Fin 7) : (s.forgetTab t).clm = s.clm := rfl
@[simp] theorem State.forgetTab_inp (s : State) (t : Fin 7) : (s.forgetTab t).inp = s.inp := rfl
@[simp] theorem State.forgetTab_out (s : State) (t : Fin 7) : (s.forgetTab t).out = s.out := rfl
@[simp] theorem State.forgetTab_pix (s : State) (t : Fin 7) : (s.forgetTab t).pix = s.pix := rfl
@[simp] theorem State.forgetTab_sub (s : State) (t : Fin 7) : (s.forgetTab t).sub = s.sub := rfl
@[simp] theorem State.forgetTab_ent (s : State) (t : Fin 7) : (s.forgetTab t).ent = s.ent := rfl
@[simp] theorem State.forgetTab_clmem (s : State) (t : Fin 7) : (s.forgetTab t).clmem = s.clmem := rfl
@[simp] theorem State.forgetTab_params (s : State) (t : Fin 7) : (s.forgetTab t).params = s.params := rfl
@[simp] theorem State.forgetTab_nextDraw (s : State) (t : Fin 7) : (s.forgetTab t).nextDraw = s.nextDraw + 1 := rfl
@[simp] theorem State.forgetTab_hostOps (s : State) (t : Fin 7) : (s.forgetTab t).hostOps = s.hostOps := rfl

/-! ### `State.setCodeLengths` -/

@[simp] theorem State.setCodeLengths_busy (s : State) (i : Nat) (vs : List Byte) :
    (s.setCodeLengths i vs).busy = s.busy := rfl
@[simp] theorem State.setCodeLengths_done (s : State) (i : Nat) (vs : List Byte) :
    (s.setCodeLengths i vs).done = s.done := rfl
@[simp] theorem State.setCodeLengths_err (s : State) (i : Nat) (vs : List Byte) :
    (s.setCodeLengths i vs).err = s.err := rfl
@[simp] theorem State.setCodeLengths_stage (s : State) (i : Nat) (vs : List Byte) :
    (s.setCodeLengths i vs).stage = s.stage := rfl
@[simp] theorem State.setCodeLengths_errCode (s : State) (i : Nat) (vs : List Byte) :
    (s.setCodeLengths i vs).errCode = s.errCode := rfl
@[simp] theorem State.setCodeLengths_errInfo (s : State) (i : Nat) (vs : List Byte) :
    (s.setCodeLengths i vs).errInfo = s.errInfo := rfl
@[simp] theorem State.setCodeLengths_irqEn (s : State) (i : Nat) (vs : List Byte) :
    (s.setCodeLengths i vs).irqEn = s.irqEn := rfl
@[simp] theorem State.setCodeLengths_a0 (s : State) (i : Nat) (vs : List Byte) :
    (s.setCodeLengths i vs).a0 = s.a0 := rfl
@[simp] theorem State.setCodeLengths_a1 (s : State) (i : Nat) (vs : List Byte) :
    (s.setCodeLengths i vs).a1 = s.a1 := rfl
@[simp] theorem State.setCodeLengths_a2 (s : State) (i : Nat) (vs : List Byte) :
    (s.setCodeLengths i vs).a2 = s.a2 := rfl
@[simp] theorem State.setCodeLengths_a3 (s : State) (i : Nat) (vs : List Byte) :
    (s.setCodeLengths i vs).a3 = s.a3 := rfl
@[simp] theorem State.setCodeLengths_res0 (s : State) (i : Nat) (vs : List Byte) :
    (s.setCodeLengths i vs).res0 = s.res0 := rfl
@[simp] theorem State.setCodeLengths_inLen (s : State) (i : Nat) (vs : List Byte) :
    (s.setCodeLengths i vs).inLen = s.inLen := rfl
@[simp] theorem State.setCodeLengths_brStart (s : State) (i : Nat) (vs : List Byte) :
    (s.setCodeLengths i vs).brStart = s.brStart := rfl
@[simp] theorem State.setCodeLengths_brBytePos (s : State) (i : Nat) (vs : List Byte) :
    (s.setCodeLengths i vs).brBytePos = s.brBytePos := rfl
@[simp] theorem State.setCodeLengths_brBitPos (s : State) (i : Nat) (vs : List Byte) :
    (s.setCodeLengths i vs).brBitPos = s.brBitPos := rfl
@[simp] theorem State.setCodeLengths_imgW (s : State) (i : Nat) (vs : List Byte) :
    (s.setCodeLengths i vs).imgW = s.imgW := rfl
@[simp] theorem State.setCodeLengths_imgH (s : State) (i : Nat) (vs : List Byte) :
    (s.setCodeLengths i vs).imgH = s.imgH := rfl
@[simp] theorem State.setCodeLengths_imgAlpha (s : State) (i : Nat) (vs : List Byte) :
    (s.setCodeLengths i vs).imgAlpha = s.imgAlpha := rfl
@[simp] theorem State.setCodeLengths_imgVersion (s : State) (i : Nat) (vs : List Byte) :
    (s.setCodeLengths i vs).imgVersion = s.imgVersion := rfl
@[simp] theorem State.setCodeLengths_ccBits (s : State) (i : Nat) (vs : List Byte) :
    (s.setCodeLengths i vs).ccBits = s.ccBits := rfl
@[simp] theorem State.setCodeLengths_cache (s : State) (i : Nat) (vs : List Byte) :
    (s.setCodeLengths i vs).cache = s.cache := rfl
@[simp] theorem State.setCodeLengths_xfCount (s : State) (i : Nat) (vs : List Byte) :
    (s.setCodeLengths i vs).xfCount = s.xfCount := rfl
@[simp] theorem State.setCodeLengths_xfDesc (s : State) (i : Nat) (vs : List Byte) :
    (s.setCodeLengths i vs).xfDesc = s.xfDesc := rfl
@[simp] theorem State.setCodeLengths_nGroups (s : State) (i : Nat) (vs : List Byte) :
    (s.setCodeLengths i vs).nGroups = s.nGroups := rfl
@[simp] theorem State.setCodeLengths_entPresent (s : State) (i : Nat) (vs : List Byte) :
    (s.setCodeLengths i vs).entPresent = s.entPresent := rfl
@[simp] theorem State.setCodeLengths_entBits (s : State) (i : Nat) (vs : List Byte) :
    (s.setCodeLengths i vs).entBits = s.entBits := rfl
@[simp] theorem State.setCodeLengths_tabInfo (s : State) (i : Nat) (vs : List Byte) :
    (s.setCodeLengths i vs).tabInfo = s.tabInfo := rfl
@[simp] theorem State.setCodeLengths_tab (s : State) (i : Nat) (vs : List Byte) :
    (s.setCodeLengths i vs).tab = s.tab := rfl
@[simp] theorem State.setCodeLengths_clm (s : State) (i : Nat) (vs : List Byte) :
    (s.setCodeLengths i vs).clm = s.clm := rfl
@[simp] theorem State.setCodeLengths_inp (s : State) (i : Nat) (vs : List Byte) :
    (s.setCodeLengths i vs).inp = s.inp := rfl
@[simp] theorem State.setCodeLengths_out (s : State) (i : Nat) (vs : List Byte) :
    (s.setCodeLengths i vs).out = s.out := rfl
@[simp] theorem State.setCodeLengths_pix (s : State) (i : Nat) (vs : List Byte) :
    (s.setCodeLengths i vs).pix = s.pix := rfl
@[simp] theorem State.setCodeLengths_sub (s : State) (i : Nat) (vs : List Byte) :
    (s.setCodeLengths i vs).sub = s.sub := rfl
@[simp] theorem State.setCodeLengths_ent (s : State) (i : Nat) (vs : List Byte) :
    (s.setCodeLengths i vs).ent = s.ent := rfl
@[simp] theorem State.setCodeLengths_clmem (s : State) (i : Nat) (vs : List Byte) :
    (s.setCodeLengths i vs).clmem = s.clmem.writeList i vs := rfl
@[simp] theorem State.setCodeLengths_params (s : State) (i : Nat) (vs : List Byte) :
    (s.setCodeLengths i vs).params = s.params := rfl
@[simp] theorem State.setCodeLengths_nextDraw (s : State) (i : Nat) (vs : List Byte) :
    (s.setCodeLengths i vs).nextDraw = s.nextDraw := rfl
@[simp] theorem State.setCodeLengths_hostOps (s : State) (i : Nat) (vs : List Byte) :
    (s.setCodeLengths i vs).hostOps = s.hostOps := rfl

/-! ### `State.clearCache` -/

@[simp] theorem State.clearCache_busy (s : State) (b : Nat) : (s.clearCache b).busy = s.busy := rfl
@[simp] theorem State.clearCache_done (s : State) (b : Nat) : (s.clearCache b).done = s.done := rfl
@[simp] theorem State.clearCache_err (s : State) (b : Nat) : (s.clearCache b).err = s.err := rfl
@[simp] theorem State.clearCache_stage (s : State) (b : Nat) : (s.clearCache b).stage = s.stage := rfl
@[simp] theorem State.clearCache_errCode (s : State) (b : Nat) : (s.clearCache b).errCode = s.errCode := rfl
@[simp] theorem State.clearCache_errInfo (s : State) (b : Nat) : (s.clearCache b).errInfo = s.errInfo := rfl
@[simp] theorem State.clearCache_irqEn (s : State) (b : Nat) : (s.clearCache b).irqEn = s.irqEn := rfl
@[simp] theorem State.clearCache_a0 (s : State) (b : Nat) : (s.clearCache b).a0 = s.a0 := rfl
@[simp] theorem State.clearCache_a1 (s : State) (b : Nat) : (s.clearCache b).a1 = s.a1 := rfl
@[simp] theorem State.clearCache_a2 (s : State) (b : Nat) : (s.clearCache b).a2 = s.a2 := rfl
@[simp] theorem State.clearCache_a3 (s : State) (b : Nat) : (s.clearCache b).a3 = s.a3 := rfl
@[simp] theorem State.clearCache_res0 (s : State) (b : Nat) : (s.clearCache b).res0 = s.res0 := rfl
@[simp] theorem State.clearCache_inLen (s : State) (b : Nat) : (s.clearCache b).inLen = s.inLen := rfl
@[simp] theorem State.clearCache_brStart (s : State) (b : Nat) : (s.clearCache b).brStart = s.brStart := rfl
@[simp] theorem State.clearCache_brBytePos (s : State) (b : Nat) : (s.clearCache b).brBytePos = s.brBytePos := rfl
@[simp] theorem State.clearCache_brBitPos (s : State) (b : Nat) : (s.clearCache b).brBitPos = s.brBitPos := rfl
@[simp] theorem State.clearCache_imgW (s : State) (b : Nat) : (s.clearCache b).imgW = s.imgW := rfl
@[simp] theorem State.clearCache_imgH (s : State) (b : Nat) : (s.clearCache b).imgH = s.imgH := rfl
@[simp] theorem State.clearCache_imgAlpha (s : State) (b : Nat) : (s.clearCache b).imgAlpha = s.imgAlpha := rfl
@[simp] theorem State.clearCache_imgVersion (s : State) (b : Nat) : (s.clearCache b).imgVersion = s.imgVersion := rfl
@[simp] theorem State.clearCache_ccBits (s : State) (b : Nat) : (s.clearCache b).ccBits = BitVec.ofNat 4 b := rfl
@[simp] theorem State.clearCache_cache (s : State) (b : Nat) : (s.clearCache b).cache = .cleared := rfl
@[simp] theorem State.clearCache_xfCount (s : State) (b : Nat) : (s.clearCache b).xfCount = s.xfCount := rfl
@[simp] theorem State.clearCache_xfDesc (s : State) (b : Nat) : (s.clearCache b).xfDesc = s.xfDesc := rfl
@[simp] theorem State.clearCache_nGroups (s : State) (b : Nat) : (s.clearCache b).nGroups = s.nGroups := rfl
@[simp] theorem State.clearCache_entPresent (s : State) (b : Nat) : (s.clearCache b).entPresent = s.entPresent := rfl
@[simp] theorem State.clearCache_entBits (s : State) (b : Nat) : (s.clearCache b).entBits = s.entBits := rfl
@[simp] theorem State.clearCache_tabInfo (s : State) (b : Nat) : (s.clearCache b).tabInfo = s.tabInfo := rfl
@[simp] theorem State.clearCache_tab (s : State) (b : Nat) : (s.clearCache b).tab = s.tab := rfl
@[simp] theorem State.clearCache_clm (s : State) (b : Nat) : (s.clearCache b).clm = s.clm := rfl
@[simp] theorem State.clearCache_inp (s : State) (b : Nat) : (s.clearCache b).inp = s.inp := rfl
@[simp] theorem State.clearCache_out (s : State) (b : Nat) : (s.clearCache b).out = s.out := rfl
@[simp] theorem State.clearCache_pix (s : State) (b : Nat) : (s.clearCache b).pix = s.pix := rfl
@[simp] theorem State.clearCache_sub (s : State) (b : Nat) : (s.clearCache b).sub = s.sub := rfl
@[simp] theorem State.clearCache_ent (s : State) (b : Nat) : (s.clearCache b).ent = s.ent := rfl
@[simp] theorem State.clearCache_clmem (s : State) (b : Nat) : (s.clearCache b).clmem = s.clmem := rfl
@[simp] theorem State.clearCache_params (s : State) (b : Nat) : (s.clearCache b).params = s.params := rfl
@[simp] theorem State.clearCache_nextDraw (s : State) (b : Nat) : (s.clearCache b).nextDraw = s.nextDraw := rfl
@[simp] theorem State.clearCache_hostOps (s : State) (b : Nat) : (s.clearCache b).hostOps = s.hostOps := rfl

/-! ### `State.setPix` -/

@[simp] theorem State.setPix_busy (s : State) (i : Nat) (p : Word) : (s.setPix i p).busy = s.busy := rfl
@[simp] theorem State.setPix_done (s : State) (i : Nat) (p : Word) : (s.setPix i p).done = s.done := rfl
@[simp] theorem State.setPix_err (s : State) (i : Nat) (p : Word) : (s.setPix i p).err = s.err := rfl
@[simp] theorem State.setPix_stage (s : State) (i : Nat) (p : Word) : (s.setPix i p).stage = s.stage := rfl
@[simp] theorem State.setPix_errCode (s : State) (i : Nat) (p : Word) : (s.setPix i p).errCode = s.errCode := rfl
@[simp] theorem State.setPix_errInfo (s : State) (i : Nat) (p : Word) : (s.setPix i p).errInfo = s.errInfo := rfl
@[simp] theorem State.setPix_irqEn (s : State) (i : Nat) (p : Word) : (s.setPix i p).irqEn = s.irqEn := rfl
@[simp] theorem State.setPix_a0 (s : State) (i : Nat) (p : Word) : (s.setPix i p).a0 = s.a0 := rfl
@[simp] theorem State.setPix_a1 (s : State) (i : Nat) (p : Word) : (s.setPix i p).a1 = s.a1 := rfl
@[simp] theorem State.setPix_a2 (s : State) (i : Nat) (p : Word) : (s.setPix i p).a2 = s.a2 := rfl
@[simp] theorem State.setPix_a3 (s : State) (i : Nat) (p : Word) : (s.setPix i p).a3 = s.a3 := rfl
@[simp] theorem State.setPix_res0 (s : State) (i : Nat) (p : Word) : (s.setPix i p).res0 = s.res0 := rfl
@[simp] theorem State.setPix_inLen (s : State) (i : Nat) (p : Word) : (s.setPix i p).inLen = s.inLen := rfl
@[simp] theorem State.setPix_brStart (s : State) (i : Nat) (p : Word) : (s.setPix i p).brStart = s.brStart := rfl
@[simp] theorem State.setPix_brBytePos (s : State) (i : Nat) (p : Word) :
    (s.setPix i p).brBytePos = s.brBytePos := rfl
@[simp] theorem State.setPix_brBitPos (s : State) (i : Nat) (p : Word) : (s.setPix i p).brBitPos = s.brBitPos := rfl
@[simp] theorem State.setPix_imgW (s : State) (i : Nat) (p : Word) : (s.setPix i p).imgW = s.imgW := rfl
@[simp] theorem State.setPix_imgH (s : State) (i : Nat) (p : Word) : (s.setPix i p).imgH = s.imgH := rfl
@[simp] theorem State.setPix_imgAlpha (s : State) (i : Nat) (p : Word) : (s.setPix i p).imgAlpha = s.imgAlpha := rfl
@[simp] theorem State.setPix_imgVersion (s : State) (i : Nat) (p : Word) :
    (s.setPix i p).imgVersion = s.imgVersion := rfl
@[simp] theorem State.setPix_ccBits (s : State) (i : Nat) (p : Word) : (s.setPix i p).ccBits = s.ccBits := rfl
@[simp] theorem State.setPix_cache (s : State) (i : Nat) (p : Word) : (s.setPix i p).cache = s.cache := rfl
@[simp] theorem State.setPix_xfCount (s : State) (i : Nat) (p : Word) : (s.setPix i p).xfCount = s.xfCount := rfl
@[simp] theorem State.setPix_xfDesc (s : State) (i : Nat) (p : Word) : (s.setPix i p).xfDesc = s.xfDesc := rfl
@[simp] theorem State.setPix_nGroups (s : State) (i : Nat) (p : Word) : (s.setPix i p).nGroups = s.nGroups := rfl
@[simp] theorem State.setPix_entPresent (s : State) (i : Nat) (p : Word) :
    (s.setPix i p).entPresent = s.entPresent := rfl
@[simp] theorem State.setPix_entBits (s : State) (i : Nat) (p : Word) : (s.setPix i p).entBits = s.entBits := rfl
@[simp] theorem State.setPix_tabInfo (s : State) (i : Nat) (p : Word) : (s.setPix i p).tabInfo = s.tabInfo := rfl
@[simp] theorem State.setPix_tab (s : State) (i : Nat) (p : Word) : (s.setPix i p).tab = s.tab := rfl
@[simp] theorem State.setPix_clm (s : State) (i : Nat) (p : Word) : (s.setPix i p).clm = s.clm := rfl
@[simp] theorem State.setPix_inp (s : State) (i : Nat) (p : Word) : (s.setPix i p).inp = s.inp := rfl
@[simp] theorem State.setPix_out (s : State) (i : Nat) (p : Word) : (s.setPix i p).out = s.out := rfl
@[simp] theorem State.setPix_pix (s : State) (i : Nat) (p : Word) : (s.setPix i p).pix = s.pix.write i p := rfl
@[simp] theorem State.setPix_sub (s : State) (i : Nat) (p : Word) : (s.setPix i p).sub = s.sub := rfl
@[simp] theorem State.setPix_ent (s : State) (i : Nat) (p : Word) : (s.setPix i p).ent = s.ent := rfl
@[simp] theorem State.setPix_clmem (s : State) (i : Nat) (p : Word) : (s.setPix i p).clmem = s.clmem := rfl
@[simp] theorem State.setPix_params (s : State) (i : Nat) (p : Word) : (s.setPix i p).params = s.params := rfl
@[simp] theorem State.setPix_nextDraw (s : State) (i : Nat) (p : Word) : (s.setPix i p).nextDraw = s.nextDraw := rfl
@[simp] theorem State.setPix_hostOps (s : State) (i : Nat) (p : Word) : (s.setPix i p).hostOps = s.hostOps := rfl

/-! ### `State.convertPixel` -/

@[simp] theorem State.convertPixel_busy (s : State) (i : Nat) : (s.convertPixel i).busy = s.busy := rfl
@[simp] theorem State.convertPixel_done (s : State) (i : Nat) : (s.convertPixel i).done = s.done := rfl
@[simp] theorem State.convertPixel_err (s : State) (i : Nat) : (s.convertPixel i).err = s.err := rfl
@[simp] theorem State.convertPixel_stage (s : State) (i : Nat) : (s.convertPixel i).stage = s.stage := rfl
@[simp] theorem State.convertPixel_errCode (s : State) (i : Nat) : (s.convertPixel i).errCode = s.errCode := rfl
@[simp] theorem State.convertPixel_errInfo (s : State) (i : Nat) : (s.convertPixel i).errInfo = s.errInfo := rfl
@[simp] theorem State.convertPixel_irqEn (s : State) (i : Nat) : (s.convertPixel i).irqEn = s.irqEn := rfl
@[simp] theorem State.convertPixel_a0 (s : State) (i : Nat) : (s.convertPixel i).a0 = s.a0 := rfl
@[simp] theorem State.convertPixel_a1 (s : State) (i : Nat) : (s.convertPixel i).a1 = s.a1 := rfl
@[simp] theorem State.convertPixel_a2 (s : State) (i : Nat) : (s.convertPixel i).a2 = s.a2 := rfl
@[simp] theorem State.convertPixel_a3 (s : State) (i : Nat) : (s.convertPixel i).a3 = s.a3 := rfl
@[simp] theorem State.convertPixel_res0 (s : State) (i : Nat) : (s.convertPixel i).res0 = s.res0 := rfl
@[simp] theorem State.convertPixel_inLen (s : State) (i : Nat) : (s.convertPixel i).inLen = s.inLen := rfl
@[simp] theorem State.convertPixel_brStart (s : State) (i : Nat) : (s.convertPixel i).brStart = s.brStart := rfl
@[simp] theorem State.convertPixel_brBytePos (s : State) (i : Nat) : (s.convertPixel i).brBytePos = s.brBytePos := rfl
@[simp] theorem State.convertPixel_brBitPos (s : State) (i : Nat) : (s.convertPixel i).brBitPos = s.brBitPos := rfl
@[simp] theorem State.convertPixel_imgW (s : State) (i : Nat) : (s.convertPixel i).imgW = s.imgW := rfl
@[simp] theorem State.convertPixel_imgH (s : State) (i : Nat) : (s.convertPixel i).imgH = s.imgH := rfl
@[simp] theorem State.convertPixel_imgAlpha (s : State) (i : Nat) : (s.convertPixel i).imgAlpha = s.imgAlpha := rfl
@[simp] theorem State.convertPixel_imgVersion (s : State) (i : Nat) :
    (s.convertPixel i).imgVersion = s.imgVersion := rfl
@[simp] theorem State.convertPixel_ccBits (s : State) (i : Nat) : (s.convertPixel i).ccBits = s.ccBits := rfl
@[simp] theorem State.convertPixel_cache (s : State) (i : Nat) : (s.convertPixel i).cache = s.cache := rfl
@[simp] theorem State.convertPixel_xfCount (s : State) (i : Nat) : (s.convertPixel i).xfCount = s.xfCount := rfl
@[simp] theorem State.convertPixel_xfDesc (s : State) (i : Nat) : (s.convertPixel i).xfDesc = s.xfDesc := rfl
@[simp] theorem State.convertPixel_nGroups (s : State) (i : Nat) : (s.convertPixel i).nGroups = s.nGroups := rfl
@[simp] theorem State.convertPixel_entPresent (s : State) (i : Nat) :
    (s.convertPixel i).entPresent = s.entPresent := rfl
@[simp] theorem State.convertPixel_entBits (s : State) (i : Nat) : (s.convertPixel i).entBits = s.entBits := rfl
@[simp] theorem State.convertPixel_tabInfo (s : State) (i : Nat) : (s.convertPixel i).tabInfo = s.tabInfo := rfl
@[simp] theorem State.convertPixel_tab (s : State) (i : Nat) : (s.convertPixel i).tab = s.tab := rfl
@[simp] theorem State.convertPixel_clm (s : State) (i : Nat) : (s.convertPixel i).clm = s.clm := rfl
@[simp] theorem State.convertPixel_inp (s : State) (i : Nat) : (s.convertPixel i).inp = s.inp := rfl
@[simp] theorem State.convertPixel_out (s : State) (i : Nat) :
    (s.convertPixel i).out = s.out.writeList (4 * i) [chanR (s.pixAt i), chanG (s.pixAt i), chanB (s.pixAt i), chanA (s.pixAt i)] := rfl
@[simp] theorem State.convertPixel_pix (s : State) (i : Nat) : (s.convertPixel i).pix = s.pix := rfl
@[simp] theorem State.convertPixel_sub (s : State) (i : Nat) : (s.convertPixel i).sub = s.sub := rfl
@[simp] theorem State.convertPixel_ent (s : State) (i : Nat) : (s.convertPixel i).ent = s.ent := rfl
@[simp] theorem State.convertPixel_clmem (s : State) (i : Nat) : (s.convertPixel i).clmem = s.clmem := rfl
@[simp] theorem State.convertPixel_params (s : State) (i : Nat) : (s.convertPixel i).params = s.params := rfl
@[simp] theorem State.convertPixel_nextDraw (s : State) (i : Nat) : (s.convertPixel i).nextDraw = s.nextDraw := rfl
@[simp] theorem State.convertPixel_hostOps (s : State) (i : Nat) : (s.convertPixel i).hostOps = s.hostOps := rfl

/-! ### `State.setImage` -/

@[simp] theorem State.setImage_busy (s : State) (w h : Nat) (a : Bool) (v : Nat) :
    (s.setImage w h a v).busy = s.busy := rfl
@[simp] theorem State.setImage_done (s : State) (w h : Nat) (a : Bool) (v : Nat) :
    (s.setImage w h a v).done = s.done := rfl
@[simp] theorem State.setImage_err (s : State) (w h : Nat) (a : Bool) (v : Nat) :
    (s.setImage w h a v).err = s.err := rfl
@[simp] theorem State.setImage_stage (s : State) (w h : Nat) (a : Bool) (v : Nat) :
    (s.setImage w h a v).stage = s.stage := rfl
@[simp] theorem State.setImage_errCode (s : State) (w h : Nat) (a : Bool) (v : Nat) :
    (s.setImage w h a v).errCode = s.errCode := rfl
@[simp] theorem State.setImage_errInfo (s : State) (w h : Nat) (a : Bool) (v : Nat) :
    (s.setImage w h a v).errInfo = s.errInfo := rfl
@[simp] theorem State.setImage_irqEn (s : State) (w h : Nat) (a : Bool) (v : Nat) :
    (s.setImage w h a v).irqEn = s.irqEn := rfl
@[simp] theorem State.setImage_a0 (s : State) (w h : Nat) (a : Bool) (v : Nat) : (s.setImage w h a v).a0 = s.a0 := rfl
@[simp] theorem State.setImage_a1 (s : State) (w h : Nat) (a : Bool) (v : Nat) : (s.setImage w h a v).a1 = s.a1 := rfl
@[simp] theorem State.setImage_a2 (s : State) (w h : Nat) (a : Bool) (v : Nat) : (s.setImage w h a v).a2 = s.a2 := rfl
@[simp] theorem State.setImage_a3 (s : State) (w h : Nat) (a : Bool) (v : Nat) : (s.setImage w h a v).a3 = s.a3 := rfl
@[simp] theorem State.setImage_res0 (s : State) (w h : Nat) (a : Bool) (v : Nat) :
    (s.setImage w h a v).res0 = s.res0 := rfl
@[simp] theorem State.setImage_inLen (s : State) (w h : Nat) (a : Bool) (v : Nat) :
    (s.setImage w h a v).inLen = s.inLen := rfl
@[simp] theorem State.setImage_brStart (s : State) (w h : Nat) (a : Bool) (v : Nat) :
    (s.setImage w h a v).brStart = s.brStart := rfl
@[simp] theorem State.setImage_brBytePos (s : State) (w h : Nat) (a : Bool) (v : Nat) :
    (s.setImage w h a v).brBytePos = s.brBytePos := rfl
@[simp] theorem State.setImage_brBitPos (s : State) (w h : Nat) (a : Bool) (v : Nat) :
    (s.setImage w h a v).brBitPos = s.brBitPos := rfl
@[simp] theorem State.setImage_imgW (s : State) (w h : Nat) (a : Bool) (v : Nat) :
    (s.setImage w h a v).imgW = trunc32 w := rfl
@[simp] theorem State.setImage_imgH (s : State) (w h : Nat) (a : Bool) (v : Nat) :
    (s.setImage w h a v).imgH = trunc32 h := rfl
@[simp] theorem State.setImage_imgAlpha (s : State) (w h : Nat) (a : Bool) (v : Nat) :
    (s.setImage w h a v).imgAlpha = a := rfl
@[simp] theorem State.setImage_imgVersion (s : State) (w h : Nat) (a : Bool) (v : Nat) :
    (s.setImage w h a v).imgVersion = BitVec.ofNat 3 v := rfl
@[simp] theorem State.setImage_ccBits (s : State) (w h : Nat) (a : Bool) (v : Nat) :
    (s.setImage w h a v).ccBits = s.ccBits := rfl
@[simp] theorem State.setImage_cache (s : State) (w h : Nat) (a : Bool) (v : Nat) :
    (s.setImage w h a v).cache = s.cache := rfl
@[simp] theorem State.setImage_xfCount (s : State) (w h : Nat) (a : Bool) (v : Nat) :
    (s.setImage w h a v).xfCount = s.xfCount := rfl
@[simp] theorem State.setImage_xfDesc (s : State) (w h : Nat) (a : Bool) (v : Nat) :
    (s.setImage w h a v).xfDesc = s.xfDesc := rfl
@[simp] theorem State.setImage_nGroups (s : State) (w h : Nat) (a : Bool) (v : Nat) :
    (s.setImage w h a v).nGroups = s.nGroups := rfl
@[simp] theorem State.setImage_entPresent (s : State) (w h : Nat) (a : Bool) (v : Nat) :
    (s.setImage w h a v).entPresent = s.entPresent := rfl
@[simp] theorem State.setImage_entBits (s : State) (w h : Nat) (a : Bool) (v : Nat) :
    (s.setImage w h a v).entBits = s.entBits := rfl
@[simp] theorem State.setImage_tabInfo (s : State) (w h : Nat) (a : Bool) (v : Nat) :
    (s.setImage w h a v).tabInfo = s.tabInfo := rfl
@[simp] theorem State.setImage_tab (s : State) (w h : Nat) (a : Bool) (v : Nat) :
    (s.setImage w h a v).tab = s.tab := rfl
@[simp] theorem State.setImage_clm (s : State) (w h : Nat) (a : Bool) (v : Nat) :
    (s.setImage w h a v).clm = s.clm := rfl
@[simp] theorem State.setImage_inp (s : State) (w h : Nat) (a : Bool) (v : Nat) :
    (s.setImage w h a v).inp = s.inp := rfl
@[simp] theorem State.setImage_out (s : State) (w h : Nat) (a : Bool) (v : Nat) :
    (s.setImage w h a v).out = s.out := rfl
@[simp] theorem State.setImage_pix (s : State) (w h : Nat) (a : Bool) (v : Nat) :
    (s.setImage w h a v).pix = s.pix := rfl
@[simp] theorem State.setImage_sub (s : State) (w h : Nat) (a : Bool) (v : Nat) :
    (s.setImage w h a v).sub = s.sub := rfl
@[simp] theorem State.setImage_ent (s : State) (w h : Nat) (a : Bool) (v : Nat) :
    (s.setImage w h a v).ent = s.ent := rfl
@[simp] theorem State.setImage_clmem (s : State) (w h : Nat) (a : Bool) (v : Nat) :
    (s.setImage w h a v).clmem = s.clmem := rfl
@[simp] theorem State.setImage_params (s : State) (w h : Nat) (a : Bool) (v : Nat) :
    (s.setImage w h a v).params = s.params := rfl
@[simp] theorem State.setImage_nextDraw (s : State) (w h : Nat) (a : Bool) (v : Nat) :
    (s.setImage w h a v).nextDraw = s.nextDraw := rfl
@[simp] theorem State.setImage_hostOps (s : State) (w h : Nat) (a : Bool) (v : Nat) :
    (s.setImage w h a v).hostOps = s.hostOps := rfl

/-! ### `State.setDesc` -/

@[simp] theorem State.setDesc_busy (s : State) (k : Fin 4) (d : XfDesc) : (s.setDesc k d).busy = s.busy := rfl
@[simp] theorem State.setDesc_done (s : State) (k : Fin 4) (d : XfDesc) : (s.setDesc k d).done = s.done := rfl
@[simp] theorem State.setDesc_err (s : State) (k : Fin 4) (d : XfDesc) : (s.setDesc k d).err = s.err := rfl
@[simp] theorem State.setDesc_stage (s : State) (k : Fin 4) (d : XfDesc) : (s.setDesc k d).stage = s.stage := rfl
@[simp] theorem State.setDesc_errCode (s : State) (k : Fin 4) (d : XfDesc) :
    (s.setDesc k d).errCode = s.errCode := rfl
@[simp] theorem State.setDesc_errInfo (s : State) (k : Fin 4) (d : XfDesc) :
    (s.setDesc k d).errInfo = s.errInfo := rfl
@[simp] theorem State.setDesc_irqEn (s : State) (k : Fin 4) (d : XfDesc) : (s.setDesc k d).irqEn = s.irqEn := rfl
@[simp] theorem State.setDesc_a0 (s : State) (k : Fin 4) (d : XfDesc) : (s.setDesc k d).a0 = s.a0 := rfl
@[simp] theorem State.setDesc_a1 (s : State) (k : Fin 4) (d : XfDesc) : (s.setDesc k d).a1 = s.a1 := rfl
@[simp] theorem State.setDesc_a2 (s : State) (k : Fin 4) (d : XfDesc) : (s.setDesc k d).a2 = s.a2 := rfl
@[simp] theorem State.setDesc_a3 (s : State) (k : Fin 4) (d : XfDesc) : (s.setDesc k d).a3 = s.a3 := rfl
@[simp] theorem State.setDesc_res0 (s : State) (k : Fin 4) (d : XfDesc) : (s.setDesc k d).res0 = s.res0 := rfl
@[simp] theorem State.setDesc_inLen (s : State) (k : Fin 4) (d : XfDesc) : (s.setDesc k d).inLen = s.inLen := rfl
@[simp] theorem State.setDesc_brStart (s : State) (k : Fin 4) (d : XfDesc) :
    (s.setDesc k d).brStart = s.brStart := rfl
@[simp] theorem State.setDesc_brBytePos (s : State) (k : Fin 4) (d : XfDesc) :
    (s.setDesc k d).brBytePos = s.brBytePos := rfl
@[simp] theorem State.setDesc_brBitPos (s : State) (k : Fin 4) (d : XfDesc) :
    (s.setDesc k d).brBitPos = s.brBitPos := rfl
@[simp] theorem State.setDesc_imgW (s : State) (k : Fin 4) (d : XfDesc) : (s.setDesc k d).imgW = s.imgW := rfl
@[simp] theorem State.setDesc_imgH (s : State) (k : Fin 4) (d : XfDesc) : (s.setDesc k d).imgH = s.imgH := rfl
@[simp] theorem State.setDesc_imgAlpha (s : State) (k : Fin 4) (d : XfDesc) :
    (s.setDesc k d).imgAlpha = s.imgAlpha := rfl
@[simp] theorem State.setDesc_imgVersion (s : State) (k : Fin 4) (d : XfDesc) :
    (s.setDesc k d).imgVersion = s.imgVersion := rfl
@[simp] theorem State.setDesc_ccBits (s : State) (k : Fin 4) (d : XfDesc) : (s.setDesc k d).ccBits = s.ccBits := rfl
@[simp] theorem State.setDesc_cache (s : State) (k : Fin 4) (d : XfDesc) : (s.setDesc k d).cache = s.cache := rfl
@[simp] theorem State.setDesc_xfCount (s : State) (k : Fin 4) (d : XfDesc) :
    (s.setDesc k d).xfCount = s.xfCount := rfl
@[simp] theorem State.setDesc_xfDesc (s : State) (k : Fin 4) (d : XfDesc) :
    (s.setDesc k d).xfDesc = s.xfDesc.set k d := rfl
@[simp] theorem State.setDesc_nGroups (s : State) (k : Fin 4) (d : XfDesc) :
    (s.setDesc k d).nGroups = s.nGroups := rfl
@[simp] theorem State.setDesc_entPresent (s : State) (k : Fin 4) (d : XfDesc) :
    (s.setDesc k d).entPresent = s.entPresent := rfl
@[simp] theorem State.setDesc_entBits (s : State) (k : Fin 4) (d : XfDesc) :
    (s.setDesc k d).entBits = s.entBits := rfl
@[simp] theorem State.setDesc_tabInfo (s : State) (k : Fin 4) (d : XfDesc) :
    (s.setDesc k d).tabInfo = s.tabInfo := rfl
@[simp] theorem State.setDesc_tab (s : State) (k : Fin 4) (d : XfDesc) : (s.setDesc k d).tab = s.tab := rfl
@[simp] theorem State.setDesc_clm (s : State) (k : Fin 4) (d : XfDesc) : (s.setDesc k d).clm = s.clm := rfl
@[simp] theorem State.setDesc_inp (s : State) (k : Fin 4) (d : XfDesc) : (s.setDesc k d).inp = s.inp := rfl
@[simp] theorem State.setDesc_out (s : State) (k : Fin 4) (d : XfDesc) : (s.setDesc k d).out = s.out := rfl
@[simp] theorem State.setDesc_pix (s : State) (k : Fin 4) (d : XfDesc) : (s.setDesc k d).pix = s.pix := rfl
@[simp] theorem State.setDesc_sub (s : State) (k : Fin 4) (d : XfDesc) : (s.setDesc k d).sub = s.sub := rfl
@[simp] theorem State.setDesc_ent (s : State) (k : Fin 4) (d : XfDesc) : (s.setDesc k d).ent = s.ent := rfl
@[simp] theorem State.setDesc_clmem (s : State) (k : Fin 4) (d : XfDesc) : (s.setDesc k d).clmem = s.clmem := rfl
@[simp] theorem State.setDesc_params (s : State) (k : Fin 4) (d : XfDesc) : (s.setDesc k d).params = s.params := rfl
@[simp] theorem State.setDesc_nextDraw (s : State) (k : Fin 4) (d : XfDesc) :
    (s.setDesc k d).nextDraw = s.nextDraw := rfl
@[simp] theorem State.setDesc_hostOps (s : State) (k : Fin 4) (d : XfDesc) :
    (s.setDesc k d).hostOps = s.hostOps := rfl

/-! ### `State.setGroups` -/

@[simp] theorem State.setGroups_busy (s : State) (p : Bool) (b n : Nat) : (s.setGroups p b n).busy = s.busy := rfl
@[simp] theorem State.setGroups_done (s : State) (p : Bool) (b n : Nat) : (s.setGroups p b n).done = s.done := rfl
@[simp] theorem State.setGroups_err (s : State) (p : Bool) (b n : Nat) : (s.setGroups p b n).err = s.err := rfl
@[simp] theorem State.setGroups_stage (s : State) (p : Bool) (b n : Nat) : (s.setGroups p b n).stage = s.stage := rfl
@[simp] theorem State.setGroups_errCode (s : State) (p : Bool) (b n : Nat) :
    (s.setGroups p b n).errCode = s.errCode := rfl
@[simp] theorem State.setGroups_errInfo (s : State) (p : Bool) (b n : Nat) :
    (s.setGroups p b n).errInfo = s.errInfo := rfl
@[simp] theorem State.setGroups_irqEn (s : State) (p : Bool) (b n : Nat) : (s.setGroups p b n).irqEn = s.irqEn := rfl
@[simp] theorem State.setGroups_a0 (s : State) (p : Bool) (b n : Nat) : (s.setGroups p b n).a0 = s.a0 := rfl
@[simp] theorem State.setGroups_a1 (s : State) (p : Bool) (b n : Nat) : (s.setGroups p b n).a1 = s.a1 := rfl
@[simp] theorem State.setGroups_a2 (s : State) (p : Bool) (b n : Nat) : (s.setGroups p b n).a2 = s.a2 := rfl
@[simp] theorem State.setGroups_a3 (s : State) (p : Bool) (b n : Nat) : (s.setGroups p b n).a3 = s.a3 := rfl
@[simp] theorem State.setGroups_res0 (s : State) (p : Bool) (b n : Nat) : (s.setGroups p b n).res0 = s.res0 := rfl
@[simp] theorem State.setGroups_inLen (s : State) (p : Bool) (b n : Nat) : (s.setGroups p b n).inLen = s.inLen := rfl
@[simp] theorem State.setGroups_brStart (s : State) (p : Bool) (b n : Nat) :
    (s.setGroups p b n).brStart = s.brStart := rfl
@[simp] theorem State.setGroups_brBytePos (s : State) (p : Bool) (b n : Nat) :
    (s.setGroups p b n).brBytePos = s.brBytePos := rfl
@[simp] theorem State.setGroups_brBitPos (s : State) (p : Bool) (b n : Nat) :
    (s.setGroups p b n).brBitPos = s.brBitPos := rfl
@[simp] theorem State.setGroups_imgW (s : State) (p : Bool) (b n : Nat) : (s.setGroups p b n).imgW = s.imgW := rfl
@[simp] theorem State.setGroups_imgH (s : State) (p : Bool) (b n : Nat) : (s.setGroups p b n).imgH = s.imgH := rfl
@[simp] theorem State.setGroups_imgAlpha (s : State) (p : Bool) (b n : Nat) :
    (s.setGroups p b n).imgAlpha = s.imgAlpha := rfl
@[simp] theorem State.setGroups_imgVersion (s : State) (p : Bool) (b n : Nat) :
    (s.setGroups p b n).imgVersion = s.imgVersion := rfl
@[simp] theorem State.setGroups_ccBits (s : State) (p : Bool) (b n : Nat) :
    (s.setGroups p b n).ccBits = s.ccBits := rfl
@[simp] theorem State.setGroups_cache (s : State) (p : Bool) (b n : Nat) : (s.setGroups p b n).cache = s.cache := rfl
@[simp] theorem State.setGroups_xfCount (s : State) (p : Bool) (b n : Nat) :
    (s.setGroups p b n).xfCount = s.xfCount := rfl
@[simp] theorem State.setGroups_xfDesc (s : State) (p : Bool) (b n : Nat) :
    (s.setGroups p b n).xfDesc = s.xfDesc := rfl
@[simp] theorem State.setGroups_nGroups (s : State) (p : Bool) (b n : Nat) :
    (s.setGroups p b n).nGroups = trunc32 n := rfl
@[simp] theorem State.setGroups_entPresent (s : State) (p : Bool) (b n : Nat) :
    (s.setGroups p b n).entPresent = p := rfl
@[simp] theorem State.setGroups_entBits (s : State) (p : Bool) (b n : Nat) :
    (s.setGroups p b n).entBits = BitVec.ofNat 4 b := rfl
@[simp] theorem State.setGroups_tabInfo (s : State) (p : Bool) (b n : Nat) :
    (s.setGroups p b n).tabInfo = s.tabInfo := rfl
@[simp] theorem State.setGroups_tab (s : State) (p : Bool) (b n : Nat) : (s.setGroups p b n).tab = s.tab := rfl
@[simp] theorem State.setGroups_clm (s : State) (p : Bool) (b n : Nat) : (s.setGroups p b n).clm = s.clm := rfl
@[simp] theorem State.setGroups_inp (s : State) (p : Bool) (b n : Nat) : (s.setGroups p b n).inp = s.inp := rfl
@[simp] theorem State.setGroups_out (s : State) (p : Bool) (b n : Nat) : (s.setGroups p b n).out = s.out := rfl
@[simp] theorem State.setGroups_pix (s : State) (p : Bool) (b n : Nat) : (s.setGroups p b n).pix = s.pix := rfl
@[simp] theorem State.setGroups_sub (s : State) (p : Bool) (b n : Nat) : (s.setGroups p b n).sub = s.sub := rfl
@[simp] theorem State.setGroups_ent (s : State) (p : Bool) (b n : Nat) : (s.setGroups p b n).ent = s.ent := rfl
@[simp] theorem State.setGroups_clmem (s : State) (p : Bool) (b n : Nat) : (s.setGroups p b n).clmem = s.clmem := rfl
@[simp] theorem State.setGroups_params (s : State) (p : Bool) (b n : Nat) :
    (s.setGroups p b n).params = s.params := rfl
@[simp] theorem State.setGroups_nextDraw (s : State) (p : Bool) (b n : Nat) :
    (s.setGroups p b n).nextDraw = s.nextDraw := rfl
@[simp] theorem State.setGroups_hostOps (s : State) (p : Bool) (b n : Nat) :
    (s.setGroups p b n).hostOps = s.hostOps := rfl

end Sys2Proof.Machine
end

