-- ==== Sys2Proof/Laws/BitReader.lean ====
section
/-! SUPPORT. The bit reader's loop in closed form, and all that ReadBits and ReadExtra can answer. -/

namespace Sys2Proof.Machine

/-! ### The field of the input -/

@[simp] theorem State.field_zero (s : State) (q : Nat) : s.field q 0 = 0 := rfl

theorem State.inBit_lt (s : State) (q : Nat) : s.inBit q < 2 := Nat.mod_lt _ (by decide)

theorem State.field_succ (s : State) (q n : Nat) : s.field q (n + 1) = s.inBit q + 2 * s.field (q + 1) n := by
  unfold State.field
  rw [List.range_succ_eq_map]
  simp only [List.map_cons, List.map_map, List.sum_cons, Nat.add_zero, Nat.pow_zero, Nat.mul_one]
  congr 1
  rw [← List.sum_map_mul_left]
  congr 1
  apply List.map_congr_left
  intro j _
  simp only [Function.comp_apply, Nat.succ_eq_add_one, Nat.pow_succ]
  rw [show q + (j + 1) = q + 1 + j by omega]
  ring

theorem State.field_lt (s : State) (q n : Nat) : s.field q n < 2 ^ n := by
  induction n generalizing q with
  | zero => simp
  | succ n ih =>
    rw [State.field_succ, Nat.pow_succ]
    have := ih (q + 1)
    have := s.inBit_lt q
    omega

/-- A field split in two (41_bit_reader.md R149). -/
theorem State.field_add (s : State) (q a b : Nat) : s.field q (a + b) = s.field q a + 2 ^ a * s.field (q + a) b := by
  induction a generalizing q with
  | zero => simp
  | succ a ih =>
    rw [show a + 1 + b = a + b + 1 by omega, State.field_succ, State.field_succ, ih,
      show q + 1 + a = q + (a + 1) by omega, Nat.pow_succ]
    ring

theorem State.inBit_congr {s t : State} (h : t.inp = s.inp) (q : Nat) : t.inBit q = s.inBit q := by
  unfold State.inBit; rw [h]

theorem State.field_congr {s t : State} (h : t.inp = s.inp) (q n : Nat) : t.field q n = s.field q n := by
  unfold State.field; simp only [State.inBit_congr h]

/-! ### The cursor -/

theorem State.pos_eq (s : State) : s.pos / 8 = s.brBytePos.toNat ∧ s.pos % 8 = s.brBitPos.toNat := by
  have : s.brBitPos.toNat < 8 := s.brBitPos.isLt
  unfold State.pos; omega

theorem State.cursorBit_eq (s : State) : s.cursorBit = s.inBit s.pos := by
  unfold State.cursorBit State.inBit; rw [s.pos_eq.1, s.pos_eq.2]

theorem State.moveTo_pos_self (s : State) : s.moveTo s.pos = s := by
  unfold State.moveTo; rw [s.pos_eq.1, s.pos_eq.2]
  simp

/-- The cursor reads back where it was moved to, below the end of a 32-bit byte offset. -/
theorem State.pos_moveTo (s : State) {q : Nat} (h : q < 2 ^ 35) : (s.moveTo q).pos = q := by
  have h1 : q / 8 < 2 ^ 32 := by omega
  have h2 : q % 8 < 8 := Nat.mod_lt _ (by decide)
  simp only [State.moveTo, State.pos, BitVec.toNat_ofNat]
  omega

@[simp] theorem State.moveTo_moveTo (s : State) (p q : Nat) : (s.moveTo p).moveTo q = s.moveTo q := rfl

@[simp] theorem State.moveTo_inp (s : State) (q : Nat) : (s.moveTo q).inp = s.inp := rfl

@[simp] theorem State.moveTo_inLen (s : State) (q : Nat) : (s.moveTo q).inLen = s.inLen := rfl

@[simp] theorem State.moveTo_endPos (s : State) (q : Nat) : (s.moveTo q).endPos = s.endPos := rfl

@[simp] theorem State.moveTo_params (s : State) (q : Nat) : (s.moveTo q).params = s.params := rfl

@[simp] theorem State.moveTo_field (s : State) (p q n : Nat) : (s.moveTo p).field q n = s.field q n := rfl

@[simp] theorem State.moveTo_inBit (s : State) (p q : Nat) : (s.moveTo p).inBit q = s.inBit q := rfl

theorem State.advanceBit_eq (s : State) : s.advanceBit = s.moveTo (s.pos + 1) := by
  have h8 : s.brBitPos.toNat < 8 := s.brBitPos.isLt
  unfold State.advanceBit State.moveTo
  by_cases h : s.brBitPos = 7
  · have h7 : s.brBitPos.toNat = 7 := by rw [h]; rfl
    have e1 : (s.pos + 1) / 8 = s.brBytePos.toNat + 1 := by unfold State.pos; omega
    have e2 : (s.pos + 1) % 8 = 0 := by unfold State.pos; omega
    rw [if_pos h, e1, e2]
    have : s.brBytePos + 1 = trunc32 (s.brBytePos.toNat + 1) := by
      apply BitVec.eq_of_toNat_eq; simp [BitVec.toNat_add]
    rw [this]; rfl
  · have h7 : s.brBitPos.toNat ≠ 7 := fun e => h (BitVec.eq_of_toNat_eq (by rw [e]; rfl))
    have e1 : (s.pos + 1) / 8 = s.brBytePos.toNat := by unfold State.pos; omega
    have e2 : (s.pos + 1) % 8 = s.brBitPos.toNat + 1 := by unfold State.pos; omega
    rw [if_neg h, e1, e2]
    have : s.brBitPos + 1 = BitVec.ofNat 3 (s.brBitPos.toNat + 1) := by
      apply BitVec.eq_of_toNat_eq; simp [BitVec.toNat_add]
    rw [this]
    simp

theorem State.endPos_lt (s : State) : s.endPos < 2 ^ 35 := by
  have := s.inLen.isLt
  unfold State.endPos; omega

/-- The loop of R143 in closed form. -/
theorem takeBits_eq (n : Nat) (s : State) (h : s.pos + n ≤ s.endPos) :
    takeBits n s = (s.field s.pos n, s.moveTo (s.pos + n)) := by
  induction n generalizing s with
  | zero => simp [takeBits, State.moveTo_pos_self]
  | succ n ih =>
    have hlt := s.endPos_lt
    have hp : s.advanceBit.pos = s.pos + 1 := by rw [State.advanceBit_eq, State.pos_moveTo _ (by omega)]
    have he : s.advanceBit.endPos = s.endPos := by rw [State.advanceBit_eq]; rfl
    have := ih s.advanceBit (by rw [hp, he]; omega)
    simp only [takeBits, this, hp, State.cursorBit_eq, State.field_succ]
    rw [State.advanceBit_eq]
    simp only [State.moveTo_field, State.moveTo_moveTo]
    rw [show s.pos + 1 + n = s.pos + (n + 1) by omega]

/-! ### ReadBits and ReadExtra -/

/-- Everything ReadBits can answer (R141, R142, R143). -/
theorem readBits_apply (n : Nat) (s : State) :
    readBits n s =
      if n < 1 ∨ 16 < n then .error ⟨.invalidBitCount, trunc32 n⟩ s
      else if s.endPos < s.pos + n then .error ⟨.readPastEnd, trunc32 n⟩ s
      else .ok (s.field s.pos n) (s.moveTo (s.pos + n)) := by
  unfold readBits
  by_cases h1 : n < 1 ∨ 16 < n
  · have hc : (decide (n < 1) || decide (16 < n)) = true := by simpa using h1
    rw [if_pos h1, hc, cmd_bind_of_error (raiseIf_true _ _ _)]
  · have hc : (decide (n < 1) || decide (16 < n)) = false := by simpa using h1
    rw [if_neg h1, hc, cmd_bind_of_ok (raiseIf_false _ _ _), cmd_bind_of_ok (readState_apply _ _)]
    by_cases h2 : s.endPos < s.pos + n
    · rw [if_pos h2, decide_eq_true h2, cmd_bind_of_error (raiseIf_true _ _ _)]
    · rw [if_neg h2, decide_eq_false h2, cmd_bind_of_ok (raiseIf_false _ _ _), takeState_apply, takeBits_eq n s (by omega)]

theorem readBits_ok {n : Nat} {s : State} (h1 : 1 ≤ n) (h2 : n ≤ 16) (h3 : s.pos + n ≤ s.endPos) :
    readBits n s = .ok (s.field s.pos n) (s.moveTo (s.pos + n)) := by
  rw [readBits_apply, if_neg (by omega), if_neg (by omega)]

/-- What a successful ReadBits tells. -/
theorem readBits_cases {n v : Nat} {s t : State} (h : readBits n s = .ok v t) :
    1 ≤ n ∧ n ≤ 16 ∧ s.pos + n ≤ s.endPos ∧ v = s.field s.pos n ∧ t = s.moveTo (s.pos + n) := by
  rw [readBits_apply] at h
  split_ifs at h with h1 h2
  cases h
  exact ⟨by omega, by omega, by omega, rfl, rfl⟩

theorem readBits_lt {n v : Nat} {s t : State} (h : readBits n s = .ok v t) : v < 2 ^ n := by
  obtain ⟨_, _, _, rfl, _⟩ := readBits_cases h
  exact s.field_lt _ _

/-- A failed ReadBits leaves the state as it was (R142). -/
theorem readBits_error {n : Nat} {s t : State} {e : Trap} (h : readBits n s = .error e t) : t = s := by
  rw [readBits_apply] at h
  split_ifs at h with h1 h2 <;> cases h <;> rfl

/-- A piece that only moves the cursor keeps every property that the cursor has no part in. -/
theorem keeps_readBits {P : State → Prop} (h : ∀ s q, P s → q ≤ s.endPos → s.pos ≤ q → P (s.moveTo q)) (n : Nat) :
    Keeps P (readBits n) := by
  intro s hs
  rw [readBits_apply]
  split_ifs with h1 h2
  · exact hs
  · exact hs
  · exact h s _ hs (by omega) (by omega)

theorem keeps_readExtra {P : State → Prop} (h : ∀ s q, P s → q ≤ s.endPos → s.pos ≤ q → P (s.moveTo q)) (n : Nat) :
    Keeps P (readExtra n) := by
  unfold readExtra
  refine Keeps.ite (fun _ => keeps_pure _) fun _ => Keeps.ite (fun _ => keeps_readBits h n) fun _ => ?_
  exact (keeps_readBits h 16).bind fun _ => (keeps_readBits h _).bind fun _ => keeps_pure _

/-- A successful ReadExtra reads the same value as one n-bit read would (R144). -/
theorem readExtra_ok {n : Nat} {s : State} (hn : n ≤ 18) (h : s.pos + n ≤ s.endPos) :
    readExtra n s = .ok (s.field s.pos n) (s.moveTo (s.pos + n)) := by
  unfold readExtra
  by_cases h0 : n = 0
  · subst h0; simp [State.moveTo_pos_self]
  · rw [if_neg h0]
    by_cases h16 : n ≤ 16
    · rw [if_pos h16, readBits_ok (by omega) h16 h]
    · rw [if_neg h16, cmd_bind_of_ok (readBits_ok (by decide) (by decide) (by omega))]
      have hlt := s.endPos_lt
      have hp : (s.moveTo (s.pos + 16)).pos = s.pos + 16 := State.pos_moveTo _ (by omega)
      rw [cmd_bind_of_ok (readBits_ok (by omega) (by omega) (by rw [hp]; simp only [State.moveTo_endPos]; omega))]
      rw [hp]
      simp only [State.moveTo_field, State.moveTo_moveTo, cmd_pure_apply]
      rw [show s.pos + 16 + (n - 16) = s.pos + n by omega]
      have := s.field_add s.pos 16 (n - 16)
      rw [show 16 + (n - 16) = n by omega] at this
      rw [this]

end Sys2Proof.Machine
end

