-- ==== Sys2Proof/Laws/Memory.lean ====
section
/-! SUPPORT. The laws of one memory: read after write, and the canonical form that every memory operation keeps. -/

namespace Sys2Proof.Machine

variable {w : Nat}

/-! ### Lists of cells -/

theorem lookupCell_insertCell_self (i : Nat) (v : BitVec w) (l : List (Nat × BitVec w)) :
    lookupCell i (insertCell i v l) = some v := by
  induction l with
  | nil => simp [insertCell, lookupCell]
  | cons c r ih =>
    obtain ⟨a, u⟩ := c
    simp only [insertCell]
    split
    · simp [lookupCell]
    · split
      · simp [lookupCell]
      · have : a ≠ i := by omega
        simp [lookupCell, this, ih]

theorem lookupCell_insertCell_ne {i j : Nat} (h : j ≠ i) (v : BitVec w) (l : List (Nat × BitVec w)) :
    lookupCell j (insertCell i v l) = lookupCell j l := by
  induction l with
  | nil => simp [insertCell, lookupCell, h.symm]
  | cons c r ih =>
    obtain ⟨a, u⟩ := c
    simp only [insertCell]
    split
    · simp [lookupCell, h.symm]
    · split
      · next _ hia => subst hia; simp [lookupCell, h.symm]
      · simp [lookupCell, ih]

theorem lookupCell_eraseCell_ne {i j : Nat} (h : j ≠ i) (l : List (Nat × BitVec w)) :
    lookupCell j (eraseCell i l) = lookupCell j l := by
  induction l with
  | nil => rfl
  | cons c r ih =>
    obtain ⟨a, u⟩ := c
    simp only [eraseCell]
    split
    · next hai => subst hai; simp [lookupCell, h.symm]
    · simp [lookupCell, ih]

theorem lookupCell_of_risingFrom {lo i : Nat} {l : List (Nat × BitVec w)} (h : risingFrom lo l = true) (hi : i < lo) :
    lookupCell i l = none := by
  induction l generalizing lo with
  | nil => rfl
  | cons c r ih =>
    obtain ⟨a, u⟩ := c
    simp only [risingFrom, Bool.and_eq_true, decide_eq_true_eq] at h
    have : a ≠ i := by omega
    simp [lookupCell, this, ih h.2 (by omega)]

theorem risingFrom_mono {α : Type} {lo lo' : Nat} {l : List (Nat × α)} (h : risingFrom lo l = true) (hl : lo' ≤ lo) :
    risingFrom lo' l = true := by
  cases l with
  | nil => rfl
  | cons c r =>
    obtain ⟨a, u⟩ := c
    simp only [risingFrom, Bool.and_eq_true, decide_eq_true_eq] at h ⊢
    exact ⟨by omega, h.2⟩

theorem lookupCell_eraseCell_self {lo : Nat} (i : Nat) {l : List (Nat × BitVec w)} (h : risingFrom lo l = true) :
    lookupCell i (eraseCell i l) = none := by
  induction l generalizing lo with
  | nil => rfl
  | cons c r ih =>
    obtain ⟨a, u⟩ := c
    simp only [risingFrom, Bool.and_eq_true, decide_eq_true_eq] at h
    simp only [eraseCell]
    split
    · exact lookupCell_of_risingFrom h.2 (by omega)
    · next hai => simp [lookupCell, hai, ih h.2]

theorem risingFrom_insertCell {lo i : Nat} (v : BitVec w) {l : List (Nat × BitVec w)} (h : risingFrom lo l = true)
    (hi : lo ≤ i) : risingFrom lo (insertCell i v l) = true := by
  induction l generalizing lo with
  | nil => simp [insertCell, risingFrom, hi]
  | cons c r ih =>
    obtain ⟨a, u⟩ := c
    simp only [risingFrom, Bool.and_eq_true, decide_eq_true_eq] at h
    simp only [insertCell]
    split
    · simp only [risingFrom, Bool.and_eq_true, decide_eq_true_eq]; exact ⟨hi, by omega, h.2⟩
    · split
      · next _ hia => subst hia; simp only [risingFrom, Bool.and_eq_true, decide_eq_true_eq]; exact ⟨hi, h.2⟩
      · simp only [risingFrom, Bool.and_eq_true, decide_eq_true_eq]; exact ⟨h.1, ih h.2 (by omega)⟩

theorem risingFrom_eraseCell {lo : Nat} (i : Nat) {l : List (Nat × BitVec w)} (h : risingFrom lo l = true) :
    risingFrom lo (eraseCell i l) = true := by
  induction l generalizing lo with
  | nil => rfl
  | cons c r ih =>
    obtain ⟨a, u⟩ := c
    simp only [risingFrom, Bool.and_eq_true, decide_eq_true_eq] at h
    simp only [eraseCell]
    split
    · exact risingFrom_mono h.2 (by omega)
    · simp only [risingFrom, Bool.and_eq_true, decide_eq_true_eq]; exact ⟨h.1, ih h.2⟩

theorem mem_insertCell {i : Nat} {v : BitVec w} {l : List (Nat × BitVec w)} {c : Nat × BitVec w}
    (h : c ∈ insertCell i v l) : c = (i, v) ∨ c ∈ l := by
  induction l with
  | nil => simpa [insertCell] using h
  | cons d r ih =>
    obtain ⟨a, u⟩ := d
    simp only [insertCell] at h
    split at h
    · simpa using h
    · split at h
      · simp only [List.mem_cons] at h ⊢; tauto
      · simp only [List.mem_cons] at h ⊢
        rcases h with h | h
        · exact .inr (.inl h)
        · rcases ih h with h | h <;> tauto

theorem mem_eraseCell {i : Nat} {l : List (Nat × BitVec w)} {c : Nat × BitVec w} (h : c ∈ eraseCell i l) : c ∈ l := by
  induction l with
  | nil => simp [eraseCell] at h
  | cons d r ih =>
    obtain ⟨a, u⟩ := d
    simp only [eraseCell] at h
    split at h
    · exact List.mem_cons_of_mem _ h
    · simp only [List.mem_cons] at h ⊢
      rcases h with h | h
      · exact .inl h
      · exact .inr (ih h)

/-! ### Read after write -/

@[simp] theorem Memory.write_bg (m : Memory w) (i : Nat) (v : BitVec w) : (m.write i v).bg = m.bg := by
  unfold Memory.write; split <;> rfl

theorem Memory.write_cells (m : Memory w) (i : Nat) (v : BitVec w) :
    (m.write i v).cells = if m.bg = .zero ∧ v = 0 then eraseCell i m.cells else insertCell i v m.cells := by
  unfold Memory.write; split <;> rfl

theorem Memory.read_write_ne (sp : Space) (m : Memory w) {i j : Nat} (h : j ≠ i) (v : BitVec w) :
    (m.write i v).read sp j = m.read sp j := by
  simp only [Memory.read, Memory.write_bg, Memory.write_cells]
  split_ifs
  · rw [lookupCell_eraseCell_ne h]
  · rw [lookupCell_insertCell_ne h]

/-- Over an unspecified background no canonical form is needed to read a write back. -/
theorem Memory.read_write_self_of_unwritten (sp : Space) {m : Memory w} (hm : m.bg ≠ .zero) (i : Nat) (v : BitVec w) :
    (m.write i v).read sp i = v := by
  have : ¬ (m.bg = .zero ∧ v = 0) := fun h => hm h.1
  simp only [Memory.read, Memory.write, this, if_false, lookupCell_insertCell_self]

/-- A value other than 0 is always listed, so no canonical form is needed to read it back. -/
theorem Memory.read_write_self_of_ne_zero (sp : Space) (m : Memory w) (i : Nat) {v : BitVec w} (hv : v ≠ 0) :
    (m.write i v).read sp i = v := by
  have : ¬ (m.bg = .zero ∧ v = 0) := fun h => hv h.2
  simp only [Memory.read, Memory.write, this, if_false, lookupCell_insertCell_self]

theorem Memory.read_write_self (sp : Space) {m : Memory w} (hm : m.wf) (i : Nat) (v : BitVec w) :
    (m.write i v).read sp i = v := by
  by_cases h : m.bg = .zero ∧ v = 0
  · rw [Memory.read, Memory.write_bg, Memory.write_cells, if_pos h, lookupCell_eraseCell_self i hm.1, h.1, h.2]
    rfl
  · simp only [Memory.read, Memory.write, h, if_false, lookupCell_insertCell_self]

/-! ### The canonical form -/

theorem Memory.unspecified_wf (d : Nat) : (Memory.unspecified d : Memory w).wf := by
  simp [Memory.wf, risingFrom]

theorem Memory.cleared_wf : (Memory.cleared : Memory w).wf := by simp [Memory.wf, risingFrom]

theorem Memory.write_wf {m : Memory w} (hm : m.wf) (i : Nat) (v : BitVec w) : (m.write i v).wf := by
  refine ⟨?_, fun hz c hc => ?_⟩
  · unfold Memory.write
    split
    · exact risingFrom_eraseCell i hm.1
    · exact risingFrom_insertCell v hm.1 (Nat.zero_le i)
  · rw [Memory.write_bg] at hz
    unfold Memory.write at hc
    split at hc
    · exact hm.2 hz c (mem_eraseCell hc)
    · next h =>
      rcases mem_insertCell hc with rfl | hc
      · exact fun hv => h ⟨hz, hv⟩
      · exact hm.2 hz c hc

theorem Memory.writeList_wf {m : Memory w} (hm : m.wf) (i : Nat) (vs : List (BitVec w)) : (m.writeList i vs).wf := by
  induction vs generalizing m i with
  | nil => exact hm
  | cons v vs ih => exact ih (Memory.write_wf hm i v) (i + 1)

@[simp] theorem Memory.writeList_bg (m : Memory w) (i : Nat) (vs : List (BitVec w)) : (m.writeList i vs).bg = m.bg := by
  induction vs generalizing m i with
  | nil => rfl
  | cons v vs ih => simp [Memory.writeList, ih]

/-- What a run of writes leaves at every index. -/
theorem Memory.read_writeList (sp : Space) {m : Memory w} (hm : m.wf) (i : Nat) (vs : List (BitVec w)) (j : Nat) :
    (m.writeList i vs).read sp j = if h : i ≤ j ∧ j - i < vs.length then vs[j - i]'h.2 else m.read sp j := by
  induction vs generalizing m i with
  | nil => simp [Memory.writeList]
  | cons v vs ih =>
    simp only [Memory.writeList]
    rw [ih (Memory.write_wf hm i v)]
    by_cases hij : j = i
    · subst hij
      simp [Memory.read_write_self sp hm]
    · by_cases hr : i + 1 ≤ j ∧ j - (i + 1) < vs.length
      · have h2 : i ≤ j ∧ j - i < (v :: vs).length := by simp; omega
        rw [dif_pos hr, dif_pos h2]
        have : j - i = (j - (i + 1)) + 1 := by omega
        simp [this]
      · have h2 : ¬ (i ≤ j ∧ j - i < (v :: vs).length) := by simp; omega
        rw [dif_neg hr, dif_neg h2, Memory.read_write_ne sp m hij]

/-- A write lists no index but its own. -/
theorem Memory.mem_write {m : Memory w} {i : Nat} {v : BitVec w} {c : Nat × BitVec w} (h : c ∈ (m.write i v).cells) :
    c.1 = i ∨ c ∈ m.cells := by
  unfold Memory.write at h
  split at h
  · exact .inr (mem_eraseCell h)
  · rcases mem_insertCell h with rfl | h
    · exact .inl rfl
    · exact .inr h

end Sys2Proof.Machine
end

