-- ==== Sys2Proof/Laws/ColorCache.lean ====
section
/-! SUPPORT. All that the color cache's operations can answer. -/

namespace Sys2Proof.Machine

theorem ccSize_zero {s : State} (h : s.ccBits = 0) : s.ccSize = 0 := by simp [State.ccSize, cacheSize, h]

theorem ccBits_toNat_ne {s : State} (h : s.ccBits ≠ 0) : s.ccBits.toNat ≠ 0 := fun e => h (BitVec.eq_of_toNat_eq e)

theorem ccSize_pos {s : State} (h : s.ccBits ≠ 0) : s.ccSize = 2 ^ s.ccBits.toNat := by
  simp [State.ccSize, cacheSize, ccBits_toNat_ne h]

/-- The hash in numbers (44_color_cache.md R211). -/
theorem cacheHash_eq {s : State} (h : s.ccBits ≠ 0) (p : Word) :
    s.cacheHash p = p.toNat * 0x1E35A7BD % 2 ^ 32 / 2 ^ (32 - s.ccBits.toNat) := by
  unfold State.cacheHash
  rw [if_neg h, BitVec.toNat_ushiftRight, BitVec.toNat_mul, Nat.shiftRight_eq_div_pow]
  rfl

/-- The hash is an index of the active cache. -/
theorem cacheHash_lt {s : State} (h : s.ccBits ≠ 0) (p : Word) : s.cacheHash p < 2 ^ s.ccBits.toNat := by
  have hb : s.ccBits.toNat < 16 := s.ccBits.isLt
  rw [cacheHash_eq h, Nat.div_lt_iff_lt_mul (by positivity), ← Nat.pow_add,
    show s.ccBits.toNat + (32 - s.ccBits.toNat) = 32 by omega]
  exact Nat.mod_lt _ (by decide)

theorem cacheInsert_disabled {s : State} (h : s.ccBits = 0) (p : Word) : s.cacheInsert p = s := by
  unfold State.cacheInsert; rw [if_pos h]

theorem cacheInsert_enabled {s : State} (h : s.ccBits ≠ 0) (p : Word) :
    s.cacheInsert p = { s with cache := s.cache.write (s.cacheHash p) p } := by
  unfold State.cacheInsert; rw [if_neg h]

/-- An insert changes the cache's contents and nothing else. -/
theorem cacheInsert_frame (s : State) (p : Word) : s.cacheInsert p = { s with cache := (s.cacheInsert p).cache } := by
  by_cases h : s.ccBits = 0
  · rw [cacheInsert_disabled h]
  · rw [cacheInsert_enabled h]

@[simp] theorem cacheInsert_pix (s : State) (p : Word) : (s.cacheInsert p).pix = s.pix := by rw [cacheInsert_frame]
@[simp] theorem cacheInsert_sub (s : State) (p : Word) : (s.cacheInsert p).sub = s.sub := by rw [cacheInsert_frame]
@[simp] theorem cacheInsert_ent (s : State) (p : Word) : (s.cacheInsert p).ent = s.ent := by rw [cacheInsert_frame]
@[simp] theorem cacheInsert_inp (s : State) (p : Word) : (s.cacheInsert p).inp = s.inp := by rw [cacheInsert_frame]
@[simp] theorem cacheInsert_out (s : State) (p : Word) : (s.cacheInsert p).out = s.out := by rw [cacheInsert_frame]
@[simp] theorem cacheInsert_clmem (s : State) (p : Word) : (s.cacheInsert p).clmem = s.clmem := by rw [cacheInsert_frame]
@[simp] theorem cacheInsert_tab (s : State) (p : Word) : (s.cacheInsert p).tab = s.tab := by rw [cacheInsert_frame]
@[simp] theorem cacheInsert_tabInfo (s : State) (p : Word) : (s.cacheInsert p).tabInfo = s.tabInfo := by
  rw [cacheInsert_frame]
@[simp] theorem cacheInsert_ccBits (s : State) (p : Word) : (s.cacheInsert p).ccBits = s.ccBits := by rw [cacheInsert_frame]
@[simp] theorem cacheInsert_params (s : State) (p : Word) : (s.cacheInsert p).params = s.params := by rw [cacheInsert_frame]
@[simp] theorem cacheInsert_imgW (s : State) (p : Word) : (s.cacheInsert p).imgW = s.imgW := by rw [cacheInsert_frame]
@[simp] theorem cacheInsert_imgH (s : State) (p : Word) : (s.cacheInsert p).imgH = s.imgH := by rw [cacheInsert_frame]
@[simp] theorem cacheInsert_inLen (s : State) (p : Word) : (s.cacheInsert p).inLen = s.inLen := by rw [cacheInsert_frame]
@[simp] theorem cacheInsert_brBytePos (s : State) (p : Word) : (s.cacheInsert p).brBytePos = s.brBytePos := by
  rw [cacheInsert_frame]
@[simp] theorem cacheInsert_brBitPos (s : State) (p : Word) : (s.cacheInsert p).brBitPos = s.brBitPos := by
  rw [cacheInsert_frame]
@[simp] theorem cacheInsert_stage (s : State) (p : Word) : (s.cacheInsert p).stage = s.stage := by rw [cacheInsert_frame]

/-- Everything CacheInit can answer (R210). -/
theorem cacheInit_apply (bits : Nat) (s : State) :
    cacheInit bits s =
      if Config.cacheMaxBits < bits then .error ⟨.invalidCacheBits, trunc32 bits⟩ s else .ok () (s.clearCache bits) := by
  unfold cacheInit
  by_cases h : Config.cacheMaxBits < bits
  · rw [if_pos h, decide_eq_true h, cmd_bind_of_error (raiseIf_true _ _ _)]
  · rw [if_neg h, decide_eq_false h, cmd_bind_of_ok (raiseIf_false _ _ _), update_apply]

/-- Everything CacheGet can answer (R213). -/
theorem cacheGet_apply (i : Nat) (s : State) :
    cacheGet i s =
      if s.ccSize ≤ i then .error ⟨.cacheIndexRange, trunc32 i⟩ s else .ok (s.cache.read .cache i) s := by
  unfold cacheGet
  rw [cmd_bind_of_ok (readState_apply _ _)]
  by_cases h : s.ccSize ≤ i
  · rw [if_pos h, decide_eq_true h, cmd_bind_of_error (raiseIf_true _ _ _)]
  · rw [if_neg h, decide_eq_false h, cmd_bind_of_ok (raiseIf_false _ _ _), readState_apply]

theorem keeps_cacheGet {P : State → Prop} (i : Nat) : Keeps P (cacheGet i) :=
  (keeps_readState _).bind fun _ => (keeps_raiseIf _ _ _).bind fun _ => keeps_readState _

end Sys2Proof.Machine
end

