-- ==== Sys2Proof/Laws/Codes.lean ====
section
/-! SUPPORT. The arithmetic of canonical codes: bit reversal, the codes as intervals that tile the Kraft sum, and the table a build fills. -/

namespace Sys2Proof.Machine

/-! ### Bit reversal -/

theorem bitrev_lt (c n : Nat) : bitrev c n < 2 ^ n := by
  induction n generalizing c with
  | zero => simp [bitrev]
  | succ n ih =>
    have h1 := ih (c / 2)
    have h2 : c % 2 < 2 := Nat.mod_lt _ (by decide)
    simp only [bitrev, Nat.pow_succ]
    rcases (by omega : c % 2 = 0 ∨ c % 2 = 1) with h | h <;> rw [h] <;> omega

/-- Dropping the low bits of a reversed field leaves the reversal of its first bits. -/
theorem bitrev_div (j : Nat) {l m : Nat} (h : l ≤ m) : bitrev j m / 2 ^ (m - l) = bitrev j l := by
  induction l generalizing j m with
  | zero => simpa [bitrev] using Nat.div_eq_of_lt (bitrev_lt j m)
  | succ l ih =>
    obtain ⟨m, rfl⟩ : ∃ k, m = k + 1 := ⟨m - 1, by omega⟩
    have e : m + 1 - (l + 1) = m - l := by omega
    have hp : 2 ^ m = 2 ^ l * 2 ^ (m - l) := by rw [← Nat.pow_add]; congr 1; omega
    simp only [bitrev, e]
    rw [hp, ← Nat.mul_assoc, Nat.add_comm, Nat.add_mul_div_right _ _ (by positivity), ih (j / 2) (by omega)]
    omega

theorem bitrev_mod (j n : Nat) : bitrev (j % 2 ^ n) n = bitrev j n := by
  induction n generalizing j with
  | zero => rfl
  | succ n ih =>
    simp only [bitrev]
    have h1 : j % 2 ^ (n + 1) % 2 = j % 2 := by rw [Nat.pow_succ, Nat.mod_mul_left_mod]
    have h2 : j % 2 ^ (n + 1) / 2 = j / 2 % 2 ^ n := by rw [Nat.pow_succ, Nat.mul_comm, Nat.mod_mul_right_div_self]
    rw [h1, h2, ih]

/-- The reversal's top bit is the field's bit 0, and its lower bits the reversal of the rest. -/
theorem bitrev_split (c n : Nat) : bitrev c (n + 1) / 2 ^ n = c % 2 ∧ bitrev c (n + 1) % 2 ^ n = bitrev (c / 2) n := by
  have h := bitrev_lt (c / 2) n
  simp only [bitrev]
  constructor
  · rw [Nat.add_comm, Nat.add_mul_div_right _ _ (by positivity), Nat.div_eq_of_lt h]; omega
  · rw [Nat.add_comm, Nat.add_mul_mod_self_right, Nat.mod_eq_of_lt h]

/-- Reversal of `b` appended above an `n`-bit field puts `b` lowest. -/
theorem bitrev_append (b x n : Nat) (hx : x < 2 ^ n) (hb : b < 2) : bitrev (b * 2 ^ n + x) (n + 1) = b + 2 * bitrev x n := by
  induction n generalizing x with
  | zero =>
    have : x = 0 := by simpa using hx
    subst this
    simp only [bitrev]; omega
  | succ n ih =>
    rw [show n + 1 + 1 = (n + 1) + 1 from rfl, bitrev]
    have h1 : (b * 2 ^ (n + 1) + x) % 2 = x % 2 := by rw [Nat.pow_succ, ← Nat.mul_assoc]; omega
    have h2 : (b * 2 ^ (n + 1) + x) / 2 = b * 2 ^ n + x / 2 := by rw [Nat.pow_succ, ← Nat.mul_assoc]; omega
    have h3 : x / 2 < 2 ^ n := by rw [Nat.pow_succ] at hx; omega
    rw [h1, h2, ih _ h3]
    simp only [bitrev, Nat.pow_succ]
    ring

theorem bitrev_bitrev {c n : Nat} (h : c < 2 ^ n) : bitrev (bitrev c n) n = c := by
  induction n generalizing c with
  | zero => simp only [bitrev]; omega
  | succ n ih =>
    have h3 : c / 2 < 2 ^ n := by rw [Nat.pow_succ] at h; omega
    rw [show bitrev c (n + 1) = c % 2 * 2 ^ n + bitrev (c / 2) n from rfl,
      bitrev_append _ _ _ (bitrev_lt _ _) (Nat.mod_lt _ (by decide)), ih h3]
    omega

/-! ### Counts and the Kraft sum -/

/-- The Kraft sum of the symbols of length 1 to `len`. -/
def kraftUpTo (L : List Byte) (len : Nat) : Nat :=
  (L.map fun b => if b.toNat = 0 ∨ len < b.toNat then 0 else 2 ^ (15 - b.toNat)).sum

theorem lengthCount_cons (b : Byte) (L : List Byte) (len : Nat) :
    lengthCount (b :: L) len = (if b.toNat = len ∧ len ≠ 0 then 1 else 0) + lengthCount L len := by
  unfold lengthCount
  by_cases h0 : len = 0
  · simp [h0]
  · by_cases h : b.toNat = len <;> simp [h0, h]; omega

theorem kraftUpTo_succ (L : List Byte) (len : Nat) :
    kraftUpTo L (len + 1) = kraftUpTo L len + lengthCount L (len + 1) * 2 ^ (15 - (len + 1)) := by
  induction L with
  | nil => simp [kraftUpTo, lengthCount]
  | cons b L ih =>
    have e : ∀ l, kraftUpTo (b :: L) l = (if b.toNat = 0 ∨ l < b.toNat then 0 else 2 ^ (15 - b.toNat)) + kraftUpTo L l := by
      intro l; simp [kraftUpTo]
    rw [e, e, ih, lengthCount_cons]
    by_cases h : b.toNat = len + 1
    · rw [if_neg (by omega), if_pos (by omega), if_pos ⟨h, by omega⟩, h]; ring
    · rw [if_neg (by omega : ¬ (b.toNat = len + 1 ∧ len + 1 ≠ 0))]
      by_cases h2 : b.toNat = 0 ∨ len + 1 < b.toNat
      · rw [if_pos h2, if_pos (by omega)]; ring
      · rw [if_neg h2, if_neg (by omega)]; ring

theorem kraftUpTo_zero (L : List Byte) : kraftUpTo L 0 = 0 := by
  unfold kraftUpTo
  apply List.sum_eq_zero
  intro x hx
  obtain ⟨b, -, rfl⟩ := List.mem_map.1 hx
  rw [if_pos (by omega)]

theorem kraftUpTo_max {L : List Byte} {m : Nat} (h : ∀ b ∈ L, b.toNat ≤ m) : kraftUpTo L m = kraftSum L := by
  unfold kraftUpTo kraftSum
  congr 1
  apply List.map_congr_left
  intro b hb
  have := h b hb
  by_cases h0 : b.toNat = 0
  · rw [if_pos (.inl h0), if_pos h0]
  · rw [if_neg (by omega), if_neg h0]

/-- The first code of a length begins where the intervals of the shorter lengths end. -/
theorem firstCode_interval (L : List Byte) {len : Nat} (h : len ≤ 14) :
    firstCode L (len + 1) * 2 ^ (15 - (len + 1)) = kraftUpTo L len := by
  induction len with
  | zero => simp [firstCode, lengthCount, kraftUpTo_zero]
  | succ len ih =>
    have h14 := ih (by omega)
    rw [kraftUpTo_succ, ← h14]
    have e : 2 ^ (15 - (len + 1)) = 2 * 2 ^ (15 - (len + 1 + 1)) := by rw [← Nat.pow_succ']; congr 1; omega
    show (firstCode L (len + 1) + lengthCount L (len + 1)) * 2 * 2 ^ (15 - (len + 1 + 1)) = _
    rw [e]; ring

/-! ### Ranks -/

/-- The number of earlier symbols of a length. -/
def rankOf (L : List Byte) (v i : Nat) : Nat := ((L.take i).filter fun b => b.toNat = v).length

theorem canonicalCode_eq (L : List Byte) (i : Nat) :
    canonicalCode L i = firstCode L (lengthAt L i) + rankOf L (lengthAt L i) i := rfl

theorem lengthAt_cons_succ (b : Byte) (L : List Byte) (i : Nat) : lengthAt (b :: L) (i + 1) = lengthAt L i := by
  simp [lengthAt]

theorem lengthAt_cons_zero (b : Byte) (L : List Byte) : lengthAt (b :: L) 0 = b.toNat := by simp [lengthAt]

theorem rankOf_cons_succ (b : Byte) (L : List Byte) (v i : Nat) :
    rankOf (b :: L) v (i + 1) = (if b.toNat = v then 1 else 0) + rankOf L v i := by
  unfold rankOf
  by_cases h : b.toNat = v <;> simp [h]; omega

/-- A symbol's rank is below the count of its length. -/
theorem rankOf_lt {L : List Byte} {v i : Nat} (hv : v ≠ 0) (hi : i < L.length) (h : lengthAt L i = v) :
    rankOf L v i < lengthCount L v := by
  induction L generalizing i with
  | nil => simp at hi
  | cons b L ih =>
    rw [lengthCount_cons]
    cases i with
    | zero =>
      rw [lengthAt_cons_zero] at h
      rw [if_pos ⟨h, hv⟩]; simp [rankOf]
    | succ i =>
      rw [lengthAt_cons_succ] at h
      have := ih (by simpa using hi) h
      rw [rankOf_cons_succ]
      by_cases hb : b.toNat = v
      · rw [if_pos hb, if_pos ⟨hb, hv⟩]; omega
      · rw [if_neg hb, if_neg (fun x => hb x.1)]; omega

/-- Every rank below the count of a length is some symbol's. -/
theorem exists_rankOf {L : List Byte} {v r : Nat} (hv : v ≠ 0) (hr : r < lengthCount L v) :
    ∃ i < L.length, lengthAt L i = v ∧ rankOf L v i = r := by
  induction L generalizing r with
  | nil => simp [lengthCount] at hr
  | cons b L ih =>
    rw [lengthCount_cons] at hr
    by_cases hb : b.toNat = v
    · rw [if_pos ⟨hb, hv⟩] at hr
      cases r with
      | zero => exact ⟨0, by simp, by rw [lengthAt_cons_zero, hb], by simp [rankOf]⟩
      | succ r =>
        obtain ⟨i, hi, hl, hk⟩ := ih (r := r) (by omega)
        exact ⟨i + 1, by simpa using hi, by rw [lengthAt_cons_succ, hl], by rw [rankOf_cons_succ, if_pos hb, hk]; omega⟩
    · rw [if_neg (fun x => hb x.1)] at hr
      obtain ⟨i, hi, hl, hk⟩ := ih (r := r) (by omega)
      exact ⟨i + 1, by simpa using hi, by rw [lengthAt_cons_succ, hl], by rw [rankOf_cons_succ, if_neg hb, hk]; omega⟩

theorem rankOf_inj {L : List Byte} {v i j : Nat} (hi : i < L.length) (hj : j < L.length) (li : lengthAt L i = v)
    (lj : lengthAt L j = v) (h : rankOf L v i = rankOf L v j) : i = j := by
  induction L generalizing i j with
  | nil => simp at hi
  | cons b L ih =>
    cases i with
    | zero =>
      cases j with
      | zero => rfl
      | succ j =>
        rw [lengthAt_cons_zero] at li
        rw [rankOf_cons_succ, if_pos li] at h
        simp only [rankOf, List.take_zero, List.filter_nil, List.length_nil] at h
        omega
    | succ i =>
      cases j with
      | zero =>
        rw [lengthAt_cons_zero] at lj
        rw [rankOf_cons_succ, if_pos lj] at h
        simp only [rankOf, List.take_zero, List.filter_nil, List.length_nil] at h
        omega
      | succ j =>
        rw [rankOf_cons_succ, rankOf_cons_succ] at h
        rw [lengthAt_cons_succ] at li lj
        rw [ih (by simpa using hi) (by simpa using hj) li lj (by omega)]

/-! ### The codes tile the Kraft sum -/

theorem lengthAt_le {L : List Byte} {m i : Nat} (h : ∀ b ∈ L, b.toNat ≤ m) (hi : i < L.length) : lengthAt L i ≤ m := by
  have : lengthAt L i = (L[i]).toNat := by simp [lengthAt, hi]
  rw [this]; exact h _ (List.getElem_mem hi)

theorem lengthAt_mem {L : List Byte} {b : Byte} (h : b ∈ L) : ∃ i < L.length, lengthAt L i = b.toNat := by
  obtain ⟨i, hi, rfl⟩ := List.getElem_of_mem h
  exact ⟨i, hi, by simp [lengthAt, hi]⟩

theorem kraftUpTo_mono (L : List Byte) {a b : Nat} (h : a ≤ b) : kraftUpTo L a ≤ kraftUpTo L b := by
  induction h with
  | refl => exact Nat.le_refl _
  | step _ ih => rw [kraftUpTo_succ]; omega

/-- The interval of [0, 2^15) that the code of symbol `i` covers. -/
theorem canonicalCode_interval {L : List Byte} (hL : ∀ b ∈ L, b.toNat ≤ 15) {i : Nat} (hi : i < L.length)
    (h0 : lengthAt L i ≠ 0) :
    canonicalCode L i * 2 ^ (15 - lengthAt L i) =
        kraftUpTo L (lengthAt L i - 1) + rankOf L (lengthAt L i) i * 2 ^ (15 - lengthAt L i) ∧
      (canonicalCode L i + 1) * 2 ^ (15 - lengthAt L i) ≤ kraftUpTo L (lengthAt L i) := by
  have h15 := lengthAt_le hL hi
  obtain ⟨l, hl⟩ : ∃ l, lengthAt L i = l + 1 := ⟨lengthAt L i - 1, by omega⟩
  have hf := firstCode_interval L (len := l) (by omega)
  have hr := rankOf_lt h0 hi rfl
  rw [canonicalCode_eq, hl] at *
  have hk := kraftUpTo_succ L l
  refine ⟨by rw [Nat.add_mul, hf]; rfl, ?_⟩
  rw [hk, Nat.add_assoc, Nat.add_mul, hf]
  have := Nat.mul_le_mul_right (2 ^ (15 - (l + 1))) (Nat.succ_le_of_lt hr)
  exact Nat.add_le_add_left this _

/-- Every point below the Kraft sum lies in exactly one code's interval. -/
theorem exists_code {L : List Byte} (hL : ∀ b ∈ L, b.toNat ≤ 15) {x : Nat} (hx : x < kraftSum L) :
    ∃ i < L.length, lengthAt L i ≠ 0 ∧ x / 2 ^ (15 - lengthAt L i) = canonicalCode L i := by
  have key : ∀ m, x < kraftUpTo L m → ∃ l, l < m ∧ kraftUpTo L l ≤ x ∧ x < kraftUpTo L (l + 1) := by
    intro m
    induction m with
    | zero => intro h; rw [kraftUpTo_zero] at h; omega
    | succ m ih =>
      intro h
      by_cases h' : x < kraftUpTo L m
      · obtain ⟨l, h1, h2⟩ := ih h'; exact ⟨l, by omega, h2⟩
      · exact ⟨m, by omega, by omega, h⟩
  obtain ⟨l, hl, h1, h2⟩ := key 15 (by rw [kraftUpTo_max hL]; exact hx)
  rw [kraftUpTo_succ] at h2
  have hp : 0 < 2 ^ (15 - (l + 1)) := by positivity
  have hr : (x - kraftUpTo L l) / 2 ^ (15 - (l + 1)) < lengthCount L (l + 1) := by
    rw [Nat.div_lt_iff_lt_mul hp]; omega
  obtain ⟨i, hi, hli, hri⟩ := exists_rankOf (by omega) hr
  refine ⟨i, hi, by omega, ?_⟩
  have hf := firstCode_interval L (len := l) (by omega)
  rw [canonicalCode_eq, hli, hri]
  have hx' : x = (x - kraftUpTo L l) + firstCode L (l + 1) * 2 ^ (15 - (l + 1)) := by omega
  conv_lhs => rw [hx']
  rw [Nat.add_mul_div_right _ _ hp, Nat.add_comm]

theorem code_inj {L : List Byte} (hL : ∀ b ∈ L, b.toNat ≤ 15) {x i j : Nat} (hi : i < L.length) (hj : j < L.length)
    (li : lengthAt L i ≠ 0) (lj : lengthAt L j ≠ 0) (xi : x / 2 ^ (15 - lengthAt L i) = canonicalCode L i)
    (xj : x / 2 ^ (15 - lengthAt L j) = canonicalCode L j) : i = j := by
  -- a shorter code's interval ends before a longer one's begins
  have ends : ∀ k < L.length, lengthAt L k ≠ 0 → x / 2 ^ (15 - lengthAt L k) = canonicalCode L k →
      kraftUpTo L (lengthAt L k - 1) ≤ x ∧ x < kraftUpTo L (lengthAt L k) := by
    intro k hk lk xk
    obtain ⟨h1, h2⟩ := canonicalCode_interval hL hk lk
    have h3 := Nat.div_add_mod x (2 ^ (15 - lengthAt L k))
    have h4 := Nat.mod_lt x (show 0 < 2 ^ (15 - lengthAt L k) by positivity)
    rw [xk, Nat.mul_comm] at h3
    rw [Nat.add_mul] at h2
    omega
  obtain ⟨a1, a2⟩ := ends i hi li xi
  obtain ⟨b1, b2⟩ := ends j hj lj xj
  have hl : lengthAt L i = lengthAt L j := by
    rcases Nat.lt_trichotomy (lengthAt L i) (lengthAt L j) with h | h | h
    · have := kraftUpTo_mono L (show lengthAt L i ≤ lengthAt L j - 1 by omega); omega
    · exact h
    · have := kraftUpTo_mono L (show lengthAt L j ≤ lengthAt L i - 1 by omega); omega
  have hc : canonicalCode L i = canonicalCode L j := by rw [← xi, ← xj, hl]
  rw [canonicalCode_eq, canonicalCode_eq, hl] at hc
  exact rankOf_inj hi hj hl rfl (by omega)

/-- A code of a set whose Kraft sum is at most 1 fits its length. -/
theorem canonicalCode_lt {L : List Byte} (hL : ∀ b ∈ L, b.toNat ≤ 15) (hK : kraftSum L ≤ 2 ^ 15) {i : Nat}
    (hi : i < L.length) (h0 : lengthAt L i ≠ 0) : canonicalCode L i < 2 ^ lengthAt L i := by
  have h15 := lengthAt_le hL hi
  have h1 := (canonicalCode_interval hL hi h0).2
  have h2 := kraftUpTo_mono L h15
  rw [kraftUpTo_max hL] at h2
  have e : 2 ^ 15 = 2 ^ lengthAt L i * 2 ^ (15 - lengthAt L i) := by rw [← Nat.pow_add]; congr 1; omega
  have h3 : (canonicalCode L i + 1) * 2 ^ (15 - lengthAt L i) ≤ 2 ^ lengthAt L i * 2 ^ (15 - lengthAt L i) := by
    rw [← e]; omega
  exact Nat.lt_of_succ_le (Nat.le_of_mul_le_mul_right h3 (by positivity))

/-! ### Table indices -/

/-- Symbol `i`'s code is the first bits of the table index `j`. -/
def Matches (L : List Byte) (j i : Nat) : Prop :=
  lengthAt L i ≠ 0 ∧ j % 2 ^ lengthAt L i = bitrev (canonicalCode L i) (lengthAt L i)

theorem matches_iff {L : List Byte} (hL : ∀ b ∈ L, b.toNat ≤ 15) (hK : kraftSum L ≤ 2 ^ 15) {m j i : Nat}
    (hm : ∀ b ∈ L, b.toNat ≤ m) (h15 : m ≤ 15) (hi : i < L.length) (h0 : lengthAt L i ≠ 0) :
    j % 2 ^ lengthAt L i = bitrev (canonicalCode L i) (lengthAt L i) ↔
      bitrev j m * 2 ^ (15 - m) / 2 ^ (15 - lengthAt L i) = canonicalCode L i := by
  have hl := lengthAt_le hm hi
  have e : bitrev j m * 2 ^ (15 - m) / 2 ^ (15 - lengthAt L i) = bitrev j (lengthAt L i) := by
    have hp : 2 ^ (15 - lengthAt L i) = 2 ^ (m - lengthAt L i) * 2 ^ (15 - m) := by rw [← Nat.pow_add]; congr 1; omega
    rw [hp, Nat.mul_div_mul_right _ _ (by positivity), bitrev_div j hl]
  have hc := canonicalCode_lt hL hK hi h0
  rw [e]
  constructor
  · intro h
    rw [← bitrev_mod j, h, bitrev_bitrev hc]
  · intro h
    rw [← h, ← bitrev_mod j, bitrev_bitrev (Nat.mod_lt _ (by positivity))]

/-- In a complete code every index matches exactly one symbol (42_huffman.md R170). -/
theorem exists_match {L : List Byte} (hL : ∀ b ∈ L, b.toNat ≤ 15) (hK : kraftSum L = 2 ^ 15) {m : Nat}
    (hm : ∀ b ∈ L, b.toNat ≤ m) (h15 : m ≤ 15) (j : Nat) : ∃ i < L.length, Matches L j i := by
  have hx : bitrev j m * 2 ^ (15 - m) < kraftSum L := by
    rw [hK]
    have e : 2 ^ 15 = 2 ^ m * 2 ^ (15 - m) := by rw [← Nat.pow_add]; congr 1; omega
    rw [e]
    exact Nat.mul_lt_mul_of_pos_right (bitrev_lt j m) (by positivity)
  obtain ⟨i, hi, h0, hc⟩ := exists_code hL hx
  exact ⟨i, hi, h0, (matches_iff hL (by omega) hm h15 hi h0).2 hc⟩

theorem match_unique {L : List Byte} (hL : ∀ b ∈ L, b.toNat ≤ 15) (hK : kraftSum L ≤ 2 ^ 15) {j i i' : Nat}
    (hi : i < L.length) (hi' : i' < L.length) (h : Matches L j i) (h' : Matches L j i') : i = i' :=
  code_inj hL hi hi' h.1 h'.1 ((matches_iff hL hK hL (Nat.le_refl _) hi h.1).1 h.2)
    ((matches_iff hL hK hL (Nat.le_refl _) hi' h'.1).1 h'.2)

/-! ### The largest length, the used symbols -/

theorem foldl_max_ge (L : List Byte) (m : Nat) :
    m ≤ L.foldl (fun m b => max m b.toNat) m ∧ ∀ b ∈ L, b.toNat ≤ L.foldl (fun m b => max m b.toNat) m := by
  induction L generalizing m with
  | nil => simp
  | cons b L ih =>
    obtain ⟨h1, h2⟩ := ih (max m b.toNat)
    simp only [List.foldl_cons, List.mem_cons]
    refine ⟨by omega, ?_⟩
    rintro c (rfl | hc)
    · omega
    · exact h2 c hc

theorem le_maxLength (L : List Byte) : ∀ b ∈ L, b.toNat ≤ maxLength L := (foldl_max_ge L 0).2

theorem maxLength_mem (L : List Byte) : maxLength L = 0 ∨ ∃ b ∈ L, b.toNat = maxLength L := by
  have h : ∀ (L : List Byte) (m : Nat), L.foldl (fun m b => max m b.toNat) m = m ∨
      ∃ b ∈ L, b.toNat = L.foldl (fun m b => max m b.toNat) m := by
    intro L
    induction L with
    | nil => simp
    | cons b L ih =>
      intro m
      simp only [List.foldl_cons, List.mem_cons]
      rcases ih (max m b.toNat) with h | ⟨c, hc, h⟩
      · rw [h]
        rcases (by omega : max m b.toNat = m ∨ max m b.toNat = b.toNat) with h' | h'
        · exact .inl h'
        · exact .inr ⟨b, .inl rfl, h'.symm⟩
      · exact .inr ⟨c, .inr hc, h⟩
  exact h L 0

theorem maxLength_le {L : List Byte} {m : Nat} (h : ∀ b ∈ L, b.toNat ≤ m) : maxLength L ≤ m := by
  rcases maxLength_mem L with h0 | ⟨b, hb, h0⟩
  · omega
  · rw [← h0]; exact h b hb

theorem kraftSum_eq_zero {L : List Byte} (h : ∀ b ∈ L, b.toNat = 0) : kraftSum L = 0 := by
  unfold kraftSum
  apply List.sum_eq_zero
  intro x hx
  obtain ⟨b, hb, rfl⟩ := List.mem_map.1 hx
  rw [if_pos (h b hb)]

theorem maxLength_pos {L : List Byte} (h : 0 < kraftSum L) : 1 ≤ maxLength L := by
  by_contra hc
  have : ∀ b ∈ L, b.toNat = 0 := fun b hb => by have := le_maxLength L b hb; omega
  rw [kraftSum_eq_zero this] at h; omega

theorem usedCount_eq_zero {L : List Byte} : usedCount L = 0 ↔ ∀ b ∈ L, b.toNat = 0 := by
  unfold usedCount
  rw [List.length_eq_zero_iff, List.filter_eq_nil_iff]
  simp

/-! ### The fill -/

theorem mkEntry_ne_zero (len sym : Nat) : mkEntry len sym ≠ 0 := by
  intro h
  have h1 : (mkEntry len sym).toNat = 0 := by rw [h]; rfl
  have h2 : len % 2 ^ 4 < 2 ^ 4 := Nat.mod_lt _ (by decide)
  have h3 : sym % 2 ^ 12 < 2 ^ 12 := Nat.mod_lt _ (by decide)
  simp only [mkEntry, BitVec.toNat_ofNat] at h1
  omega

@[simp] theorem entryFilled_mkEntry (len sym : Nat) : entryFilled (mkEntry len sym) = true := by
  have h2 : len % 2 ^ 4 < 2 ^ 4 := Nat.mod_lt _ (by decide)
  have h3 : sym % 2 ^ 12 < 2 ^ 12 := Nat.mod_lt _ (by decide)
  have : (2 ^ 16 + len % 2 ^ 4 * 2 ^ 12 + sym % 2 ^ 12) / 2 ^ 16 % 2 = 1 := by omega
  simp only [entryFilled, mkEntry, BitVec.getLsbD_ofNat, Nat.testBit, Nat.shiftRight_eq_div_pow, Nat.one_and_eq_mod_two, this]
  decide

theorem entryLen_mkEntry {len : Nat} (h : len < 16) (sym : Nat) : entryLen (mkEntry len sym) = len := by
  have h3 : sym % 2 ^ 12 < 2 ^ 12 := Nat.mod_lt _ (by decide)
  simp only [entryLen, mkEntry, BitVec.toNat_ofNat]
  omega

theorem entrySym_mkEntry (len : Nat) {sym : Nat} (h : sym < 4096) : entrySym (mkEntry len sym) = sym := by
  have h2 : len % 2 ^ 4 < 2 ^ 4 := Nat.mod_lt _ (by decide)
  simp only [entrySym, mkEntry, BitVec.toNat_ofNat]
  omega

theorem fillSymbol_read (sp : Space) (r len i n : Nat) (tab : Memory 17) (j : Nat) :
    ((∃ k < n, j = r + k * 2 ^ len) → (fillSymbol r len i n tab).read sp j = mkEntry len i) ∧
    ((∀ k < n, j ≠ r + k * 2 ^ len) → (fillSymbol r len i n tab).read sp j = tab.read sp j) := by
  induction n generalizing r tab with
  | zero => exact ⟨fun ⟨k, hk, _⟩ => absurd hk (by omega), fun _ => rfl⟩
  | succ n ih =>
    obtain ⟨h1, h2⟩ := ih (r + 2 ^ len) (tab.write r (mkEntry len i))
    simp only [fillSymbol]
    constructor
    · rintro ⟨k, hk, rfl⟩
      cases k with
      | succ k => exact h1 ⟨k, by omega, by ring⟩
      | zero =>
        by_cases hx : ∃ k < n, r + 0 * 2 ^ len = r + 2 ^ len + k * 2 ^ len
        · exact h1 hx
        · rw [h2 (fun k hk he => hx ⟨k, hk, he⟩)]
          simpa using Memory.read_write_self_of_ne_zero sp tab r (mkEntry_ne_zero len i)
    · intro h
      rw [h2 (fun k hk he => h (k + 1) (by omega) (by rw [he]; ring))]
      exact Memory.read_write_ne sp tab (by simpa using h 0 (by omega)) _

/-- The entries one symbol fills are those its code matches. -/
theorem mem_fill_iff {r len m j : Nat} (hr : r < 2 ^ len) (hl : len ≤ m) :
    (∃ k < 2 ^ (m - len), j = r + k * 2 ^ len) ↔ j < 2 ^ m ∧ j % 2 ^ len = r := by
  have e : 2 ^ m = 2 ^ (m - len) * 2 ^ len := by rw [← Nat.pow_add]; congr 1; omega
  constructor
  · rintro ⟨k, hk, rfl⟩
    refine ⟨?_, by rw [Nat.add_mul_mod_self_right, Nat.mod_eq_of_lt hr]⟩
    rw [e]
    have := Nat.mul_le_mul_right (2 ^ len) (Nat.succ_le_of_lt hk)
    rw [Nat.succ_mul] at this
    omega
  · rintro ⟨hj, hm⟩
    refine ⟨j / 2 ^ len, ?_, ?_⟩
    · rw [Nat.div_lt_iff_lt_mul (by positivity), ← e]; exact hj
    · have := Nat.mod_add_div j (2 ^ len)
      rw [hm, Nat.mul_comm] at this; exact this.symm

/-- What the fill over the symbols `i0, …, i0 + n − 1` leaves at an index: the last matching symbol's entry. -/
theorem fillSymbols_read (sp : Space) {L : List Byte} {m : Nat} (hm : ∀ b ∈ L, b.toNat ≤ m) (n i0 : Nat) (tab : Memory 17)
    (hn : i0 + n ≤ L.length) (j : Nat) :
    (∀ i, i0 ≤ i → i < i0 + n → j < 2 ^ m → Matches L j i → (∀ i', i < i' → i' < i0 + n → ¬ Matches L j i') →
      (fillSymbols L m n i0 tab).read sp j = mkEntry (lengthAt L i) i) ∧
    ((∀ i, i0 ≤ i → i < i0 + n → ¬ (j < 2 ^ m ∧ Matches L j i)) →
      (fillSymbols L m n i0 tab).read sp j = tab.read sp j) := by
  induction n generalizing i0 tab with
  | zero => exact ⟨fun i h1 h2 => absurd h2 (by omega), fun _ => rfl⟩
  | succ n ih =>
    set tab' := if lengthAt L i0 = 0 then tab
      else fillSymbol (bitrev (canonicalCode L i0) (lengthAt L i0)) (lengthAt L i0) i0 (2 ^ (m - lengthAt L i0)) tab with ht
    obtain ⟨h1, h2⟩ := ih (i0 + 1) tab' (by omega)
    have hr : (j < 2 ^ m ∧ Matches L j i0 → tab'.read sp j = mkEntry (lengthAt L i0) i0) ∧
        (¬ (j < 2 ^ m ∧ Matches L j i0) → tab'.read sp j = tab.read sp j) := by
      rw [ht]
      by_cases h0 : lengthAt L i0 = 0
      · rw [if_pos h0]
        exact ⟨fun h => absurd h0 h.2.1, fun _ => rfl⟩
      · rw [if_neg h0]
        have hl := lengthAt_le hm (show i0 < L.length by omega)
        obtain ⟨f1, f2⟩ := fillSymbol_read sp (bitrev (canonicalCode L i0) (lengthAt L i0)) (lengthAt L i0) i0
          (2 ^ (m - lengthAt L i0)) tab j
        have hiff := mem_fill_iff (j := j) (bitrev_lt (canonicalCode L i0) (lengthAt L i0)) hl
        constructor
        · intro h
          exact f1 (hiff.2 ⟨h.1, h.2.2⟩)
        · intro h
          refine f2 fun k hk he => h ?_
          obtain ⟨a, b⟩ := hiff.1 ⟨k, hk, he⟩
          exact ⟨a, h0, b⟩
    show (∀ i, i0 ≤ i → i < i0 + (n + 1) → j < 2 ^ m → Matches L j i →
        (∀ i', i < i' → i' < i0 + (n + 1) → ¬ Matches L j i') →
        (fillSymbols L m n (i0 + 1) tab').read sp j = mkEntry (lengthAt L i) i) ∧
      ((∀ i, i0 ≤ i → i < i0 + (n + 1) → ¬ (j < 2 ^ m ∧ Matches L j i)) →
        (fillSymbols L m n (i0 + 1) tab').read sp j = tab.read sp j)
    constructor
    · intro i hi hin hj hmat hlast
      by_cases hii : i = i0
      · subst hii
        rw [h2 (fun i' a b c => hlast i' (by omega) (by omega) c.2), hr.1 ⟨hj, hmat⟩]
      · exact h1 i (by omega) (by omega) hj hmat fun i' a b => hlast i' a (by omega)
    · intro h
      rw [h2 (fun i' a b => h i' (by omega) (by omega)), hr.2 (h i0 (by omega) (by omega))]

end Sys2Proof.Machine
end

