-- ==== Sys2Proof/Laws/Operands.lean ====
section
/-! SUPPORT. All that the shared operand checks can answer: none changes the state, and each passes exactly under its condition. -/

namespace Sys2Proof.Machine

@[simp] theorem opA0_apply (s : State) : opA0 s = .ok s.a0.toNat s := rfl

theorem raiseIf_of_not {c : Prop} [Decidable c] (h : ¬ c) (e : ErrKind) (info : Nat) (s : State) :
    raiseIf (decide c) e info s = .ok () s := by rw [decide_eq_false h, raiseIf_false]

theorem raiseIf_of {c : Prop} [Decidable c] (h : c) (e : ErrKind) (info : Nat) (s : State) :
    raiseIf (decide c) e info s = .error ⟨e, trunc32 info⟩ s := by rw [decide_eq_true h, raiseIf_true]

/-! ### The input check (10_state.md R41) -/

theorem inputCheck_apply (s : State) :
    inputCheck s =
      if s.params.inCapacity < s.inLen.toNat then .error ⟨.argumentRange, trunc32 s.inLen.toNat⟩ s else .ok () s := by
  unfold inputCheck
  rw [cmd_bind_of_ok (readState_apply _ _), cmd_bind_of_ok (readState_apply _ _), raiseIf_apply]
  simp only [decide_eq_true_eq]

theorem inputCheck_ok {s : State} (h : s.InputOk) : inputCheck s = .ok () s := by
  rw [inputCheck_apply, if_neg (by unfold State.InputOk at h; omega)]

/-! ### The image check (10_state.md R43) -/

theorem imageCheck_apply (s : State) :
    imageCheck s =
      if s.imgW = 0 then .error ⟨.argumentRange, s.imgW⟩ s
      else if s.imgH = 0 then .error ⟨.argumentRange, s.imgH⟩ s
      else if s.params.pixCapacity < s.npix then .error ⟨.capacityExceeded, trunc32 s.npix⟩ s
      else .ok () s := by
  unfold imageCheck
  rw [cmd_bind_of_ok (readState_apply _ _)]
  simp only [id_eq]
  by_cases hw : s.imgW = 0
  · rw [if_pos hw, cmd_bind_of_error (raiseIf_of hw _ _ _)]; simp [trunc32]
  · rw [if_neg hw, cmd_bind_of_ok (raiseIf_of_not hw _ _ _)]
    by_cases hh : s.imgH = 0
    · rw [if_pos hh, cmd_bind_of_error (raiseIf_of hh _ _ _)]; simp [trunc32]
    · rw [if_neg hh, cmd_bind_of_ok (raiseIf_of_not hh _ _ _), raiseIf_apply]
      simp only [decide_eq_true_eq]

theorem imageCheck_ok {s : State} (h : s.ImageOk) : imageCheck s = .ok () s := by
  obtain ⟨h1, h2, h3⟩ := h
  rw [imageCheck_apply, if_neg h1, if_neg h2, if_neg (by omega)]

theorem imageCheck_cases {s t : State} (h : imageCheck s = .ok () t) : t = s ∧ s.ImageOk := by
  rw [imageCheck_apply] at h
  split_ifs at h with h1 h2 h3
  cases h
  exact ⟨rfl, h1, h2, by omega⟩

/-! ### The descriptor checks (47_transforms.md R280) -/

theorem blockCheck_apply (d : XfDesc) (s : State) :
    blockCheck d s =
      if d.blockBits.toNat < 2 ∨ 9 < d.blockBits.toNat then .error ⟨.argumentRange, trunc32 d.blockBits.toNat⟩ s
      else if s.params.subCapacity < blockCount s.imgW.toNat s.imgH.toNat d.blockBits.toNat then
        .error ⟨.capacityExceeded, trunc32 (blockCount s.imgW.toNat s.imgH.toNat d.blockBits.toNat)⟩ s
      else .ok () s := by
  unfold blockCheck
  by_cases h : d.blockBits.toNat < 2 ∨ 9 < d.blockBits.toNat
  · have hc : (decide (d.blockBits.toNat < 2) || decide (9 < d.blockBits.toNat)) = true := by simpa using h
    simp only [hc]
    rw [if_pos h, cmd_bind_of_error (raiseIf_true _ _ _)]
  · have hc : (decide (d.blockBits.toNat < 2) || decide (9 < d.blockBits.toNat)) = false := by
      simp only [Bool.or_eq_false_iff, decide_eq_false_iff_not]; omega
    simp only [hc]
    rw [if_neg h, cmd_bind_of_ok (raiseIf_false _ _ _), cmd_bind_of_ok (readState_apply _ _),
      cmd_bind_of_ok (readState_apply _ _), raiseIf_apply]
    simp only [decide_eq_true_eq]

theorem blockCheck_ok {s : State} {d : XfDesc} (h : s.BlocksOk d) : blockCheck d s = .ok () s := by
  obtain ⟨h1, h2, h3⟩ := h
  rw [blockCheck_apply, if_neg (by omega), if_neg (by omega)]

theorem paletteCheck_apply (d : XfDesc) (s : State) :
    paletteCheck d s =
      if d.palSize.toNat = 0 ∨ Config.paletteMax < d.palSize.toNat then
        .error ⟨.argumentRange, trunc32 d.palSize.toNat⟩ s
      else .ok () s := by
  unfold paletteCheck
  rw [raiseIf_apply]
  simp only [Bool.or_eq_true, decide_eq_true_eq]

/-- The end of XfCheck, by the type. -/
def xfGeometry (ty : XfType) (d : XfDesc) : Cmd Unit :=
  match ty with
  | .predictor => blockCheck d
  | .color => blockCheck d
  | .subtractGreen => pure ()
  | .palette => paletteCheck d

/-- Everything XfCheck can answer, in the order of its checks (R280). -/
theorem xfCheck_apply (k : Nat) (ty : XfType) (s : State) :
    xfCheck k ty s =
      if 3 < k then .error ⟨.argumentRange, trunc32 k⟩ s
      else if 4 < s.xfCount.toNat then .error ⟨.argumentRange, trunc32 s.xfCount.toNat⟩ s
      else if s.xfCount.toNat ≤ k then .error ⟨.argumentRange, trunc32 k⟩ s
      else if s.xfDesc[descOf k].ty ≠ ty then .error ⟨.argumentRange, trunc32 k⟩ s
      else if ty ≠ .subtractGreen ∧ s.xfDesc[descOf k].payloadValid = false then .error ⟨.missingPayload, trunc32 k⟩ s
      else match imageCheck s with
        | .error e t => .error e t
        | .ok _ t => xfGeometry ty s.xfDesc[descOf k] t := by
  unfold xfCheck
  by_cases h1 : 3 < k
  · rw [if_pos h1, cmd_bind_of_error (raiseIf_of h1 _ _ _)]
  rw [if_neg h1, cmd_bind_of_ok (raiseIf_of_not h1 _ _ _), cmd_bind_of_ok (readState_apply _ _)]
  by_cases h2 : 4 < s.xfCount.toNat
  · rw [if_pos h2, cmd_bind_of_error (raiseIf_of h2 _ _ _)]
  rw [if_neg h2, cmd_bind_of_ok (raiseIf_of_not h2 _ _ _)]
  by_cases h3 : s.xfCount.toNat ≤ k
  · rw [if_pos h3, cmd_bind_of_error (raiseIf_of h3 _ _ _)]
  rw [if_neg h3, cmd_bind_of_ok (raiseIf_of_not h3 _ _ _), cmd_bind_of_ok (readState_apply _ _)]
  by_cases h4 : s.xfDesc[descOf k].ty ≠ ty
  · rw [if_pos h4, cmd_bind_of_error (raiseIf_of h4 _ _ _)]
  rw [if_neg h4, cmd_bind_of_ok (raiseIf_of_not h4 _ _ _)]
  by_cases h5 : ty ≠ .subtractGreen ∧ s.xfDesc[descOf k].payloadValid = false
  · have hp : (decide (ty ≠ .subtractGreen) && !s.xfDesc[descOf k].payloadValid) = true := by
      rw [decide_eq_true h5.1, h5.2]; rfl
    rw [if_pos h5, hp, cmd_bind_of_error (raiseIf_true _ _ _)]
  have hp : (decide (ty ≠ .subtractGreen) && !s.xfDesc[descOf k].payloadValid) = false := by
    by_cases hty : ty ≠ .subtractGreen
    · have : s.xfDesc[descOf k].payloadValid = true := by
        cases hv : s.xfDesc[descOf k].payloadValid
        · exact absurd ⟨hty, hv⟩ h5
        · rfl
      rw [this]; simp
    · rw [decide_eq_false hty]; rfl
  rw [if_neg h5, hp, cmd_bind_of_ok (raiseIf_false _ _ _), cmd_bind_apply]
  cases imageCheck s <;> rfl

theorem paletteCheck_ok {s : State} {d : XfDesc} (h1 : 1 ≤ d.palSize.toNat) (h2 : d.palSize.toNat ≤ Config.paletteMax) :
    paletteCheck d s = .ok () s := by rw [paletteCheck_apply, if_neg (by omega)]

/-- XfCheck passes under its condition, and then answers the state it was given. -/
theorem xfCheck_ok {s : State} {k : Nat} {ty : XfType} (h : s.XfOk k ty) : xfCheck k ty s = .ok () s := by
  obtain ⟨h1, h2, h3, h4, h5, h6, h7⟩ := h
  rw [xfCheck_apply, if_neg (by omega), if_neg (by omega), if_neg (by omega), if_neg (fun hne => hne h4), if_neg (by
    rintro ⟨ha, hb⟩
    rcases h5 with h5 | h5
    · exact ha h5
    · rw [h5] at hb; cases hb), imageCheck_ok h6]
  cases ty with
  | predictor => exact blockCheck_ok h7
  | color => exact blockCheck_ok h7
  | subtractGreen => rfl
  | palette => exact paletteCheck_ok h7.1 h7.2

/-- XfCheck passes only under its condition. -/
theorem xfCheck_cases {s t : State} {k : Nat} {ty : XfType} (h : xfCheck k ty s = .ok () t) : t = s ∧ s.XfOk k ty := by
  rw [xfCheck_apply] at h
  split_ifs at h with h1 h2 h3 h4 h5
  cases hi : imageCheck s with
  | error e u => rw [hi] at h; cases h
  | ok a u =>
    rw [hi] at h
    obtain ⟨e, ho⟩ := imageCheck_cases hi
    have e := e.symm
    subst e
    have h4 : s.xfDesc[descOf k].ty = ty := by by_contra hc; exact h4 hc
    have h5 : ty = .subtractGreen ∨ s.xfDesc[descOf k].payloadValid = true := by
      by_cases hty : ty = .subtractGreen
      · exact .inl hty
      · right
        cases hv : s.xfDesc[descOf k].payloadValid
        · exact absurd ⟨hty, hv⟩ h5
        · rfl
    have block : ∀ d, blockCheck d s = .ok () t → t = s ∧ s.BlocksOk d := by
      intro d hb
      rw [blockCheck_apply] at hb
      split_ifs at hb with hb1 hb2
      cases hb
      exact ⟨rfl, by omega, by omega, by omega⟩
    cases ty with
    | predictor => obtain ⟨ht, hb⟩ := block _ h; exact ⟨ht, by omega, by omega, by omega, h4, h5, ho, hb⟩
    | color => obtain ⟨ht, hb⟩ := block _ h; exact ⟨ht, by omega, by omega, by omega, h4, h5, ho, hb⟩
    | subtractGreen => cases h; exact ⟨rfl, by omega, by omega, by omega, h4, h5, ho, trivial⟩
    | palette =>
      simp only [xfGeometry] at h
      rw [paletteCheck_apply] at h
      split_ifs at h with hb1
      cases h
      exact ⟨rfl, by omega, by omega, by omega, h4, h5, ho, by omega, by omega⟩

/-! ### None of them changes the state -/

theorem keeps_opA0 {P : State → Prop} : Keeps P opA0 := keeps_readState _

theorem keeps_inputCheck {P : State → Prop} : Keeps P inputCheck :=
  (keeps_readState _).bind fun _ => (keeps_readState _).bind fun _ => keeps_raiseIf _ _ _

theorem keeps_imageCheck {P : State → Prop} : Keeps P imageCheck :=
  (keeps_readState _).bind fun _ => (keeps_raiseIf _ _ _).bind fun _ => (keeps_raiseIf _ _ _).bind fun _ =>
    keeps_raiseIf _ _ _

theorem keeps_blockCheck {P : State → Prop} (d : XfDesc) : Keeps P (blockCheck d) :=
  (keeps_raiseIf _ _ _).bind fun _ => (keeps_readState _).bind fun _ => (keeps_readState _).bind fun _ =>
    keeps_raiseIf _ _ _

theorem keeps_xfCheck {P : State → Prop} (k : Nat) (ty : XfType) : Keeps P (xfCheck k ty) := by
  refine (keeps_raiseIf _ _ _).bind fun _ => (keeps_readState _).bind fun _ => (keeps_raiseIf _ _ _).bind fun _ =>
    (keeps_raiseIf _ _ _).bind fun _ => (keeps_readState _).bind fun _ => (keeps_raiseIf _ _ _).bind fun _ =>
    (keeps_raiseIf _ _ _).bind fun _ => keeps_imageCheck.bind fun _ => ?_
  cases ty with
  | predictor => exact keeps_blockCheck _
  | color => exact keeps_blockCheck _
  | subtractGreen => exact keeps_pure _
  | palette => exact keeps_raiseIf _ _ _

/-- A check answers the state it was given, whatever it answers. -/
theorem xfCheck_state {s t : State} {k : Nat} {ty : XfType} {e : Trap} (h : xfCheck k ty s = .error e t) : t = s :=
  (keeps_xfCheck (P := (· = s)) k ty).error rfl h

/-- A check that does not pass ends in one of three errors. -/
theorem xfCheck_fails {s : State} {k : Nat} {ty : XfType} (h : ¬ s.XfOk k ty) :
    ∃ e ∈ [ErrKind.argumentRange, .missingPayload, .capacityExceeded], ∃ info,
      xfCheck k ty s = .error ⟨e, trunc32 info⟩ s := by
  cases hx : xfCheck k ty s with
  | ok a t => exact absurd (xfCheck_cases hx).2 h
  | error e t =>
    obtain rfl := xfCheck_state hx
    obtain ⟨kind, info⟩ := e
    refine ⟨kind, ?_, info.toNat, by simp [trunc32]⟩
    have block : ∀ d, blockCheck d t = .error ⟨kind, info⟩ t → kind ∈ [ErrKind.argumentRange, .missingPayload, .capacityExceeded] := by
      intro d hb
      rw [blockCheck_apply] at hb
      split_ifs at hb <;> cases hb <;> decide
    rw [xfCheck_apply] at hx
    split_ifs at hx
    iterate 5 (cases hx; decide)
    rw [imageCheck_apply] at hx
    split_ifs at hx
    iterate 3 (cases hx; decide)
    cases ty with
    | predictor => exact block _ hx
    | color => exact block _ hx
    | subtractGreen => cases hx
    | palette =>
      change paletteCheck _ t = _ at hx
      rw [paletteCheck_apply] at hx
      split_ifs at hx
      cases hx; decide

end Sys2Proof.Machine
end

