-- ==== Sys2Proof/Laws/Huffman.lean ====
section
/-! SUPPORT. All that Build and DecodeSym can answer: the build's checks in one function, the table it leaves, and the symbol a table decodes. -/

namespace Sys2Proof.Machine

/-! ### Build -/

/-- The error a build of `L` ends in, the first of 42_huffman.md R161, and nothing when every check passes. -/
def buildError (L : List Byte) : Option (ErrKind × Nat) :=
  if L.length = 0 then some (.emptyAlphabet, 0)
  else if L.findIdx (fun b => Config.maxCodeLength < b.toNat) < L.length then
    some (.codeLengthTooLong, L.findIdx (fun b => Config.maxCodeLength < b.toNat) * 2 ^ 8 +
      lengthAt L (L.findIdx fun b => Config.maxCodeLength < b.toNat))
  else if usedCount L = 0 then some (.emptyAlphabet, L.length)
  else if 2 ^ 15 < kraftSum L then some (.overSubscribed, kraftSum L)
  else if kraftSum L < 2 ^ 15 ∧ isSingle L = false then some (.underSubscribed, kraftSum L)
  else none

/-- The state after a build that passed its checks. -/
def State.built (s : State) (t : Fin 7) (L : List Byte) : State :=
  { s with tab := s.tab.set t (builtTable L s.tab[t]), tabInfo := s.tabInfo.set t (builtInfo L) }

theorem failBuildIf_false (t : Fin 7) (e : ErrKind) (info : Nat) (s : State) :
    failBuildIf false t e info s = .ok () s := rfl

theorem failBuildIf_true (t : Fin 7) (e : ErrKind) (info : Nat) (s : State) :
    failBuildIf true t e info s = .error ⟨e, trunc32 info⟩ (s.forgetTab t) := rfl

theorem isSingle_iff {L : List Byte} : isSingle L = true ↔ usedCount L = 1 ∧ maxLength L = 1 := by
  simp [isSingle]

/-- Everything a build can answer (R161, R169). -/
theorem build_apply (t : Fin 7) (L : List Byte) (s : State) :
    build t L s = match buildError L with
      | some (e, info) => .error ⟨e, trunc32 info⟩ ((s.invalidate t).forgetTab t)
      | none => .ok () (s.built t L) := by
  unfold build buildError
  rw [cmd_bind_of_ok (update_apply _ _)]
  by_cases h1 : L.length = 0
  · rw [if_pos h1, decide_eq_true h1, cmd_bind_of_error (failBuildIf_true _ _ _ _)]
  rw [if_neg h1, decide_eq_false h1, cmd_bind_of_ok (failBuildIf_false _ _ _ _)]
  by_cases h2 : L.findIdx (fun b => Config.maxCodeLength < b.toNat) < L.length
  · rw [if_pos h2, decide_eq_true h2, cmd_bind_of_error (failBuildIf_true _ _ _ _)]
  rw [if_neg h2, decide_eq_false h2, cmd_bind_of_ok (failBuildIf_false _ _ _ _)]
  by_cases h3 : usedCount L = 0
  · rw [if_pos h3, decide_eq_true h3, cmd_bind_of_error (failBuildIf_true _ _ _ _)]
  rw [if_neg h3, decide_eq_false h3, cmd_bind_of_ok (failBuildIf_false _ _ _ _)]
  by_cases h4 : 2 ^ 15 < kraftSum L
  · rw [if_pos h4, decide_eq_true h4, cmd_bind_of_error (failBuildIf_true _ _ _ _)]
  rw [if_neg h4, decide_eq_false h4, cmd_bind_of_ok (failBuildIf_false _ _ _ _)]
  by_cases h5 : kraftSum L < 2 ^ 15 ∧ isSingle L = false
  · have hc : (decide (kraftSum L < 2 ^ 15) && !isSingle L) = true := by simp only [h5.1, h5.2]; rfl
    rw [if_pos h5, hc, cmd_bind_of_error (failBuildIf_true _ _ _ _)]
  · have hc : (decide (kraftSum L < 2 ^ 15) && !isSingle L) = false := by
      by_cases h6 : kraftSum L < 2 ^ 15
      · have : isSingle L = true := by
          cases h : isSingle L
          · exact absurd ⟨h6, h⟩ h5
          · rfl
        rw [this]; simp
      · rw [decide_eq_false h6]; rfl
    rw [if_neg h5, hc, cmd_bind_of_ok (failBuildIf_false _ _ _ _), cmd_bind_of_ok (update_apply _ _)]
    show EStateM.Result.ok () _ = EStateM.Result.ok () _
    congr 1
    simp only [State.built, State.setTabInfo, State.invalidate, vset_set]

theorem findIdx_long {L : List Byte} :
    L.findIdx (fun b => Config.maxCodeLength < b.toNat) < L.length ↔ ∃ b ∈ L, 15 < b.toNat := by
  rw [List.findIdx_lt_length]; simp

theorem kraftSum_ge {L : List Byte} {b : Byte} (h : b ∈ L) (h0 : b.toNat ≠ 0) : 2 ^ (15 - b.toNat) ≤ kraftSum L := by
  unfold kraftSum
  have : 2 ^ (15 - b.toNat) ∈ L.map fun b => if b.toNat = 0 then 0 else 2 ^ (15 - b.toNat) :=
    List.mem_map.2 ⟨b, h, by rw [if_neg h0]⟩
  exact List.le_sum_of_mem this

/-- A build passes its checks exactly on a complete code and on the single symbol of length 1 (R162, R164). -/
theorem buildError_eq_none {L : List Byte} : buildError L = none ↔ Buildable L := by
  unfold buildError Buildable
  constructor
  · intro h
    split_ifs at h with h1 h2 h3 h4 h5
    rw [findIdx_long] at h2
    refine ⟨fun b hb => by by_contra hc; exact h2 ⟨b, hb, by omega⟩, ?_⟩
    by_cases hk : kraftSum L < 2 ^ 15
    · right
      cases hs : isSingle L
      · exact absurd ⟨hk, hs⟩ h5
      · rfl
    · left; omega
  · rintro ⟨hL, hK⟩
    have hu : usedCount L ≠ 0 := by
      intro h0
      rcases hK with hK | hK
      · rw [kraftSum_eq_zero (usedCount_eq_zero.1 h0)] at hK; omega
      · have := (isSingle_iff.1 hK).1; omega
    have h1 : L.length ≠ 0 := by
      intro h0
      rw [List.length_eq_zero_iff] at h0
      subst h0; exact hu rfl
    rw [if_neg h1, if_neg (by rw [findIdx_long]; rintro ⟨b, hb, h⟩; have := hL b hb; omega), if_neg hu]
    rcases hK with hK | hK
    · rw [if_neg (by omega), if_neg (by omega)]
    · have h2 : ¬ 2 ^ 15 < kraftSum L := by
        obtain ⟨a, b⟩ := isSingle_iff.1 hK
        have hle : ∀ b ∈ L, b.toNat ≤ 1 := fun c hc => by have := le_maxLength L c hc; omega
        have : kraftSum L = usedCount L * 2 ^ 14 := by
          clear a b hu h1 hK hL
          induction L with
          | nil => rfl
          | cons c L ih =>
            have ih := ih fun b hb => hle b (List.mem_cons_of_mem _ hb)
            have hc := hle c List.mem_cons_self
            have e1 : kraftSum (c :: L) = (if c.toNat = 0 then 0 else 2 ^ (15 - c.toNat)) + kraftSum L := by simp [kraftSum]
            have e2 : usedCount (c :: L) = (if c.toNat = 0 then 0 else 1) + usedCount L := by
              unfold usedCount
              by_cases h : c.toNat = 0 <;> simp [h]; omega
            rw [e1, e2, ih]
            by_cases h : c.toNat = 0
            · rw [if_pos h, if_pos h]; omega
            · rw [if_neg h, if_neg h, show c.toNat = 1 by omega]; omega
        rw [this, a]; omega
      rw [if_neg h2, if_neg (by rw [hK]; simp)]

/-- The kinds of error a build can end in. -/
theorem buildError_kind {L : List Byte} {e : ErrKind} {info : Nat} (h : buildError L = some (e, info)) :
    (e = .codeLengthTooLong ∧ ∃ b ∈ L, 15 < b.toNat) ∨ e = .emptyAlphabet ∨ e = .overSubscribed ∨ e = .underSubscribed := by
  unfold buildError at h
  split_ifs at h with h1 h2 h3 h4 h5 <;> simp only [Option.some.injEq, Prod.mk.injEq] at h
  · exact .inr (.inl h.1.symm)
  · exact .inl ⟨h.1.symm, findIdx_long.1 h2⟩
  · exact .inr (.inl h.1.symm)
  · exact .inr (.inr (.inl h.1.symm))
  · exact .inr (.inr (.inr h.1.symm))

theorem build_ok {t : Fin 7} {L : List Byte} (h : Buildable L) (s : State) : build t L s = .ok () (s.built t L) := by
  rw [build_apply, buildError_eq_none.2 h]

theorem build_cases {t : Fin 7} {L : List Byte} {s u : State} (h : build t L s = .ok () u) :
    Buildable L ∧ u = s.built t L := by
  rw [build_apply] at h
  cases hb : buildError L with
  | some p => rw [hb] at h; cases h
  | none => rw [hb] at h; cases h; exact ⟨buildError_eq_none.1 hb, rfl⟩

/-- A build keeps whatever its three outcomes keep. -/
theorem hoare_build {P : State → Prop} {Q : Unit → State → Prop} {E : Trap → State → Prop} (t : Fin 7) (L : List Byte)
    (hok : Buildable L → ∀ s, P s → Q () (s.built t L))
    (herr : ∀ e info, buildError L = some (e, info) → ∀ s, P s → E ⟨e, trunc32 info⟩ ((s.invalidate t).forgetTab t)) :
    Hoare P (build t L) Q E := by
  intro s hs
  rw [build_apply]
  cases hb : buildError L with
  | some p => exact herr p.1 p.2 hb s hs
  | none => exact hok (buildError_eq_none.1 hb) s hs

/-! ### The table a build leaves -/

/-- In a buildable set with a single symbol, that symbol is the first used one and the only one with a length. -/
theorem isSingle_used {L : List Byte} (h : isSingle L = true) :
    firstUsed L < L.length ∧ lengthAt L (firstUsed L) = 1 ∧ ∀ i < L.length, lengthAt L i ≠ 0 → i = firstUsed L := by
  obtain ⟨h1, h2⟩ := isSingle_iff.1 h
  have hlt : firstUsed L < L.length := by
    unfold firstUsed
    rw [List.findIdx_lt_length]
    by_contra hc
    have : usedCount L = 0 := usedCount_eq_zero.2 fun b hb => by
      by_contra hb0
      exact hc ⟨b, hb, by simpa using hb0⟩
    omega
  have hne : lengthAt L (firstUsed L) ≠ 0 := by
    have := List.findIdx_getElem (w := hlt) (xs := L) (p := fun b : Byte => decide (b.toNat ≠ 0))
    rw [decide_eq_true_eq] at this
    unfold lengthAt
    rw [List.getD_eq_getElem _ _ hlt]
    exact this
  refine ⟨hlt, ?_, ?_⟩
  · have : lengthAt L (firstUsed L) ≤ 1 := lengthAt_le (fun b hb => by have := le_maxLength L b hb; omega) hlt
    omega
  · have key : ∀ (L : List Byte), usedCount L = 1 → ∀ i j, i < L.length → j < L.length → lengthAt L i ≠ 0 →
        lengthAt L j ≠ 0 → i = j := by
      intro L
      induction L with
      | nil => intro _ i j hi; simp at hi
      | cons c L ih =>
        intro hu i j hi hj li lj
        have e2 : usedCount (c :: L) = (if c.toNat = 0 then 0 else 1) + usedCount L := by
          unfold usedCount
          by_cases h : c.toNat = 0 <;> simp [h]; omega
        have none_left : c.toNat ≠ 0 → ∀ k < L.length, lengthAt L k = 0 := by
          intro hc k hk
          rw [e2, if_neg hc] at hu
          have : lengthAt L k = (L[k]).toNat := by simp [lengthAt, hk]
          rw [this]
          exact usedCount_eq_zero.1 (by omega) _ (List.getElem_mem hk)
        cases i with
        | zero =>
          cases j with
          | zero => rfl
          | succ j =>
            rw [lengthAt_cons_zero] at li
            rw [lengthAt_cons_succ] at lj
            exact absurd (none_left li j (by simpa using hj)) lj
        | succ i =>
          rw [lengthAt_cons_succ] at li
          cases j with
          | zero =>
            rw [lengthAt_cons_zero] at lj
            exact absurd (none_left lj i (by simpa using hi)) li
          | succ j =>
            rw [lengthAt_cons_succ] at lj
            have hc : c.toNat = 0 := by
              by_contra hc
              exact li (none_left hc i (by simpa using hi))
            rw [e2, if_pos hc] at hu
            rw [ih (by omega) i j (by simpa using hi) (by simpa using hj) li lj]
    intro i hi hl
    exact key L h1 i (firstUsed L) hi hlt hl hne

theorem isSingle_of_complete {L : List Byte} (hK : kraftSum L = 2 ^ 15) : isSingle L = false := by
  by_contra h
  rw [Bool.not_eq_false] at h
  obtain ⟨hlt, h1, hu⟩ := isSingle_used h
  have : kraftUpTo L 1 = kraftSum L :=
    kraftUpTo_max fun b hb => by have := le_maxLength L b hb; have := (isSingle_iff.1 h).2; omega
  simp only [kraftUpTo_succ, kraftUpTo_zero, hK, Nat.zero_add] at this
  have h2 : lengthCount L 1 ≤ usedCount L := by
    unfold lengthCount usedCount
    rw [if_neg (by decide)]
    exact List.Sublist.length_le (List.monotone_filter_right L fun b hb => by
      simp only [decide_eq_true_eq] at hb ⊢; omega)
  have h3 := (isSingle_iff.1 h).1
  omega

/-- The entry of every index of a complete code's table, and the entries a build leaves alone (R167, R169, R170). -/
theorem builtTable_complete (sp : Space) {L : List Byte} (hL : ∀ b ∈ L, b.toNat ≤ 15) (hK : kraftSum L = 2 ^ 15)
    (tab : Memory 17) (j : Nat) :
    (∀ i < L.length, j < 2 ^ maxLength L → Matches L j i → (builtTable L tab).read sp j = mkEntry (lengthAt L i) i) ∧
    (2 ^ maxLength L ≤ j → (builtTable L tab).read sp j = tab.read sp j) := by
  have hs := isSingle_of_complete hK
  unfold builtTable
  rw [hs]
  simp only [Bool.false_eq_true, if_false]
  obtain ⟨h1, h2⟩ := fillSymbols_read sp (le_maxLength L) L.length 0 tab (by omega) j
  constructor
  · intro i hi hj hm
    refine h1 i (by omega) (by omega) hj hm fun i' hi' hi'' hm' => ?_
    have := match_unique hL (by omega) hi (by omega) hm hm'
    omega
  · intro hj
    exact h2 fun i _ _ h => by omega

theorem builtTable_single (sp : Space) {L : List Byte} (h : isSingle L = true) (tab : Memory 17) (j : Nat) :
    (builtTable L tab).read sp j = if j < 2 then mkEntry 1 (firstUsed L) else tab.read sp j := by
  unfold builtTable fillSingle
  rw [h]
  simp only [if_true]
  by_cases h1 : j = 1
  · subst h1
    rw [Memory.read_write_self_of_ne_zero sp _ _ (mkEntry_ne_zero _ _)]; rfl
  · rw [Memory.read_write_ne sp _ h1]
    by_cases h0 : j = 0
    · subst h0
      rw [Memory.read_write_self_of_ne_zero sp _ _ (mkEntry_ne_zero _ _)]; rfl
    · rw [Memory.read_write_ne sp _ h0, if_neg (by omega)]

/-- A table whose entries at the indices below 2^`m` are those of symbols below `n`, each index's entry being that of the
symbol whose code it begins with: what every build leaves. -/
structure TableOf (read : Nat → BitVec 17) (m n : Nat) (len : Nat → Nat) (code : Nat → Nat) : Prop where
  pos : 1 ≤ m
  le : m ≤ 15
  entry : ∀ j < 2 ^ m, ∃ i < n, len i ≠ 0 ∧ len i ≤ m ∧ j % 2 ^ len i = code i ∧ read j = mkEntry (len i) i
  unique : ∀ j < 2 ^ m, ∀ i < n, len i ≠ 0 → j % 2 ^ len i = code i → read j = mkEntry (len i) i

/-- What a table decodes from a bit string: the first length at which the entry was filled for exactly that length. -/
theorem TableOf.first_hit {read : Nat → BitVec 17} {m n : Nat} {len code : Nat → Nat} (h : TableOf read m n len code)
    {x : Nat} (hx : x < 2 ^ m) : ∃ i < n, len i ≠ 0 ∧ len i ≤ m ∧ x % 2 ^ len i = code i ∧
      read (x % 2 ^ len i) = mkEntry (len i) i ∧ ∀ k, 1 ≤ k → k < len i → entryLen (read (x % 2 ^ k)) ≠ k := by
  obtain ⟨i, hi, h0, hm, hc, hr⟩ := h.entry x hx
  have hlt : ∀ k, x % 2 ^ k < 2 ^ m ∨ m < k := by
    intro k
    by_cases hk : k ≤ m
    · left; exact Nat.lt_of_lt_of_le (Nat.mod_lt _ (by positivity)) (Nat.pow_le_pow_right (by decide) hk)
    · right; omega
  refine ⟨i, hi, h0, hm, hc, ?_, ?_⟩
  · refine h.unique _ ((hlt _).resolve_right (by omega)) i hi h0 ?_
    rw [Nat.mod_mod, hc]
  · intro k hk1 hk hlen
    obtain ⟨i', hi', h0', hm', hc', hr'⟩ := h.entry (x % 2 ^ k) ((hlt k).resolve_right (by omega))
    have h16 := h.le
    rw [hr', entryLen_mkEntry (by omega)] at hlen
    rw [hlen, Nat.mod_mod] at hc'
    have hx' := h.unique x hx i' hi' h0' (by rw [hlen]; exact hc')
    rw [hr] at hx'
    have : entryLen (mkEntry (len i) i) = entryLen (mkEntry (len i') i') := by rw [hx']
    rw [entryLen_mkEntry (by omega), entryLen_mkEntry (by omega)] at this
    omega

/-- Every table a build leaves is such a table, for the codes of R166; in the single-symbol case each bit is a code of its
own for that symbol, so it is one over the two bit values (R168). -/
theorem tableOf_complete (sp : Space) {L : List Byte} (hL : ∀ b ∈ L, b.toNat ≤ 15) (hK : kraftSum L = 2 ^ 15)
    (tab : Memory 17) : TableOf ((builtTable L tab).read sp) (maxLength L) L.length (lengthAt L)
      fun i => bitrev (canonicalCode L i) (lengthAt L i) where
  pos := maxLength_pos (by omega)
  le := maxLength_le hL
  entry j hj := by
    obtain ⟨i, hi, hm⟩ := exists_match hL hK (le_maxLength L) (maxLength_le hL) j
    exact ⟨i, hi, hm.1, lengthAt_le (le_maxLength L) hi, hm.2, (builtTable_complete sp hL hK tab j).1 i hi hj hm⟩
  unique j hj i hi h0 hc := (builtTable_complete sp hL hK tab j).1 i hi hj ⟨h0, hc⟩

/-! ### Tables that decode every bit string -/

/-- A table of a build is complete in the sense of Safety.lean. -/
theorem built_tableComplete (s : State) (t : Fin 7) {L : List Byte} (h : Buildable L) :
    (s.built t L).TableComplete t := by
  obtain ⟨hL, hK⟩ := h
  have e1 : (s.built t L).tabInfo[t] = builtInfo L := vget_set_self _ _ _
  have e2 : (s.built t L).tab[t] = builtTable L s.tab[t] := vget_set_self _ _ _
  have h15 := maxLength_le hL
  have em : (builtInfo L).maxLen.toNat = maxLength L := by
    simp only [builtInfo, BitVec.toNat_ofNat]; omega
  unfold State.TableComplete
  rw [e1, e2, em]
  rcases hK with hK | hK
  · have T := tableOf_complete (.tab t) hL hK s.tab[t]
    refine ⟨T.pos, fun j hj => ?_⟩
    obtain ⟨i, hi, h0, hm, hc, hr⟩ := T.entry j hj
    simp only [hr, entryFilled_mkEntry, entryLen_mkEntry (show lengthAt L i < 16 by omega)]
    refine ⟨trivial, by omega, hm, fun j' hj' hjj => T.unique j' hj' i hi h0 (by rw [hjj, hc])⟩
  · have h1 := (isSingle_iff.1 hK).2
    rw [h1]
    refine ⟨by omega, fun j hj => ?_⟩
    have : ∀ j < 2, (builtTable L s.tab[t]).read (.tab t) j = mkEntry 1 (firstUsed L) := fun j hj => by
      rw [builtTable_single _ hK, if_pos hj]
    simp only [this j (by simpa using hj), entryFilled_mkEntry, entryLen_mkEntry (show 1 < 16 by decide)]
    exact ⟨trivial, by omega, by omega, fun j' hj' _ => this j' (by simpa using hj')⟩

/-! ### DecodeSym -/

/-- The bits from `p` on, one by one: the reader's next bit extends the field read so far. -/
theorem State.field_snoc (s : State) (q k : Nat) : s.field q (k + 1) = s.field q k + s.inBit (q + k) * 2 ^ k := by
  rw [State.field_add, State.field_succ, State.field_zero]; ring

theorem decodeLoop_succ (t : Fin 7) (maxLen n k p : Nat) : decodeLoop t maxLen (n + 1) k p = (do
    let b ← readBits 1
    let e ← readState fun s => s.tab[t].read (.tab t) (p + b * 2 ^ (k - 1))
    if entryFilled e && entryLen e = k then pure (entrySym e)
    else decodeLoop t maxLen n (k + 1) (p + b * 2 ^ (k - 1))) := rfl

/-- What the loop of R172 answers, from step `k` on with the field of `k` bits read and the cursor after it. -/
theorem decodeLoop_apply (t : Fin 7) (maxLen : Nat) (s : State) (n k : Nat) (hk : s.pos + k ≤ s.endPos ∨ (k = 0 ∧ s.moveTo s.pos = s)) :
    (∀ d, d < n → s.pos + (k + d + 1) ≤ s.endPos →
      (entryFilled (s.tab[t].read (.tab t) (s.field s.pos (k + d + 1))) &&
        entryLen (s.tab[t].read (.tab t) (s.field s.pos (k + d + 1))) = k + d + 1) = true →
      (∀ d' < d, (entryFilled (s.tab[t].read (.tab t) (s.field s.pos (k + d' + 1))) &&
        entryLen (s.tab[t].read (.tab t) (s.field s.pos (k + d' + 1))) = k + d' + 1) = false) →
      decodeLoop t maxLen n (k + 1) (s.field s.pos k) (s.moveTo (s.pos + k)) =
        .ok (entrySym (s.tab[t].read (.tab t) (s.field s.pos (k + d + 1)))) (s.moveTo (s.pos + (k + d + 1)))) ∧
    ((n = 0 ∨ s.pos + (k + n) ≤ s.endPos) →
      (∀ d < n, (entryFilled (s.tab[t].read (.tab t) (s.field s.pos (k + d + 1))) &&
        entryLen (s.tab[t].read (.tab t) (s.field s.pos (k + d + 1))) = k + d + 1) = false) →
      decodeLoop t maxLen n (k + 1) (s.field s.pos k) (s.moveTo (s.pos + k)) =
        .error ⟨.invalidCode, trunc32 (s.field s.pos (k + n) + maxLen * 2 ^ 16)⟩ (s.moveTo (s.pos + (k + n)))) ∧
    (∀ d, d < n → s.endPos < s.pos + (k + d + 1) → (d = 0 ∨ s.pos + (k + d) ≤ s.endPos) →
      (∀ d' < d, (entryFilled (s.tab[t].read (.tab t) (s.field s.pos (k + d' + 1))) &&
        entryLen (s.tab[t].read (.tab t) (s.field s.pos (k + d' + 1))) = k + d' + 1) = false) →
      decodeLoop t maxLen n (k + 1) (s.field s.pos k) (s.moveTo (s.pos + k)) =
        .error ⟨.readPastEnd, trunc32 1⟩ (s.moveTo (s.pos + (k + d)))) := by
  have hlt := s.endPos_lt
  have hpos : (s.moveTo (s.pos + k)).pos = s.pos + k := by
    rcases hk with hk | ⟨rfl, h0⟩
    · exact State.pos_moveTo _ (by omega)
    · rw [Nat.add_zero, h0]
  induction n generalizing k with
  | zero =>
    refine ⟨fun d hd => absurd hd (by omega), fun _ _ => rfl, fun d hd => absurd hd (by omega)⟩
  | succ n ih =>
    -- the bit of this step
    have short : s.endPos < s.pos + (k + 1) →
        decodeLoop t maxLen (n + 1) (k + 1) (s.field s.pos k) (s.moveTo (s.pos + k)) =
          .error ⟨.readPastEnd, trunc32 1⟩ (s.moveTo (s.pos + k)) := by
      intro h
      have : readBits 1 (s.moveTo (s.pos + k)) = .error ⟨.readPastEnd, trunc32 1⟩ (s.moveTo (s.pos + k)) := by
        rw [readBits_apply, if_neg (by omega), if_pos (by rw [hpos]; simp only [State.moveTo_endPos]; omega)]
      rw [decodeLoop_succ, cmd_bind_of_error this]
    have long : s.pos + (k + 1) ≤ s.endPos →
        decodeLoop t maxLen (n + 1) (k + 1) (s.field s.pos k) (s.moveTo (s.pos + k)) =
          (if (entryFilled (s.tab[t].read (.tab t) (s.field s.pos (k + 1))) &&
              decide (entryLen (s.tab[t].read (.tab t) (s.field s.pos (k + 1))) = k + 1)) = true then
            .ok (entrySym (s.tab[t].read (.tab t) (s.field s.pos (k + 1)))) (s.moveTo (s.pos + (k + 1)))
          else decodeLoop t maxLen n (k + 1 + 1) (s.field s.pos (k + 1)) (s.moveTo (s.pos + (k + 1)))) := by
      intro h
      have hr : readBits 1 (s.moveTo (s.pos + k)) = .ok (s.inBit (s.pos + k)) (s.moveTo (s.pos + (k + 1))) := by
        rw [readBits_ok (by decide) (by decide) (by rw [hpos]; simp only [State.moveTo_endPos]; omega), hpos]
        simp only [State.moveTo_field, State.moveTo_moveTo]
        rw [State.field_succ]; rfl
      rw [decodeLoop_succ, cmd_bind_of_ok hr]
      simp only [Nat.add_sub_cancel]
      rw [← State.field_snoc, cmd_bind_of_ok (readState_apply _ _)]
      by_cases hc : (entryFilled (s.tab[t].read (.tab t) (s.field s.pos (k + 1))) &&
          decide (entryLen (s.tab[t].read (.tab t) (s.field s.pos (k + 1))) = k + 1)) = true
      · rw [if_pos hc]
        exact congrFun (if_pos (t := (pure (entrySym (s.tab[t].read (.tab t) (s.field s.pos (k + 1)))) : Cmd Nat)) hc) _
      · rw [if_neg hc]
        exact congrFun (if_neg (t := (pure (entrySym (s.tab[t].read (.tab t) (s.field s.pos (k + 1)))) : Cmd Nat)) hc) _
    by_cases hb : s.pos + (k + 1) ≤ s.endPos
    · have hpos' : (s.moveTo (s.pos + (k + 1))).pos = s.pos + (k + 1) := State.pos_moveTo _ (by omega)
      obtain ⟨i1, i2, i3⟩ := ih (k + 1) (.inl hb) hpos'
      rw [long hb]
      refine ⟨?_, ?_, ?_⟩
      · intro d hd hend hhit hno
        cases d with
        | zero => rw [if_pos hhit]
        | succ d =>
          rw [if_neg (by rw [hno 0 (by omega)]; decide)]
          have e : ∀ d, k + 1 + d + 1 = k + (d + 1) + 1 := fun d => by omega
          have := i1 d (by omega) (by rw [e]; exact hend) (by rw [e]; exact hhit)
            (fun d' hd' => by rw [e]; exact hno (d' + 1) (by omega))
          rwa [e] at this
      · intro hn hno
        rw [if_neg (by rw [hno 0 (by omega)]; decide)]
        have e : ∀ d, k + 1 + d + 1 = k + (d + 1) + 1 := fun d => by omega
        have := i2 (.inr (by omega)) (fun d' hd' => by rw [e]; exact hno (d' + 1) (by omega))
        rwa [show k + 1 + n = k + (n + 1) by omega] at this
      · intro d hd hend hbef hno
        cases d with
        | zero => omega
        | succ d =>
          rw [if_neg (by rw [hno 0 (by omega)]; decide)]
          have e : ∀ d, k + 1 + d + 1 = k + (d + 1) + 1 := fun d => by omega
          have := i3 d (by omega) (by rw [e]; exact hend) (.inr (by omega))
            (fun d' hd' => by rw [e]; exact hno (d' + 1) (by omega))
          rwa [show k + 1 + d = k + (d + 1) by omega] at this
    · rw [short (by omega)]
      refine ⟨?_, ?_, ?_⟩
      · intro d hd hend; omega
      · intro hn; omega
      · intro d hd hend hbef hno
        have : d = 0 := by omega
        subst this; rfl

/-- DecodeSym in closed form (R172, R173): the first length whose entry was filled for exactly that length, or the end of
the table, or the end of the input. -/
theorem decodeSym_apply (t : Fin 7) (s : State) :
    let maxLen := s.tabInfo[t].maxLen.toNat
    let entry := fun k => s.tab[t].read (.tab t) (s.field s.pos k)
    let hit := fun k => entryFilled (entry k) = true ∧ entryLen (entry k) = k
    (∀ k, 1 ≤ k → k ≤ maxLen → s.pos + k ≤ s.endPos → hit k → (∀ k', 1 ≤ k' → k' < k → ¬ hit k') →
      decodeSym t s = .ok (entrySym (entry k)) (s.moveTo (s.pos + k))) ∧
    (maxLen ≤ s.endPos - s.pos → (∀ k, 1 ≤ k → k ≤ maxLen → ¬ hit k) →
      decodeSym t s =
        .error ⟨.invalidCode, trunc32 (s.field s.pos maxLen + maxLen * 2 ^ 16)⟩ (s.moveTo (s.pos + maxLen))) ∧
    (s.endPos - s.pos < maxLen → (∀ k, 1 ≤ k → k ≤ s.endPos - s.pos → ¬ hit k) →
      decodeSym t s = .error ⟨.readPastEnd, trunc32 1⟩ (s.moveTo (s.pos + (s.endPos - s.pos)))) := by
  intro maxLen entry hit
  obtain ⟨a, b, c⟩ := decodeLoop_apply t maxLen s maxLen 0 (.inr ⟨rfl, s.moveTo_pos_self⟩)
  simp only [Nat.zero_add, Nat.add_zero, State.moveTo_pos_self, State.field_zero] at a b c
  have e : decodeSym t s = decodeLoop t maxLen maxLen 1 0 s := rfl
  have nothit : ∀ k, ¬ hit k → (entryFilled (entry k) && decide (entryLen (entry k) = k)) = false := by
    intro k hk
    rw [Bool.eq_false_iff]
    intro h
    simp only [Bool.and_eq_true, decide_eq_true_eq] at h
    exact hk h
  rw [e]
  refine ⟨?_, ?_, ?_⟩
  · intro k h1 h2 h3 h4 h5
    obtain ⟨d, rfl⟩ : ∃ d, k = d + 1 := ⟨k - 1, by omega⟩
    exact a d (by omega) h3 (by simp only [Bool.and_eq_true, decide_eq_true_eq]; exact h4)
      fun d' hd' => nothit _ (h5 (d' + 1) (by omega) (by omega))
  · intro h1 h2
    exact b (by omega) fun d hd => nothit _ (h2 (d + 1) (by omega) (by omega))
  · intro h1 h2
    exact c (s.endPos - s.pos) h1 (by omega) (by omega) fun d hd => nothit _ (h2 (d + 1) (by omega) (by omega))

/-- The field of `k` bits is the low part of a longer field. -/
theorem State.field_mod (s : State) (q : Nat) {k m : Nat} (h : k ≤ m) : s.field q m % 2 ^ k = s.field q k := by
  obtain ⟨d, rfl⟩ : ∃ d, m = k + d := ⟨m - k, by omega⟩
  rw [State.field_add, Nat.add_mul_mod_self_left, Nat.mod_eq_of_lt (s.field_lt q k)]

/-- DecodeSym on a table of a code, fed with a symbol's bits, answers that symbol and consumes its length (R175). -/
theorem decodeSym_of_code {t : Fin 7} {s : State} {n : Nat} {len code : Nat → Nat}
    (T : TableOf (s.tab[t].read (.tab t)) s.tabInfo[t].maxLen.toNat n len code) (hn : n ≤ 4096) {i : Nat} (hi : i < n)
    (h0 : len i ≠ 0) (hc : s.field s.pos (len i) = code i) (hle : len i ≤ s.tabInfo[t].maxLen.toNat)
    (hend : s.pos + len i ≤ s.endPos) : decodeSym t s = .ok i (s.moveTo (s.pos + len i)) := by
  have hlt : ∀ k ≤ s.tabInfo[t].maxLen.toNat, s.field s.pos k < 2 ^ s.tabInfo[t].maxLen.toNat := fun k hk =>
    Nat.lt_of_lt_of_le (s.field_lt _ _) (Nat.pow_le_pow_right (by decide) hk)
  have h16 := T.le
  have hx := T.first_hit (hlt _ hle)
  obtain ⟨i', hi', h0', hm', hc', hr', hno⟩ := hx
  have hu := T.unique _ (hlt _ hle) i hi h0 (by rw [Nat.mod_eq_of_lt (s.field_lt _ _), hc])
  have hu' := T.unique _ (hlt _ hle) i' hi' h0' hc'
  rw [hu] at hu'
  have e1 : entryLen (mkEntry (len i) i) = entryLen (mkEntry (len i') i') := by rw [hu']
  have e2 : entrySym (mkEntry (len i) i) = entrySym (mkEntry (len i') i') := by rw [hu']
  rw [entryLen_mkEntry (by omega), entryLen_mkEntry (by omega)] at e1
  rw [entrySym_mkEntry _ (by omega), entrySym_mkEntry _ (by omega)] at e2
  subst e2
  have hhit := (decodeSym_apply t s).1 (len i) (by omega) hle hend
    ⟨by simp only [hu, entryFilled_mkEntry], by simp only [hu]; rw [entryLen_mkEntry (by omega)]⟩
    (fun k' h1 h2 hk => hno k' h1 h2 (by rw [s.field_mod s.pos (by omega)]; exact hk.2))
  rw [hhit]
  simp only [hu]
  rw [entrySym_mkEntry _ (by omega)]

/-- DecodeSym only moves the cursor. -/
theorem keeps_decodeLoop {P : State → Prop} (h : ∀ s q, P s → q ≤ s.endPos → s.pos ≤ q → P (s.moveTo q)) (t : Fin 7)
    (maxLen n k p : Nat) : Keeps P (decodeLoop t maxLen n k p) := by
  induction n generalizing k p with
  | zero => exact keeps_raise _ _
  | succ n ih =>
    exact (keeps_readBits h 1).bind fun _ => (keeps_readState _).bind fun _ =>
      Keeps.ite (fun _ => keeps_pure _) fun _ => ih _ _

theorem keeps_decodeSym {P : State → Prop} (h : ∀ s q, P s → q ≤ s.endPos → s.pos ≤ q → P (s.moveTo q)) (t : Fin 7) :
    Keeps P (decodeSym t) := (keeps_readState _).bind fun _ => keeps_decodeLoop h t _ _ _ _

/-- What DecodeSym answers from a complete table: a symbol of the table, or READ_PAST_END, never INVALID_CODE (R174). -/
theorem decodeSym_complete {t : Fin 7} {s : State} (h : s.TableComplete t) :
    (∃ j k, j < 2 ^ s.tabInfo[t].maxLen.toNat ∧ 1 ≤ k ∧ s.pos + k ≤ s.endPos ∧
      decodeSym t s = .ok (entrySym (s.tab[t].read (.tab t) j)) (s.moveTo (s.pos + k))) ∨
    (decodeSym t s = .error ⟨.readPastEnd, trunc32 1⟩ (s.moveTo (s.pos + (s.endPos - s.pos)))) := by
  obtain ⟨h1, h2⟩ := h
  obtain ⟨a, b, c⟩ := decodeSym_apply t s
  set m := s.tabInfo[t].maxLen.toNat with hm
  have hlt : ∀ k ≤ m, s.field s.pos k < 2 ^ m := fun k hk =>
    Nat.lt_of_lt_of_le (s.field_lt _ _) (Nat.pow_le_pow_right (by decide) hk)
  -- the length of the entry of the whole prefix is a hit
  obtain ⟨f, l1, l2, huniq⟩ := h2 _ (hlt m (Nat.le_refl _))
  set e := s.tab[t].read (.tab t) (s.field s.pos m) with he
  have hhit : entryFilled (s.tab[t].read (.tab t) (s.field s.pos (entryLen e))) = true ∧
      entryLen (s.tab[t].read (.tab t) (s.field s.pos (entryLen e))) = entryLen e := by
    have := huniq _ (hlt _ l2) (by rw [← s.field_mod s.pos l2, Nat.mod_mod])
    rw [this]; exact ⟨f, rfl⟩
  -- the least hit
  have hex : ∃ k, 1 ≤ k ∧ k ≤ m ∧ entryFilled (s.tab[t].read (.tab t) (s.field s.pos k)) = true ∧
      entryLen (s.tab[t].read (.tab t) (s.field s.pos k)) = k := ⟨_, l1, l2, hhit⟩
  classical
  obtain ⟨k1, k2, k3⟩ := Nat.find_spec hex
  have kmin := fun k' (hk' : k' < Nat.find hex) => Nat.find_min hex hk'
  by_cases hend : s.pos + Nat.find hex ≤ s.endPos
  · left
    exact ⟨_, _, hlt _ k2, k1, hend, a _ k1 k2 hend k3 fun k' h1 h2 hk => kmin k' h2 ⟨h1, by omega, hk⟩⟩
  · right
    exact c (by omega) fun k' h1 h2 hk => kmin k' (by omega) ⟨h1, by omega, hk⟩

end Sys2Proof.Machine
end

