-- ==== Sys2Proof/Laws/Closed.lean ====
section
/-! SUPPORT. The one induction over every command: a property that each primitive change of the parts in `W` keeps is kept by every command that writes only parts in `W`. -/

namespace Sys2Proof.Machine

/-- The parameters and the working size, which nothing but the header parser changes inside a command. -/
def State.Sized (p : Params) (w h : Word) (s : State) : Prop := s.params = p ∧ s.imgW = w ∧ s.imgH = h

/-- `P` is kept by every primitive change a command makes to the parts in `W`, each under what its callers have checked.
STAGE is apart: the whole bodies, which set it, ask for that besides (`Stageless`). -/
structure Closed (W : List Region) (P : State → Prop) : Prop where
  res0 : .result ∈ W → ∀ s v, P s → P { s with res0 := v }
  move : .cursor ∈ W → ∀ s q, P s → q ≤ s.endPos → s.pos ≤ q → P (s.moveTo q)
  start : .cursor ∈ W → ∀ s b, P s → P (s.startReader b)
  invalidate : .tableInfo ∈ W → ∀ s t, P s → P (s.invalidate t)
  failed : .tables ∈ W → .tableInfo ∈ W → ∀ s t, P s → P ((s.invalidate t).forgetTab t)
  built : .tables ∈ W → .tableInfo ∈ W → ∀ s t L, P s → Buildable L → P (s.built t L)
  lengths : .lengths ∈ W → ∀ s i vs, P s → i + vs.length ≤ Config.maxAlphabet → P (s.setCodeLengths i vs)
  clmClear : .metaLengths ∈ W → ∀ s, P s → P { s with clm := .replicate 19 0 }
  clmSet : .metaLengths ∈ W → ∀ s m v, P s → P (s.setClm m v)
  clearCache : .cache ∈ W → ∀ s bits, P s → bits ≤ Config.cacheMaxBits → P (s.clearCache bits)
  cacheInsert : .cache ∈ W → ∀ s p, P s → P (s.cacheInsert p)
  setPix : .pix ∈ W → ∀ s i v, P s → i < s.params.pixCapacity → P (s.setElem .pix i v)
  setSub : .sub ∈ W → ∀ s k i v, P s → i < s.params.subCapacity → P (s.setElem (.sub k) i v)
  setEnt : .ent ∈ W → ∀ s i v, P s → i < s.params.subCapacity → P (s.setElem .ent i v)
  convert : .out ∈ W → ∀ s i, P s → i < s.params.pixCapacity → P (s.convertPixel i)
  setImage : .image ∈ W → ∀ s w h a v, P s → P (s.setImage w h a v)
  setDesc : .transforms ∈ W → ∀ s k d, P s → P (s.setDesc k d)
  countDesc : .transforms ∈ W → ∀ s k, P s → P (s.countDesc k)
  setGroups : .groups ∈ W → ∀ s e b g, P s → P (s.setGroups e b g)
  init : .cursor ∈ W → .cache ∈ W → .transforms ∈ W → .groups ∈ W → .tableInfo ∈ W → ∀ s, P s → P s.decodeInit

/-- A property that does not speak of STAGE. -/
def Stageless (P : State → Prop) : Prop := ∀ s st, P s → P (s.atStage st)

variable {W : List Region} {P : State → Prop}

/-- The property together with the parameters and the working size. -/
def Fixed (P : State → Prop) (p : Params) (w h : Word) (s : State) : Prop := P s ∧ s.Sized p w h

namespace Closed

theorem readBits (C : Closed W P) (hW : .cursor ∈ W) {p : Params} {w h : Word} (n : Nat) :
    Keeps (Fixed P p w h) (readBits n) :=
  keeps_readBits (fun s q hs h1 h2 => ⟨C.move hW s q hs.1 h1 h2, hs.2⟩) n

theorem readExtra (C : Closed W P) (hW : .cursor ∈ W) {p : Params} {w h : Word} (n : Nat) :
    Keeps (Fixed P p w h) (readExtra n) :=
  keeps_readExtra (fun s q hs h1 h2 => ⟨C.move hW s q hs.1 h1 h2, hs.2⟩) n

theorem decodeSym (C : Closed W P) (hW : .cursor ∈ W) {p : Params} {w h : Word} (t : Fin 7) :
    Keeps (Fixed P p w h) (decodeSym t) :=
  keeps_decodeSym (fun s q hs h1 h2 => ⟨C.move hW s q hs.1 h1 h2, hs.2⟩) t

theorem build (C : Closed W P) (h1 : .tables ∈ W) (h2 : .tableInfo ∈ W) {p : Params} {w h : Word} (t : Fin 7)
    (L : List Byte) : Keeps (Fixed P p w h) (build t L) :=
  hoare_build t L (fun hL s hs => ⟨C.built h1 h2 s t L hs.1 hL, hs.2⟩) fun _ _ _ s hs => ⟨C.failed h1 h2 s t hs.1, hs.2⟩

theorem prefixValue (C : Closed W P) (hW : .cursor ∈ W) {p : Params} {w h : Word} (c : Nat) :
    Keeps (Fixed P p w h) (prefixValue c) := (C.readExtra hW _).bind fun _ => keeps_pure _

/-! ### Code lengths -/

theorem putLength (C : Closed W P) (hW : .lengths ∈ W) {p : Params} {w h : Word} {i : Nat} (hi : i < Config.maxAlphabet)
    (v : Nat) : Keeps (Fixed P p w h) (putLength i v) :=
  keeps_update fun s hs => ⟨C.lengths hW s i _ hs.1 (by simpa using hi), hs.2⟩

theorem literalLengths (C : Closed W P) (h1 : .cursor ∈ W) (h2 : .lengths ∈ W) {p : Params} {w h : Word} {n : Nat}
    (hn : n ≤ Config.maxAlphabet) (cnt : Nat) : Keeps (Fixed P p w h) (literalLengths n cnt) := by
  refine keeps_raiseIf_bind fun hc => ?_
  have hc : cnt ≤ n := by simpa using hc
  refine (keeps_forRange_lt _ _ fun i _ hi => ?_).bind fun _ => ?_
  · exact (C.readBits h1 3).bind fun _ => C.putLength h2 (by omega) _
  · exact keeps_update fun s hs => ⟨C.lengths h2 s _ _ hs.1 (by simp only [List.length_replicate]; omega), hs.2⟩

theorem repeatLength (C : Closed W P) (hW : .lengths ∈ W) {p : Params} {w h : Word} {n : Nat} (hn : n ≤ Config.maxAlphabet)
    (i v r : Nat) : Keeps (Fixed P p w h) (repeatLength n i v r) := by
  refine keeps_raiseIf_bind fun hc => ?_
  have hc : i + r ≤ n := by simpa using hc
  exact (keeps_update fun s hs => ⟨C.lengths hW s _ _ hs.1 (by simp only [List.length_replicate]; omega), hs.2⟩).bind
    fun _ => keeps_pure _

theorem lengthToken (C : Closed W P) (h1 : .cursor ∈ W) (h2 : .lengths ∈ W) {p : Params} {w h : Word} {n : Nat}
    (hn : n ≤ Config.maxAlphabet) {i : Nat} (hi : i < n) (prev sym : Nat) :
    Keeps (Fixed P p w h) (lengthToken n i prev sym) := by
  unfold Machine.lengthToken
  refine Keeps.ite (fun _ => (C.putLength h2 (by omega) _).bind fun _ => keeps_pure _) fun _ =>
    Keeps.ite (fun _ => ?_) fun _ => Keeps.ite (fun _ => ?_) fun _ => Keeps.ite (fun _ => ?_) fun _ => keeps_raise _ _
  all_goals exact (C.readBits h1 _).bind fun _ => (C.repeatLength h2 hn _ _ _).bind fun _ => keeps_pure _

theorem lengthLoop (C : Closed W P) (h1 : .cursor ∈ W) (h2 : .lengths ∈ W) {p : Params} {w h : Word} {n : Nat}
    (hn : n ≤ Config.maxAlphabet) (fuel i prev : Nat) : Keeps (Fixed P p w h) (lengthLoop n fuel i prev) := by
  induction fuel generalizing i prev with
  | zero => exact keeps_pure _
  | succ fuel ih =>
    exact Keeps.ite (fun hi => (C.decodeSym h1 _).bind fun _ => (C.lengthToken h1 h2 hn hi _ _).bind fun _ => ih _ _)
      fun _ => keeps_pure _

theorem metaLengths (C : Closed W P) (h1 : .cursor ∈ W) (h2 : .metaLengths ∈ W) {p : Params} {w h : Word} (cnt : Nat) :
    Keeps (Fixed P p w h) (metaLengths cnt) :=
  (keeps_update fun s hs => ⟨C.clmClear h2 s hs.1, hs.2⟩).bind fun _ => keeps_forRange (fun _ =>
    (keeps_readState _).bind fun _ => (C.readBits h1 3).bind fun _ =>
      keeps_update fun s hs => ⟨C.clmSet h2 s _ _ hs.1, hs.2⟩) _ _

theorem readCodeLengths (C : Closed W P) (h1 : .cursor ∈ W) (h2 : .lengths ∈ W) (h3 : .metaLengths ∈ W) (h4 : .tables ∈ W)
    (h5 : .tableInfo ∈ W) {p : Params} {w h : Word} {n : Nat} (hn : n ≤ Config.maxAlphabet) :
    Keeps (Fixed P p w h) (readCodeLengths n) :=
  (C.readBits h1 1).bind fun _ => (C.readBits h1 4).bind fun _ => Keeps.ite (fun _ => C.literalLengths h1 h2 hn _) fun _ =>
    (C.metaLengths h1 h3 _).bind fun _ => (keeps_readState _).bind fun _ => (C.build h4 h5 _ _).bind fun _ =>
      C.lengthLoop h1 h2 hn _ _ _

/-! ### Groups, sub-images and the pixel stream -/

theorem readTrees (C : Closed W P) (h1 : .cursor ∈ W) (h2 : .lengths ∈ W) (h3 : .metaLengths ∈ W) (h4 : .tables ∈ W)
    (h5 : .tableInfo ∈ W) {p : Params} {w h : Word} (primary : Bool) (ts : List (Fin 7 × Nat))
    (hts : ∀ x ∈ ts, x.2 ≤ Config.maxAlphabet) : Keeps (Fixed P p w h) (readTrees primary ts) := by
  induction ts with
  | nil => exact keeps_pure _
  | cons x ts ih =>
    exact ((C.readCodeLengths h1 h2 h3 h4 h5 (hts x List.mem_cons_self)).bind fun _ =>
      (keeps_readState _).bind fun _ => C.build h4 h5 _ _).bind fun _ => ih fun y hy => hts y (List.mem_cons_of_mem _ hy)

theorem groupTrees_le {cs : Nat} (hcs : cs ≤ Config.cacheCapacity) (at_ : Bool) :
    ∀ x ∈ groupTrees cs at_, x.2 ≤ Config.maxAlphabet := by
  intro x hx
  simp only [groupTrees, List.mem_append, List.mem_cons, List.not_mem_nil, or_false] at hx
  have h256 : (256 : Nat) ≤ Config.maxAlphabet := by decide
  rcases hx with ((rfl | rfl | rfl) | hx) | rfl
  · show 256 + 24 + cs ≤ 2328
    have : cs ≤ 2048 := hcs
    omega
  · exact h256
  · exact h256
  · cases at_
    · simp at hx
    · simp only [if_true, List.mem_singleton] at hx; subst hx; exact h256
  · decide

theorem cacheSize_le {bits : Nat} (h : bits ≤ Config.cacheMaxBits) : cacheSize bits ≤ Config.cacheCapacity := by
  unfold cacheSize
  split
  · exact Nat.zero_le _
  · exact Nat.pow_le_pow_right (n := 2) (by decide) h

theorem readGroup (C : Closed W P) (h1 : .cursor ∈ W) (h2 : .lengths ∈ W) (h3 : .metaLengths ∈ W) (h4 : .tables ∈ W)
    (h5 : .tableInfo ∈ W) {p : Params} {w h : Word} {cs : Nat} (hcs : cs ≤ Config.cacheCapacity) (at_ primary : Bool) :
    Keeps (Fixed P p w h) (readGroup cs at_ primary) :=
  (C.readTrees h1 h2 h3 h4 h5 _ _ (groupTrees_le hcs at_)).bind fun _ => Keeps.ite
    (fun _ => keeps_update fun s hs => ⟨C.invalidate h5 s 3 hs.1, hs.2⟩) fun _ => keeps_pure _

theorem cacheInit (C : Closed W P) (hW : .cache ∈ W) {p : Params} {w h : Word} (bits : Nat) :
    Keeps (Fixed P p w h) (cacheInit bits) :=
  keeps_raiseIf_bind fun hb => keeps_update fun s hs => ⟨C.clearCache hW s bits hs.1 (by simpa using hb), hs.2⟩

/-- The spaces a pixel stream writes, with the count that bounds it. -/
def Target (W : List Region) (p : Params) (buf : Space) (n : Nat) : Prop :=
  (buf = .pix ∧ .pix ∈ W ∧ n ≤ p.pixCapacity) ∨ (∃ k, buf = .sub k ∧ .sub ∈ W ∧ n ≤ p.subCapacity) ∨
  (buf = .ent ∧ .ent ∈ W ∧ n ≤ p.subCapacity)

theorem setElem (C : Closed W P) {p : Params} {w h : Word} {buf : Space} {n : Nat} (T : Target W p buf n) {s : State}
    (hs : Fixed P p w h s) {i : Nat} (hi : i < n) (v : Word) : Fixed P p w h (s.setElem buf i v) := by
  obtain ⟨hP, hp, hw⟩ := hs
  rcases T with ⟨rfl, hW, hn⟩ | ⟨k, rfl, hW, hn⟩ | ⟨rfl, hW, hn⟩
  · exact ⟨C.setPix hW s i v hP (by rw [hp]; omega), hp, hw⟩
  · exact ⟨C.setSub hW s k i v hP (by rw [hp]; omega), hp, hw⟩
  · exact ⟨C.setEnt hW s i v hP (by rw [hp]; omega), hp, hw⟩

theorem insert (C : Closed W P) (hW : .cache ∈ W) {p : Params} {w h : Word} {s : State} (hs : Fixed P p w h s) (v : Word) :
    Fixed P p w h (s.cacheInsert v) := by
  obtain ⟨hP, hp, hw, hh⟩ := hs
  exact ⟨C.cacheInsert hW s v hP, by simpa using hp, by simpa using hw, by simpa using hh⟩

theorem copyRun (C : Closed W P) {p : Params} {w h : Word} {buf : Space} {n : Nat} (T : Target W p buf n) {ins : Bool}
    (hW : ins = true → .cache ∈ W) {s : State} (hs : Fixed P p w h s) {at_ dist len : Nat} (hl : at_ + len ≤ n) :
    Fixed P p w h (s.copyRun buf at_ dist ins len) := by
  induction len generalizing s at_ with
  | zero => exact hs
  | succ len ih =>
    refine ih (s := s.copyPixel buf at_ dist ins) ?_ (by omega)
    have h1 := C.setElem T hs (show at_ < n by omega) (s.elem buf (at_ - dist))
    cases ins with
    | false => exact h1
    | true => exact C.insert (hW rfl) h1 _

theorem lzCopy (C : Closed W P) {p : Params} {w h : Word} {buf : Space} {n : Nat} (T : Target W p buf n) {ins : Bool}
    (hW : ins = true → .cache ∈ W) (pos dist len : Nat) : Keeps (Fixed P p w h) (lzCopy buf pos dist len n ins) := by
  refine (keeps_readState _).bind fun _ => (keeps_raiseIf _ _ _).bind fun _ => (keeps_raiseIf _ _ _).bind fun _ =>
    (keeps_raiseIf _ _ _).bind fun _ => keeps_raiseIf_bind fun hb => ?_
  have hb : pos + len ≤ n := by simpa using hb
  exact keeps_update fun s hs => C.copyRun T hW hs hb

theorem emitPixel (C : Closed W P) (hW : .cache ∈ W) {p : Params} {w h : Word} {buf : Space} {n : Nat}
    (T : Target W p buf n) {s : State} (hs : Fixed P p w h s) {i : Nat} (hi : i < n) (v : Word) :
    Fixed P p w h (s.emitPixel buf i v) := C.insert hW (C.setElem T hs hi v) v

theorem literalToken (C : Closed W P) (h1 : .cursor ∈ W) (h2 : .cache ∈ W) {p : Params} {w h : Word} {buf : Space}
    {n : Nat} (T : Target W p buf n) (at_ : Bool) {pos : Nat} (hp : pos < n) (g : Nat) :
    Keeps (Fixed P p w h) (literalToken buf at_ pos g) := by
  unfold Machine.literalToken
  refine (C.decodeSym h1 1).bind fun r => (C.decodeSym h1 2).bind fun b =>
    Keeps.bind (x := alphaSym at_) (Keeps.ite (fun _ => C.decodeSym h1 3) fun _ => keeps_pure _) fun a => ?_
  exact (keeps_update fun s hs => C.emitPixel h2 T hs hp _).bind fun _ => keeps_pure _

theorem backRefToken (C : Closed W P) (h1 : .cursor ∈ W) (h2 : .cache ∈ W) {p : Params} {w h : Word} {buf : Space}
    {n : Nat} (T : Target W p buf n) (pos c : Nat) : Keeps (Fixed P p w h) (backRefToken buf n pos c) := by
  unfold Machine.backRefToken
  exact (C.prefixValue h1 _).bind fun _ => (C.decodeSym h1 4).bind fun _ => (C.prefixValue h1 _).bind fun _ =>
    (C.lzCopy T (fun _ => h2) _ _ _).bind fun _ => keeps_pure _

theorem cacheRefToken (C : Closed W P) (h2 : .cache ∈ W) {p : Params} {w h : Word} {buf : Space} {n : Nat}
    (T : Target W p buf n) {pos : Nat} (hp : pos < n) (j : Nat) : Keeps (Fixed P p w h) (cacheRefToken buf pos j) := by
  unfold Machine.cacheRefToken
  exact (keeps_cacheGet _).bind fun _ => (keeps_update fun s hs => C.emitPixel h2 T hs hp _).bind fun _ => keeps_pure _

theorem pixelToken (C : Closed W P) (h1 : .cursor ∈ W) (h2 : .cache ∈ W) {p : Params} {w h : Word} {buf : Space} {n : Nat}
    (T : Target W p buf n) (at_ : Bool) {pos : Nat} (hp : pos < n) : Keeps (Fixed P p w h) (pixelToken buf n at_ pos) :=
  (C.decodeSym h1 0).bind fun g => Keeps.ite (fun _ => C.literalToken h1 h2 T at_ hp g) fun _ =>
    Keeps.ite (fun _ => C.backRefToken h1 h2 T pos _) fun _ => C.cacheRefToken h2 T hp _

theorem pixelLoop (C : Closed W P) (h1 : .cursor ∈ W) (h2 : .cache ∈ W) {p : Params} {w h : Word} {buf : Space} {n : Nat}
    (T : Target W p buf n) (at_ : Bool) (fuel pos : Nat) : Keeps (Fixed P p w h) (pixelLoop buf n at_ fuel pos) := by
  induction fuel generalizing pos with
  | zero => exact keeps_pure _
  | succ fuel ih =>
    exact Keeps.ite (fun hp => (C.pixelToken h1 h2 T at_ hp).bind fun _ => ih _) fun _ => keeps_pure _

theorem readCacheBits (C : Closed W P) (hW : .cursor ∈ W) {p : Params} {w h : Word} :
    Hoare (Fixed P p w h) readCacheBits (fun cb s => Fixed P p w h s ∧ cb ≤ Config.cacheMaxBits) (fun _ => Fixed P p w h) := by
  refine Hoare.bind (R := fun _ => Fixed P p w h) (C.readBits hW 1) fun present => Hoare.ite (fun _ => ?_) fun _ => ?_
  · exact hoare_pure fun s hs => ⟨hs, Nat.zero_le _⟩
  · refine Hoare.bind (R := fun _ => Fixed P p w h) (C.readBits hW 4) fun cb => ?_
    refine Hoare.bind (R := fun _ s => Fixed P p w h s ∧ cb ≤ Config.cacheMaxBits) ?_ fun _ => hoare_pure fun s hs => hs
    exact hoare_raiseIf (fun s hs _ => hs) fun s hs hc => ⟨hs, by simpa using hc⟩

theorem entropyImage (C : Closed W P) (h1 : .cursor ∈ W) (h2 : .lengths ∈ W) (h3 : .metaLengths ∈ W) (h4 : .tables ∈ W)
    (h5 : .tableInfo ∈ W) (h6 : .cache ∈ W) {p : Params} {w h : Word} {dst : Space} (W_ H_ : Nat)
    (T : W_ * H_ ≤ p.subCapacity → Target W p dst (W_ * H_)) : Keeps (Fixed P p w h) (entropyImage W_ H_ dst) := by
  refine keeps_readState_bind fun s hs => keeps_raiseIf_bind fun hc => ?_
  have hc : W_ * H_ ≤ p.subCapacity := by rw [← hs.2.1]; simpa using hc
  have T := T hc
  refine Hoare.bind (R := fun cb s => Fixed P p w h s ∧ cb ≤ Config.cacheMaxBits) (C.readCacheBits h1) fun cb => ?_
  intro s hs
  exact ((C.readGroup h1 h2 h3 h4 h5 (cacheSize_le hs.2) true true).bind fun _ => (C.cacheInit h6 cb).bind fun _ =>
    C.pixelLoop h1 h6 T true _ _) s hs.1

/-! ### Transforms -/

theorem palApply (C : Closed W P) (hW : .pix ∈ W) {p : Params} {w h : Word} (hc : w.toNat * h.toNat ≤ p.pixCapacity)
    (k : Fin 4) : Keeps (Fixed P p w h) (palApply k) := by
  refine keeps_readState_bind fun s0 hs0 => keeps_forRange_lt _ _ fun i _ hi => ?_
  have hi : i < p.pixCapacity := by
    have : s0.npix = w.toNat * h.toNat := by unfold State.npix; rw [hs0.2.2.1, hs0.2.2.2]
    omega
  exact (keeps_readState _).bind fun _ => (keeps_raiseIf _ _ _).bind fun _ =>
    keeps_update fun s hs => ⟨C.setPix hW s i _ hs.1 (by rw [hs.2.1]; exact hi), hs.2⟩

theorem invSubGreen (C : Closed W P) (hW : .pix ∈ W) {p : Params} {w h : Word} (hc : w.toNat * h.toNat ≤ p.pixCapacity) :
    Keeps (Fixed P p w h) invSubGreen := by
  refine keeps_readState_bind fun s0 hs0 => keeps_forRange_lt _ _ fun i _ hi => ?_
  have hi : i < p.pixCapacity := by
    have : s0.npix = w.toNat * h.toNat := by unfold State.npix; rw [hs0.2.2.1, hs0.2.2.2]
    omega
  exact keeps_update fun s hs => ⟨C.setPix hW s i _ hs.1 (by rw [hs.2.1]; exact hi), hs.2⟩

theorem invColor (C : Closed W P) (hW : .pix ∈ W) {p : Params} {w h : Word} (hc : w.toNat * h.toNat ≤ p.pixCapacity)
    (k : Fin 4) : Keeps (Fixed P p w h) (invColor k) := by
  refine keeps_readState_bind fun s0 hs0 => keeps_forRange_lt _ _ fun i _ hi => ?_
  have hi : i < p.pixCapacity := by
    have : s0.npix = w.toNat * h.toNat := by unfold State.npix; rw [hs0.2.2.1, hs0.2.2.2]
    omega
  exact keeps_update fun s hs => ⟨C.setPix hW s i _ hs.1 (by rw [hs.2.1]; exact hi), hs.2⟩

theorem keeps_predict (mode : Nat) (l t tl tr : Word) : Keeps P (predict mode l t tl tr) := by
  refine (keeps_readState _).bind fun black => ?_
  cases predictPix black mode l t tl tr with
  | some q => exact keeps_pure _
  | none => exact keeps_raise _ _

theorem invPredictor (C : Closed W P) (hW : .pix ∈ W) {p : Params} {w h : Word} (hc : w.toNat * h.toNat ≤ p.pixCapacity)
    (k : Fin 4) : Keeps (Fixed P p w h) (invPredictor k) := by
  refine keeps_readState_bind fun s0 hs0 => keeps_forRange_lt _ _ fun i _ hi => ?_
  have hi : i < p.pixCapacity := by
    have : s0.npix = w.toNat * h.toNat := by unfold State.npix; rw [hs0.2.2.1, hs0.2.2.2]
    omega
  exact (keeps_readState _).bind fun _ => (keeps_predict _ _ _ _ _).bind fun _ =>
    keeps_update fun s hs => ⟨C.setPix hW s i _ hs.1 (by rw [hs.2.1]; exact hi), hs.2⟩

theorem undoTransforms (C : Closed W P) (hW : .pix ∈ W) {p : Params} {w h : Word} (hc : w.toNat * h.toNat ≤ p.pixCapacity)
    (n : Nat) : Keeps (Fixed P p w h) (undoTransforms n) := by
  induction n with
  | zero => exact keeps_pure _
  | succ n ih =>
    refine Keeps.bind ((keeps_readState _).bind fun ty => ?_) fun _ => ih
    cases ty with
    | predictor => exact C.invPredictor hW hc _
    | color => exact C.invColor hW hc _
    | subtractGreen => exact C.invSubGreen hW hc
    | palette => exact C.palApply hW hc _

theorem invChain (C : Closed W P) (hW : .pix ∈ W) {p : Params} {w h : Word} (hc : w.toNat * h.toNat ≤ p.pixCapacity) :
    Keeps (Fixed P p w h) invChain :=
  (keeps_readState _).bind fun _ => (keeps_raiseIf _ _ _).bind fun _ =>
    (keeps_forRange (fun _ => (keeps_readState _).bind fun _ => keeps_xfCheck _ _) _ _).bind fun _ =>
      C.undoTransforms hW hc _

theorem rgbaConvert (C : Closed W P) (hW : .out ∈ W) {p : Params} {w h : Word} (hc : w.toNat * h.toNat ≤ p.pixCapacity) :
    Keeps (Fixed P p w h) rgbaConvert := by
  refine keeps_readState_bind fun s0 hs0 => keeps_forRange_lt _ _ fun i _ hi => ?_
  have hi : i < p.pixCapacity := by
    have : s0.npix = w.toNat * h.toNat := by unfold State.npix; rw [hs0.2.2.1, hs0.2.2.2]
    omega
  exact keeps_update fun s hs => ⟨C.convert hW s i hs.1 (by rw [hs.2.1]; exact hi), hs.2⟩

/-! ### A check and what it tells -/

/-- After the image check the size fits the pixel memory. -/
theorem imageCheck_bind {α : Type} {y : Unit → Cmd α} {p : Params} {w h : Word}
    (H : w.toNat * h.toNat ≤ p.pixCapacity → Keeps (Fixed P p w h) (y ())) : Keeps (Fixed P p w h) (imageCheck >>= y) := by
  intro s hs
  rw [cmd_bind_apply]
  cases hx : imageCheck s with
  | ok a t =>
    obtain ⟨rfl, ho⟩ := imageCheck_cases hx
    refine H ?_ t hs
    have := ho.2.2
    unfold State.npix at this
    rw [hs.2.1, hs.2.2.1, hs.2.2.2] at this; exact this
  | error e t => exact (keeps_imageCheck (P := Fixed P p w h)).error hs hx

/-- After XfCheck the size fits the pixel memory. -/
theorem xfCheck_bind {α : Type} {y : Unit → Cmd α} {p : Params} {w h : Word} (k : Nat) (ty : XfType)
    (H : w.toNat * h.toNat ≤ p.pixCapacity → Keeps (Fixed P p w h) (y ())) :
    Keeps (Fixed P p w h) (xfCheck k ty >>= y) := by
  intro s hs
  rw [cmd_bind_apply]
  cases hx : xfCheck k ty s with
  | error e t => exact (keeps_xfCheck (P := Fixed P p w h) k ty).error hs hx
  | ok a t =>
    obtain ⟨rfl, hx⟩ := xfCheck_cases hx
    have ho := hx.2.2.2.2.2.1
    refine H ?_ t hs
    have := ho.2.2
    unfold State.npix at this
    rw [hs.2.1, hs.2.2.1, hs.2.2.2] at this; exact this

/-! ### The transform list, the entropy image and the header -/

theorem readBlockPayload (C : Closed W P) (h1 : .cursor ∈ W) (h2 : .lengths ∈ W) (h3 : .metaLengths ∈ W)
    (h4 : .tables ∈ W) (h5 : .tableInfo ∈ W) (h6 : .cache ∈ W) (h7 : .transforms ∈ W) (h8 : .sub ∈ W) {p : Params}
    {w h : Word} (k : Fin 4) (W_ H_ : Nat) : Keeps (Fixed P p w h) (readBlockPayload k W_ H_) :=
  (C.readBits h1 3).bind fun _ => (C.entropyImage h1 h2 h3 h4 h5 h6 _ _ fun hc => .inr (.inl ⟨k, rfl, h8, hc⟩)).bind
    fun _ => keeps_update fun s hs => ⟨C.setDesc h7 s k _ hs.1, hs.2⟩

theorem readPalette (C : Closed W P) (h1 : .cursor ∈ W) (h2 : .lengths ∈ W) (h3 : .metaLengths ∈ W)
    (h4 : .tables ∈ W) (h5 : .tableInfo ∈ W) (h6 : .cache ∈ W) (h7 : .transforms ∈ W) (h8 : .sub ∈ W) {p : Params}
    {w h : Word} (k : Fin 4) : Keeps (Fixed P p w h) (readPalette k) := by
  refine (C.readBits h1 8).bind fun b => ?_
  -- the capacity check of the sub-image bounds the delta decoding too
  intro s hs
  by_cases hc : (b + 1) * 1 ≤ p.subCapacity
  · refine ((C.entropyImage h1 h2 h3 h4 h5 h6 (b + 1) 1 fun hc => .inr (.inl ⟨k, rfl, h8, hc⟩)).bind fun _ =>
      (keeps_forRange_lt _ _ fun i _ hi => ?_).bind fun _ =>
        keeps_update fun s hs => ⟨C.setDesc h7 s k _ hs.1, hs.2⟩) s hs
    exact keeps_update fun s hs => ⟨C.setSub h8 s k i _ hs.1 (by rw [hs.2.1]; omega), hs.2⟩
  · have : Machine.entropyImage (b + 1) 1 (.sub k) s = .error ⟨.capacityExceeded, trunc32 ((b + 1) * 1)⟩ s := by
      unfold Machine.entropyImage
      rw [cmd_bind_of_ok (readState_apply _ _), cmd_bind_of_error (raiseIf_of (by rw [hs.2.1]; omega) _ _ _)]
    rw [cmd_bind_of_error this]
    exact hs

theorem readTransform (C : Closed W P) (h1 : .cursor ∈ W) (h2 : .lengths ∈ W) (h3 : .metaLengths ∈ W)
    (h4 : .tables ∈ W) (h5 : .tableInfo ∈ W) (h6 : .cache ∈ W) (h7 : .transforms ∈ W) (h8 : .sub ∈ W) {p : Params}
    {w h : Word} (W_ H_ : Nat) (seen : List XfType) : Keeps (Fixed P p w h) (readTransform W_ H_ seen) := by
  refine (C.readBits h1 2).bind fun c => (keeps_raiseIf _ _ _).bind fun _ => (keeps_readState _).bind fun k =>
    (keeps_update fun s hs => ⟨C.setDesc h7 s _ _ hs.1, hs.2⟩).bind fun _ => ?_
  have last : Keeps (Fixed P p w h) (do update fun s => s.countDesc k; pure (XfType.ofCode c :: seen)) :=
    (keeps_update fun s hs => ⟨C.countDesc h7 s k hs.1, hs.2⟩).bind fun _ => keeps_pure _
  cases XfType.ofCode c with
  | predictor => exact (C.readBlockPayload h1 h2 h3 h4 h5 h6 h7 h8 _ _ _).bind fun _ => last
  | color => exact (C.readBlockPayload h1 h2 h3 h4 h5 h6 h7 h8 _ _ _).bind fun _ => last
  | subtractGreen => exact (keeps_pure ()).bind fun _ => last
  | palette => exact (C.readPalette h1 h2 h3 h4 h5 h6 h7 h8 _).bind fun _ => last

theorem transformLoop (C : Closed W P) (h1 : .cursor ∈ W) (h2 : .lengths ∈ W) (h3 : .metaLengths ∈ W)
    (h4 : .tables ∈ W) (h5 : .tableInfo ∈ W) (h6 : .cache ∈ W) (h7 : .transforms ∈ W) (h8 : .sub ∈ W) {p : Params}
    {w h : Word} (W_ H_ fuel : Nat) (seen : List XfType) : Keeps (Fixed P p w h) (transformLoop W_ H_ fuel seen) := by
  induction fuel generalizing seen with
  | zero => exact keeps_pure _
  | succ fuel ih =>
    exact (C.readBits h1 1).bind fun _ => Keeps.ite
      (fun _ => (C.readTransform h1 h2 h3 h4 h5 h6 h7 h8 _ _ _).bind fun _ => ih _) fun _ => keeps_pure _

theorem readMetaPrefix (C : Closed W P) (h1 : .cursor ∈ W) (h2 : .lengths ∈ W) (h3 : .metaLengths ∈ W)
    (h4 : .tables ∈ W) (h5 : .tableInfo ∈ W) (h6 : .cache ∈ W) (h7 : .groups ∈ W) (h8 : .ent ∈ W) {p : Params}
    {w h : Word} (W_ H_ : Nat) : Keeps (Fixed P p w h) (readMetaPrefix W_ H_) := by
  refine (C.readBits h1 1).bind fun _ => Keeps.ite (fun _ => ?_) fun _ => ?_
  · exact (keeps_update fun s hs => ⟨C.setGroups h7 s _ _ _ hs.1, hs.2⟩).bind fun _ => keeps_pure _
  · exact (C.readBits h1 3).bind fun _ =>
      (C.entropyImage h1 h2 h3 h4 h5 h6 _ _ fun hc => .inr (.inr ⟨rfl, h8, hc⟩)).bind fun _ =>
        (keeps_readState _).bind fun _ => (keeps_update fun s hs => ⟨C.setGroups h7 s _ _ _ hs.1, hs.2⟩).bind fun _ =>
          keeps_pure _

/-- After the header the working size is the header's, and it fits the pixel memory. -/
theorem parseHeader (C : Closed W P) (h1 : .cursor ∈ W) (h2 : .image ∈ W) {p : Params} :
    Hoare (fun s => P s ∧ s.params = p) parseHeader
      (fun hd s => Fixed P p (trunc32 hd.w) (trunc32 hd.h) s ∧ hd.w * hd.h ≤ p.pixCapacity ∧ hd.w ≤ 16384 ∧ hd.h ≤ 16384)
      (fun _ s => P s ∧ s.params = p) := by
  have rb : ∀ n, Keeps (fun s => P s ∧ s.params = p) (Machine.readBits n) := fun n =>
    keeps_readBits (fun s q hs a b => ⟨C.move h1 s q hs.1 a b, hs.2⟩) n
  unfold Machine.parseHeader
  refine Hoare.bind (R := fun _ s => P s ∧ s.params = p) (keeps_readState (P := fun s => P s ∧ s.params = p) _).hoare fun _ => ?_
  refine Hoare.bind (R := fun _ s => P s ∧ s.params = p) (keeps_raiseIf _ _ _) fun _ => ?_
  refine Hoare.bind (R := fun _ s => P s ∧ s.params = p) (rb 8) fun _ => ?_
  refine Hoare.bind (R := fun _ s => P s ∧ s.params = p) (keeps_raiseIf _ _ _) fun _ => ?_
  refine Hoare.bind (R := fun _ s => P s ∧ s.params = p) (rb 14) fun w1 => ?_
  refine Hoare.bind (R := fun _ s => P s ∧ s.params = p) (rb 14) fun h1' => ?_
  refine Hoare.bind (R := fun _ s => P s ∧ s.params = p) (rb 1) fun a => ?_
  refine Hoare.bind (R := fun _ s => P s ∧ s.params = p) (rb 3) fun ver => ?_
  refine Hoare.bind (R := fun _ s => P s ∧ s.params = p) (keeps_raiseIf _ _ _) fun _ => ?_
  refine Hoare.bind (R := fun _ s => (P s ∧ s.params = p) ∧ w1 + 1 ≤ 16384 ∧ h1' + 1 ≤ 16384) ?_ fun _ => ?_
  · refine hoare_raiseIf (fun s hs _ => hs) fun s hs hc => ⟨hs, ?_⟩
    simp only [Bool.or_eq_false_iff, decide_eq_false_iff_not, Config.maxDim] at hc
    omega
  refine Hoare.bind (R := fun _ s => (P s ∧ s.params = p) ∧ (w1 + 1 ≤ 16384 ∧ h1' + 1 ≤ 16384) ∧
    s.imgW = trunc32 (w1 + 1) ∧ s.imgH = trunc32 (h1' + 1)) ?_ fun _ => ?_
  · exact hoare_update fun s hs => ⟨⟨C.setImage h2 s _ _ _ _ hs.1.1, hs.1.2⟩, hs.2, rfl, rfl⟩
  intro s hs
  rw [cmd_bind_of_ok (readState_apply _ _)]
  by_cases hc : s.params.pixCapacity < (w1 + 1) * (h1' + 1)
  · rw [cmd_bind_of_error (raiseIf_of hc _ _ _)]; exact hs.1
  · rw [cmd_bind_of_ok (raiseIf_of_not hc _ _ _)]
    exact ⟨⟨hs.1.1, hs.1.2, hs.2.2⟩, by show (w1 + 1) * (h1' + 1) ≤ _; rw [← hs.1.2]; omega, hs.2.1⟩

/-! ### The bodies of the commands -/

theorem hdrParse (C : Closed W P) (hst : Stageless P) (h1 : .cursor ∈ W) (h2 : .image ∈ W) : Keeps P hdrParseBody := by
  intro s hs
  refine ((keeps_update (P := fun t => P t ∧ t.params = s.params) fun t ht => ⟨hst t .header ht.1, ht.2⟩).bind fun _ =>
    keeps_inputCheck.bind fun _ => (keeps_update fun t ht => ⟨C.start h1 t 0 ht.1, ht.2⟩).bind fun _ =>
      Keeps.bind ?_ fun _ => keeps_pure () : Keeps (fun t => P t ∧ t.params = s.params) hdrParseBody).hoare.conseq
        (P' := (· = s)) (fun t ht => by rw [ht]; exact ⟨hs, rfl⟩) (fun _ t ht => ht.1) (fun _ t ht => ht.1) s rfl
  exact (C.parseHeader h1 h2).conseq (fun _ ht => ht) (fun _ t ht => ⟨ht.1.1, ht.1.2.1⟩) fun _ t ht => ht

theorem size_le {p : Params} {a b : Nat} (ha : a ≤ 16384) (hb : b ≤ 16384) (h : a * b ≤ p.pixCapacity) :
    (trunc32 a).toNat * (trunc32 b).toNat ≤ p.pixCapacity := by
  rw [BitVec.toNat_ofNat, BitVec.toNat_ofNat, Nat.mod_eq_of_lt (by omega), Nat.mod_eq_of_lt (by omega)]; exact h

theorem decode (C : Closed W P) (hst : Stageless P) (hW : ∀ r ∈ writtenRegions .decode, r ∈ W) : Keeps P decodeBody := by
  have h1 : Region.cursor ∈ W := hW _ (by decide)
  have h2 : Region.lengths ∈ W := hW _ (by decide)
  have h3 : Region.metaLengths ∈ W := hW _ (by decide)
  have h4 : Region.tables ∈ W := hW _ (by decide)
  have h5 : Region.tableInfo ∈ W := hW _ (by decide)
  have h6 : Region.cache ∈ W := hW _ (by decide)
  have h7 : Region.transforms ∈ W := hW _ (by decide)
  have h8 : Region.sub ∈ W := hW _ (by decide)
  have h9 : Region.groups ∈ W := hW _ (by decide)
  have h10 : Region.ent ∈ W := hW _ (by decide)
  have h11 : Region.image ∈ W := hW _ (by decide)
  have h12 : Region.pix ∈ W := hW _ (by decide)
  have h13 : Region.out ∈ W := hW _ (by decide)
  intro s hs
  have st : ∀ {p w h} st, Keeps (Fixed P p w h) (setStage st) := fun st => keeps_update fun t ht =>
    ⟨hst t st ht.1, ht.2⟩
  have main : Hoare (fun t => P t ∧ t.params = s.params) decodeBody (fun _ t => P t) (fun _ t => P t) := by
    refine Hoare.bind (R := fun _ t => P t ∧ t.params = s.params)
      (hoare_update fun t ht => ⟨hst t .header ht.1, ht.2⟩) fun _ => ?_
    refine Hoare.bind (R := fun _ t => P t ∧ t.params = s.params)
      (keeps_inputCheck.hoare.conseq (fun _ h => h) (fun _ _ h => h) fun _ _ h => h.1) fun _ => ?_
    refine Hoare.bind (R := fun _ t => P t ∧ t.params = s.params)
      (hoare_update fun t ht => ⟨C.init h1 h6 h7 h9 h5 t ht.1, ht.2⟩) fun _ => ?_
    refine Hoare.bind ((C.parseHeader h1 h11).conseq (fun _ h => h) (fun _ _ h => h) fun _ _ h => h.1) fun hd => ?_
    intro t ht
    obtain ⟨hf, hc, hw, hh⟩ := ht
    have hsz := size_le hw hh hc
    refine Hoare.conseq (P := Fixed P s.params (trunc32 hd.w) (trunc32 hd.h))
      (Q := fun _ => Fixed P s.params (trunc32 hd.w) (trunc32 hd.h))
      (E := fun _ => Fixed P s.params (trunc32 hd.w) (trunc32 hd.h)) (P' := (· = t)) ?_ (fun u hu => by rw [hu]; exact hf)
      (fun _ u hu => hu.1) (fun _ u hu => hu.1) t rfl
    refine Hoare.bind (st _).hoare fun _ => Hoare.bind (C.transformLoop h1 h2 h3 h4 h5 h6 h7 h8 _ _ _ _).hoare fun _ =>
      Hoare.bind (st _).hoare fun _ => ?_
    refine Hoare.bind (C.readCacheBits h1) fun cb => ?_
    intro u hu
    have hcs := cacheSize_le hu.2
    refine (((st .entropyImage).bind fun _ => (C.readMetaPrefix h1 h2 h3 h4 h5 h6 h9 h10 hd.w hd.h).bind fun ng =>
      (st .huffmanGroups).bind fun _ => (keeps_readState _).bind fun at_ => (C.readGroup h1 h2 h3 h4 h5 hcs at_ true).bind
        fun _ => (keeps_forRange (fun _ => C.readGroup h1 h2 h3 h4 h5 hcs at_ false) _ _).bind fun _ =>
          (st .pixelStream).bind fun _ => (C.cacheInit h6 cb).bind fun _ => (C.pixelLoop h1 h6 (.inl ⟨rfl, h12, hc⟩) at_
            (hd.w * hd.h) 0).bind fun _ => (st .inverseTransforms).bind fun _ => (C.invChain h12 hsz).bind fun _ =>
              (st .pixelFormatConvert).bind fun _ => (C.rgbaConvert h13 hsz).bind fun _ => st .done) u hu.1)
  exact main s ⟨hs, rfl⟩

/-- A body whose pieces keep `P` with the parameters and the size fixed keeps `P`. -/
theorem of_fixed {x : Cmd Unit} (h : ∀ p w h, Keeps (Fixed P p w h) x) : Keeps P x := by
  intro s hs
  have := h s.params s.imgW s.imgH s ⟨hs, rfl, rfl, rfl⟩
  cases hx : x s with
  | ok a t => rw [hx] at this; exact this.1
  | error e t => rw [hx] at this; exact this.1

theorem keepsRes0 (C : Closed W P) (hW : .result ∈ W) {p : Params} {w h : Word} (v : Word) :
    Keeps (Fixed P p w h) (setRes0 v) := keeps_update fun s hs => ⟨C.res0 hW s v hs.1, hs.2⟩

/-- How a command ends, with a property of the state its body ends in. -/
def Ends (P : State → Prop) (o : Host.Outcome State Fault Refusal) : Prop :=
  (∃ u, P u ∧ o = .next u.complete) ∨ ∃ e u, P u ∧ o = .next (u.takeError e)

theorem ends_finish {body : Cmd Unit} (h : Keeps P body) {s : State} (hs : P s) : Ends P (finish (body s)) := by
  have := h s hs
  cases hb : body s with
  | ok a u => rw [hb] at this; exact .inl ⟨u, this, rfl⟩
  | error e u => rw [hb] at this; exact .inr ⟨e, u, this, rfl⟩

theorem runs {body : Cmd Unit} (h : Keeps P body) {s : State} (hs : P (s.atStage .none)) : Ends P (runCommand body s) :=
  ends_finish h hs

/-- A command that STAGE does not follow ends, completed or in an error, in a state with every property that is closed under
the changes to the parts it writes. -/
theorem endsPlain (C : Closed W P) (i : Instr) (hi : i ∉ [Instr.softReset, .hdrParse, .decode])
    (hW : ∀ r ∈ writtenRegions i, r ∈ W) {s : State} (hs : P (s.atStage .none)) : Ends P (exec i s) := by
  cases i with
  | softReset => exact absurd (by decide) hi
  | nop => exact runs (keeps_pure ()) hs
  | brInit =>
    have h1 : Region.cursor ∈ W := hW _ (by decide)
    exact runs (keeps_inputCheck.bind fun _ => keeps_opA0.bind fun _ => (keeps_readState _).bind fun _ =>
      (keeps_raiseIf _ _ _).bind fun _ => keeps_update fun s hs => C.start h1 s _ hs) hs
  | brRead n =>
    have h1 : Region.cursor ∈ W := hW _ (by simp [writtenRegions])
    have h2 : Region.result ∈ W := hW _ (by simp [writtenRegions])
    exact runs (of_fixed fun p w h => keeps_inputCheck.bind fun _ => (C.readBits h1 n).bind fun _ =>
      C.keepsRes0 h2 _) hs
  | brHasdata => exact runs (keeps_update fun s hs => C.res0 (hW _ (by decide)) s _ hs) hs
  | brTell => exact runs (keeps_update fun s hs => C.res0 (hW _ (by decide)) s _ hs) hs
  | hufBuild slot =>
    have h1 : Region.tables ∈ W := hW _ (by simp [writtenRegions])
    have h2 : Region.tableInfo ∈ W := hW _ (by simp [writtenRegions])
    exact runs (of_fixed fun p w h => (keeps_raiseIf _ _ _).bind fun _ => keeps_opA0.bind fun _ =>
      (keeps_raiseIf _ _ _).bind fun _ => (keeps_readState _).bind fun _ => C.build h1 h2 _ _) hs
  | hufDecode slot =>
    have h1 : Region.cursor ∈ W := hW _ (by simp [writtenRegions])
    have h2 : Region.result ∈ W := hW _ (by simp [writtenRegions])
    exact runs (of_fixed fun p w h => (keeps_raiseIf _ _ _).bind fun _ => (keeps_readState _).bind fun _ =>
      (keeps_raiseIf _ _ _).bind fun _ => keeps_inputCheck.bind fun _ => (C.decodeSym h1 _).bind fun _ => C.keepsRes0 h2 _) hs
  | clRead =>
    have h1 : Region.cursor ∈ W := hW _ (by decide)
    have h2 : Region.lengths ∈ W := hW _ (by decide)
    have h3 : Region.metaLengths ∈ W := hW _ (by decide)
    have h4 : Region.tables ∈ W := hW _ (by decide)
    have h5 : Region.tableInfo ∈ W := hW _ (by decide)
    refine runs (of_fixed fun p w h => keeps_opA0.bind fun n => keeps_raiseIf_bind fun hn =>
      keeps_inputCheck.bind fun _ => C.readCodeLengths h1 h2 h3 h4 h5 ?_) hs
    simp only [Bool.or_eq_false_iff, decide_eq_false_iff_not] at hn
    omega
  | ccInit =>
    exact runs (of_fixed fun p w h => keeps_opA0.bind fun _ => C.cacheInit (hW _ (by decide)) _) hs
  | ccHash => exact runs (keeps_update fun s hs => C.res0 (hW _ (by decide)) s _ hs) hs
  | ccInsert => exact runs (keeps_update fun s hs => C.cacheInsert (hW _ (by decide)) s _ hs) hs
  | ccGet =>
    exact runs (of_fixed fun p w h => keeps_opA0.bind fun _ => (keeps_cacheGet _).bind fun _ =>
      C.keepsRes0 (hW _ (by decide)) _) hs
  | lzPrefix code =>
    have h1 : Region.cursor ∈ W := hW _ (by simp [writtenRegions])
    have h2 : Region.result ∈ W := hW _ (by simp [writtenRegions])
    exact runs (of_fixed fun p w h => (keeps_raiseIf _ _ _).bind fun _ => keeps_inputCheck.bind fun _ =>
      (C.prefixValue h1 _).bind fun _ => C.keepsRes0 h2 _) hs
  | lzCopy =>
    have h1 : Region.pix ∈ W := hW _ (by decide)
    refine runs (of_fixed fun p w h => imageCheck_bind fun hcap => ?_) hs
    refine keeps_readState_bind (f := id) fun u hu => ?_
    have hn : u.npix ≤ p.pixCapacity := by
      unfold State.npix; rw [hu.2.2.1, hu.2.2.2]; exact hcap
    exact C.lzCopy (ins := false) (.inl ⟨rfl, h1, hn⟩) (fun h => by cases h) _ _ _
  | pred mode =>
    exact runs (of_fixed fun p w h => (keeps_readState _).bind fun _ => (keeps_predict _ _ _ _ _).bind fun _ =>
      C.keepsRes0 (hW _ (by simp [writtenRegions])) _) hs
  | xfPredInv k =>
    exact runs (of_fixed fun p w h => xfCheck_bind _ _ fun hcap =>
      C.invPredictor (hW _ (by simp [writtenRegions])) hcap _) hs
  | xfColorInv k =>
    exact runs (of_fixed fun p w h => xfCheck_bind _ _ fun hcap =>
      C.invColor (hW _ (by simp [writtenRegions])) hcap _) hs
  | xfSubgInv k =>
    exact runs (of_fixed fun p w h => xfCheck_bind _ _ fun hcap =>
      C.invSubGreen (hW _ (by simp [writtenRegions])) hcap) hs
  | xfPalApply k =>
    exact runs (of_fixed fun p w h => xfCheck_bind _ _ fun hcap =>
      C.palApply (hW _ (by simp [writtenRegions])) hcap _) hs
  | xfPalInvert k => exact runs ((keeps_xfCheck _ _).bind fun _ => keeps_raise _ _) hs
  | xfChainInv =>
    exact runs (of_fixed fun p w h => imageCheck_bind fun hcap =>
      C.invChain (hW _ (by decide)) hcap) hs
  | hdrParse => exact absurd (by decide) hi
  | decode => exact absurd (by decide) hi
  | rgbaConvert =>
    exact runs (of_fixed fun p w h => imageCheck_bind fun hcap =>
      C.rgbaConvert (hW _ (by decide)) hcap) hs

/-- Every command but SOFT_RESET ends, completed or in an error, in a state with every property that does not speak of STAGE
and is closed under the changes to the parts it writes. -/
theorem ends (C : Closed W P) (hst : Stageless P) (i : Instr) (hi : i ≠ .softReset) (hW : ∀ r ∈ writtenRegions i, r ∈ W)
    {s : State} (hs : P s) : Ends P (exec i s) := by
  by_cases h : i ∈ [Instr.softReset, .hdrParse, .decode]
  · simp only [List.mem_cons, List.not_mem_nil, or_false] at h
    rcases h with rfl | rfl | rfl
    · exact absurd rfl hi
    · exact ends_finish (C.hdrParse hst (hW _ (by decide)) (hW _ (by decide))) hs
    · exact ends_finish (C.decode hst hW) hs
  · exact C.endsPlain i h hW (hst s .none hs)

/-- Every command but SOFT_RESET keeps every property that is closed under the changes to the parts it writes. -/
theorem exec (C : Closed W P) (hst : Stageless P) (hc : ∀ s, P s → P s.complete) (he : ∀ s e, P s → P (s.takeError e)) (i : Instr)
    (hi : i ≠ .softReset) (hW : ∀ r ∈ writtenRegions i, r ∈ W) {s t : State} (hs : P s) (ht : exec i s = .next t) : P t := by
  rcases C.ends hst i hi hW hs with ⟨u, hu, e⟩ | ⟨tr, u, hu, e⟩
  · rw [e] at ht; cases ht; exact hc u hu
  · rw [e] at ht; cases ht; exact he u tr hu

end Closed

end Sys2Proof.Machine
end

