-- ==== Sys2Proof/Laws/Streams.lean ====
section
/-! SUPPORT. Input that holds given bits: the fields such bits read as, and the symbol a built table decodes from them. -/

namespace Sys2Proof.Machine

theorem length_lsbBits (x n : Nat) : (lsbBits x n).length = n := by simp [lsbBits]

theorem length_msbBits (c n : Nat) : (msbBits c n).length = n := by simp [msbBits]

theorem length_codeBits (L : List Byte) (i : Nat) : (codeBits L i).length = lengthAt L i := length_msbBits _ _

theorem State.hasBits_append {s : State} {q : Nat} {a b : List Nat} :
    s.HasBits q (a ++ b) ↔ s.HasBits q a ∧ s.HasBits (q + a.length) b := by
  constructor
  · intro h
    refine ⟨fun j hj => ?_, fun j hj => ?_⟩
    · have := h j (by simp; omega)
      rwa [List.getElem_append_left hj] at this
    · have := h (a.length + j) (by simp; omega)
      rw [List.getElem_append_right (by omega)] at this
      rw [Nat.add_assoc, this]
      simp
  · rintro ⟨h1, h2⟩ j hj
    by_cases h : j < a.length
    · rw [List.getElem_append_left h]; exact h1 j h
    · rw [List.getElem_append_right (by omega)]
      have := h2 (j - a.length) (by simp at hj; omega)
      rwa [show q + a.length + (j - a.length) = q + j by omega] at this

theorem State.hasBits_congr {s t : State} (h : t.inp = s.inp) {q : Nat} {bits : List Nat} (hb : s.HasBits q bits) :
    t.HasBits q bits := fun j hj => by rw [State.inBit_congr h]; exact hb j hj

/-- A field whose bits the input holds reads as its value (20_memory.md R83). -/
theorem State.field_of_lsbBits {s : State} {q x n : Nat} (h : s.HasBits q (lsbBits x n)) (hx : x < 2 ^ n) :
    s.field q n = x := by
  induction n generalizing q x with
  | zero => simp at hx; simp [hx]
  | succ n ih =>
    rw [State.field_succ]
    have h0 := h 0 (by simp [lsbBits])
    have h1 : s.HasBits (q + 1) (lsbBits (x / 2) n) := by
      intro j hj
      have := h (j + 1) (by simp [lsbBits] at hj ⊢; omega)
      rw [show q + 1 + j = q + (j + 1) by omega, this]
      simp only [lsbBits, List.getElem_map, List.getElem_range]
      rw [Nat.pow_succ', Nat.div_div_eq_div_mul]
    rw [ih h1 (by rw [Nat.pow_succ] at hx; omega)]
    simp only [Nat.add_zero, lsbBits, List.getElem_map, List.getElem_range, Nat.pow_zero, Nat.div_one] at h0
    omega

/-- A code whose bits the input holds, most significant first, reads as its reversal (42_huffman.md R167). -/
theorem State.field_of_msbBits {s : State} {q c n : Nat} (h : s.HasBits q (msbBits c n)) :
    s.field q n = bitrev c n := by
  induction n generalizing c with
  | zero => rfl
  | succ n ih =>
    rw [State.field_snoc]
    have h0 := h n (by simp [msbBits])
    have h1 : s.HasBits q (msbBits (c / 2) n) := by
      intro j hj
      have := h j (by simp [msbBits] at hj ⊢; omega)
      rw [this]
      simp only [msbBits, List.getElem_map, List.getElem_range]
      simp [msbBits] at hj
      rw [Nat.div_div_eq_div_mul, ← Nat.pow_succ']
      congr 3
      omega
    rw [ih h1, h0]
    simp only [msbBits, List.getElem_map, List.getElem_range, bitrev]
    simp
    ring

theorem State.built_slotHolds (s : State) (t : Fin 7) (L : List Byte) : (s.built t L).SlotHolds t L :=
  ⟨vget_set_self _ _ _, _, vget_set_self _ _ _⟩

theorem State.built_slotHolds_ne {s : State} {t u : Fin 7} (h : u ≠ t) {L M : List Byte} (hs : s.SlotHolds u M) :
    (s.built t L).SlotHolds u M := by
  obtain ⟨h1, tab, h2⟩ := hs
  exact ⟨by rw [← h1]; exact vget_set_ne _ h _, tab, by rw [← h2]; exact vget_set_ne _ h _⟩

theorem maxLen_builtInfo {L : List Byte} (hL : ∀ b ∈ L, b.toNat ≤ 15) : (builtInfo L).maxLen.toNat = maxLength L := by
  have := maxLength_le hL
  simp only [builtInfo, BitVec.toNat_ofNat]; omega

theorem lengthAt_lt {L : List Byte} {i : Nat} (h : lengthAt L i ≠ 0) : i < L.length := by
  by_contra hc
  exact h (by simp [lengthAt, List.getD_eq_getElem?_getD, List.getElem?_eq_none (show L.length ≤ i by omega)])

/-- DecodeSym from a built slot, on the bits of a used symbol's code (42_huffman.md R175). -/
theorem decodeSym_holds {s : State} {t : Fin 7} {L : List Byte} (hs : s.SlotHolds t L) (hL : Buildable L)
    (hn : L.length ≤ 4096) {i : Nat} (h0 : lengthAt L i ≠ 0) (hb : s.HasBits s.pos (codeBits L i))
    (hend : s.pos + lengthAt L i ≤ s.endPos) : decodeSym t s = .ok i (s.moveTo (s.pos + lengthAt L i)) := by
  obtain ⟨h1, tab, h2⟩ := hs
  have hi := lengthAt_lt h0
  have hm : s.tabInfo[t].maxLen.toNat = maxLength L := by rw [h1, maxLen_builtInfo hL.1]
  rcases hL.2 with hK | hK
  · have T := tableOf_complete (.tab t) hL.1 hK tab
    rw [← h2, ← hm] at T
    exact decodeSym_of_code T hn hi h0 (State.field_of_msbBits hb) (by rw [hm]; exact lengthAt_le (le_maxLength L) hi) hend
  · obtain ⟨f1, f2, f3⟩ := isSingle_used hK
    have hmax := (isSingle_iff.1 hK).2
    have e := f3 i hi h0
    rw [e, f2] at hend ⊢
    have hf : s.field s.pos 1 < 2 := s.field_lt _ 1
    have hread : s.tab[t].read (.tab t) (s.field s.pos 1) = mkEntry 1 (firstUsed L) := by
      rw [h2, builtTable_single _ hK, if_pos hf]
    have := (decodeSym_apply t s).1 1 (by decide) (by omega) hend
      (by simp only [hread]; exact ⟨entryFilled_mkEntry _ _, entryLen_mkEntry (by decide) _⟩)
      fun k' h1 h2 => by omega
    rw [this]
    simp only [hread]
    rw [entrySym_mkEntry _ (by omega)]

/-- Bit `k` of a reversed code (42_huffman.md R167). -/
theorem bitrev_bit (c n k : Nat) (h : k < n) : bitrev c n / 2 ^ k % 2 = c / 2 ^ (n - 1 - k) % 2 := by
  induction n generalizing c with
  | zero => omega
  | succ n ih =>
    have hlt := bitrev_lt (c / 2) n
    have e : bitrev c (n + 1) = bitrev (c / 2) n + 2 ^ n * (c % 2) := by simp only [bitrev]; ring
    rw [e]
    by_cases hk : k = n
    · subst hk
      rw [Nat.add_mul_div_left _ _ (by positivity), Nat.div_eq_of_lt hlt, Nat.add_sub_cancel, Nat.sub_self]
      omega
    · have hk : k < n := by omega
      obtain ⟨d, rfl⟩ : ∃ d, n = k + (d + 1) := ⟨n - k - 1, by omega⟩
      rw [Nat.pow_add, Nat.mul_assoc, Nat.add_mul_div_left _ _ (by positivity), Nat.pow_succ', Nat.mul_assoc,
        Nat.add_mul_mod_self_left, ih _ hk, Nat.div_div_eq_div_mul, ← Nat.pow_succ']
      congr 3
      omega

/-- The first bits of a code, most significant first, read as the low part of its reversal. -/
theorem State.field_of_take {s : State} {q c n r : Nat} (h : s.HasBits q ((msbBits c n).take r)) {k : Nat} (hr : k ≤ r)
    (hn : k ≤ n) : s.field q k = bitrev c n % 2 ^ k := by
  induction k with
  | zero => simp [Nat.mod_one]
  | succ k ih =>
    rw [State.field_snoc, ih (by omega) (by omega), Nat.mod_pow_succ, bitrev_bit c n k (by omega)]
    have := h k (by rw [List.length_take, length_msbBits]; omega)
    rw [this]
    simp only [List.getElem_take, msbBits, List.getElem_map, List.getElem_range]
    ring

/-- DecodeSym from a built slot, on input that ends inside the code of a used symbol (42_huffman.md R173). -/
theorem decodeSym_short {s : State} {t : Fin 7} {L : List Byte} (hs : s.SlotHolds t L) (hL : Buildable L) {i : Nat}
    (h0 : lengthAt L i ≠ 0) (hp : s.pos ≤ s.endPos) (hend : s.endPos < s.pos + lengthAt L i)
    (hb : s.HasBits s.pos ((codeBits L i).take (s.endPos - s.pos))) :
    decodeSym t s = .error ⟨.readPastEnd, 1⟩ (s.moveTo s.endPos) := by
  obtain ⟨h1, tab, h2⟩ := hs
  have hi := lengthAt_lt h0
  have hm : s.tabInfo[t].maxLen.toNat = maxLength L := by rw [h1, maxLen_builtInfo hL.1]
  have hle := lengthAt_le (le_maxLength L) hi
  have key := (decodeSym_apply t s).2.2 (by rw [hm]; omega) (fun k k1 k2 => ?_)
  · rw [key]
    congr 2
    omega
  rintro ⟨-, hl⟩
  rcases hL.2 with hK | hK
  · have T := tableOf_complete (.tab t) hL.1 hK tab
    rw [← h2] at T
    have hx : bitrev (canonicalCode L i) (lengthAt L i) < 2 ^ maxLength L :=
      Nat.lt_of_lt_of_le (bitrev_lt _ _) (Nat.pow_le_pow_right (by decide) hle)
    have h15 := T.le
    obtain ⟨j, hj, j0, jm, jc, -, hno⟩ := T.first_hit hx
    have hu := T.unique _ hx i hi h0 (Nat.mod_eq_of_lt (bitrev_lt _ _))
    rw [T.unique _ hx j hj j0 jc] at hu
    have e := congrArg entryLen hu
    rw [entryLen_mkEntry (by omega), entryLen_mkEntry (by omega)] at e
    refine hno k k1 (by omega) ?_
    rw [← State.field_of_take hb k2 (by omega)]
    exact hl
  · obtain ⟨-, f2, f3⟩ := isSingle_used hK
    rw [f3 i hi h0, f2] at hend
    omega

end Sys2Proof.Machine
end

