-- ==== Sys2Proof/Laws/CodeLengths.lean ====
section
/-! SUPPORT. The runs of ReadCodeLengths that succeed: the literal form, the meta lengths, and the coded lengths token by token. -/

namespace Sys2Proof.Machine

/-- The state with the cursor at bit `q` and other code lengths. -/
def State.lensAt (s : State) (q : Nat) (c : Memory 8) : State := { s.moveTo q with clmem := c }

@[simp] theorem State.lensAt_inp (s : State) (q : Nat) (c : Memory 8) : (s.lensAt q c).inp = s.inp := rfl
@[simp] theorem State.lensAt_endPos (s : State) (q : Nat) (c : Memory 8) : (s.lensAt q c).endPos = s.endPos := rfl
@[simp] theorem State.lensAt_params (s : State) (q : Nat) (c : Memory 8) : (s.lensAt q c).params = s.params := rfl
@[simp] theorem State.lensAt_clmem (s : State) (q : Nat) (c : Memory 8) : (s.lensAt q c).clmem = c := rfl

theorem State.pos_lensAt (s : State) {q : Nat} (h : q ≤ s.endPos) (c : Memory 8) : (s.lensAt q c).pos = q := by
  have := s.endPos_lt
  exact State.pos_moveTo s (by omega)

theorem State.lensAt_self (s : State) : s.lensAt s.pos s.clmem = s := by
  unfold State.lensAt; rw [State.moveTo_pos_self]

/-! ### The literal form -/

/-- The loop over the literal lengths, as far as the input goes. -/
theorem literalLoop_ok {s : State} {m : Nat} (hw : s.clmem.wf) (hend : s.pos + 3 * m ≤ s.endPos) :
    ∃ c : Memory 8, forRange (fun i => do
        let v ← readBits 3
        putLength i v) m 0 s = .ok () (s.lensAt (s.pos + 3 * m) c) ∧ c.wf ∧
      ∀ j, c.read .clmem j =
        if j < m then BitVec.ofNat 8 (s.field (s.pos + 3 * j) 3) else s.clmem.read .clmem j := by
  have hlt := s.endPos_lt
  obtain ⟨t, ht, c, rfl, hcw, hcr⟩ := forRange_ok (lo := 0) (s := s)
    (P := fun i t => ∃ c : Memory 8, t = s.lensAt (s.pos + 3 * i) c ∧ c.wf ∧
      ∀ j, c.read .clmem j = if j < i then BitVec.ofNat 8 (s.field (s.pos + 3 * j) 3) else s.clmem.read .clmem j)
    (f := fun i => do
      let v ← readBits 3
      putLength i v) m
    (by
      rintro i _ _ hi ⟨c, rfl, hcw, hcr⟩
      have hp := s.pos_lensAt (q := s.pos + 3 * i) (by omega) c
      refine ⟨_, by rw [cmd_bind_of_ok (readBits_ok (by decide) (by decide) (by rw [hp]; simp; omega))]; rfl,
        c.write i (BitVec.ofNat 8 (s.field (s.pos + 3 * i) 3)), ?_, Memory.write_wf hcw _ _, ?_⟩
      · rw [hp, show s.pos + 3 * (i + 1) = s.pos + 3 * i + 3 by omega]; rfl
      · intro j
        by_cases hj : j = i
        · subst hj; rw [Memory.read_write_self _ hcw, if_pos (by omega)]
        · rw [Memory.read_write_ne _ _ hj, hcr]
          by_cases h : j < i
          · rw [if_pos h, if_pos (by omega)]
          · rw [if_neg h, if_neg (by omega)])
    ⟨s.clmem, by simp [State.lensAt_self], hw, fun j => by simp⟩
  rw [Nat.zero_add] at ht hcr
  exact ⟨c, ht, hcw, hcr⟩

/-- `cnt` literal lengths and zeros after them (43_code_lengths.md R192). -/
theorem literalLengths_ok {s : State} {n cnt : Nat} (hw : s.clmem.wf) (hc : cnt ≤ n)
    (hend : s.pos + 3 * cnt ≤ s.endPos) :
    ∃ c : Memory 8, literalLengths n cnt s = .ok () (s.lensAt (s.pos + 3 * cnt) c) ∧ c.wf ∧
      ∀ j, c.read .clmem j = if j < cnt then BitVec.ofNat 8 (s.field (s.pos + 3 * j) 3)
        else if j < n then 0 else s.clmem.read .clmem j := by
  unfold literalLengths
  rw [cmd_bind_of_ok (raiseIf_of_not (by omega) _ _ _)]
  obtain ⟨c, ht, hcw, hcr⟩ := literalLoop_ok hw hend
  rw [cmd_bind_of_ok ht]
  refine ⟨_, rfl, Memory.writeList_wf hcw _ _, fun j => ?_⟩
  rw [State.lensAt_clmem, Memory.read_writeList _ hcw]
  simp only [List.length_replicate, List.getElem_replicate]
  by_cases h1 : cnt ≤ j ∧ j - cnt < n - cnt
  · rw [dif_pos h1, if_neg (by omega), if_pos (by omega)]
  · rw [dif_neg h1, hcr]
    by_cases h2 : j < cnt
    · rw [if_pos h2, if_pos h2]
    · rw [if_neg h2, if_neg h2, if_neg (by omega)]

/-! ### The meta code -/

/-- An admissible order is one of the nineteen meta symbols, each once. -/
theorem order_nodup {o : List Nat} (h1 : o.length = 19) (h2 : ∀ m ∈ List.range 19, m ∈ o) : o.Nodup := by
  have hs : (List.range 19).Subperm o := List.subperm_of_subset List.nodup_range h2
  have hp : (List.range 19).Perm o := hs.perm_of_length_le (by simp [h1])
  exact hp.nodup List.nodup_range

theorem length_metaCode (o ms : List Nat) : (metaCode o ms).length = 19 := by simp [metaCode]

/-- The meta lengths read in the order of the parameter (43_code_lengths.md R193). -/
theorem metaLengths_ok {s : State} {ms : List Nat} (ha : s.params.Admissible) (hm2 : ms.length ≤ 19)
    (hm3 : ∀ v ∈ ms, v < 8) (hb : s.HasBits s.pos (ms.flatMap fun v => lsbBits v 3)) (hend : s.pos + 3 * ms.length ≤ s.endPos) :
    ∃ cl : Vector Byte 19, metaLengths ms.length s = .ok () { s.moveTo (s.pos + 3 * ms.length) with clm := cl } ∧
      cl.toList = metaCode s.params.clCodeOrder ms := by
  have hlt := s.endPos_lt
  have hol := ha.2.1.1
  have hnd := order_nodup hol ha.2.1.2
  -- each value is the field at its place
  have hf : ∀ j (hj : j < ms.length), s.field (s.pos + 3 * j) 3 = ms[j] := by
    have key : ∀ (ms : List Nat) (q : Nat), (∀ v ∈ ms, v < 8) → s.HasBits q (ms.flatMap fun v => lsbBits v 3) →
        ∀ j (hj : j < ms.length), s.field (q + 3 * j) 3 = ms[j] := by
      intro ms
      induction ms with
      | nil => intro q _ _ j hj; simp at hj
      | cons v ms ih =>
        intro q h8 h j hj
        rw [List.flatMap_cons, State.hasBits_append] at h
        cases j with
        | zero => simpa using State.field_of_lsbBits h.1 (h8 v List.mem_cons_self)
        | succ j =>
          have := ih (q + 3) (fun w hw => h8 w (List.mem_cons_of_mem _ hw)) (by simpa [length_lsbBits] using h.2) j
            (by simpa using hj)
          rw [List.getElem_cons_succ, ← this, show q + 3 + 3 * j = q + 3 * (j + 1) by omega]
    exact key ms s.pos hm3 hb
  unfold metaLengths
  rw [cmd_bind_of_ok (update_apply _ _)]
  obtain ⟨t, ht, cl, rfl, hc⟩ := forRange_ok (lo := 0) (s := { s with clm := .replicate 19 0 })
    (P := fun i t => ∃ cl : Vector Byte 19, t = { s.moveTo (s.pos + 3 * i) with clm := cl } ∧
      ∀ m (_ : m < 19), cl[m] = if s.params.clCodeOrder.idxOf m < i then BitVec.ofNat 8 (ms.getD (s.params.clCodeOrder.idxOf m) 0) else 0)
    (f := fun j => do
      let m ← readState fun s => s.params.clCodeOrder.getD j 0
      let v ← readBits 3
      update fun s => s.setClm m v) ms.length
    (by
      rintro i _ _ hi ⟨cl, rfl, hc⟩
      have hp : State.pos { s.moveTo (s.pos + 3 * i) with clm := cl } = s.pos + 3 * i :=
        State.pos_moveTo s (by omega)
      refine ⟨_, by
        rw [cmd_bind_of_ok (readState_apply _ _),
          cmd_bind_of_ok (readBits_ok (by decide) (by decide) (by rw [hp]; show _ ≤ s.endPos; omega))]; rfl, ?_⟩
      rw [hp]
      have hil : i < s.params.clCodeOrder.length := by omega
      have hio : s.params.clCodeOrder.getD i 0 = s.params.clCodeOrder[i] := by simp [hil]
      have hfi := hf i (by omega)
      refine ⟨cl.setIfInBounds (s.params.clCodeOrder.getD i 0) (BitVec.ofNat 8 (s.field (s.pos + 3 * i) 3)), ?_, ?_⟩
      · rw [show s.pos + 3 * (i + 1) = s.pos + 3 * i + 3 by omega]; rfl
      · intro m hm
        rw [Vector.getElem_setIfInBounds]
        by_cases h : s.params.clCodeOrder.getD i 0 = m
        · rw [if_pos h]
          have : s.params.clCodeOrder.idxOf m = i := by rw [← h, hio]; exact hnd.idxOf_getElem i hil
          rw [this, if_pos (by omega), hfi]
          simp [show i < ms.length by omega]
        · rw [if_neg h, hc m hm]
          have : s.params.clCodeOrder.idxOf m ≠ i := by
            intro e
            apply h
            have hmem : m ∈ s.params.clCodeOrder := ha.2.1.2 m (List.mem_range.2 hm)
            have := List.getElem_idxOf (List.idxOf_lt_length_iff.2 hmem)
            rw [hio]
            simp only [e] at this
            exact this
          by_cases h2 : s.params.clCodeOrder.idxOf m < i
          · rw [if_pos h2, if_pos (by omega)]
          · rw [if_neg h2, if_neg (by omega)])
    ⟨.replicate 19 0, by simp [State.moveTo_pos_self], fun m hm => by simp⟩
  rw [Nat.zero_add] at ht hc
  refine ⟨cl, ht, ?_⟩
  apply List.ext_getElem
  · simp [metaCode]
  · intro m h1 h2
    have hm : m < 19 := by simpa using h1
    simp only [Vector.getElem_toList, hc m hm, metaCode, List.getElem_map, List.getElem_range]
    by_cases h : s.params.clCodeOrder.idxOf m < ms.length
    · rw [if_pos h]
    · rw [if_neg h, List.getD_eq_default _ _ (by omega)]; rfl

/-! ### Tokens -/

/-- The bits of one token. -/
def LenToken.bits (M : List Byte) (k : LenToken) : List Nat := codeBits M k.symbol ++ k.extraBits

theorem tokenBits_cons (M : List Byte) (k : LenToken) (ts : List LenToken) :
    tokenBits M (k :: ts) = k.bits M ++ tokenBits M ts := rfl

/-- The run of a repeat token, which reaches at most the end of the array (43_code_lengths.md R195). -/
theorem repeatLength_ok {s : State} {n i v r : Nat} (h : i + r ≤ n) :
    repeatLength n i v r s = .ok (i + r) (s.setCodeLengths i (List.replicate r (BitVec.ofNat 8 v))) := by
  unfold repeatLength
  rw [cmd_bind_of_ok (raiseIf_of_not (by omega) _ _ _), cmd_bind_of_ok (update_apply _ _)]
  rfl

theorem repeatLength_error {s : State} {n i v r : Nat} (h : n < i + r) :
    repeatLength n i v r s = .error ⟨.repeatOverflow, trunc32 (i + r)⟩ s := by
  unfold repeatLength
  rw [cmd_bind_of_error (raiseIf_of h _ _ _)]

theorem LenToken.symbol_le {k : LenToken} (h : k.Legal) : k.symbol ≤ 18 := by
  cases k with
  | literal v => exact Nat.le_trans h (by decide)
  | repeatPrev x => exact Nat.le_of_ble_eq_true rfl
  | shortZeros x => exact Nat.le_of_ble_eq_true rfl
  | longZeros x => exact Nat.le_of_ble_eq_true rfl

theorem lengthToken_literal {v : Nat} (h : v ≤ 15) (n i prev : Nat) : lengthToken n i prev v = (do
    putLength i v
    pure (i + 1, if v ≠ 0 then v else prev)) := if_pos h

theorem lengthToken_16 (n i prev : Nat) : lengthToken n i prev 16 = (do
    let x ← readBits 2
    let j ← repeatLength n i prev (3 + x)
    pure (j, prev)) := rfl

theorem lengthToken_17 (n i prev : Nat) : lengthToken n i prev 17 = (do
    let x ← readBits 3
    let j ← repeatLength n i 0 (3 + x)
    pure (j, prev)) := rfl

theorem lengthToken_18 (n i prev : Nat) : lengthToken n i prev 18 = (do
    let x ← readBits 7
    let j ← repeatLength n i 0 (11 + x)
    pure (j, prev)) := rfl

/-- One token whose lengths fit the array (43_code_lengths.md R195, R196). -/
theorem lengthToken_ok {s : State} {n i prev : Nat} {k : LenToken} (hk : k.Legal) (hb : s.HasBits s.pos k.extraBits)
    (hend : s.pos + k.extraBits.length ≤ s.endPos) (hn : i + (k.lengths prev).length ≤ n) :
    lengthToken n i prev k.symbol s = .ok (i + (k.lengths prev).length, k.nextPrev prev)
      (s.lensAt (s.pos + k.extraBits.length) (s.clmem.writeList i ((k.lengths prev).map (BitVec.ofNat 8)))) := by
  cases k with
  | literal v =>
    show lengthToken n i prev v s = _
    rw [lengthToken_literal hk,
      cmd_bind_of_ok (show putLength i v s = .ok () (s.setCodeLengths i [BitVec.ofNat 8 v]) from rfl)]
    simp only [cmd_pure_apply, LenToken.lengths, LenToken.nextPrev, LenToken.extraBits, List.length_singleton,
      List.length_nil, Nat.add_zero, List.map_cons, List.map_nil, State.lensAt, State.moveTo_pos_self]
    by_cases h : v = 0 <;> simp [h] <;> rfl
  | repeatPrev x =>
    have hx : x < 2 ^ 2 := hk
    simp only [LenToken.extraBits, length_lsbBits, LenToken.lengths, List.length_replicate] at *
    show lengthToken n i prev 16 s = _
    rw [lengthToken_16, cmd_bind_of_ok (readBits_ok (by decide) (by decide) hend), State.field_of_lsbBits hb hx,
      cmd_bind_of_ok (repeatLength_ok hn), List.map_replicate]
    rfl
  | shortZeros x =>
    have hx : x < 2 ^ 3 := hk
    simp only [LenToken.extraBits, length_lsbBits, LenToken.lengths, List.length_replicate] at *
    show lengthToken n i prev 17 s = _
    rw [lengthToken_17, cmd_bind_of_ok (readBits_ok (by decide) (by decide) hend), State.field_of_lsbBits hb hx,
      cmd_bind_of_ok (repeatLength_ok hn), List.map_replicate]
    rfl
  | longZeros x =>
    have hx : x < 2 ^ 7 := hk
    simp only [LenToken.extraBits, length_lsbBits, LenToken.lengths, List.length_replicate] at *
    show lengthToken n i prev 18 s = _
    rw [lengthToken_18, cmd_bind_of_ok (readBits_ok (by decide) (by decide) hend), State.field_of_lsbBits hb hx,
      cmd_bind_of_ok (repeatLength_ok hn), List.map_replicate]
    rfl

/-- Every token stands for at least one length (43_code_lengths.md R201). -/
theorem LenToken.lengths_pos (prev : Nat) (k : LenToken) : 1 ≤ (k.lengths prev).length := by
  cases k <;> simp [LenToken.lengths] <;> omega

theorem Memory.writeList_append {w : Nat} (m : Memory w) (i : Nat) (a b : List (BitVec w)) :
    m.writeList i (a ++ b) = (m.writeList i a).writeList (i + a.length) b := by
  induction a generalizing m i with
  | nil => rfl
  | cons v a ih =>
    simp only [List.cons_append, Memory.writeList, List.length_cons, ih]
    rw [show i + 1 + a.length = i + (a.length + 1) by omega]

/-- The loop of R195 over a run of tokens whose lengths fit the array: it goes on after them with the lengths written. -/
theorem lengthLoop_tokens {s : State} {n : Nat} {M : List Byte} (hM : Buildable M) (hM19 : M.length ≤ 4096)
    (hs : s.SlotHolds metaSlot M) (ts : List LenToken) (hk : ∀ k ∈ ts, k.Legal ∧ lengthAt M k.symbol ≠ 0) {fuel i prev : Nat}
    (hn : i + (expandTokens prev ts).length ≤ n) (hf : n ≤ i + fuel) (hb : s.HasBits s.pos (tokenBits M ts))
    (hend : s.pos + (tokenBits M ts).length ≤ s.endPos) :
    ∃ fuel', n ≤ i + (expandTokens prev ts).length + fuel' ∧
      lengthLoop n fuel i prev s = lengthLoop n fuel' (i + (expandTokens prev ts).length) (prevAfter prev ts)
        (s.lensAt (s.pos + (tokenBits M ts).length)
          (s.clmem.writeList i ((expandTokens prev ts).map (BitVec.ofNat 8)))) := by
  have hlt := s.endPos_lt
  induction ts generalizing s fuel i prev with
  | nil =>
    refine ⟨fuel, by simpa [expandTokens] using hf, ?_⟩
    simp [tokenBits, expandTokens, prevAfter, Memory.writeList, State.lensAt_self]
  | cons k ts ih =>
    obtain ⟨hk1, hk2⟩ := hk k List.mem_cons_self
    rw [tokenBits_cons] at hb hend ⊢
    rw [State.hasBits_append] at hb
    simp only [LenToken.bits, List.length_append, length_codeBits] at hb hend ⊢
    rw [State.hasBits_append, length_codeBits] at hb
    simp only [expandTokens, List.length_append] at hn ⊢
    have hpos := k.lengths_pos prev
    have hin : i < n := by omega
    obtain ⟨fuel, rfl⟩ : ∃ f, fuel = f + 1 := ⟨fuel - 1, by omega⟩
    have e1 := decodeSym_holds hs hM hM19 hk2 hb.1.1 (by omega)
    have hp : (s.moveTo (s.pos + lengthAt M k.symbol)).pos = s.pos + lengthAt M k.symbol := State.pos_moveTo _ (by omega)
    have e2 := lengthToken_ok (s := s.moveTo (s.pos + lengthAt M k.symbol)) (n := n) (i := i) (prev := prev) hk1
      (by rw [hp]; exact hb.1.2) (by rw [hp]; simp only [State.moveTo_endPos]; omega) (by omega)
    rw [hp] at e2
    set u := (s.moveTo (s.pos + lengthAt M k.symbol)).lensAt (s.pos + lengthAt M k.symbol + k.extraBits.length)
      (s.clmem.writeList i ((k.lengths prev).map (BitVec.ofNat 8))) with hu
    have hup : u.pos = s.pos + lengthAt M k.symbol + k.extraBits.length :=
      State.pos_moveTo (s.moveTo (s.pos + lengthAt M k.symbol)) (by omega)
    obtain ⟨fuel', hf', e3⟩ := ih (s := u) (fuel := fuel) (i := i + (k.lengths prev).length) (prev := k.nextPrev prev)
      hs (fun k' hk' => hk k' (List.mem_cons_of_mem _ hk')) (by omega) (by omega)
      (by rw [hup]; rw [Nat.add_assoc]; exact hb.2) (by rw [hup]; show _ ≤ s.endPos; omega) (by exact hlt)
    refine ⟨fuel', by omega, ?_⟩
    rw [lengthLoop, if_pos hin, cmd_bind_of_ok e1, cmd_bind_of_ok e2]
    refine e3.trans ?_
    rw [List.map_append, Memory.writeList_append, List.length_map, hup]
    simp only [prevAfter, Nat.add_assoc]
    rfl

/-- The loop ends at the end of the array. -/
theorem lengthLoop_done {n fuel i prev : Nat} (h : n ≤ i) (s : State) : lengthLoop n fuel i prev s = .ok () s := by
  cases fuel with
  | zero => rfl
  | succ f => rw [lengthLoop, if_neg (by omega)]; rfl

/-! ### ReadCodeLengths -/

theorem length_flatMap_three (ms : List Nat) : (ms.flatMap fun v => lsbBits v 3).length = 3 * ms.length := by
  induction ms with
  | nil => rfl
  | cons v ms ih => simp only [List.flatMap_cons, List.length_append, length_lsbBits, ih, List.length_cons]; omega

theorem length_metaBits (ms : List Nat) : (metaBits ms).length = 5 + 3 * ms.length := by
  simp only [metaBits, List.length_append, length_lsbBits, length_flatMap_three, List.length_singleton]

/-- The flag and the count (43_code_lengths.md R191). -/
theorem readCodeLengths_apply {s : State} (n : Nat) (h : s.pos + 5 ≤ s.endPos) : readCodeLengths n s =
    if s.field s.pos 1 = 0 then literalLengths n (4 + s.field (s.pos + 1) 4) (s.moveTo (s.pos + 5))
    else codedLengths n (4 + s.field (s.pos + 1) 4) (s.moveTo (s.pos + 5)) := by
  have hlt := s.endPos_lt
  have hp : (s.moveTo (s.pos + 1)).pos = s.pos + 1 := State.pos_moveTo _ (by omega)
  unfold readCodeLengths
  rw [cmd_bind_of_ok (readBits_ok (by decide) (by decide) (by omega)),
    cmd_bind_of_ok (readBits_ok (by decide) (by decide) (by rw [hp]; simp only [State.moveTo_endPos]; omega)), hp]
  simp only [State.moveTo_field, State.moveTo_moveTo]
  split_ifs <;> rfl

/-- The whole literal form (43_code_lengths.md R192). -/
theorem readCodeLengths_literal {s : State} {n cnt : Nat} (hw : s.clmem.wf) (hf : s.field s.pos 1 = 0)
    (hcnt : cnt = 4 + s.field (s.pos + 1) 4) (hc : cnt ≤ n) (hend : s.pos + 5 + 3 * cnt ≤ s.endPos) :
    ∃ c : Memory 8, readCodeLengths n s = .ok () (s.lensAt (s.pos + 5 + 3 * cnt) c) ∧ c.wf ∧
      ∀ j, c.read .clmem j = if j < cnt then BitVec.ofNat 8 (s.field (s.pos + 5 + 3 * j) 3)
        else if j < n then 0 else s.clmem.read .clmem j := by
  have hlt := s.endPos_lt
  have hp : (s.moveTo (s.pos + 5)).pos = s.pos + 5 := State.pos_moveTo _ (by omega)
  rw [readCodeLengths_apply n (by omega), if_pos hf, ← hcnt]
  obtain ⟨c, h1, h2, h3⟩ := literalLengths_ok (s := s.moveTo (s.pos + 5)) (n := n) (cnt := cnt) hw hc
    (by rw [hp]; simp only [State.moveTo_endPos]; omega)
  rw [hp] at h1 h3
  exact ⟨c, h1, h2, h3⟩

/-- The state after the meta lengths `cl` and the build of their code. -/
def State.metaBuilt (s : State) (q : Nat) (cl : Vector Byte 19) : State :=
  ({ s.moveTo q with clm := cl } : State).built metaSlot cl.toList

/-- The meta lengths and the build, whose error the command takes (43_code_lengths.md R193, R194). -/
theorem readCodeLengths_meta {s : State} {n : Nat} {ms : List Nat} (ha : s.params.Admissible) (hm : MetaOk ms)
    (hb : s.HasBits s.pos (metaBits ms)) (hend : s.pos + (metaBits ms).length ≤ s.endPos) :
    ∃ cl : Vector Byte 19, cl.toList = metaCode s.params.clCodeOrder ms ∧
      readCodeLengths n s = (do
        build metaSlot cl.toList
        lengthLoop n n 0 8) ({ s.moveTo (s.pos + (metaBits ms).length) with clm := cl } : State) := by
  have hlt := s.endPos_lt
  rw [length_metaBits] at hend ⊢
  unfold metaBits at hb
  rw [State.hasBits_append, State.hasBits_append] at hb
  simp only [List.length_append, List.length_singleton, length_lsbBits] at hb
  have h1 : s.field s.pos 1 = 1 := by
    have h0 := hb.1.1 0 (by simp)
    rw [State.field_succ, State.field_zero]
    simpa using h0
  have h4 := State.field_of_lsbBits hb.1.2 (by have := hm.1; have := hm.2.1; omega)
  have hcnt : 4 + s.field (s.pos + 1) 4 = ms.length := by have := hm.1; omega
  have hp : (s.moveTo (s.pos + 5)).pos = s.pos + 5 := State.pos_moveTo _ (by omega)
  rw [readCodeLengths_apply n (by omega), if_neg (by omega), hcnt]
  obtain ⟨cl, hc1, hc2⟩ := metaLengths_ok (s := s.moveTo (s.pos + 5)) ha hm.2.1 hm.2.2 (by rw [hp]; exact hb.2)
    (by rw [hp]; simp only [State.moveTo_endPos]; omega)
  rw [hp] at hc1
  refine ⟨cl, hc2, ?_⟩
  unfold codedLengths
  rw [cmd_bind_of_ok hc1, cmd_bind_of_ok (readState_apply _ _), show s.pos + (5 + 3 * ms.length) = s.pos + 5 + 3 * ms.length by omega]
  rfl

/-- The coded form as far as a run of tokens goes (43_code_lengths.md R195). -/
theorem readCodeLengths_tokens {s : State} {n : Nat} {ms : List Nat} {ts : List LenToken} (ha : s.params.Admissible)
    (hm : MetaOk ms) (hM : Buildable (metaCode s.params.clCodeOrder ms))
    (hk : ∀ k ∈ ts, k.Legal ∧ lengthAt (metaCode s.params.clCodeOrder ms) k.symbol ≠ 0)
    (hn : (expandTokens 8 ts).length ≤ n)
    (hb : s.HasBits s.pos (metaBits ms ++ tokenBits (metaCode s.params.clCodeOrder ms) ts))
    (hend : s.pos + (metaBits ms ++ tokenBits (metaCode s.params.clCodeOrder ms) ts).length ≤ s.endPos) :
    ∃ (cl : Vector Byte 19) (fuel : Nat), cl.toList = metaCode s.params.clCodeOrder ms ∧
      n ≤ (expandTokens 8 ts).length + fuel ∧
      readCodeLengths n s = lengthLoop n fuel (expandTokens 8 ts).length (prevAfter 8 ts)
        ((s.metaBuilt (s.pos + (metaBits ms).length) cl).lensAt
          (s.pos + (metaBits ms ++ tokenBits (metaCode s.params.clCodeOrder ms) ts).length)
          (s.clmem.writeList 0 ((expandTokens 8 ts).map (BitVec.ofNat 8)))) := by
  have hlt := s.endPos_lt
  rw [State.hasBits_append] at hb
  rw [List.length_append] at hend ⊢
  obtain ⟨cl, hc1, hc2⟩ := readCodeLengths_meta (n := n) ha hm hb.1 (by omega)
  have hp : (s.metaBuilt (s.pos + (metaBits ms).length) cl).pos = s.pos + (metaBits ms).length :=
    State.pos_moveTo s (by omega)
  obtain ⟨fuel, hf, hl⟩ := lengthLoop_tokens (s := s.metaBuilt (s.pos + (metaBits ms).length) cl) (n := n) (fuel := n)
    (i := 0) (prev := 8) hM (by rw [length_metaCode]; decide)
    (by rw [← hc1]; exact State.built_slotHolds _ _ _) ts hk (by omega) (by omega) (by rw [hp]; exact hb.2)
    (by rw [hp]; show _ ≤ s.endPos; omega)
  refine ⟨cl, fuel, hc1, by omega, ?_⟩
  rw [hc2, cmd_bind_of_ok (build_ok (by rw [hc1]; exact hM) _)]
  refine hl.trans ?_
  rw [hp, Nat.zero_add, Nat.add_assoc]
  rfl

/-- The whole coded form (43_code_lengths.md R193 to R198). -/
theorem readCodeLengths_coded {s : State} {n : Nat} {ms : List Nat} {ts : List LenToken} (ha : s.params.Admissible)
    (hm : MetaOk ms) (hM : Buildable (metaCode s.params.clCodeOrder ms))
    (hk : ∀ k ∈ ts, k.Legal ∧ lengthAt (metaCode s.params.clCodeOrder ms) k.symbol ≠ 0)
    (hn : (expandTokens 8 ts).length = n)
    (hb : s.HasBits s.pos (metaBits ms ++ tokenBits (metaCode s.params.clCodeOrder ms) ts))
    (hend : s.pos + (metaBits ms ++ tokenBits (metaCode s.params.clCodeOrder ms) ts).length ≤ s.endPos) :
    ∃ cl : Vector Byte 19, cl.toList = metaCode s.params.clCodeOrder ms ∧
      readCodeLengths n s = .ok () ((s.metaBuilt (s.pos + (metaBits ms).length) cl).lensAt
          (s.pos + (metaBits ms ++ tokenBits (metaCode s.params.clCodeOrder ms) ts).length)
          (s.clmem.writeList 0 ((expandTokens 8 ts).map (BitVec.ofNat 8)))) := by
  obtain ⟨cl, fuel, h1, h2, h3⟩ := readCodeLengths_tokens ha hm hM hk (Nat.le_of_eq hn) hb hend
  exact ⟨cl, h1, h3.trans (lengthLoop_done (by omega) _)⟩

end Sys2Proof.Machine
end

