-- ==== Sys2Proof/Laws/Groups.lean ====
section
/-! SUPPORT. Code lengths, trees and groups as triples: what each leaves for any property its primitive changes keep, and the errors it can raise. -/

namespace Sys2Proof.Machine

/-- A piece that keeps `P`, answers values with `Q` and raises only errors of the list `S`. -/
def Does {α : Type} (P : State → Prop) (x : Cmd α) (Q : α → Prop) (S : List ErrKind) : Prop :=
  Hoare P x (fun a s => P s ∧ Q a) (fun e s => P s ∧ e.kind ∈ S)

section Does

variable {α β : Type} {P : State → Prop} {S : List ErrKind}

theorem Does.bind {x : Cmd α} {f : α → Cmd β} {Q : α → Prop} {Q' : β → Prop} (hx : Does P x Q S)
    (hf : ∀ a, Q a → Does P (f a) Q' S) : Does P (x >>= f) Q' S :=
  Hoare.bind (R := fun a s => P s ∧ Q a) hx fun a s hs => hf a hs.2 s hs.1

theorem does_pure {a : α} {Q : α → Prop} (h : Q a) : Does P (pure a) Q S := fun _ hs => ⟨hs, h⟩

theorem does_readState {f : State → α} {Q : α → Prop} (h : ∀ s, P s → Q (f s)) : Does P (readState f) Q S :=
  fun s hs => ⟨hs, h s hs⟩

theorem does_update {f : State → State} (h : ∀ s, P s → P (f s)) : Does P (update f) (fun _ => True) S :=
  fun s hs => ⟨h s hs, trivial⟩

theorem does_raise {e : ErrKind} {info : Nat} {Q : α → Prop} (h : e ∈ S) : Does P (raise e info : Cmd α) Q S :=
  fun _ hs => ⟨hs, h⟩

/-- A check raises its error or tells that its condition does not hold. -/
theorem does_raiseIf {c : Bool} {e : ErrKind} {info : Nat} (h : e ∈ S) : Does P (raiseIf c e info) (fun _ => c = false) S := by
  intro s hs; cases c
  · exact ⟨hs, rfl⟩
  · exact ⟨hs, h⟩

/-- A check whose condition cannot hold. -/
theorem does_raiseIf_never {c : Bool} {e : ErrKind} {info : Nat} (h : c = false) :
    Does P (raiseIf c e info) (fun _ => True) S := by subst h; exact fun _ hs => ⟨hs, trivial⟩

theorem Does.ite {c : Prop} [Decidable c] {x y : Cmd α} {Q : α → Prop} (hx : c → Does P x Q S) (hy : ¬ c → Does P y Q S) :
    Does P (if c then x else y) Q S := Hoare.ite hx hy

theorem Does.mono {x : Cmd α} {Q Q' : α → Prop} {S' : List ErrKind} (h : Does P x Q S) (hQ : ∀ a, Q a → Q' a)
    (hS : S ⊆ S') : Does P x Q' S' :=
  Hoare.conseq h (fun _ hs => hs) (fun a _ hs => ⟨hs.1, hQ a hs.2⟩) fun _ _ hs => ⟨hs.1, hS hs.2⟩

/-- From the two halves: what is kept, and what is answered or raised. -/
theorem does_of {x : Cmd α} {Q : α → Prop} (hk : Keeps P x)
    (h : Hoare P x (fun a _ => Q a) (fun e _ => e.kind ∈ S)) : Does P x Q S := by
  intro s hs
  have a := hk s hs
  have b := h s hs
  cases hx : x s with
  | ok v t => rw [hx] at a b; exact ⟨a, b⟩
  | error e t => rw [hx] at a b; exact ⟨a, b⟩

theorem does_forRange {f : Nat → Cmd Unit} (n lo : Nat) (h : ∀ i, lo ≤ i → i < lo + n → Does P (f i) (fun _ => True) S) :
    Does P (forRange f n lo) (fun _ => True) S := by
  induction n generalizing lo with
  | zero => exact does_pure trivial
  | succ n ih =>
    exact (h lo (Nat.le_refl _) (by omega)).bind fun _ _ => ih (lo + 1) fun i h1 h2 => h i (by omega) (by omega)

end Does

/-! ### The reader -/

/-- A property the cursor's moves keep. -/
def Moves (P : State → Prop) : Prop := ∀ s q, P s → q ≤ s.endPos → s.pos ≤ q → P (s.moveTo q)

theorem Moves.and {P P' : State → Prop} (h : Moves P) (h' : Moves P') : Moves fun s => P s ∧ P' s :=
  fun s q hs a b => ⟨h s q hs.1 a b, h' s q hs.2 a b⟩

variable {P : State → Prop} {S : List ErrKind}

theorem does_readBits (h : Moves P) {n : Nat} (h1 : 1 ≤ n) (h2 : n ≤ 16) (hS : .readPastEnd ∈ S) :
    Does P (readBits n) (fun v => v < 2 ^ n) S := by
  refine does_of (keeps_readBits h n) fun s hs => ?_
  rw [readBits_apply, if_neg (by omega)]
  by_cases hc : s.endPos < s.pos + n
  · rw [if_pos hc]; exact hS
  · rw [if_neg hc]; exact s.field_lt _ _

theorem does_readExtra (h : Moves P) {n : Nat} (hn : n ≤ 18) (hS : .readPastEnd ∈ S) :
    Does P (readExtra n) (fun v => v < 2 ^ n) S := by
  unfold readExtra
  refine Does.ite (fun h0 => does_pure (by subst h0; decide)) fun h0 => Does.ite (fun h16 => ?_) fun h16 => ?_
  · exact does_readBits h (by omega) h16 hS
  · refine (does_readBits h (by decide) (by decide) hS).bind fun lo hlo =>
      (does_readBits h (by omega) (by omega) hS).bind fun hi hhi => does_pure ?_
    have : 2 ^ n = 2 ^ 16 * 2 ^ (n - 16) := by rw [← pow_add]; congr 1; omega
    rw [this]
    calc lo + 2 ^ 16 * hi < 2 ^ 16 + 2 ^ 16 * hi := by omega
      _ = 2 ^ 16 * (hi + 1) := by ring
      _ ≤ 2 ^ 16 * 2 ^ (n - 16) := Nat.mul_le_mul_left _ hhi

/-- A valid slot whose table decodes every input, to symbols below `N`. -/
def State.SlotBelow (s : State) (t : Fin 7) (N : Nat) : Prop :=
  s.tabInfo[t].valid = true ∧ s.TableComplete t ∧
    ∀ j < 2 ^ s.tabInfo[t].maxLen.toNat, entrySym (s.tab[t].read (.tab t) j) < N

theorem State.SlotBelow.congr {s u : State} {t : Fin 7} {N : Nat} (h : s.SlotBelow t N) (h1 : u.tabInfo[t] = s.tabInfo[t])
    (h2 : u.tab[t] = s.tab[t]) : u.SlotBelow t N := by
  unfold State.SlotBelow State.TableComplete at *
  rw [h1, h2]; exact h

theorem does_decodeSym (h : Moves P) {t : Fin 7} {N : Nat} (ht : ∀ s, P s → s.SlotBelow t N) (hS : .readPastEnd ∈ S) :
    Does P (decodeSym t) (fun v => v < N) S := by
  refine does_of (keeps_decodeSym h t) fun s hs => ?_
  obtain ⟨-, hc, hb⟩ := ht s hs
  rcases decodeSym_complete hc with ⟨j, k, hj, -, -, e⟩ | e
  · rw [e]; exact hb j hj
  · rw [e]; exact hS

/-- A build leaves a slot whose symbols are below the size of the alphabet. -/
theorem built_slotBelow (s : State) (t : Fin 7) {L : List Byte} (h : Buildable L) (hn : L.length ≤ 4096) :
    (s.built t L).SlotBelow t L.length := by
  have e1 : (s.built t L).tabInfo[t] = builtInfo L := vget_set_self _ _ _
  have e2 : (s.built t L).tab[t] = builtTable L s.tab[t] := vget_set_self _ _ _
  refine ⟨by rw [e1]; rfl, built_tableComplete s t h, ?_⟩
  rw [e1, e2]
  have h15 := maxLength_le h.1
  have em : (builtInfo L).maxLen.toNat = maxLength L := by simp only [builtInfo, BitVec.toNat_ofNat]; omega
  rw [em]
  intro j hj
  rcases h.2 with hK | hK
  · obtain ⟨i, hi, -, -, -, hr⟩ := (tableOf_complete (.tab t) h.1 hK s.tab[t]).entry j hj
    rw [hr, entrySym_mkEntry _ (by omega)]; exact hi
  · have h1 := (isSingle_iff.1 hK).2
    obtain ⟨hf, -, -⟩ := isSingle_used hK
    rw [builtTable_single _ hK, if_pos (by rw [h1] at hj; exact hj), entrySym_mkEntry _ (by omega)]
    exact hf

/-! ### Code lengths -/

/-- The errors of the trees of a group (48_orchestrator.md R345, stage 5). -/
def treeErrors : List ErrKind :=
  [.readPastEnd, .oversizedMetaAlphabet, .emptyAlphabet, .overSubscribed, .underSubscribed, .repeatOverflow]

/-- A property that reading trees into the slots of `T` keeps. -/
structure TreeClosed (T : Fin 7 → Prop) (P : State → Prop) : Prop where
  move : Moves P
  lengths : ∀ s i vs, P s → P (s.setCodeLengths i vs)
  clmClear : ∀ s, P s → P { s with clm := .replicate 19 0 }
  clmSet : ∀ s m v, P s → P (s.setClm m v)
  invalidate : ∀ s t, T t → P s → P (s.invalidate t)
  failed : ∀ s t, T t → P s → P ((s.invalidate t).forgetTab t)
  built : ∀ s t L, T t → P s → Buildable L → P (s.built t L)

theorem TreeClosed.mono {T T' : Fin 7 → Prop} {P : State → Prop} (C : TreeClosed T P) (h : ∀ t, T' t → T t) :
    TreeClosed T' P :=
  ⟨C.move, C.lengths, C.clmClear, C.clmSet, fun s t ht => C.invalidate s t (h t ht), fun s t ht => C.failed s t (h t ht),
    fun s t L ht => C.built s t L (h t ht)⟩

theorem TreeClosed.and {T : Fin 7 → Prop} {P P' : State → Prop} (C : TreeClosed T P) (C' : TreeClosed T P') :
    TreeClosed T fun s => P s ∧ P' s where
  move := C.move.and C'.move
  lengths s i vs hs := ⟨C.lengths s i vs hs.1, C'.lengths s i vs hs.2⟩
  clmClear s hs := ⟨C.clmClear s hs.1, C'.clmClear s hs.2⟩
  clmSet s m v hs := ⟨C.clmSet s m v hs.1, C'.clmSet s m v hs.2⟩
  invalidate s t ht hs := ⟨C.invalidate s t ht hs.1, C'.invalidate s t ht hs.2⟩
  failed s t ht hs := ⟨C.failed s t ht hs.1, C'.failed s t ht hs.2⟩
  built s t L ht hs hL := ⟨C.built s t L ht hs.1 hL, C'.built s t L ht hs.2 hL⟩

/-- A slot outside `T` keeps its table. -/
theorem slotBelow_treeClosed {T : Fin 7 → Prop} {u : Fin 7} (hu : ¬ T u) (N : Nat) : TreeClosed T fun s => s.SlotBelow u N where
  move _ _ hs _ _ := hs
  lengths _ _ _ hs := hs
  clmClear _ hs := hs
  clmSet _ _ _ hs := hs
  invalidate s t ht hs := by
    have : u ≠ t := fun e => hu (e ▸ ht)
    exact hs.congr (vget_set_ne _ this _) rfl
  failed s t ht hs := by
    have : u ≠ t := fun e => hu (e ▸ ht)
    exact hs.congr (vget_set_ne _ this _) (vget_set_ne _ this _)
  built s t L ht hs _ := by
    have : u ≠ t := fun e => hu (e ▸ ht)
    exact hs.congr (vget_set_ne _ this _) (vget_set_ne _ this _)

/-- The lengths of the symbols below `i` are in CLMEM and legal. -/
def State.LensTo (s : State) (i : Nat) : Prop := s.clmem.wf ∧ ∀ j < i, (s.clmem.read .clmem j).toNat ≤ 15

theorem State.LensTo.write {s : State} {i : Nat} (h : s.LensTo i) (vs : List Byte) (hvs : ∀ b ∈ vs, b.toNat ≤ 15) :
    (s.setCodeLengths i vs).LensTo (i + vs.length) := by
  refine ⟨Memory.writeList_wf h.1 _ _, fun j hj => ?_⟩
  show ((s.clmem.writeList i vs).read .clmem j).toNat ≤ 15
  rw [Memory.read_writeList .clmem h.1]
  split
  · exact hvs _ (List.getElem_mem _)
  · exact h.2 j (by omega)

theorem hoare_putLength {E : Trap → State → Prop} (hl : ∀ s i vs, P s → P (s.setCodeLengths i vs)) {i v : Nat} (hv : v ≤ 15) :
    Hoare (fun s => P s ∧ s.LensTo i) (putLength i v) (fun _ s => P s ∧ s.LensTo (i + 1)) E := by
  refine hoare_update fun s hs => ⟨hl _ _ _ hs.1, ?_⟩
  exact hs.2.write [BitVec.ofNat 8 v] (by
    intro b hb
    rw [List.mem_singleton] at hb; subst hb
    rw [BitVec.toNat_ofNat]; omega)

theorem hoare_literalLengths {T : Fin 7 → Prop} (C : TreeClosed T P) {n cnt : Nat} :
    Hoare (fun s => P s ∧ s.clmem.wf) (literalLengths n cnt) (fun _ s => P s ∧ s.LensTo n)
      (fun e s => P s ∧ e.kind ∈ treeErrors) := by
  unfold literalLengths
  refine Hoare.bind (R := fun _ s => (P s ∧ s.LensTo 0) ∧ cnt ≤ n) ?_ fun _ => ?_
  · refine hoare_raiseIf (fun s hs _ => ⟨hs.1, by simp [treeErrors]⟩) fun s hs hc => ⟨⟨hs.1, hs.2, fun j hj => by omega⟩, ?_⟩
    simpa using hc
  intro s hs
  have hc := hs.2
  refine Hoare.bind (P := fun s => P s ∧ s.LensTo 0) (R := fun _ s => P s ∧ s.LensTo (0 + cnt)) ?_ (fun _ => ?_) s hs.1
  · refine hoare_forRange (I := fun i s => P s ∧ s.LensTo i) cnt fun i _ _ => ?_
    refine Hoare.bind (R := fun v s => (P s ∧ s.LensTo i) ∧ v < 2 ^ 3) ?_ fun v => ?_
    · exact Hoare.conseq (does_readBits (P := fun s => P s ∧ s.LensTo i) (S := treeErrors)
        (C.move.and fun s q h _ _ => h) (by decide) (by decide) (by decide)) (fun _ h => h) (fun _ _ h => h)
        fun _ _ h => ⟨h.1.1, h.2⟩
    · exact fun s hs => hoare_putLength (E := fun e s => P s ∧ e.kind ∈ treeErrors) C.lengths (by have := hs.2; omega) s hs.1
  · refine hoare_update fun s hs => ⟨C.lengths _ _ _ hs.1, ?_⟩
    have := hs.2.write (List.replicate (n - cnt) 0) (by
      intro b hb; rw [List.mem_replicate] at hb; rw [hb.2]; decide)
    rw [List.length_replicate] at this
    rwa [show 0 + cnt + (n - cnt) = n by omega, Nat.zero_add] at this

theorem hoare_repeatLength {T : Fin 7 → Prop} (C : TreeClosed T P) {n i v r : Nat} (hv : v ≤ 15) :
    Hoare (fun s => P s ∧ s.LensTo i) (repeatLength n i v r) (fun j s => (P s ∧ s.LensTo j) ∧ j = i + r ∧ j ≤ n)
      (fun e s => P s ∧ e.kind ∈ treeErrors) := by
  unfold repeatLength
  refine Hoare.bind (R := fun _ s => (P s ∧ s.LensTo i) ∧ i + r ≤ n) ?_ fun _ => ?_
  · exact hoare_raiseIf (fun s hs _ => ⟨hs.1, by simp [treeErrors]⟩) fun s hs hc => ⟨hs, by simpa using hc⟩
  refine Hoare.bind (R := fun _ s => (P s ∧ s.LensTo (i + r)) ∧ i + r ≤ n) ?_ fun _ => ?_
  · refine hoare_update fun s hs => ⟨⟨C.lengths _ _ _ hs.1.1, ?_⟩, hs.2⟩
    have := hs.1.2.write (List.replicate r (BitVec.ofNat 8 v)) (by
      intro b hb; rw [List.mem_replicate] at hb; rw [hb.2, BitVec.toNat_ofNat]; omega)
    rwa [List.length_replicate] at this
  · exact hoare_pure fun s hs => ⟨hs.1, rfl, hs.2⟩

theorem hoare_lengthToken {T : Fin 7 → Prop} (C : TreeClosed T P) {n i prev sym : Nat} (hi : i < n) (hp : prev ≤ 15)
    (hs : sym < 19) :
    Hoare (fun s => P s ∧ s.LensTo i) (lengthToken n i prev sym)
      (fun r s => (P s ∧ s.LensTo r.1) ∧ i < r.1 ∧ r.1 ≤ n ∧ r.2 ≤ 15) (fun e s => P s ∧ e.kind ∈ treeErrors) := by
  have run : ∀ (w b v : Nat), 1 ≤ w → w ≤ 16 → 1 ≤ b → v ≤ 15 → Hoare (fun s => P s ∧ s.LensTo i)
      (do let x ← readBits w; let j ← repeatLength n i v (b + x); pure (j, prev))
      (fun r s => (P s ∧ s.LensTo r.1) ∧ i < r.1 ∧ r.1 ≤ n ∧ r.2 ≤ 15) (fun e s => P s ∧ e.kind ∈ treeErrors) := by
    intro w b v h1 h2 hb hv
    refine Hoare.bind (R := fun _ s => P s ∧ s.LensTo i) ?_ fun x => ?_
    · exact Hoare.conseq (does_readBits (P := fun s => P s ∧ s.LensTo i) (S := treeErrors)
        (C.move.and fun s q h _ _ => h) h1 h2 (by decide)) (fun _ h => h) (fun _ _ h => h.1) fun _ _ h => ⟨h.1.1, h.2⟩
    · refine Hoare.bind (hoare_repeatLength C hv) fun j => hoare_pure fun s hs => ?_
      exact ⟨hs.1, by have := hs.2.1; simp only; omega, hs.2.2, hp⟩
  unfold lengthToken
  refine Hoare.ite (fun h15 => ?_) fun _ => Hoare.ite (fun _ => run 2 3 prev (by decide) (by decide) (by decide) hp) fun h16 =>
    Hoare.ite (fun _ => run 3 3 0 (by decide) (by decide) (by decide) (by decide)) fun h17 =>
      Hoare.ite (fun _ => run 7 11 0 (by decide) (by decide) (by decide) (by decide)) fun h18 => by omega
  refine Hoare.bind (hoare_putLength C.lengths h15) fun _ => hoare_pure fun s hs => ⟨hs, ?_, ?_, ?_⟩
  · simp
  · simp only; omega
  · simp only; split <;> omega

theorem hoare_lengthLoop {T : Fin 7 → Prop} (C : TreeClosed T P) {n : Nat} (h5 : ∀ s, P s → s.SlotBelow metaSlot 19)
    (fuel i prev : Nat) (hf : n ≤ i + fuel) (hi : i ≤ n) (hp : prev ≤ 15) :
    Hoare (fun s => P s ∧ s.LensTo i) (lengthLoop n fuel i prev) (fun _ s => P s ∧ s.LensTo n)
      (fun e s => P s ∧ e.kind ∈ treeErrors) := by
  induction fuel generalizing i prev with
  | zero => obtain rfl : i = n := by omega
            exact hoare_pure fun s hs => hs
  | succ fuel ih =>
    refine Hoare.ite (fun hlt => ?_) fun hlt => ?_
    · refine Hoare.bind (R := fun sym s => (P s ∧ s.LensTo i) ∧ sym < 19) ?_ fun sym => ?_
      · exact Hoare.conseq (does_decodeSym (P := fun s => P s ∧ s.LensTo i) (S := treeErrors)
          (C.move.and fun s q h _ _ => h) (fun s hs => h5 s hs.1) (by decide)) (fun _ h => h) (fun _ _ h => h)
          fun _ _ h => ⟨h.1.1, h.2⟩
      intro s hs
      refine Hoare.bind (hoare_lengthToken C hlt hp hs.2) (fun r => ?_) s hs.1
      exact fun u hu => ih r.1 r.2 (by omega) hu.2.2.1 hu.2.2.2 u hu.1
    · obtain rfl : i = n := by omega
      exact hoare_pure fun s hs => hs

theorem does_metaLengths {T : Fin 7 → Prop} (C : TreeClosed T P) (cnt : Nat) :
    Does P (metaLengths cnt) (fun _ => True) treeErrors := by
  refine (does_update fun s hs => C.clmClear s hs).bind fun _ _ => does_forRange _ _ fun j _ _ => ?_
  exact (does_readState (Q := fun _ => True) fun _ _ => trivial).bind fun m _ =>
    (does_readBits C.move (by decide) (by decide) (by decide)).bind fun v _ => does_update fun s hs => C.clmSet s _ _ hs

/-- The lengths of the meta code are 3-bit values. -/
theorem hoare_metaLengths_le (cnt : Nat) :
    Hoare (fun _ => True) (metaLengths cnt) (fun _ s => ∀ b ∈ s.clm.toList, b.toNat ≤ 15) (fun _ _ => True) := by
  unfold metaLengths
  refine Hoare.bind (R := fun _ s => ∀ b ∈ s.clm.toList, b.toNat ≤ 15) ?_ fun _ => ?_
  · refine hoare_update fun s _ b hb => ?_
    have hb : b ∈ (Vector.replicate 19 (0 : Byte)).toList := hb
    rw [Vector.toList_replicate, List.mem_replicate] at hb
    rw [hb.2]; decide
  · refine hoare_forRange (I := fun _ s => ∀ b ∈ s.clm.toList, b.toNat ≤ 15) cnt fun j _ _ => ?_
    refine Hoare.bind (R := fun _ s => ∀ b ∈ s.clm.toList, b.toNat ≤ 15) (hoare_readState fun _ hs => hs) fun m => ?_
    refine Hoare.bind (R := fun v s => (∀ b ∈ s.clm.toList, b.toNat ≤ 15) ∧ v < 2 ^ 3) ?_ fun v => ?_
    · intro s hs
      rw [readBits_apply, if_neg (by omega)]
      by_cases hc : s.endPos < s.pos + 3
      · rw [if_pos hc]; trivial
      · rw [if_neg hc]; exact ⟨hs, s.field_lt _ _⟩
    · refine hoare_update fun s hs b hb => ?_
      have hv := hs.2
      have hb : b ∈ (s.clm.setIfInBounds m (BitVec.ofNat 8 v)).toList := hb
      rw [Vector.toList_setIfInBounds] at hb
      rcases List.mem_or_eq_of_mem_set hb with h | h
      · exact hs.1 b h
      · rw [h, BitVec.toNat_ofNat]; omega

theorem buildError_legal {L : List Byte} (hL : ∀ b ∈ L, b.toNat ≤ 15) {e : ErrKind} {info : Nat}
    (h : buildError L = some (e, info)) : e ∈ treeErrors := by
  rcases buildError_kind h with ⟨-, b, hb, hlt⟩ | rfl | rfl | rfl
  · have := hL b hb; omega
  all_goals decide

/-- A build of legal lengths into a slot of `T`. -/
theorem hoare_buildTree {T : Fin 7 → Prop} (C : TreeClosed T P) {t : Fin 7} (ht : T t) {L : List Byte}
    (hL : ∀ b ∈ L, b.toNat ≤ 15) (hn : L.length ≤ 4096) :
    Hoare P (build t L) (fun _ s => P s ∧ s.SlotBelow t L.length) (fun e s => P s ∧ e.kind ∈ treeErrors) :=
  hoare_build t L (fun hb s hs => ⟨C.built s t L ht hs hb, built_slotBelow s t hb hn⟩)
    fun _ _ he s hs => ⟨C.failed s t ht hs, buildError_legal hL he⟩

theorem wf_treeClosed (T : Fin 7 → Prop) : TreeClosed T fun s => s.clmem.wf where
  move _ _ hs _ _ := hs
  lengths _ _ _ hs := Memory.writeList_wf hs _ _
  clmClear _ hs := hs
  clmSet _ _ _ hs := hs
  invalidate _ _ _ hs := hs
  failed _ _ _ hs := hs
  built _ _ _ _ hs _ := hs

/-- ReadCodeLengths leaves legal lengths for its whole alphabet, or an error of the trees (43_code_lengths.md R201). -/
theorem hoare_readCodeLengths {T : Fin 7 → Prop} (C : TreeClosed T P) (h5 : T metaSlot) (n : Nat) :
    Hoare (fun s => P s ∧ s.clmem.wf) (readCodeLengths n) (fun _ s => P s ∧ s.LensTo n)
      (fun e s => P s ∧ e.kind ∈ treeErrors) := by
  have CW := C.and (wf_treeClosed T)
  have weak : ∀ {α : Type} {x : Cmd α} {Q : α → Prop}, Does (fun s => P s ∧ s.clmem.wf) x Q treeErrors →
      Hoare (fun s => P s ∧ s.clmem.wf) x (fun a s => (P s ∧ s.clmem.wf) ∧ Q a) (fun e s => P s ∧ e.kind ∈ treeErrors) :=
    fun h => Hoare.conseq h (fun _ h => h) (fun _ _ h => h) fun _ _ h => ⟨h.1.1, h.2⟩
  unfold readCodeLengths
  refine Hoare.bind (weak (does_readBits CW.move (by decide) (by decide) (by decide))) fun flag => ?_
  intro s hs
  refine Hoare.bind (weak (does_readBits CW.move (by decide) (by decide) (by decide))) (fun c => ?_) s hs.1
  intro s hs
  refine Hoare.ite (P := fun s => P s ∧ s.clmem.wf) (fun _ => hoare_literalLengths C) (fun _ => ?_) s hs.1
  unfold codedLengths
  refine Hoare.bind (R := fun _ s => (P s ∧ s.clmem.wf) ∧ ∀ b ∈ s.clm.toList, b.toNat ≤ 15) ?_ fun _ => ?_
  · have := (weak (does_metaLengths CW (4 + c))).and (hoare_metaLengths_le (4 + c))
    exact this.conseq (fun s h => ⟨h, trivial⟩) (fun _ s h => ⟨h.1.1, h.2⟩) fun _ _ h => h.1
  intro s hs
  rw [cmd_bind_of_ok (readState_apply _ _)]
  have hl : s.clm.toList.length = 19 := by simp
  refine Hoare.bind (P := fun s => P s ∧ s.clmem.wf)
    (R := fun _ s => (P s ∧ s.SlotBelow metaSlot 19) ∧ s.clmem.wf) ?_ (fun _ => ?_) s hs.1
  · have := hoare_buildTree CW h5 hs.2 (by omega)
    rw [hl] at this
    exact this.conseq (fun _ h => h) (fun _ _ h => ⟨⟨h.1.1, h.2⟩, h.1.2⟩) fun _ _ h => ⟨h.1.1, h.2⟩
  · have C5 : TreeClosed (fun _ => False) fun s => P s ∧ s.SlotBelow metaSlot 19 :=
      (C.mono fun _ h => h.elim).and (slotBelow_treeClosed (fun h => h) 19)
    exact (hoare_lengthLoop C5 (fun s h => h.2) n 0 8 (by omega) (by omega) (by decide)).conseq
      (fun s h => ⟨h.1, h.2, fun j hj => by omega⟩) (fun _ _ h => ⟨h.1.1, h.2⟩) fun _ _ h => ⟨h.1.1, h.2⟩

/-! ### Trees and groups -/

theorem State.LensTo.codeLengths {s : State} {n : Nat} (h : s.LensTo n) : ∀ b ∈ s.codeLengths n, b.toNat ≤ 15 := by
  intro b hb
  simp only [State.codeLengths, List.mem_map, List.mem_range] at hb
  obtain ⟨j, hj, rfl⟩ := hb
  exact h.2 j hj

/-- One tree: the slot it names holds a table over its alphabet (48_orchestrator.md R326). -/
theorem hoare_readTree {T : Fin 7 → Prop} (C : TreeClosed T P) (h5 : T metaSlot) {t : Fin 7} (ht : T t) {n : Nat}
    (hn : n ≤ 4096) :
    Hoare (fun s => P s ∧ s.clmem.wf) (readTree t n) (fun _ s => (P s ∧ s.SlotBelow t n) ∧ s.clmem.wf)
      (fun e s => P s ∧ e.kind ∈ treeErrors) := by
  unfold readTree
  refine Hoare.bind (hoare_readCodeLengths C h5 n) fun _ => ?_
  intro s hs
  rw [cmd_bind_of_ok (readState_apply _ _)]
  have hl : (s.codeLengths n).length = n := by simp [State.codeLengths]
  have := hoare_buildTree (C.and (wf_treeClosed T)) ht hs.2.codeLengths (by omega)
  rw [hl] at this
  exact this.conseq (P' := fun s => P s ∧ s.clmem.wf) (fun _ h => h) (fun _ _ h => ⟨⟨h.1.1, h.2⟩, h.1.2⟩)
    (fun _ _ h => ⟨h.1.1, h.2⟩) s ⟨hs.1, hs.2.1⟩

/-- The slots of a group hold tables over the alphabets of 48_orchestrator.md R326. -/
def State.GroupOk (s : State) (cs : Nat) (at_ : Bool) : Prop :=
  s.SlotBelow 0 (256 + Config.nLengthCodes + cs) ∧ s.SlotBelow 1 256 ∧ s.SlotBelow 2 256 ∧
  (at_ = true → s.SlotBelow 3 256) ∧ s.SlotBelow 4 Config.distAlphabet

/-- The main group leaves its tables in slots 0 to 4, slot 3 invalid without an alpha tree. -/
theorem hoare_readGroup_primary (C : TreeClosed (fun t => t ≠ 6) P) {cs : Nat} (hcs : cs ≤ Config.cacheCapacity) (at_ : Bool) :
    Hoare (fun s => P s ∧ s.clmem.wf) (readGroup cs at_ true)
      (fun _ s => P s ∧ s.clmem.wf ∧ s.GroupOk cs at_ ∧ (at_ = false → s.tabInfo[(3 : Fin 7)].valid = false))
      (fun e s => P s ∧ e.kind ∈ treeErrors) := by
  have hcs : cs ≤ 2048 := hcs
  have step : ∀ {R : State → Prop} (t : Fin 7) (n : Nat), t ≠ 5 → t ≠ 6 → n ≤ 4096 →
      (TreeClosed (fun u => u = 5 ∨ u = t) R) → Hoare (fun s => (P s ∧ R s) ∧ s.clmem.wf) (readTree t n)
        (fun _ s => (P s ∧ R s ∧ s.SlotBelow t n) ∧ s.clmem.wf) (fun e s => P s ∧ e.kind ∈ treeErrors) := by
    intro R t n h5 h6 hn CR
    have C' : TreeClosed (fun u => u = 5 ∨ u = t) fun s => P s ∧ R s :=
      (C.mono fun u hu => by rcases hu with rfl | rfl <;> [decide; exact h6]).and CR
    exact (hoare_readTree C' (.inl rfl) (.inr rfl) hn).conseq (fun _ h => h) (fun _ _ h => ⟨⟨h.1.1.1, h.1.1.2, h.1.2⟩, h.2⟩)
      fun _ _ h => ⟨h.1.1, h.2⟩
  have sb : ∀ {t u : Fin 7} (N : Nat), u ≠ 5 → u ≠ t → TreeClosed (fun v => v = 5 ∨ v = t) fun s => s.SlotBelow u N :=
    fun N h1 h2 => slotBelow_treeClosed (fun h => h.elim h1 h2) N
  have true_ : TreeClosed (fun v => v = (5 : Fin 7) ∨ v = 0) fun _ => True :=
    ⟨fun _ _ _ _ _ => trivial, fun _ _ _ _ => trivial, fun _ _ => trivial, fun _ _ _ _ => trivial, fun _ _ _ _ => trivial,
      fun _ _ _ _ => trivial, fun _ _ _ _ _ _ => trivial⟩
  unfold readGroup
  cases at_ with
  | true =>
    have e : readTrees true (groupTrees cs true) = (do
        readTree 0 (256 + Config.nLengthCodes + cs); readTree 1 256; readTree 2 256; readTree 3 256
        readTree 4 Config.distAlphabet; pure ()) := rfl
    rw [e]
    refine Hoare.bind (R := fun _ s => P s ∧ s.clmem.wf ∧ s.GroupOk cs true) ?_ fun _ => ?_
    · refine Hoare.bind (P := fun s => P s ∧ s.clmem.wf) ((step (R := fun _ => True) 0 _ (by decide) (by decide)
        (by show 256 + 24 + cs ≤ 4096; omega) true_).conseq (fun s h => ⟨⟨h.1, trivial⟩, h.2⟩)
        (fun _ _ h => h) fun _ _ h => h) fun _ => ?_
      refine Hoare.bind ((step 1 256 (by decide) (by decide) (by decide) (sb _ (by decide) (by decide))).conseq
        (fun s h => ⟨⟨h.1.1, h.1.2.2⟩, h.2⟩) (fun _ _ h => h) fun _ _ h => h) fun _ => ?_
      refine Hoare.bind ((step 2 256 (by decide) (by decide) (by decide)
        ((sb _ (by decide) (by decide)).and (sb 256 (u := 1) (by decide) (by decide)))).conseq
        (fun s h => h) (fun _ _ h => h) fun _ _ h => h) fun _ => ?_
      refine Hoare.bind ((step 3 256 (by decide) (by decide) (by decide)
        (((sb _ (u := 0) (by decide) (by decide)).and (sb 256 (u := 1) (by decide) (by decide))).and
          (sb 256 (u := 2) (by decide) (by decide)))).conseq
        (fun s h => h) (fun _ _ h => h) fun _ _ h => h) fun _ => ?_
      refine Hoare.bind ((step 4 Config.distAlphabet (by decide) (by decide) (by decide)
        ((((sb _ (u := 0) (by decide) (by decide)).and (sb 256 (u := 1) (by decide) (by decide))).and
          (sb 256 (u := 2) (by decide) (by decide))).and (sb 256 (u := 3) (by decide) (by decide)))).conseq
        (fun s h => h) (fun _ _ h => h) fun _ _ h => h) fun _ => hoare_pure ?_
      rintro s ⟨⟨hP, ⟨⟨⟨h0, h1⟩, h2⟩, h3⟩, h4⟩, hw⟩
      exact ⟨hP, hw, h0, h1, h2, fun _ => h3, h4⟩
    · exact hoare_pure fun s hs => ⟨hs.1, hs.2.1, hs.2.2, fun h => by cases h⟩
  | false =>
    have e : readTrees true (groupTrees cs false) = (do
        readTree 0 (256 + Config.nLengthCodes + cs); readTree 1 256; readTree 2 256
        readTree 4 Config.distAlphabet; pure ()) := rfl
    rw [e]
    refine Hoare.bind (R := fun _ s => P s ∧ s.clmem.wf ∧ s.GroupOk cs false) ?_ fun _ => ?_
    · refine Hoare.bind (P := fun s => P s ∧ s.clmem.wf) ((step (R := fun _ => True) 0 _ (by decide) (by decide)
        (by show 256 + 24 + cs ≤ 4096; omega) true_).conseq (fun s h => ⟨⟨h.1, trivial⟩, h.2⟩)
        (fun _ _ h => h) fun _ _ h => h) fun _ => ?_
      refine Hoare.bind ((step 1 256 (by decide) (by decide) (by decide) (sb _ (by decide) (by decide))).conseq
        (fun s h => ⟨⟨h.1.1, h.1.2.2⟩, h.2⟩) (fun _ _ h => h) fun _ _ h => h) fun _ => ?_
      refine Hoare.bind ((step 2 256 (by decide) (by decide) (by decide)
        ((sb _ (by decide) (by decide)).and (sb 256 (u := 1) (by decide) (by decide)))).conseq
        (fun s h => h) (fun _ _ h => h) fun _ _ h => h) fun _ => ?_
      refine Hoare.bind ((step 4 Config.distAlphabet (by decide) (by decide) (by decide)
        (((sb _ (u := 0) (by decide) (by decide)).and (sb 256 (u := 1) (by decide) (by decide))).and
          (sb 256 (u := 2) (by decide) (by decide)))).conseq
        (fun s h => h) (fun _ _ h => h) fun _ _ h => h) fun _ => hoare_pure ?_
      rintro s ⟨⟨hP, ⟨⟨h0, h1⟩, h2⟩, h4⟩, hw⟩
      exact ⟨hP, hw, h0, h1, h2, fun h => (Bool.noConfusion h), h4⟩
    · refine hoare_update fun s hs => ⟨C.invalidate _ 3 (by decide) hs.1, hs.2.1, ?_, fun _ => ?_⟩
      · obtain ⟨h0, h1, h2, -, h4⟩ := hs.2.2
        have ne : ∀ {u : Fin 7}, u ≠ 3 → (s.invalidate 3).tabInfo[u] = s.tabInfo[u] := fun h => vget_set_ne _ h _
        exact ⟨h0.congr (ne (by decide)) rfl, h1.congr (ne (by decide)) rfl, h2.congr (ne (by decide)) rfl,
          fun h => (Bool.noConfusion h), h4.congr (ne (by decide)) rfl⟩
      · show ((s.tabInfo.set (3 : Fin 7) _)[(3 : Fin 7)]).valid = false
        rw [vget_set_self]

/-- Every other group is read into the meta and the scratch slot, and leaves nothing else (48_orchestrator.md R327). -/
theorem hoare_readGroup_scratch (C : TreeClosed (fun t => t = metaSlot ∨ t = scratchSlot) P) {cs : Nat}
    (hcs : cs ≤ Config.cacheCapacity) (at_ : Bool) :
    Hoare (fun s => P s ∧ s.clmem.wf) (readGroup cs at_ false) (fun _ s => P s ∧ s.clmem.wf)
      (fun e s => P s ∧ e.kind ∈ treeErrors) := by
  have trees : ∀ ts : List (Fin 7 × Nat), (∀ x ∈ ts, x.2 ≤ 4096) →
      Hoare (fun s => P s ∧ s.clmem.wf) (readTrees false ts) (fun _ s => P s ∧ s.clmem.wf)
        (fun e s => P s ∧ e.kind ∈ treeErrors) := by
    intro ts
    induction ts with
    | nil => exact fun _ => hoare_pure fun s hs => hs
    | cons x ts ih =>
      intro h
      refine Hoare.bind (R := fun _ s => P s ∧ s.clmem.wf) ?_ fun _ => ih fun y hy => h y (List.mem_cons_of_mem _ hy)
      exact (hoare_readTree C (.inl rfl) (.inr rfl) (h x List.mem_cons_self)).conseq (fun _ h => h)
        (fun _ _ h => ⟨h.1.1, h.2⟩) fun _ _ h => h
  have h4096 : Config.maxAlphabet ≤ 4096 := by decide
  refine Hoare.bind (trees _ fun x hx => Nat.le_trans (Closed.groupTrees_le hcs at_ x hx) h4096) fun _ => ?_
  exact hoare_pure fun s hs => hs

end Sys2Proof.Machine
end

