-- ==== Sys2Proof/Laws/Stage.lean ====
section
/-! SUPPORT. What a change of STAGE or RES0 leaves: every read of the state but those two fields. -/

namespace Sys2Proof.Machine

@[simp] theorem State.atStage_atStage (s : State) (a b : Stage) : (s.atStage a).atStage b = s.atStage b := rfl
@[simp] theorem State.atStage_pos (s : State) (st : Stage) : (s.atStage st).pos = s.pos := rfl
@[simp] theorem State.atStage_endPos (s : State) (st : Stage) : (s.atStage st).endPos = s.endPos := rfl
@[simp] theorem State.atStage_inBit (s : State) (st : Stage) (q : Nat) : (s.atStage st).inBit q = s.inBit q := rfl
@[simp] theorem State.atStage_field (s : State) (st : Stage) (q n : Nat) : (s.atStage st).field q n = s.field q n := rfl
@[simp] theorem State.atStage_npix (s : State) (st : Stage) : (s.atStage st).npix = s.npix := rfl
@[simp] theorem State.atStage_pixAt (s : State) (st : Stage) (i : Nat) : (s.atStage st).pixAt i = s.pixAt i := rfl
@[simp] theorem State.atStage_elem (s : State) (st : Stage) (sp : Space) (i : Nat) :
    (s.atStage st).elem sp i = s.elem sp i := rfl
@[simp] theorem State.atStage_blockWord (s : State) (st : Stage) (k : Fin 4) (x y : Nat) :
    (s.atStage st).blockWord k x y = s.blockWord k x y := rfl
@[simp] theorem State.atStage_modeAt (s : State) (st : Stage) (k : Fin 4) (x y : Nat) :
    (s.atStage st).modeAt k x y = s.modeAt k x y := rfl
@[simp] theorem State.atStage_codeLengths (s : State) (st : Stage) (n : Nat) :
    (s.atStage st).codeLengths n = s.codeLengths n := rfl
@[simp] theorem State.atStage_cacheHash (s : State) (st : Stage) (p : Word) :
    (s.atStage st).cacheHash p = s.cacheHash p := rfl
@[simp] theorem State.atStage_moveTo (s : State) (st : Stage) (q : Nat) :
    (s.atStage st).moveTo q = (s.moveTo q).atStage st := rfl

theorem State.InputOk.atStage {s : State} (h : s.InputOk) (st : Stage) : (s.atStage st).InputOk := h
theorem State.ImageOk.atStage {s : State} (h : s.ImageOk) (st : Stage) : (s.atStage st).ImageOk := h
theorem State.XfOk.atStage {s : State} {k : Nat} {ty : XfType} (h : s.XfOk k ty) (st : Stage) :
    (s.atStage st).XfOk k ty := h
theorem State.HasBits.atStage {s : State} {q : Nat} {bits : List Nat} (h : s.HasBits q bits) (st : Stage) :
    (s.atStage st).HasBits q bits := h

end Sys2Proof.Machine
end

