-- ==== Sys2Proof/Laws/Header.lean ====
section
/-! SUPPORT. Fields of the input as parts of its bytes, and everything the header parser can answer. -/

namespace Sys2Proof.Machine

theorem State.inByte_lt (s : State) (i : Nat) : s.inByte i < 256 := (s.inp.read .inp i).isLt

/-- A field inside one byte (20_memory.md R83). -/
theorem State.field_in_byte (s : State) (i a n : Nat) (h : a + n ≤ 8) :
    s.field (8 * i + a) n = s.inByte i / 2 ^ a % 2 ^ n := by
  refine State.field_of_lsbBits (fun j hj => ?_) (Nat.mod_lt _ (by positivity))
  rw [length_lsbBits] at hj
  simp only [lsbBits, List.getElem_map, List.getElem_range]
  have e1 : (8 * i + a + j) / 8 = i := by omega
  have e2 : (8 * i + a + j) % 8 = a + j := by omega
  unfold State.inBit
  rw [e1, e2]
  show s.inByte i / 2 ^ (a + j) % 2 = _
  obtain ⟨d, rfl⟩ : ∃ d, n = j + (d + 1) := ⟨n - j - 1, by omega⟩
  rw [Nat.pow_add 2 j, Nat.mod_mul_right_div_self, Nat.div_div_eq_div_mul, ← Nat.pow_add,
    Nat.pow_succ, Nat.mod_mul_left_mod]

/-- The five header fields (48_orchestrator.md R312). -/
theorem State.header_fields (s : State) :
    s.field 0 8 = s.inByte 0 ∧ s.field 8 14 + 1 = s.headerW ∧ s.field 22 14 + 1 = s.headerH ∧
      s.field 36 1 = s.inByte 4 / 16 % 2 ∧ s.field 37 3 = s.inByte 4 / 32 := by
  have b0 := s.inByte_lt 0
  have b1 := s.inByte_lt 1
  have b2 := s.inByte_lt 2
  have b3 := s.inByte_lt 3
  have b4 := s.inByte_lt 4
  refine ⟨?_, ?_, ?_, ?_, ?_⟩
  · have := s.field_in_byte 0 0 8 (by decide)
    simp only [Nat.mul_zero, Nat.add_zero, Nat.pow_zero, Nat.div_one] at this
    rw [this]; omega
  · rw [show (14 : Nat) = 8 + 6 by rfl, s.field_add]
    have h1 := s.field_in_byte 1 0 8 (by decide)
    have h2 := s.field_in_byte 2 0 6 (by decide)
    simp only [Nat.mul_one, Nat.add_zero, Nat.pow_zero, Nat.div_one] at h1 h2
    rw [h1, show 8 + 8 = 8 * 2 by rfl, h2]
    unfold State.headerW; omega
  · rw [show (14 : Nat) = 2 + (8 + 4) by rfl, s.field_add, s.field_add]
    have h1 := s.field_in_byte 2 6 2 (by decide)
    have h2 := s.field_in_byte 3 0 8 (by decide)
    have h3 := s.field_in_byte 4 0 4 (by decide)
    simp only [Nat.add_zero, Nat.pow_zero, Nat.div_one] at h2 h3
    rw [show (22 : Nat) = 8 * 2 + 6 by rfl, h1, show 8 * 2 + 6 + 2 = 8 * 3 by rfl, h2, show 8 * 3 + 8 = 8 * 4 by rfl, h3]
    unfold State.headerH; omega
  · exact s.field_in_byte 4 4 1 (by decide)
  · have := s.field_in_byte 4 5 3 (by decide)
    rw [show (37 : Nat) = 8 * 4 + 5 by rfl, this]; omega

theorem State.headerW_le (s : State) : 1 ≤ s.headerW ∧ s.headerW ≤ 16384 := by
  have := s.header_fields.2.1
  have := s.field_lt 8 14
  omega

theorem State.headerH_le (s : State) : 1 ≤ s.headerH ∧ s.headerH ≤ 16384 := by
  have := s.header_fields.2.2.1
  have := s.field_lt 22 14
  omega

/-- The alpha flag a header's bytes hold. -/
def State.headerAlpha (s : State) : Bool := decide (s.inByte 4 / 16 % 2 = 1)

/-- The state after the header's fields are read and its image registers written. -/
def State.headed (s : State) : State := (s.moveTo 40).setImage s.headerW s.headerH s.headerAlpha 0

/-- Everything the header parser can answer from a reader at its start (48_orchestrator.md R313, R314). -/
theorem parseHeader_apply {s : State} (hp : s.pos = 0) :
    parseHeader s =
      if s.inLen.toNat < 5 then .error ⟨.truncatedHeader, s.inLen⟩ s
      else if s.inByte 0 ≠ signature then .error ⟨.badSignature, trunc32 (s.inByte 0)⟩ (s.moveTo 8)
      else if s.inByte 4 / 32 ≠ 0 then .error ⟨.unsupportedVersion, trunc32 (s.inByte 4 / 32)⟩ (s.moveTo 40)
      else if s.params.pixCapacity < s.headerW * s.headerH then
        .error ⟨.capacityExceeded, trunc32 (s.headerW * s.headerH)⟩ s.headed
      else .ok ⟨s.headerW, s.headerH, s.headerAlpha⟩ s.headed := by
  obtain ⟨f1, f2, f3, f4, f5⟩ := s.header_fields
  have hW := s.headerW_le
  have hH := s.headerH_le
  have hlt := s.endPos_lt
  unfold parseHeader
  rw [cmd_bind_of_ok (readState_apply _ _)]
  by_cases h1 : s.inLen.toNat < 5
  · rw [if_pos h1, cmd_bind_of_error (raiseIf_of h1 _ _ _)]; simp
  rw [if_neg h1, cmd_bind_of_ok (raiseIf_of_not h1 _ _ _)]
  have hend : 40 ≤ s.endPos := by unfold State.endPos; omega
  have mv : ∀ q ≤ 40, (s.moveTo q).pos = q := fun q hq => State.pos_moveTo _ (by omega)
  have rd : ∀ q n, q + n ≤ 40 → 1 ≤ n → n ≤ 16 → readBits n (s.moveTo q) = .ok (s.field q n) (s.moveTo (q + n)) := by
    intro q n h1 h2 h3
    have := readBits_ok (s := s.moveTo q) h2 h3 (by rw [mv q (by omega)]; simp only [State.moveTo_endPos]; omega)
    rwa [mv q (by omega)] at this
  have r0 : readBits 8 s = .ok (s.field 0 8) (s.moveTo 8) := by
    have := rd 0 8 (by decide) (by decide) (by decide)
    rwa [← hp, State.moveTo_pos_self, hp] at this
  rw [cmd_bind_of_ok r0, f1]
  by_cases h2 : s.inByte 0 ≠ signature
  · rw [if_pos h2, cmd_bind_of_error (raiseIf_of h2 _ _ _)]
  rw [if_neg h2, cmd_bind_of_ok (raiseIf_of_not h2 _ _ _), cmd_bind_of_ok (rd 8 14 (by decide) (by decide) (by decide)),
    cmd_bind_of_ok (rd 22 14 (by decide) (by decide) (by decide)),
    cmd_bind_of_ok (rd 36 1 (by decide) (by decide) (by decide)),
    cmd_bind_of_ok (rd 37 3 (by decide) (by decide) (by decide)), f4, f5]
  by_cases h3 : s.inByte 4 / 32 ≠ 0
  · rw [if_pos h3, cmd_bind_of_error (raiseIf_of h3 _ _ _)]
  rw [if_neg h3, cmd_bind_of_ok (raiseIf_of_not h3 _ _ _)]
  simp only [f2, f3]
  have hdim : (decide (s.headerW = 0) || decide (s.headerH = 0) || decide (Config.maxDim < s.headerW) ||
      decide (Config.maxDim < s.headerH)) = false := by
    simp only [Bool.or_eq_false_iff, decide_eq_false_iff_not, Config.maxDim]
    omega
  have hv : s.inByte 4 / 32 = 0 := by omega
  rw [hdim, cmd_bind_of_ok (raiseIf_false _ _ _), cmd_bind_of_ok (update_apply _ _), cmd_bind_of_ok (readState_apply _ _), hv]
  by_cases h4 : s.params.pixCapacity < s.headerW * s.headerH
  · rw [if_pos h4, cmd_bind_of_error (raiseIf_of (by exact h4) _ _ _)]; rfl
  rw [if_neg h4, cmd_bind_of_ok (raiseIf_of_not (by exact h4) _ _ _)]
  rfl

end Sys2Proof.Machine
end

