-- ==== Sys2Proof/Laws/HostPort.lean ====
section
/-! SUPPORT. The laws of the register words and of element access: reserved bits read 0, a written descriptor reads back, and what a write of an element leaves everywhere. -/

namespace Sys2Proof.Machine

/-! ### Register words -/

theorem and_not_eq_zero {w m : Word} (h : ∀ i < 32, m.getLsbD i = false → w.getLsbD i = false) : w &&& ~~~ m = 0 := by
  apply BitVec.eq_of_getLsbD_eq
  intro i hi
  have := h i hi
  simp only [BitVec.getLsbD_and, BitVec.getLsbD_not, hi, decide_true, Bool.true_and]
  cases hm : m.getLsbD i <;> simp_all

theorem setWidth_reserved {n : Nat} (x : BitVec n) {m : Word} (h : ∀ i < 32, m.getLsbD i = false → n ≤ i) :
    x.setWidth 32 &&& ~~~ m = 0 := by
  apply and_not_eq_zero; intro i hi hm
  have := h i hi hm
  simp [this]

theorem XfDesc.toWord_reserved (d : XfDesc) : d.toWord &&& ~~~ 0x8001FFF3#32 = 0 := by
  apply and_not_eq_zero; intro i hi
  simp only [XfDesc.toWord, BitVec.getLsbD_append]
  interval_cases i <;> simp

theorem TabInfo.toWord_reserved (i : TabInfo) : i.toWord &&& ~~~ 0x8001FFFF#32 = 0 := by
  apply and_not_eq_zero; intro j hj
  simp only [TabInfo.toWord, BitVec.getLsbD_append]
  interval_cases j <;> simp

theorem State.statusWord_reserved (s : State) : s.statusWord &&& ~~~ 0xF7#32 = 0 := by
  apply and_not_eq_zero; intro i hi
  simp only [State.statusWord, BitVec.getLsbD_append]
  interval_cases i <;> simp

theorem State.imgInfoWord_reserved (s : State) : s.imgInfoWord &&& ~~~ 0xF#32 = 0 := by
  apply and_not_eq_zero; intro i hi
  simp only [State.imgInfoWord, BitVec.getLsbD_append]
  interval_cases i <;> simp

theorem State.entInfoWord_reserved (s : State) : s.entInfoWord &&& ~~~ 0xF1#32 = 0 := by
  apply and_not_eq_zero; intro i hi
  simp only [State.entInfoWord, BitVec.getLsbD_append]
  interval_cases i <;> simp

/-- The flags of STATUS, bit by bit (10_state.md R34). -/
theorem State.statusWord_bits (s : State) :
    s.statusWord.getLsbD 0 = s.busy ∧ s.statusWord.getLsbD 1 = s.done ∧ s.statusWord.getLsbD 2 = s.err := by
  simp only [State.statusWord, BitVec.getLsbD_append]
  simp

/-- A written descriptor reads back but for its reserved bits (10_state.md R34, R53). -/
theorem XfDesc.toWord_ofWord (v : Word) : (XfDesc.ofWord v).toWord = v &&& 0x8001FFF3#32 := by
  have : (XfType.ofCode v.toNat).code = v.extractLsb' 0 2 := by
    apply BitVec.eq_of_toNat_eq
    simp only [BitVec.extractLsb'_toNat, Nat.shiftRight_zero]
    unfold XfType.ofCode
    have : v.toNat % 4 < 4 := by omega
    split_ifs <;> simp [XfType.code] <;> omega
  simp only [XfDesc.toWord, XfDesc.ofWord, this]
  apply BitVec.eq_of_getLsbD_eq
  intro i hi
  simp only [BitVec.getLsbD_append]
  interval_cases i <;> simp

/-! ### Elements -/

/-- What an element write leaves at every element of every space, on memories in the canonical form. -/
theorem State.elem_setElem_ne (s : State) {sp sp' : Space} {i j : Nat} (h : ¬ (sp' = sp ∧ j = i)) (v : Word) :
    (s.setElem sp i v).elem sp' j = s.elem sp' j := by
  have hv : ∀ {w n : Nat} (sp : Space) (m : Vector (Memory w) n) (k k' : Fin n) (x : BitVec w), ¬ (k' = k ∧ j = i) →
      ((m.set k (m[k].write i x))[k']).read sp j = m[k'].read sp j := by
    intro w n sp m k k' x hk
    by_cases hkk : k' = k
    · subst hkk; rw [vget_set_self, Memory.read_write_ne _ _ fun e => hk ⟨rfl, e⟩]
    · rw [vget_set_ne _ hkk]
  cases sp <;> cases sp' <;> try rfl
  case inp.inp => exact congrArg (BitVec.setWidth 32) (Memory.read_write_ne _ _ (fun e => h ⟨rfl, e⟩) _)
  case out.out => exact congrArg (BitVec.setWidth 32) (Memory.read_write_ne _ _ (fun e => h ⟨rfl, e⟩) _)
  case pix.pix => exact Memory.read_write_ne _ _ (fun e => h ⟨rfl, e⟩) _
  case ent.ent => exact Memory.read_write_ne _ _ (fun e => h ⟨rfl, e⟩) _
  case clmem.clmem => exact congrArg (BitVec.setWidth 32) (Memory.read_write_ne _ _ (fun e => h ⟨rfl, e⟩) _)
  case cache.cache => exact Memory.read_write_ne _ _ (fun e => h ⟨rfl, e⟩) _
  case sub.sub k k' => exact hv _ s.sub k k' v fun ⟨e, e'⟩ => h ⟨by rw [e], e'⟩
  case tab.tab k k' => exact congrArg (BitVec.setWidth 32) (hv _ s.tab k k' _ fun ⟨e, e'⟩ => h ⟨by rw [e], e'⟩)

theorem State.elem_setElem_pix {s : State} (h : s.pix.wf) (i : Nat) (v : Word) : (s.setElem .pix i v).elem .pix i = v :=
  Memory.read_write_self _ h _ _

theorem State.elem_setElem_ent {s : State} (h : s.ent.wf) (i : Nat) (v : Word) : (s.setElem .ent i v).elem .ent i = v :=
  Memory.read_write_self _ h _ _

theorem State.elem_setElem_sub {s : State} {k : Fin 4} (h : s.sub[k].wf) (i : Nat) (v : Word) :
    (s.setElem (.sub k) i v).elem (.sub k) i = v := by
  show ((s.sub.set k (s.sub[k].write i v))[k]).read _ i = v
  rw [vget_set_self, Memory.read_write_self _ h]

theorem State.elem_setElem_inp {s : State} (h : s.inp.wf) (i : Nat) (v : Word) :
    (s.setElem .inp i v).elem .inp i = (v.setWidth 8).setWidth 32 :=
  congrArg (BitVec.setWidth 32) (Memory.read_write_self _ h _ _)

theorem State.elem_setElem_clmem {s : State} (h : s.clmem.wf) (i : Nat) (v : Word) :
    (s.setElem .clmem i v).elem .clmem i = (v.setWidth 8).setWidth 32 :=
  congrArg (BitVec.setWidth 32) (Memory.read_write_self _ h _ _)

theorem setWidth_byte (v : Word) : (v.setWidth 8).setWidth 32 = v &&& 0xFF#32 := by
  apply BitVec.eq_of_getLsbD_eq
  intro i hi
  interval_cases i <;> simp

/-- Byte `n` of a word the host reads is the low byte of element `4j + n`, whatever BUSY is (R86; log 14 while BUSY = 1). -/
theorem State.hostReadWide_byte (s : State) (sp : Space) (j : Nat) {n : Nat} (hn : n < 4) :
    (s.hostReadWide sp j >>> (8 * n)) &&& 0xFF#32 = s.hostReadElem sp (4 * j + n) &&& 0xFF#32 := by
  unfold State.hostReadWide
  apply BitVec.eq_of_getLsbD_eq
  intro i hi
  interval_cases n <;> interval_cases i <;> simp

/-- The parameters, the counts and the flags are no element's. -/
theorem State.setElem_params (s : State) (sp : Space) (i : Nat) (v : Word) : (s.setElem sp i v).params = s.params := by
  cases sp <;> rfl

theorem State.setElem_busy (s : State) (sp : Space) (i : Nat) (v : Word) : (s.setElem sp i v).busy = s.busy := by
  cases sp <;> rfl

theorem State.setElem_regWord (s : State) (sp : Space) (i : Nat) (v : Word) (offset : Nat) :
    (s.setElem sp i v).regWord offset = s.regWord offset := by
  cases sp <;> rfl

theorem State.spaceCount_congr {s t : State} (h : t.params = s.params) (sp : Space) : t.spaceCount sp = s.spaceCount sp := by
  cases sp <;> simp only [State.spaceCount, h]

end Sys2Proof.Machine
end

