-- ==== Sys2Proof/Laws/Invariants.lean ====
section
/-! SUPPORT. The invariants and the frame as closed properties: each is kept by every primitive change, so `Closed.exec` gives it for every command but SOFT_RESET. -/

namespace Sys2Proof.Machine

/-! ### The canonical form -/

theorem fillSymbol_wf {r len i n : Nat} {tab : Memory 17} (h : tab.wf) : (fillSymbol r len i n tab).wf := by
  induction n generalizing r tab with
  | zero => exact h
  | succ n ih => exact ih (Memory.write_wf h _ _)

theorem builtTable_wf (L : List Byte) {tab : Memory 17} (h : tab.wf) : (builtTable L tab).wf := by
  unfold builtTable
  split
  · exact Memory.write_wf (Memory.write_wf h _ _) _ _
  · have : ∀ n i (tab : Memory 17), tab.wf → (fillSymbols L (maxLength L) n i tab).wf := by
      intro n
      induction n with
      | zero => exact fun _ _ h => h
      | succ n ih =>
        intro i tab h
        refine ih _ _ ?_
        split
        · exact h
        · exact fillSymbol_wf h
    exact this _ _ _ h

theorem closed_memWf : ∀ W, Closed W State.MemWf := by
  intro W
  have hset : ∀ {w n : Nat} (v : Vector (Memory w) n) (i : Fin n) (m : Memory w), (∀ k : Fin n, v[k].wf) → m.wf →
      ∀ k : Fin n, (v.set i m)[k].wf := by
    intro w n v i m hv hm k
    by_cases hk : k = i
    · subst hk; rw [vget_set_self]; exact hm
    · rw [vget_set_ne _ hk]; exact hv k
  constructor <;> try (intros; assumption)
  case failed =>
    rintro _ _ s t ⟨h1, h2, h3, h4, h5, h6, h7, h8⟩
    exact ⟨h1, h2, h3, h4, h5, h6, h7, hset _ _ _ h8 (Memory.unspecified_wf _)⟩
  case built =>
    rintro _ _ s t L ⟨h1, h2, h3, h4, h5, h6, h7, h8⟩ hL
    exact ⟨h1, h2, h3, h4, h5, h6, h7, hset _ _ _ h8 (builtTable_wf L (h8 t))⟩
  case lengths =>
    rintro _ s i vs ⟨h1, h2, h3, h4, h5, h6, h7, h8⟩ hi
    exact ⟨h1, h2, h3, h4, Memory.writeList_wf h5 _ _, h6, h7, h8⟩
  case clearCache =>
    rintro _ s b ⟨h1, h2, h3, h4, h5, h6, h7, h8⟩ h9
    exact ⟨h1, h2, h3, h4, h5, Memory.cleared_wf, h7, h8⟩
  case cacheInsert =>
    rintro _ s p ⟨h1, h2, h3, h4, h5, h6, h7, h8⟩
    by_cases hc : s.ccBits = 0
    · rw [cacheInsert_disabled hc]; exact ⟨h1, h2, h3, h4, h5, h6, h7, h8⟩
    · rw [cacheInsert_enabled hc]
      exact ⟨h1, h2, h3, h4, h5, Memory.write_wf h6 _ _, h7, h8⟩
  case setPix =>
    rintro _ s i v ⟨h1, h2, h3, h4, h5, h6, h7, h8⟩ hi
    exact ⟨h1, h2, Memory.write_wf h3 _ _, h4, h5, h6, h7, h8⟩
  case setSub =>
    rintro _ s k i v ⟨h1, h2, h3, h4, h5, h6, h7, h8⟩ hi
    exact ⟨h1, h2, h3, h4, h5, h6, hset _ _ _ h7 (Memory.write_wf (h7 k) _ _), h8⟩
  case setEnt =>
    rintro _ s i v ⟨h1, h2, h3, h4, h5, h6, h7, h8⟩ hi
    exact ⟨h1, h2, h3, Memory.write_wf h4 _ _, h5, h6, h7, h8⟩
  case convert =>
    rintro _ s i ⟨h1, h2, h3, h4, h5, h6, h7, h8⟩ hi
    exact ⟨h1, Memory.writeList_wf h2 _ _, h3, h4, h5, h6, h7, h8⟩
  case init =>
    rintro _ _ _ _ _ s ⟨h1, h2, h3, h4, h5, h6, h7, h8⟩
    exact ⟨h1, h2, h3, h4, h5, Memory.cleared_wf, h7, h8⟩

/-! ### The frame -/

theorem agree_decodeInit {s0 s : State} {r : Region} (hs : s0.agree s r) (h1 : r ≠ .cursor) (h2 : r ≠ .cache)
    (h3 : r ≠ .transforms) (h4 : r ≠ .groups) (h5 : r ≠ .tableInfo) : s0.agree s.decodeInit r := by
  have e : s.decodeInit = { s with
    tabInfo := s.decodeInit.tabInfo, brStart := 0, brBytePos := 0, brBitPos := 0, ccBits := s.decodeInit.ccBits
    cache := s.decodeInit.cache, xfCount := 0, xfDesc := .replicate 4 .zero, nGroups := 0, entPresent := false
    entBits := 0 } := rfl
  rw [e]
  generalize s.decodeInit = u
  cases r <;> first | exact hs | contradiction

theorem frame_closed (s0 : State) (r : Region) (W : List Region) (h : r ∉ W) : Closed W (fun t => s0.agree t r) := by
  have key : ∀ {r' : Region}, r' ∈ W → r ≠ r' := fun h' e => h (e ▸ h')
  constructor
  case res0 => intro hW s v hs; have := key hW; cases r <;> first | contradiction | exact hs
  case move => intro hW s v hs _ _; have := key hW; cases r <;> first | contradiction | exact hs
  case start => intro hW s v hs; have := key hW; cases r <;> first | contradiction | exact hs
  case invalidate => intro hW s v hs; have := key hW; cases r <;> first | contradiction | exact hs
  case failed => intro hW hW' s v hs; have := key hW; have := key hW'; cases r <;> first | contradiction | exact hs
  case built => intro hW hW' s v L hs _; have := key hW; have := key hW'; cases r <;> first | contradiction | exact hs
  case lengths => intro hW s i vs hs _; have := key hW; cases r <;> first | contradiction | exact hs
  case clmClear => intro hW s hs; have := key hW; cases r <;> first | contradiction | exact hs
  case clmSet => intro hW s _ _ hs; have := key hW; cases r <;> first | contradiction | exact hs
  case clearCache => intro hW s _ hs _; have := key hW; cases r <;> first | contradiction | exact hs
  case cacheInsert =>
    intro hW s p hs; have := key hW
    rw [cacheInsert_frame]
    cases r <;> first | contradiction | exact hs
  case setPix => intro hW s _ _ hs _; have := key hW; cases r <;> first | contradiction | exact hs
  case setSub => intro hW s _ _ _ hs _; have := key hW; cases r <;> first | contradiction | exact hs
  case setEnt => intro hW s _ _ hs _; have := key hW; cases r <;> first | contradiction | exact hs
  case convert => intro hW s _ hs _; have := key hW; cases r <;> first | contradiction | exact hs
  case setImage => intro hW s _ _ _ _ hs; have := key hW; cases r <;> first | contradiction | exact hs
  case setDesc => intro hW s _ _ hs; have := key hW; cases r <;> first | contradiction | exact hs
  case countDesc => intro hW s _ hs; have := key hW; cases r <;> first | contradiction | exact hs
  case setGroups => intro hW s _ _ _ hs; have := key hW; cases r <;> first | contradiction | exact hs
  case init => exact fun a b c d e s hs => agree_decodeInit hs (key a) (key b) (key c) (key d) (key e)

/-- A command's body leaves the error registers to the command's end. -/
theorem closed_errors (s0 : State) (W : List Region) :
    Closed W fun t => t.err = s0.err ∧ t.errCode = s0.errCode ∧ t.errInfo = s0.errInfo := by
  constructor <;> try (intros; assumption)
  case cacheInsert => intro _ s p hs; rw [cacheInsert_frame]; exact hs

/-- Between two changes of STAGE every piece of a command leaves it. -/
theorem closed_stage (st : Stage) (W : List Region) : Closed W fun t => t.stage = st := by
  constructor <;> try (intros; assumption)
  case cacheInsert => intro _ s p hs; rw [cacheInsert_frame]; exact hs

theorem agree_stageless (s0 : State) (r : Region) : Stageless fun t => s0.agree t r := fun _ _ h => by cases r <;> exact h

/-! ### Legal registers -/

theorem closed_regs : ∀ W, Closed W State.RegsLegal := by
  intro W
  constructor <;> try (intros; assumption)
  case move =>
    rintro _ s q ⟨h1, h2⟩ h3 h4
    have := s.endPos_lt
    exact ⟨h1, by rw [State.pos_moveTo _ (by omega)]; show s.brStart.toNat * 8 ≤ q; omega⟩
  case start => rintro _ s b ⟨h1, h2⟩; exact ⟨h1, by simp [State.startReader, State.pos]⟩
  case clearCache =>
    rintro _ s b ⟨h1, h2⟩ h3
    have h3 : b ≤ 11 := h3
    refine ⟨?_, h2⟩
    show (BitVec.ofNat 4 b).toNat ≤ 11
    rw [BitVec.toNat_ofNat]; omega
  case cacheInsert => intro _ s p hs; rw [cacheInsert_frame]; exact hs
  case init =>
    rintro _ _ _ _ _ s ⟨h1, h2⟩
    exact ⟨by simp [State.decodeInit, State.clearCache], by simp [State.decodeInit, State.pos, State.startReader, State.invalidateAll, State.clearCache]⟩

/-! ### Elements stay inside their spaces -/

theorem below_write {w : Nat} {m : Memory w} {n i : Nat} (h : m.Below n) (hi : i < n) (v : BitVec w) : (m.write i v).Below n := by
  intro c hc
  rcases Memory.mem_write hc with h' | h'
  · omega
  · exact h c h'

theorem below_writeList {w : Nat} {n : Nat} (vs : List (BitVec w)) {m : Memory w} {i : Nat} (h : m.Below n) (hi : i + vs.length ≤ n) : (m.writeList i vs).Below n := by
  induction vs generalizing m i with
  | nil => exact h
  | cons v vs ih =>
    simp only [List.length_cons] at hi
    exact ih (below_write h (by omega) v) (by omega)

theorem below_fillSymbol {r len i n : Nat} {tab : Memory 17} {N : Nat} (h : tab.Below N) (hN : ∀ k < n, r + k * 2 ^ len < N) : (fillSymbol r len i n tab).Below N := by
  induction n generalizing r tab with
  | zero => exact h
  | succ n ih =>
    refine ih (below_write h (by simpa using hN 0 (by omega)) _) fun k hk => ?_
    have := hN (k+1) (by omega)
    calc _ = r + (k+1) * 2^len := by ring
      _ < N := this

theorem below_fillSymbols {L : List Byte} {m : Nat} (hm : ∀ b ∈ L, b.toNat ≤ m) {n i : Nat} {tab : Memory 17} {N : Nat} (hN : 2 ^ m ≤ N) (h : tab.Below N) (hn : i + n ≤ L.length) : (fillSymbols L m n i tab).Below N := by
  induction n generalizing i tab with
  | zero => exact h
  | succ n ih =>
    unfold fillSymbols
    refine ih ?_ (by omega)
    split
    · exact h
    · refine below_fillSymbol h fun k hk => ?_
      have hl := lengthAt_le hm (show i < L.length by omega)
      have := ((mem_fill_iff (bitrev_lt (canonicalCode L i) (lengthAt L i)) hl).1 ⟨k, hk, rfl⟩).1
      omega

theorem below_built {L : List Byte} (hL : Buildable L) {tab : Memory 17} (h : tab.Below Config.tableEntries) : (builtTable L tab).Below Config.tableEntries := by
  unfold builtTable
  split
  · exact below_write (below_write h (by decide) _) (by decide) _
  · exact below_fillSymbols (le_maxLength L) (Nat.pow_le_pow_right (by decide) (maxLength_le hL.1)) h (by omega)

theorem closed_inBounds : ∀ W, Closed W State.InBounds := by
  intro W
  have hset : ∀ {w n : Nat} {N : Nat} (v : Vector (Memory w) n) (i : Fin n) (m : Memory w), (∀ k : Fin n, v[k].Below N) → m.Below N → ∀ k : Fin n, (v.set i m)[k].Below N := by
    intro w n N v i m hv hm k
    by_cases hk : k = i
    · subst hk; rw [vget_set_self]; exact hm
    · rw [vget_set_ne _ hk]; exact hv k
  constructor <;> try (intros; assumption)
  case failed =>
    rintro _ _ s t ⟨h0, h1, h2, h3, h4, h5, h6, h7, h8⟩
    exact ⟨h0, h1, h2, h3, h4, h5, h6, h7, hset _ _ _ h8 (by intro c hc; cases hc)⟩
  case built =>
    rintro _ _ s t L ⟨h0, h1, h2, h3, h4, h5, h6, h7, h8⟩ hL
    exact ⟨h0, h1, h2, h3, h4, h5, h6, h7, hset _ _ _ h8 (below_built hL (h8 t))⟩
  case lengths =>
    rintro _ s i vs ⟨h0, h1, h2, h3, h4, h5, h6, h7, h8⟩ hi
    exact ⟨h0, h1, h2, h3, h4, below_writeList vs h5 hi, h6, h7, h8⟩
  case clearCache =>
    rintro _ s b ⟨h0, h1, h2, h3, h4, h5, h6, h7, h8⟩ h9
    have h9 : b ≤ 11 := h9
    refine ⟨?_, h1, h2, h3, h4, h5, (by intro c hc; cases hc), h7, h8⟩
    show (BitVec.ofNat 4 b).toNat ≤ 11
    rw [BitVec.toNat_ofNat]; omega
  case cacheInsert =>
    rintro _ s p ⟨h0, h1, h2, h3, h4, h5, h6, h7, h8⟩
    by_cases hc : s.ccBits = 0
    · rw [cacheInsert_disabled hc]; exact ⟨h0, h1, h2, h3, h4, h5, h6, h7, h8⟩
    · rw [cacheInsert_enabled hc]
      refine ⟨h0, h1, h2, h3, h4, h5, below_write h6 ?_ _, h7, h8⟩
      have := cacheHash_lt hc p
      have h11 : 2 ^ s.ccBits.toNat ≤ 2 ^ 11 := Nat.pow_le_pow_right (by decide) h0
      show _ < 2048
      omega
  case setPix =>
    rintro _ s i v ⟨h0, h1, h2, h3, h4, h5, h6, h7, h8⟩ hi
    exact ⟨h0, h1, h2, below_write h3 hi _, h4, h5, h6, h7, h8⟩
  case setSub =>
    rintro _ s k i v ⟨h0, h1, h2, h3, h4, h5, h6, h7, h8⟩ hi
    exact ⟨h0, h1, h2, h3, h4, h5, h6, hset _ _ _ h7 (below_write (h7 k) hi _), h8⟩
  case setEnt =>
    rintro _ s i v ⟨h0, h1, h2, h3, h4, h5, h6, h7, h8⟩ hi
    exact ⟨h0, h1, h2, h3, below_write h4 hi _, h5, h6, h7, h8⟩
  case convert =>
    rintro _ s i ⟨h0, h1, h2, h3, h4, h5, h6, h7, h8⟩ hi
    refine ⟨h0, h1, below_writeList _ h2 ?_, h3, h4, h5, h6, h7, h8⟩
    show 4 * i + 4 ≤ 4 * s.params.pixCapacity
    omega
  case init =>
    rintro _ _ _ _ _ s ⟨h0, h1, h2, h3, h4, h5, h6, h7, h8⟩
    exact ⟨by simp [State.decodeInit, State.clearCache], h1, h2, h3, h4, h5, (by intro c hc; cases hc), h7, h8⟩

/-! ### Valid slots hold complete tables -/

/-- Every valid slot holds a complete table. -/
def TablesComplete (s : State) : Prop := ∀ t : Fin 7, s.tabInfo[t].valid = true → s.TableComplete t

theorem tables_ext {s s' : State} {t : Fin 7} (h1 : s'.tabInfo[t] = s.tabInfo[t]) (h2 : s'.tab[t] = s.tab[t]) (h : s.TableComplete t) : s'.TableComplete t := by
  unfold State.TableComplete at *
  rw [h1, h2]; exact h

theorem closed_tables : ∀ W, Closed W TablesComplete := by
  intro W
  constructor <;> try (intros; assumption)
  case invalidate =>
    intro _ s t hs u hu
    by_cases h : u = t
    · subst h
      have : (s.invalidate u).tabInfo[u] = { s.tabInfo[u] with valid := false } := vget_set_self _ _ _
      rw [this] at hu; cases hu
    · have e : (s.invalidate t).tabInfo[u] = s.tabInfo[u] := vget_set_ne _ h _
      rw [e] at hu
      exact tables_ext e rfl (hs u hu)
  case failed =>
    intro _ _ s t hs u hu
    by_cases h : u = t
    · subst h
      have : ((s.invalidate u).forgetTab u).tabInfo[u] = { s.tabInfo[u] with valid := false } := vget_set_self _ _ _
      rw [this] at hu; cases hu
    · have e : ((s.invalidate t).forgetTab t).tabInfo[u] = s.tabInfo[u] := vget_set_ne _ h _
      rw [e] at hu
      exact tables_ext e (vget_set_ne _ h _) (hs u hu)
  case built =>
    intro _ _ s t L hs hL u hu
    by_cases h : u = t
    · subst h; exact built_tableComplete s u hL
    · have e : (s.built t L).tabInfo[u] = s.tabInfo[u] := vget_set_ne _ h _
      rw [e] at hu
      exact tables_ext e (vget_set_ne _ h _) (hs u hu)
  case cacheInsert =>
    intro _ s p hs
    rw [cacheInsert_frame]; exact hs
  case init =>
    intro _ _ _ _ _ s hs u hu
    simp [State.decodeInit, State.clearCache, State.invalidateAll] at hu

end Sys2Proof.Machine
end

