-- ==== Sys2Proof/Laws/Pixel.lean ====
section
/-! SUPPORT. The channels of a pixel: the bit-field reads of Machine/Pixel.lean as the quotients of Safety.lean, and what a packed pixel's channels are. -/

namespace Sys2Proof.Machine

theorem chanA_toNat (p : Word) : (chanA p).toNat = chan p 24 := by
  simp [chanA, chan, BitVec.extractLsb'_toNat, Nat.shiftRight_eq_div_pow]

theorem chanR_toNat (p : Word) : (chanR p).toNat = chan p 16 := by
  simp [chanR, chan, BitVec.extractLsb'_toNat, Nat.shiftRight_eq_div_pow]

theorem chanG_toNat (p : Word) : (chanG p).toNat = chan p 8 := by
  simp [chanG, chan, BitVec.extractLsb'_toNat, Nat.shiftRight_eq_div_pow]

theorem chanB_toNat (p : Word) : (chanB p).toNat = chan p 0 := by
  simp [chanB, chan, BitVec.extractLsb'_toNat]

theorem chan_lt (p : Word) (c : Nat) : chan p c < 256 := Nat.mod_lt _ (by decide)

theorem mkPix_toNat (a r g b : Byte) :
    (mkPix a r g b).toNat = a.toNat * 2 ^ 24 + r.toNat * 2 ^ 16 + g.toNat * 2 ^ 8 + b.toNat := by
  have ha := a.isLt
  have hr := r.isLt
  have hg := g.isLt
  have hb := b.isLt
  have e1 : g.toNat <<< 8 ||| b.toNat = g.toNat * 2 ^ 8 + b.toNat := by
    rw [← Nat.shiftLeft_add_eq_or_of_lt (by omega), Nat.shiftLeft_eq]
  have e2 : r.toNat <<< (8 + 8) ||| (g.toNat * 2 ^ 8 + b.toNat) = r.toNat * 2 ^ 16 + (g.toNat * 2 ^ 8 + b.toNat) := by
    rw [← Nat.shiftLeft_add_eq_or_of_lt (by omega), Nat.shiftLeft_eq]
  have e3 : a.toNat <<< (8 + (8 + 8)) ||| (r.toNat * 2 ^ 16 + (g.toNat * 2 ^ 8 + b.toNat)) =
      a.toNat * 2 ^ 24 + (r.toNat * 2 ^ 16 + (g.toNat * 2 ^ 8 + b.toNat)) := by
    rw [← Nat.shiftLeft_add_eq_or_of_lt (by omega), Nat.shiftLeft_eq]
  unfold mkPix
  simp only [BitVec.toNat_append, e1, e2, e3]
  omega

/-- The channels of a packed pixel (00_scope.md R14). -/
theorem chan_mkPix (a r g b : Byte) : chan (mkPix a r g b) 24 = a.toNat ∧ chan (mkPix a r g b) 16 = r.toNat ∧
    chan (mkPix a r g b) 8 = g.toNat ∧ chan (mkPix a r g b) 0 = b.toNat := by
  have := a.isLt
  have := r.isLt
  have := g.isLt
  have := b.isLt
  unfold chan
  rw [mkPix_toNat]
  refine ⟨?_, ?_, ?_, ?_⟩ <;> omega

/-- A pixel is its four channels. -/
theorem pix_ext {p q : Word} (h24 : chan p 24 = chan q 24) (h16 : chan p 16 = chan q 16) (h8 : chan p 8 = chan q 8)
    (h0 : chan p 0 = chan q 0) : p = q := by
  unfold chan at *
  apply BitVec.eq_of_toNat_eq
  have := p.isLt
  have := q.isLt
  omega

/-- `addPix` adds channel by channel modulo 256 (00_scope.md R15). -/
theorem chan_addPix (p q : Word) : ∀ c ∈ [24, 16, 8, 0], chan (addPix p q) c = (chan p c + chan q c) % 256 := by
  intro c hc
  unfold addPix chanwise
  obtain ⟨c1, c2, c3, c4⟩ :=
    chan_mkPix (chanA p + chanA q) (chanR p + chanR q) (chanG p + chanG q) (chanB p + chanB q)
  simp only [List.mem_cons, List.not_mem_nil, or_false] at hc
  rcases hc with rfl | rfl | rfl | rfl
  · rw [c1, BitVec.toNat_add, chanA_toNat, chanA_toNat]
  · rw [c2, BitVec.toNat_add, chanR_toNat, chanR_toNat]
  · rw [c3, BitVec.toNat_add, chanG_toNat, chanG_toNat]
  · rw [c4, BitVec.toNat_add, chanB_toNat, chanB_toNat]

/-- `avg2` halves the unwrapped sum of each channel (00_scope.md R15). -/
theorem chan_avg2 (p q : Word) : ∀ c ∈ [24, 16, 8, 0], chan (avg2 p q) c = (chan p c + chan q c) / 2 := by
  have key : ∀ a b : Byte, (avgByte a b).toNat = (a.toNat + b.toNat) / 2 := by
    intro a b
    have := a.isLt
    have := b.isLt
    simp only [avgByte, BitVec.toNat_ofNat]; omega
  intro c hc
  unfold avg2 chanwise
  obtain ⟨c1, c2, c3, c4⟩ := chan_mkPix (avgByte (chanA p) (chanA q)) (avgByte (chanR p) (chanR q))
    (avgByte (chanG p) (chanG q)) (avgByte (chanB p) (chanB q))
  simp only [List.mem_cons, List.not_mem_nil, or_false] at hc
  rcases hc with rfl | rfl | rfl | rfl
  · rw [c1, key, chanA_toNat, chanA_toNat]
  · rw [c2, key, chanR_toNat, chanR_toNat]
  · rw [c3, key, chanG_toNat, chanG_toNat]
  · rw [c4, key, chanB_toNat, chanB_toNat]

/-- Green added back into red and blue (47_transforms.md R281). -/
theorem chan_addGreen (p : Word) : chan (addGreen p) 24 = chan p 24 ∧ chan (addGreen p) 8 = chan p 8 ∧
    chan (addGreen p) 16 = (chan p 16 + chan p 8) % 256 ∧ chan (addGreen p) 0 = (chan p 0 + chan p 8) % 256 := by
  unfold addGreen
  obtain ⟨c1, c2, c3, c4⟩ := chan_mkPix (chanA p) (chanR p + chanG p) (chanG p) (chanB p + chanG p)
  rw [c1, c2, c3, c4, BitVec.toNat_add, BitVec.toNat_add, chanA_toNat, chanR_toNat, chanG_toNat, chanB_toNat]
  exact ⟨rfl, rfl, rfl, rfl⟩

/-- The color transform's subtraction (47_transforms.md R284). -/
theorem colorAdjust_toNat (c m g : Byte) :
    ((colorAdjust c m g).toNat : Int) = ((c.toNat : Int) - sext8 m.toNat * g.toNat / 256) % 256 := by
  have : m.toInt = sext8 m.toNat := by
    unfold sext8
    rw [BitVec.toInt_eq_toNat_cond]
    split_ifs <;> omega
  unfold colorAdjust
  rw [BitVec.toNat_ofInt, this]
  have := Int.emod_nonneg ((c.toNat : Int) - sext8 m.toNat * g.toNat / 256) (show ((2 ^ 8 : Nat) : Int) ≠ 0 by decide)
  omega

/-- The inverse color transform, channel by channel (47_transforms.md R284). -/
theorem chan_invColorPix (e p : Word) : chan (invColorPix e p) 24 = chan p 24 ∧ chan (invColorPix e p) 8 = chan p 8 ∧
    (chan (invColorPix e p) 16 : Int) = ((chan p 16 : Int) - sext8 (chan e 0) * chan p 8 / 256) % 256 ∧
    (chan (invColorPix e p) 0 : Int) = ((chan p 0 : Int) - sext8 (chan e 8) * chan p 8 / 256) % 256 := by
  unfold invColorPix
  obtain ⟨c1, c2, c3, c4⟩ := chan_mkPix (chanA p) (colorAdjust (chanR p) (chanB e) (chanG p)) (chanG p)
    (colorAdjust (chanB p) (chanG e) (chanG p))
  rw [c1, c2, c3, c4, colorAdjust_toNat, colorAdjust_toNat, chanA_toNat, chanR_toNat, chanG_toNat, chanB_toNat,
    chanB_toNat, chanG_toNat]
  exact ⟨rfl, rfl, rfl, rfl⟩

end Sys2Proof.Machine
end

