-- ==== Sys2Proof/Laws/Walks.lean ====
section
/-! SUPPORT. The walks over PIX and OUT: the copy, the inverse transforms and the conversion, each as what it leaves at every index. -/

namespace Sys2Proof.Machine

/-- The state with other pixels. -/
def State.withPix (s : State) (m : Memory 32) : State := { s with pix := m }

@[simp] theorem State.withPix_pix (s : State) (m : Memory 32) : (s.withPix m).pix = m := rfl
@[simp] theorem State.withPix_self (s : State) : s.withPix s.pix = s := rfl
@[simp] theorem State.withPix_withPix (s : State) (m m' : Memory 32) : (s.withPix m).withPix m' = s.withPix m' := rfl

theorem State.withPix_setPix (s : State) (m : Memory 32) (i : Nat) (p : Word) :
    (s.withPix m).setPix i p = s.withPix (m.write i p) := rfl

theorem forRange_add (f : Nat → Cmd Unit) (a b lo : Nat) (s : State) :
    forRange f (a + b) lo s = (do forRange f a lo; forRange f b (lo + a)) s := by
  induction a generalizing lo s with
  | zero => simp only [Nat.zero_add, Nat.add_zero]; rfl
  | succ a ih =>
    rw [show a + 1 + b = a + b + 1 by omega, forRange_succ, forRange_succ]
    cases h : f lo s with
    | ok x t =>
      cases x
      rw [cmd_bind_of_ok h, ih (lo + 1) t, show lo + (a + 1) = lo + 1 + a by omega]
      have : ((do f lo; forRange f a (lo + 1)) : Cmd Unit) s = forRange f a (lo + 1) t := cmd_bind_of_ok h
      cases h2 : forRange f a (lo + 1) t with
      | ok y u => rw [cmd_bind_of_ok h2, cmd_bind_of_ok (this.trans h2)]
      | error e u => rw [cmd_bind_of_error h2, cmd_bind_of_error (this.trans h2)]
    | error e t =>
      rw [cmd_bind_of_error h]
      have : ((do f lo; forRange f a (lo + 1)) : Cmd Unit) s = .error e t := cmd_bind_of_error h
      rw [cmd_bind_of_error this]

/-- A walk that ends in an error at index `n`, after `n` passes that succeed. -/
theorem forRange_error {f : Nat → Cmd Unit} {N n lo : Nat} (hn : n < N) {s t u : State} {e : Trap}
    (h1 : forRange f n lo s = .ok () t) (h2 : f (lo + n) t = .error e u) : forRange f N lo s = .error e u := by
  obtain ⟨d, rfl⟩ : ∃ d, N = n + (d + 1) := ⟨N - n - 1, by omega⟩
  rw [forRange_add, cmd_bind_of_ok h1, forRange_succ, cmd_bind_of_error h2]

/-- A walk that replaces each pixel by a function of its index and itself. -/
theorem forRange_map {f : Nat → Cmd Unit} {g : Nat → Word → Word} {s : State} (hw : s.pix.wf) (n : Nat)
    (hf : ∀ i < n, ∀ m : Memory 32, m.read .pix i = s.pixAt i →
      f i (s.withPix m) = .ok () (s.withPix (m.write i (g i (s.pixAt i))))) :
    ∃ m : Memory 32, forRange f n 0 s = .ok () (s.withPix m) ∧ m.wf ∧
      ∀ i, m.read .pix i = if i < n then g i (s.pixAt i) else s.pixAt i := by
  obtain ⟨t, ht, m, rfl, hmw, hm⟩ := forRange_ok (lo := 0) (s := s)
    (P := fun j t => ∃ m : Memory 32, t = s.withPix m ∧ m.wf ∧
      ∀ i, m.read .pix i = if i < j then g i (s.pixAt i) else s.pixAt i) (f := f) n
    (by
      rintro j _ _ hj ⟨m, rfl, hmw, hm⟩
      refine ⟨_, hf j (by omega) m (by rw [hm, if_neg (by omega)]), _, rfl, Memory.write_wf hmw _ _, fun i => ?_⟩
      by_cases hij : i = j
      · subst hij; rw [Memory.read_write_self _ hmw, if_pos (by omega)]
      · rw [Memory.read_write_ne _ _ hij, hm]
        by_cases h : i < j
        · rw [if_pos h, if_pos (by omega)]
        · rw [if_neg h, if_neg (by omega)])
    ⟨s.pix, rfl, hw, fun i => by simp [State.pixAt]⟩
  rw [Nat.zero_add] at hm
  exact ⟨m, ht, hmw, hm⟩

/-! ### The transforms that see one pixel at a time -/

/-- `InvSubGreen` (47_transforms.md R281). -/
theorem invSubGreen_ok {s : State} (hw : s.pix.wf) : ∃ m : Memory 32, invSubGreen s = .ok () (s.withPix m) ∧ m.wf ∧
    ∀ i, m.read .pix i = if i < s.npix then addGreen (s.pixAt i) else s.pixAt i := by
  unfold invSubGreen
  rw [cmd_bind_of_ok (readState_apply _ _)]
  refine forRange_map (g := fun _ p => addGreen p) hw s.npix fun i _ m hm => ?_
  show EStateM.Result.ok () ((s.withPix m).setPix i (addGreen (m.read .pix i))) = _
  rw [hm]; rfl

/-- `InvColor` (47_transforms.md R284). -/
theorem invColor_ok {s : State} (hw : s.pix.wf) (k : Fin 4) :
    ∃ m : Memory 32, invColor k s = .ok () (s.withPix m) ∧ m.wf ∧
      ∀ i, m.read .pix i = if i < s.npix
        then invColorPix (s.blockWord k (i % s.imgW.toNat) (i / s.imgW.toNat)) (s.pixAt i) else s.pixAt i := by
  unfold invColor
  rw [cmd_bind_of_ok (readState_apply _ _)]
  refine forRange_map (g := fun i p => invColorPix (s.blockWord k (i % s.imgW.toNat) (i / s.imgW.toNat)) p) hw s.npix
    fun i _ m hm => ?_
  show EStateM.Result.ok () ((s.withPix m).setPix i
    (invColorPix (s.blockWord k (i % s.imgW.toNat) (i / s.imgW.toNat)) (m.read .pix i))) = _
  rw [hm]; rfl

theorem palApplyPixel_ok {s : State} {k : Fin 4} {i : Nat} (h : (chanB (s.pixAt i)).toNat < s.xfDesc[k].palSize.toNat) :
    palApplyPixel k i s = .ok () (s.setPix i (s.elem (.sub k) (chanB (s.pixAt i)).toNat)) := by
  unfold palApplyPixel
  rw [cmd_bind_of_ok (readState_apply _ _)]
  simp only [id]
  rw [cmd_bind_of_ok (raiseIf_of_not (by omega) _ _ _)]
  rfl

theorem palApplyPixel_error {s : State} {k : Fin 4} {i : Nat} (h : s.xfDesc[k].palSize.toNat ≤ (chanB (s.pixAt i)).toNat) :
    palApplyPixel k i s = .error ⟨.paletteIndexRange, trunc32 (chanB (s.pixAt i)).toNat⟩ s := by
  unfold palApplyPixel
  rw [cmd_bind_of_ok (readState_apply _ _)]
  simp only [id]
  rw [cmd_bind_of_error (raiseIf_of h _ _ _)]

/-- The palette's walk over the first `n` pixels, whose indices are all in the palette (47_transforms.md R286). -/
theorem palApply_walk {s : State} (hw : s.pix.wf) (k : Fin 4) (n : Nat)
    (h : ∀ i < n, (chanB (s.pixAt i)).toNat < s.xfDesc[k].palSize.toNat) :
    ∃ m : Memory 32, forRange (palApplyPixel k) n 0 s = .ok () (s.withPix m) ∧ m.wf ∧
      ∀ i, m.read .pix i = if i < n then s.elem (.sub k) (chanB (s.pixAt i)).toNat else s.pixAt i := by
  refine forRange_map (g := fun _ p => s.elem (.sub k) (chanB p).toNat) hw n fun i hi m hm => ?_
  have e : (s.withPix m).pixAt i = s.pixAt i := hm
  rw [palApplyPixel_ok (by rw [e]; exact h i hi), e]
  rfl

theorem palApply_ok {s : State} (hw : s.pix.wf) (k : Fin 4)
    (h : ∀ i < s.npix, (chanB (s.pixAt i)).toNat < s.xfDesc[k].palSize.toNat) :
    ∃ m : Memory 32, palApply k s = .ok () (s.withPix m) ∧ m.wf ∧
      ∀ i, m.read .pix i = if i < s.npix then s.elem (.sub k) (chanB (s.pixAt i)).toNat else s.pixAt i := by
  unfold palApply
  rw [cmd_bind_of_ok (readState_apply _ _)]
  exact palApply_walk hw k s.npix h

/-- The first index from PAL_SIZE on ends the walk there (47_transforms.md R286). -/
theorem palApply_error {s : State} (hw : s.pix.wf) {k : Fin 4} {n : Nat} (hn : n < s.npix)
    (h : ∀ i < n, (chanB (s.pixAt i)).toNat < s.xfDesc[k].palSize.toNat)
    (he : s.xfDesc[k].palSize.toNat ≤ (chanB (s.pixAt n)).toNat) :
    ∃ m : Memory 32, palApply k s = .error ⟨.paletteIndexRange, trunc32 (chanB (s.pixAt n)).toNat⟩ (s.withPix m) ∧ m.wf ∧
      ∀ i, m.read .pix i = if i < n then s.elem (.sub k) (chanB (s.pixAt i)).toNat else s.pixAt i := by
  obtain ⟨m, h1, h2, h3⟩ := palApply_walk hw k n h
  have e : (s.withPix m).pixAt n = s.pixAt n := by show m.read .pix n = _; rw [h3, if_neg (by omega)]
  refine ⟨m, ?_, h2, h3⟩
  unfold palApply
  rw [cmd_bind_of_ok (readState_apply _ _)]
  refine forRange_error hn h1 ?_
  rw [Nat.zero_add, palApplyPixel_error (by rw [e]; exact he), e]

/-! ### The predictor's walk -/

/-- Pixel `i` of `t` is its residual in `s` plus its prediction from the pixels of `t` (46_predictor.md R258 to R260). -/
def State.Rebuilt (s t : State) (k : Fin 4) (i : Nat) : Prop :=
  let w := s.imgW.toNat
  ∃ p, predictPix s.params.mode0Black (s.modeAt k (i % w) (i / w)) (t.nbL (i % w) i) (t.nbT w (i / w) i)
      (t.nbTL w (i % w) (i / w) i) (t.nbTR w (i % w) (i / w) i) = some p ∧ t.pixAt i = addPix (s.pixAt i) p

theorem predict_apply (mode : Nat) (l t tl tr : Word) (s : State) :
    predict mode l t tl tr s = match predictPix s.params.mode0Black mode l t tl tr with
      | some p => .ok p s
      | none => .error ⟨.invalidPredictorMode, trunc32 mode⟩ s := by
  unfold predict
  rw [cmd_bind_of_ok (readState_apply _ _)]
  cases predictPix s.params.mode0Black mode l t tl tr <;> rfl

/-- `Predict` has a value exactly for the modes 0 to 13 (46_predictor.md R250). -/
theorem predictPix_isSome (b : Word) (mode : Nat) (l t tl tr : Word) :
    (predictPix b mode l t tl tr).isSome = decide (mode ≤ 13) := by
  by_cases h : mode ≤ 13
  · rw [decide_eq_true h]
    interval_cases mode <;> rfl
  · rw [decide_eq_false h]
    unfold predictPix
    split <;> first | omega | rfl

/-- The neighbours of pixel `i` are at smaller indices of the image. -/
theorem neighbours_congr {t u : State} {w i : Nat} (hw : 0 < w) (h : ∀ j < i, t.pixAt j = u.pixAt j) :
    t.nbL (i % w) i = u.nbL (i % w) i ∧ t.nbT w (i / w) i = u.nbT w (i / w) i ∧
      t.nbTL w (i % w) (i / w) i = u.nbTL w (i % w) (i / w) i ∧ t.nbTR w (i % w) (i / w) i = u.nbTR w (i % w) (i / w) i := by
  have hle : 0 < i / w → w ≤ i := fun h => by
    by_contra hc
    rw [Nat.div_eq_of_lt (by omega)] at h; omega
  have hle1 : 0 < i % w → 1 ≤ i := fun h => by
    rcases Nat.eq_zero_or_pos i with rfl | h'
    · simp at h
    · exact h'
  refine ⟨?_, ?_, ?_, ?_⟩
  · unfold State.nbL; split_ifs with h1
    · exact h _ (by have := hle1 h1; omega)
    · rfl
  · unfold State.nbT; split_ifs with h1
    · exact h _ (by have := hle h1; omega)
    · rfl
  · unfold State.nbTL; split_ifs with h1
    · exact h _ (by have := hle h1.2; omega)
    · rfl
  · unfold State.nbTR; split_ifs with h1
    · refine h _ ?_
      have h2 := hle h1.1
      have h3 := Nat.mod_add_div i w
      have : i % w + 1 < w := h1.2
      rcases Nat.lt_or_ge 1 w with h4 | h4
      · omega
      · omega
    · rfl

/-- One pixel of the walk. -/
theorem invPredictPixel_apply (k : Fin 4) (i : Nat) (s : State) :
    invPredictPixel k i s =
      match predictPix s.params.mode0Black (s.modeAt k (i % s.imgW.toNat) (i / s.imgW.toNat))
          (s.nbL (i % s.imgW.toNat) i) (s.nbT s.imgW.toNat (i / s.imgW.toNat) i)
          (s.nbTL s.imgW.toNat (i % s.imgW.toNat) (i / s.imgW.toNat) i)
          (s.nbTR s.imgW.toNat (i % s.imgW.toNat) (i / s.imgW.toNat) i) with
      | some p => .ok () (s.setPix i (addPix (s.pixAt i) p))
      | none => .error ⟨.invalidPredictorMode, trunc32 (s.modeAt k (i % s.imgW.toNat) (i / s.imgW.toNat))⟩ s := by
  unfold invPredictPixel
  rw [cmd_bind_of_ok (readState_apply _ _)]
  simp only [id]
  have := predict_apply (s.modeAt k (i % s.imgW.toNat) (i / s.imgW.toNat))
    (s.nbL (i % s.imgW.toNat) i) (s.nbT s.imgW.toNat (i / s.imgW.toNat) i)
    (s.nbTL s.imgW.toNat (i % s.imgW.toNat) (i / s.imgW.toNat) i)
    (s.nbTR s.imgW.toNat (i % s.imgW.toNat) (i / s.imgW.toNat) i) s
  split at this
  · exact cmd_bind_of_ok this
  · exact cmd_bind_of_error this

theorem invPredictPixel_ok {k : Fin 4} {i : Nat} {s : State} {p : Word}
    (h : predictPix s.params.mode0Black (s.modeAt k (i % s.imgW.toNat) (i / s.imgW.toNat))
      (s.nbL (i % s.imgW.toNat) i) (s.nbT s.imgW.toNat (i / s.imgW.toNat) i)
      (s.nbTL s.imgW.toNat (i % s.imgW.toNat) (i / s.imgW.toNat) i)
      (s.nbTR s.imgW.toNat (i % s.imgW.toNat) (i / s.imgW.toNat) i) = some p) :
    invPredictPixel k i s = .ok () (s.setPix i (addPix (s.pixAt i) p)) := by
  rw [invPredictPixel_apply, h]

theorem invPredictPixel_error {k : Fin 4} {i : Nat} {s : State}
    (h : 13 < s.modeAt k (i % s.imgW.toNat) (i / s.imgW.toNat)) : invPredictPixel k i s =
      .error ⟨.invalidPredictorMode, trunc32 (s.modeAt k (i % s.imgW.toNat) (i / s.imgW.toNat))⟩ s := by
  have : ∀ l t tl tr, predictPix s.params.mode0Black (s.modeAt k (i % s.imgW.toNat) (i / s.imgW.toNat)) l t tl tr = none := by
    intro l t tl tr
    rw [← Option.not_isSome_iff_eq_none, predictPix_isSome]
    simp only [decide_eq_true_eq]; omega
  rw [invPredictPixel_apply, this]

/-- The walk over the first `n` pixels, whose modes are all legal (46_predictor.md R260). -/
theorem invPredictor_walk {s : State} (hw : s.pix.wf) (hW : 0 < s.imgW.toNat) (k : Fin 4) (n : Nat)
    (h : ∀ i < n, s.modeAt k (i % s.imgW.toNat) (i / s.imgW.toNat) ≤ 13) :
    ∃ m : Memory 32, forRange (invPredictPixel k) n 0 s = .ok () (s.withPix m) ∧ m.wf ∧
      (∀ i < n, s.Rebuilt (s.withPix m) k i) ∧ ∀ i, n ≤ i → m.read .pix i = s.pixAt i := by
  obtain ⟨t, ht, m, rfl, hmw, h1, h2⟩ := forRange_ok (lo := 0) (s := s)
    (P := fun j t => ∃ m : Memory 32, t = s.withPix m ∧ m.wf ∧ (∀ i < j, s.Rebuilt (s.withPix m) k i) ∧
      ∀ i, j ≤ i → m.read .pix i = s.pixAt i) (f := invPredictPixel k) n
    (by
      rintro j _ _ hj ⟨m, rfl, hmw, h1, h2⟩
      have hsome := predictPix_isSome s.params.mode0Black (s.modeAt k (j % s.imgW.toNat) (j / s.imgW.toNat))
        ((s.withPix m).nbL (j % s.imgW.toNat) j) ((s.withPix m).nbT s.imgW.toNat (j / s.imgW.toNat) j)
        ((s.withPix m).nbTL s.imgW.toNat (j % s.imgW.toNat) (j / s.imgW.toNat) j)
        ((s.withPix m).nbTR s.imgW.toNat (j % s.imgW.toNat) (j / s.imgW.toNat) j)
      rw [decide_eq_true (h j (by omega)), Option.isSome_iff_exists] at hsome
      obtain ⟨p, hp⟩ := hsome
      refine ⟨_, invPredictPixel_ok (s := s.withPix m) hp, m.write j (addPix (m.read .pix j) p), rfl, Memory.write_wf hmw _ _, fun i hi => ?_, fun i hi => ?_⟩
      · have hbelow : ∀ i' < j, (s.withPix (m.write j (addPix (m.read .pix j) p))).pixAt i' = (s.withPix m).pixAt i' :=
          fun i' hi' => Memory.read_write_ne _ _ (by omega) _
        rcases Nat.lt_succ_iff_lt_or_eq.1 hi with hlt | rfl
        · obtain ⟨q, hq1, hq2⟩ := h1 i hlt
          obtain ⟨n1, n2, n3, n4⟩ := neighbours_congr (i := i) hW fun i' hi' => hbelow i' (by omega)
          exact ⟨q, by rw [n1, n2, n3, n4]; exact hq1, by rw [hbelow i hlt]; exact hq2⟩
        · obtain ⟨n1, n2, n3, n4⟩ := neighbours_congr (i := i) hW hbelow
          refine ⟨p, by rw [n1, n2, n3, n4]; exact hp, ?_⟩
          show (m.write i _).read .pix i = _
          rw [Memory.read_write_self _ hmw, h2 i (Nat.le_refl _)]
      · rw [Memory.read_write_ne _ _ (by omega)]
        exact h2 i (by omega))
    ⟨s.pix, rfl, hw, fun i hi => by omega, fun i _ => rfl⟩
  rw [Nat.zero_add] at h1 h2
  exact ⟨m, ht, hmw, h1, h2⟩

theorem invPredictor_ok {s : State} (hw : s.pix.wf) (hW : 0 < s.imgW.toNat) (k : Fin 4)
    (h : ∀ i < s.npix, s.modeAt k (i % s.imgW.toNat) (i / s.imgW.toNat) ≤ 13) :
    ∃ m : Memory 32, invPredictor k s = .ok () (s.withPix m) ∧ m.wf ∧
      (∀ i < s.npix, s.Rebuilt (s.withPix m) k i) ∧ ∀ i, s.npix ≤ i → m.read .pix i = s.pixAt i := by
  unfold invPredictor
  rw [cmd_bind_of_ok (readState_apply _ _)]
  exact invPredictor_walk hw hW k s.npix h

/-- The first pixel whose block has an illegal mode ends the walk there (46_predictor.md R250, R260). -/
theorem invPredictor_error {s : State} (hw : s.pix.wf) (hW : 0 < s.imgW.toNat) {k : Fin 4} {n : Nat} (hn : n < s.npix)
    (h : ∀ i < n, s.modeAt k (i % s.imgW.toNat) (i / s.imgW.toNat) ≤ 13)
    (he : 13 < s.modeAt k (n % s.imgW.toNat) (n / s.imgW.toNat)) :
    ∃ m : Memory 32, invPredictor k s =
        .error ⟨.invalidPredictorMode, trunc32 (s.modeAt k (n % s.imgW.toNat) (n / s.imgW.toNat))⟩ (s.withPix m) ∧ m.wf ∧
      (∀ i < n, s.Rebuilt (s.withPix m) k i) ∧ ∀ i, n ≤ i → m.read .pix i = s.pixAt i := by
  obtain ⟨m, h1, h2, h3, h4⟩ := invPredictor_walk hw hW k n h
  refine ⟨m, ?_, h2, h3, h4⟩
  unfold invPredictor
  rw [cmd_bind_of_ok (readState_apply _ _)]
  refine forRange_error hn h1 ?_
  rw [Nat.zero_add]
  exact invPredictPixel_error (s := s.withPix m) he

/-! ### The conversion -/

/-- The state with other output bytes. -/
def State.withOut (s : State) (m : Memory 8) : State := { s with out := m }

/-- `RgbaConvert` (48_orchestrator.md R340). -/
theorem rgbaConvert_ok {s : State} (hw : s.out.wf) : ∃ m : Memory 8, rgbaConvert s = .ok () (s.withOut m) ∧ m.wf ∧
    (∀ i < s.npix, m.read .out (4 * i) = chanR (s.pixAt i) ∧ m.read .out (4 * i + 1) = chanG (s.pixAt i) ∧
      m.read .out (4 * i + 2) = chanB (s.pixAt i) ∧ m.read .out (4 * i + 3) = chanA (s.pixAt i)) ∧
    ∀ j, 4 * s.npix ≤ j → m.read .out j = s.out.read .out j := by
  unfold rgbaConvert
  rw [cmd_bind_of_ok (readState_apply _ _)]
  have four : ∀ (m : Memory 8) (i j : Nat) (a b c d : Byte), m.wf → (m.writeList i [a, b, c, d]).read .out j =
      if j = i then a else if j = i + 1 then b else if j = i + 2 then c else if j = i + 3 then d else m.read .out j := by
    intro m i j a b c d hm
    rw [Memory.read_writeList _ hm]
    by_cases h : i ≤ j ∧ j - i < [a, b, c, d].length
    · rw [dif_pos h]
      have : j - i < 4 := h.2
      obtain ⟨e, rfl⟩ : ∃ e, j = i + e := ⟨j - i, by omega⟩
      have he : e < 4 := by omega
      simp only [Nat.add_sub_cancel_left]
      interval_cases e <;> simp
    · rw [dif_neg h]
      have : ¬ (i ≤ j ∧ j - i < 4) := h
      rw [if_neg (by omega), if_neg (by omega), if_neg (by omega), if_neg (by omega)]
  obtain ⟨t, ht, m, rfl, hmw, h1, h2⟩ := forRange_ok (lo := 0) (s := s)
    (P := fun j t => ∃ m : Memory 8, t = s.withOut m ∧ m.wf ∧
      (∀ i < j, m.read .out (4 * i) = chanR (s.pixAt i) ∧ m.read .out (4 * i + 1) = chanG (s.pixAt i) ∧
        m.read .out (4 * i + 2) = chanB (s.pixAt i) ∧ m.read .out (4 * i + 3) = chanA (s.pixAt i)) ∧
      ∀ i, 4 * j ≤ i → m.read .out i = s.out.read .out i)
    (f := fun i => update fun s => s.convertPixel i) s.npix
    (by
      rintro j _ _ hj ⟨m, rfl, hmw, h1, h2⟩
      refine ⟨_, rfl, m.writeList (4 * j) [chanR (s.pixAt j), chanG (s.pixAt j), chanB (s.pixAt j), chanA (s.pixAt j)], rfl,
        Memory.writeList_wf hmw _ _, fun i hi => ?_, fun i hi => ?_⟩
      · rw [four _ _ _ _ _ _ _ hmw, four _ _ _ _ _ _ _ hmw, four _ _ _ _ _ _ _ hmw, four _ _ _ _ _ _ _ hmw]
        rcases Nat.lt_succ_iff_lt_or_eq.1 hi with hlt | rfl
        · obtain ⟨a, b, c, d⟩ := h1 i hlt
          refine ⟨?_, ?_, ?_, ?_⟩ <;>
            rw [if_neg (by omega), if_neg (by omega), if_neg (by omega), if_neg (by omega)] <;> assumption
        · refine ⟨?_, ?_, ?_, ?_⟩
          · rw [if_pos rfl]
          · rw [if_neg (by omega), if_pos rfl]
          · rw [if_neg (by omega), if_neg (by omega), if_pos rfl]
          · rw [if_neg (by omega), if_neg (by omega), if_neg (by omega), if_pos rfl]
      · rw [four _ _ _ _ _ _ _ hmw, if_neg (by omega), if_neg (by omega), if_neg (by omega), if_neg (by omega)]
        exact h2 i (by omega))
    ⟨s.out, rfl, hw, fun i hi => by omega, fun i _ => rfl⟩
  rw [Nat.zero_add] at h1 h2
  exact ⟨m, ht, hmw, h1, h2⟩

/-! ### The copy -/

/-- The copy within PIX, without the cache (45_lz77.md R235, R237). -/
theorem copyRun_pix {s : State} (hw : s.pix.wf) {pos dist : Nat} (hd : 1 ≤ dist) (hp : dist ≤ pos) (len : Nat) :
    ∃ m : Memory 32, s.copyRun .pix pos dist false len = s.withPix m ∧ m.wf ∧
      (∀ k < len, m.read .pix (pos + k) = s.pixAt (pos - dist + k % dist)) ∧
      ∀ i, ¬ (pos ≤ i ∧ i < pos + len) → m.read .pix i = s.pixAt i := by
  -- what the run from `pos + a` on leaves, when the copies below are in place
  have key : ∀ (n a : Nat) (m : Memory 32), m.wf → (∀ k < a, m.read .pix (pos + k) = s.pixAt (pos - dist + k % dist)) →
      (∀ i, ¬ (pos ≤ i ∧ i < pos + a) → m.read .pix i = s.pixAt i) →
      ∃ m' : Memory 32, (s.withPix m).copyRun .pix (pos + a) dist false n = s.withPix m' ∧ m'.wf ∧
        (∀ k < a + n, m'.read .pix (pos + k) = s.pixAt (pos - dist + k % dist)) ∧
        ∀ i, ¬ (pos ≤ i ∧ i < pos + (a + n)) → m'.read .pix i = s.pixAt i := by
    intro n
    induction n with
    | zero => exact fun a m h1 h2 h3 => ⟨m, rfl, h1, h2, h3⟩
    | succ n ih =>
      intro a m hm h2 h3
      have hsrc : m.read .pix (pos + a - dist) = s.pixAt (pos - dist + a % dist) := by
        rcases Nat.lt_or_ge a dist with h | h
        · rw [h3 _ (by omega), Nat.mod_eq_of_lt h]
          congr 1; omega
        · have := h2 (a - dist) (by omega)
          rw [show pos + (a - dist) = pos + a - dist by omega] at this
          rw [this, Nat.mod_eq_sub_mod h]
      have hstep : (s.withPix m).copyPixel .pix (pos + a) dist false =
          s.withPix (m.write (pos + a) (m.read .pix (pos + a - dist))) := rfl
      obtain ⟨m', e, h4, h5, h6⟩ := ih (a + 1) (m.write (pos + a) (m.read .pix (pos + a - dist))) (Memory.write_wf hm _ _)
        (fun k hk => by
          by_cases hka : k = a
          · subst hka; rw [Memory.read_write_self _ hm, hsrc]
          · rw [Memory.read_write_ne _ _ (by omega)]; exact h2 k (by omega))
        (fun i hi => by rw [Memory.read_write_ne _ _ (by omega)]; exact h3 i (by omega))
      refine ⟨m', ?_, h4, fun k hk => h5 k (by omega), fun i hi => h6 i (by omega)⟩
      rw [State.copyRun, hstep, show pos + a + 1 = pos + (a + 1) by omega, e]
  obtain ⟨m, h1, h2, h3, h4⟩ := key len 0 s.pix hw (fun k hk => by omega) fun i _ => rfl
  rw [Nat.zero_add] at h3 h4
  exact ⟨m, h1, h2, h3, h4⟩

/-- Everything `LzCopy` can answer (45_lz77.md R235). -/
theorem lzCopy_apply (buf : Space) (pos dist len size : Nat) (ins : Bool) (s : State) :
    lzCopy buf pos dist len size ins s =
      if dist = 0 ∨ s.params.lzMaxDistance < dist then .error ⟨.lzDistanceRange, trunc32 dist⟩ s
      else if pos < dist then .error ⟨.lzHistory, trunc32 dist⟩ s
      else if len = 0 ∨ Config.lzMaxLength < len then .error ⟨.lzLengthRange, trunc32 len⟩ s
      else if size < pos + len then .error ⟨.lzBounds, trunc32 (pos + len)⟩ s
      else .ok () (s.copyRun buf pos dist ins len) := by
  unfold lzCopy
  rw [cmd_bind_of_ok (readState_apply _ _), ← Bool.decide_or, ← Bool.decide_or]
  by_cases h1 : dist = 0 ∨ s.params.lzMaxDistance < dist
  · rw [if_pos h1, cmd_bind_of_error (raiseIf_of h1 _ _ _)]
  rw [if_neg h1, cmd_bind_of_ok (raiseIf_of_not h1 _ _ _)]
  by_cases h2 : pos < dist
  · rw [if_pos h2, cmd_bind_of_error (raiseIf_of h2 _ _ _)]
  rw [if_neg h2, cmd_bind_of_ok (raiseIf_of_not h2 _ _ _)]
  by_cases h3 : len = 0 ∨ Config.lzMaxLength < len
  · rw [if_pos h3, cmd_bind_of_error (raiseIf_of h3 _ _ _)]
  rw [if_neg h3, cmd_bind_of_ok (raiseIf_of_not h3 _ _ _)]
  by_cases h4 : size < pos + len
  · rw [if_pos h4, cmd_bind_of_error (raiseIf_of h4 _ _ _)]
  rw [if_neg h4, cmd_bind_of_ok (raiseIf_of_not h4 _ _ _)]
  rfl

end Sys2Proof.Machine
end

