-- ==== Sys2Proof/Laws/PixelStream.lean ====
section
/-! SUPPORT. The pixel stream and the sub-images as triples: what each leaves for any property its primitive changes keep, and the errors it can raise. -/

namespace Sys2Proof.Machine

variable {P : State → Prop}

/-- The errors of a pixel stream (48_orchestrator.md R345, stage 6). -/
def streamErrors : List ErrKind := [.readPastEnd, .lzDistanceRange, .lzHistory, .lzBounds]

/-- The errors of a sub-image (R345). -/
def subImageErrors : List ErrKind := [.capacityExceeded, .invalidCacheBits] ++ treeErrors ++ streamErrors

/-- The spaces a pixel stream writes. -/
def IsTarget (buf : Space) : Prop := buf = .pix ∨ (∃ k, buf = .sub k) ∨ buf = .ent

/-- A property that a pixel stream into `buf` keeps. -/
structure StreamClosed (buf : Space) (P : State → Prop) : Prop where
  move : Moves P
  setElem : ∀ s i v, P s → P (s.setElem buf i v)
  cacheInsert : ∀ s v, P s → P (s.cacheInsert v)

theorem StreamClosed.and {buf : Space} {P' : State → Prop} (C : StreamClosed buf P) (C' : StreamClosed buf P') :
    StreamClosed buf fun s => P s ∧ P' s :=
  ⟨C.move.and C'.move, fun s i v hs => ⟨C.setElem s i v hs.1, C'.setElem s i v hs.2⟩,
    fun s v hs => ⟨C.cacheInsert s v hs.1, C'.cacheInsert s v hs.2⟩⟩

theorem setElem_tab {buf : Space} (h : IsTarget buf) (s : State) (i : Nat) (v : Word) :
    (s.setElem buf i v).tab = s.tab ∧ (s.setElem buf i v).tabInfo = s.tabInfo ∧ (s.setElem buf i v).ccBits = s.ccBits := by
  rcases h with rfl | ⟨k, rfl⟩ | rfl <;> exact ⟨rfl, rfl, rfl⟩

theorem State.GroupOk.congr {s u : State} {cs : Nat} {at_ : Bool} (h : s.GroupOk cs at_) (h1 : u.tab = s.tab)
    (h2 : u.tabInfo = s.tabInfo) : u.GroupOk cs at_ := by
  have e : ∀ {t N}, s.SlotBelow t N → u.SlotBelow t N := fun h => h.congr (by rw [h2]) (by rw [h1])
  exact ⟨e h.1, e h.2.1, e h.2.2.1, fun ha => e (h.2.2.2.1 ha), e h.2.2.2.2⟩

theorem group_streamClosed {buf : Space} (h : IsTarget buf) (cs cc : Nat) (at_ : Bool) :
    StreamClosed buf fun s => s.GroupOk cs at_ ∧ s.ccSize = cc where
  move _ _ hs _ _ := hs
  setElem s i v hs := by
    obtain ⟨h1, h2, h3⟩ := setElem_tab h s i v
    exact ⟨hs.1.congr h1 h2, by unfold State.ccSize; rw [h3]; exact hs.2⟩
  cacheInsert s v hs := ⟨hs.1.congr (cacheInsert_tab s v) (cacheInsert_tabInfo s v), by
    unfold State.ccSize; rw [cacheInsert_ccBits]; exact hs.2⟩

/-- The value of a prefix code is at least 1, and a length is at most 4096 (45_lz77.md R234). -/
theorem prefix_range : ∀ c ≤ 39, 1 ≤ prefixBase c ∧ prefixExtra c ≤ 18 ∧ (c < 24 → prefixBase c + 2 ^ prefixExtra c ≤ 4097) := by
  decide

theorem does_prefixValue (h : Moves P) {c : Nat} (hc : c ≤ 39) :
    Does P (prefixValue c) (fun v => 1 ≤ v ∧ (c < 24 → v ≤ 4096)) streamErrors := by
  obtain ⟨h1, h2, h3⟩ := prefix_range c hc
  refine (does_readExtra h h2 (by decide)).bind fun x hx => does_pure ⟨by omega, fun h24 => ?_⟩
  have := h3 h24
  omega

theorem copyRun_closed {buf : Space} (C : StreamClosed buf P) {at_ dist : Nat} (ins : Bool) (n : Nat) {s : State} (hs : P s) :
    P (s.copyRun buf at_ dist ins n) := by
  induction n generalizing s at_ with
  | zero => exact hs
  | succ n ih =>
    refine ih (s := s.copyPixel buf at_ dist ins) ?_
    cases ins with
    | false => exact C.setElem _ _ _ hs
    | true => exact C.cacheInsert _ _ (C.setElem _ _ _ hs)

theorem does_lzCopy {buf : Space} (C : StreamClosed buf P) {pos dist len n : Nat} (h1 : 1 ≤ len)
    (h2 : len ≤ 4096) : Does P (lzCopy buf pos dist len n true) (fun _ => pos + len ≤ n) streamErrors := by
  intro s hs
  rw [lzCopy_apply]
  have h2 : len ≤ Config.lzMaxLength := h2
  split_ifs with a b c d
  · exact ⟨hs, by show ErrKind.lzDistanceRange ∈ _; decide⟩
  · exact ⟨hs, by show ErrKind.lzHistory ∈ _; decide⟩
  · omega
  · exact ⟨hs, by show ErrKind.lzBounds ∈ _; decide⟩
  · exact ⟨copyRun_closed C true len hs, by omega⟩

section Tokens

variable {buf : Space} {cs n : Nat} {at_ : Bool}

theorem does_literalToken (C : StreamClosed buf P) (hG : ∀ s, P s → s.GroupOk cs at_ ∧ s.ccSize = cs) (pos g : Nat) :
    Does P (literalToken buf at_ pos g) (fun p => p = pos + 1) streamErrors := by
  refine (does_decodeSym C.move (fun s hs => (hG s hs).1.2.1) (by decide)).bind fun r _ =>
    (does_decodeSym C.move (fun s hs => (hG s hs).1.2.2.1) (by decide)).bind fun b _ =>
      Does.bind (x := alphaSym at_) (Q := fun _ => True) (Does.ite (fun ha => ?_) fun _ => does_pure trivial) fun a _ =>
        (does_update fun s hs => C.cacheInsert _ _ (C.setElem _ _ _ hs)).bind fun _ _ => does_pure rfl
  exact (does_decodeSym C.move (fun s hs => (hG s hs).1.2.2.2.1 ha) (by decide)).mono (fun _ _ => trivial) fun _ h => h

theorem does_backRefToken (C : StreamClosed buf P) (hG : ∀ s, P s → s.GroupOk cs at_ ∧ s.ccSize = cs) (pos : Nat) {c : Nat}
    (hc : c < 24) : Does P (backRefToken buf n pos c) (fun p => pos < p ∧ p ≤ n) streamErrors :=
  (does_prefixValue C.move (by omega)).bind fun len hlen =>
    (does_decodeSym C.move (fun s hs => (hG s hs).1.2.2.2.2) (by decide)).bind fun d hd =>
      (does_prefixValue C.move (by have : d < 40 := hd; omega)).bind fun dist _ =>
        (does_lzCopy C hlen.1 (hlen.2 hc)).bind fun _ hle => does_pure (by have := hlen.1; omega)

theorem does_cacheRefToken (C : StreamClosed buf P) (hG : ∀ s, P s → s.GroupOk cs at_ ∧ s.ccSize = cs) (pos : Nat) {j : Nat}
    (hj : j < cs) : Does P (cacheRefToken buf pos j) (fun p => p = pos + 1) streamErrors := by
  refine Does.bind (Q := fun _ => True) ?_ fun p _ =>
    (does_update fun s hs => C.cacheInsert _ _ (C.setElem _ _ _ hs)).bind fun _ _ => does_pure rfl
  intro s hs
  rw [cacheGet_apply, if_neg (by rw [(hG s hs).2]; omega)]
  exact ⟨hs, trivial⟩

theorem does_pixelToken (C : StreamClosed buf P) (hG : ∀ s, P s → s.GroupOk cs at_ ∧ s.ccSize = cs) {pos : Nat}
    (hp : pos < n) : Does P (pixelToken buf n at_ pos) (fun p => pos < p ∧ p ≤ n) streamErrors := by
  refine (does_decodeSym C.move (fun s hs => (hG s hs).1.1) (by decide)).bind fun g hg => ?_
  have hg : g < 256 + 24 + cs := hg
  split
  · exact (does_literalToken C hG pos g).mono (fun p h => by omega) fun _ h => h
  split
  · have hc : g - 256 < 24 := by omega
    generalize g - 256 = c at hc ⊢
    exact does_backRefToken C hG pos hc
  · exact (does_cacheRefToken C hG pos (by omega)).mono (fun p h => by omega) fun _ h => h

theorem does_pixelLoop (C : StreamClosed buf P) (hG : ∀ s, P s → s.GroupOk cs at_ ∧ s.ccSize = cs) (fuel pos : Nat) :
    Does P (pixelLoop buf n at_ fuel pos) (fun _ => True) streamErrors := by
  induction fuel generalizing pos with
  | zero => exact does_pure trivial
  | succ fuel ih =>
    exact Does.ite (fun hp => (does_pixelToken C hG hp).bind fun p _ => ih p) fun _ => does_pure trivial

end Tokens

/-- A pixel stream fills its space or ends in an error of the stream. -/
theorem does_pixelStream {buf : Space} {cs : Nat} {at_ : Bool} (C : StreamClosed buf P)
    (hG : ∀ s, P s → s.GroupOk cs at_ ∧ s.ccSize = cs) (n : Nat) :
    Does P (pixelStream buf n at_) (fun _ => True) streamErrors := does_pixelLoop C hG n 0

/-! ### Sub-images -/

/-- A property that reading sub-images and groups keeps. -/
structure ImageClosed (P : State → Prop) : Prop where
  tree : TreeClosed (fun _ => True) P
  clearCache : ∀ s b, P s → b ≤ Config.cacheMaxBits → P (s.clearCache b)
  stream : ∀ buf, IsTarget buf → StreamClosed buf P

theorem ImageClosed.and {P' : State → Prop} (C : ImageClosed P) (C' : ImageClosed P') : ImageClosed fun s => P s ∧ P' s :=
  ⟨C.tree.and C'.tree, fun s b hs hb => ⟨C.clearCache s b hs.1 hb, C'.clearCache s b hs.2 hb⟩,
    fun buf h => (C.stream buf h).and (C'.stream buf h)⟩

theorem wf_imageClosed : ImageClosed fun s => s.clmem.wf where
  tree := wf_treeClosed _
  clearCache _ _ hs _ := hs
  stream buf h := by
    refine ⟨fun _ _ hs _ _ => hs, fun s i v hs => ?_, fun s v hs => by rw [cacheInsert_clmem]; exact hs⟩
    rcases h with rfl | ⟨k, rfl⟩ | rfl <;> exact hs

theorem does_readCacheBits (h : Moves P) {S : List ErrKind} (h1 : .readPastEnd ∈ S) (h2 : .invalidCacheBits ∈ S) :
    Does P readCacheBits (fun cb => cb ≤ Config.cacheMaxBits) S :=
  (does_readBits h (by decide) (by decide) h1).bind fun _ _ => Does.ite (fun _ => does_pure (Nat.zero_le _)) fun _ =>
    (does_readBits h (by decide) (by decide) h1).bind fun _ _ =>
      (does_raiseIf h2).bind fun _ hc => does_pure (by simpa using hc)

theorem cacheInit_ok {bits : Nat} (h : bits ≤ Config.cacheMaxBits) (s : State) :
    cacheInit bits s = .ok () (s.clearCache bits) := by rw [cacheInit_apply, if_neg (by omega)]

theorem clearCache_ccSize {bits : Nat} (h : bits ≤ Config.cacheMaxBits) (s : State) :
    (s.clearCache bits).ccSize = cacheSize bits := by
  have h : bits ≤ 11 := h
  show cacheSize (BitVec.ofNat 4 bits).toNat = _
  rw [BitVec.toNat_ofNat, Nat.mod_eq_of_lt (by omega)]

/-- A cleared cache and the pixel stream after it. -/
theorem hoare_cachedStream (C : ImageClosed P) {buf : Space} (hb : IsTarget buf) {cb n : Nat} (hcb : cb ≤ Config.cacheMaxBits)
    {at_ : Bool} : Hoare (fun s => P s ∧ s.GroupOk (cacheSize cb) at_) (do cacheInit cb; pixelStream buf n at_)
      (fun _ s => P s ∧ s.GroupOk (cacheSize cb) at_ ∧ s.ccSize = cacheSize cb) (fun e s => P s ∧ e.kind ∈ streamErrors) := by
  intro s hs
  rw [cmd_bind_of_ok (cacheInit_ok hcb s)]
  have h1 : P (s.clearCache cb) := C.clearCache s cb hs.1 hcb
  have h2 : (s.clearCache cb).GroupOk (cacheSize cb) at_ := hs.2.congr rfl rfl
  exact (does_pixelStream (P := fun s => P s ∧ s.GroupOk (cacheSize cb) at_ ∧ s.ccSize = cacheSize cb)
    ((C.stream buf hb).and (group_streamClosed hb _ _ _)) (fun s hs => hs.2) n).conseq (fun _ h => h) (fun _ _ h => h.1)
    (fun _ _ h => ⟨h.1.1, h.2⟩) _ ⟨h1, h2, clearCache_ccSize hcb s⟩

/-- A sub-image fits its space and keeps everything but the parts it writes, or ends in an error of a sub-image. -/
theorem hoare_entropyImage (C : ImageClosed P) {p : Params} (hp : ∀ s, P s → s.params = p) {dst : Space} (hd : IsTarget dst)
    (w h : Nat) : Hoare (fun s => P s ∧ s.clmem.wf) (entropyImage w h dst)
      (fun _ s => (P s ∧ s.clmem.wf) ∧ w * h ≤ p.subCapacity) (fun e s => P s ∧ e.kind ∈ subImageErrors) := by
  have CW := C.and wf_imageClosed
  intro s hs
  unfold entropyImage
  rw [cmd_bind_of_ok (readState_apply _ _), hp s hs.1]
  by_cases hc : p.subCapacity < w * h
  · rw [cmd_bind_of_error (raiseIf_of hc _ _ _)]
    exact ⟨hs.1, by show ErrKind.capacityExceeded ∈ _; decide⟩
  rw [cmd_bind_of_ok (raiseIf_of_not hc _ _ _)]
  refine Hoare.bind (P := fun s => P s ∧ s.clmem.wf) (R := fun cb s => (P s ∧ s.clmem.wf) ∧ cb ≤ Config.cacheMaxBits) ?_
    (fun cb => ?_) s hs
  · exact (does_readCacheBits (S := subImageErrors) CW.tree.move (by decide) (by decide)).conseq (fun _ h => h)
      (fun _ _ h => h) fun _ _ h => ⟨h.1.1, h.2⟩
  intro s hs
  refine Hoare.bind (P := fun s => P s ∧ s.clmem.wf)
    (R := fun _ s => (P s ∧ s.clmem.wf) ∧ s.GroupOk (cacheSize cb) true) ?_ (fun _ => ?_) s hs.1
  · exact (hoare_readGroup_primary (C.tree.mono fun _ _ => trivial) (Closed.cacheSize_le hs.2) true).conseq (fun _ h => h)
      (fun _ _ h => ⟨⟨h.1, h.2.1⟩, h.2.2.1⟩) fun _ _ h => ⟨h.1, List.mem_append_left _ (List.mem_append_right _ h.2)⟩
  · exact (hoare_cachedStream CW hd hs.2).conseq (fun _ h => h) (fun _ _ h => ⟨h.1, by omega⟩)
      fun _ _ h => ⟨h.1.1, List.mem_append_right _ h.2⟩

end Sys2Proof.Machine
end

