-- ==== Sys2Proof/Laws/Orchestrator.lean ====
section
/-! SUPPORT. The stages of a decode as triples: the transform list, the entropy image, the groups, the pixels, the chain and the conversion. -/

namespace Sys2Proof.Machine

/-! ### What trees, images and streams leave -/

/-- What the stages after the header leave of the state `c`: all but the cursor, which only goes on, the tables, the cache,
the descriptors, the groups and the memories the block writes. -/
structure State.Since (c s : State) : Prop where
  stage : s.stage = c.stage
  params : s.params = c.params
  err : s.err = c.err
  inLen : s.inLen = c.inLen
  inp : s.inp = c.inp
  brStart : s.brStart = c.brStart
  low : c.pos ≤ s.pos
  high : s.pos ≤ s.endPos
  imgW : s.imgW = c.imgW
  imgH : s.imgH = c.imgH
  imgAlpha : s.imgAlpha = c.imgAlpha
  imgVersion : s.imgVersion = c.imgVersion
  mem : s.MemWf

/-- What stays the same besides, from the state `c`: the transform list. -/
def State.SameList (c s : State) : Prop := s.xfDesc = c.xfDesc ∧ s.xfCount = c.xfCount

/-- What stays the same besides, from the state `c`: NGROUPS and ENT_INFO. -/
def State.SameGroups (c s : State) : Prop :=
  s.nGroups = c.nGroups ∧ s.entPresent = c.entPresent ∧ s.entBits = c.entBits

theorem memWf_imageClosed : ImageClosed State.MemWf := by
  have C := closed_memWf [.tableInfo, .tables, .cursor, .cache, .metaLengths]
  refine ⟨⟨fun s q hs _ _ => hs, ?_, fun s hs => hs, fun s m v hs => hs, fun s t _ hs => hs, fun s t _ hs => ?_,
    fun s t L _ hs hL => ?_⟩, fun s b hs hb => C.clearCache (by decide) s b hs hb, fun buf h => ⟨fun s q hs _ _ => hs, ?_,
    fun s v hs => C.cacheInsert (by decide) s v hs⟩⟩
  · rintro s i vs ⟨h1, h2, h3, h4, h5, h6, h7, h8⟩
    exact ⟨h1, h2, h3, h4, Memory.writeList_wf h5 _ _, h6, h7, h8⟩
  · exact C.failed (by decide) (by decide) s t hs
  · exact C.built (by decide) (by decide) s t L hs hL
  · rintro s i v ⟨h1, h2, h3, h4, h5, h6, h7, h8⟩
    rcases h with rfl | ⟨k, rfl⟩ | rfl
    · exact ⟨h1, h2, Memory.write_wf h3 _ _, h4, h5, h6, h7, h8⟩
    · refine ⟨h1, h2, h3, h4, h5, h6, fun j => ?_, h8⟩
      show ((s.sub.set k _)[j]).wf
      by_cases hj : j = k
      · subst hj; rw [vget_set_self]; exact Memory.write_wf (h7 _) _ _
      · rw [vget_set_ne _ hj]; exact h7 j
    · exact ⟨h1, h2, h3, Memory.write_wf h4 _ _, h5, h6, h7, h8⟩

theorem since_imageClosed (c : State) : ImageClosed c.Since := by
  have M := memWf_imageClosed
  have mv : ∀ s q, c.Since s → q ≤ s.endPos → s.pos ≤ q → c.Since (s.moveTo q) := by
    intro s q h h1 h2
    have hp : (s.moveTo q).pos = q := s.pos_moveTo (Nat.lt_of_le_of_lt h1 s.endPos_lt)
    exact ⟨h.stage, h.params, h.err, h.inLen, h.inp, h.brStart, by rw [hp]; exact h.low.trans h2, by rw [hp]; exact h1, h.imgW,
      h.imgH, h.imgAlpha, h.imgVersion, h.mem⟩
  have ext : ∀ {s u : State}, c.Since s → u.MemWf → u.stage = s.stage → u.params = s.params → u.err = s.err →
      u.inLen = s.inLen → u.inp = s.inp → u.brStart = s.brStart → u.pos = s.pos → u.imgW = s.imgW → u.imgH = s.imgH →
      u.imgAlpha = s.imgAlpha → u.imgVersion = s.imgVersion → c.Since u := by
    intro s u h hm e1 e2 e3 e4 e5 e6 e7 e8 e9 e10 e11
    exact ⟨e1.trans h.stage, e2.trans h.params, e3.trans h.err, e4.trans h.inLen, e5.trans h.inp, e6.trans h.brStart,
      by rw [e7]; exact h.low, by unfold State.endPos; rw [e7, e4]; exact h.high, e8.trans h.imgW, e9.trans h.imgH,
      e10.trans h.imgAlpha, e11.trans h.imgVersion, hm⟩
  refine ⟨⟨mv, fun s i vs h => ?_, fun s h => ?_, fun s m v h => ?_, fun s t ht h => ?_, fun s t ht h => ?_,
    fun s t L ht h hL => ?_⟩, fun s b h hb => ?_, fun buf hb => ⟨mv, fun s i v h => ?_, fun s v h => ?_⟩⟩
  · exact ext h (M.tree.lengths s i vs h.mem) rfl rfl rfl rfl rfl rfl rfl rfl rfl rfl rfl
  · exact ext h (M.tree.clmClear s h.mem) rfl rfl rfl rfl rfl rfl rfl rfl rfl rfl rfl
  · exact ext h (M.tree.clmSet s m v h.mem) rfl rfl rfl rfl rfl rfl rfl rfl rfl rfl rfl
  · exact ext h (M.tree.invalidate s t ht h.mem) rfl rfl rfl rfl rfl rfl rfl rfl rfl rfl rfl
  · exact ext h (M.tree.failed s t ht h.mem) rfl rfl rfl rfl rfl rfl rfl rfl rfl rfl rfl
  · exact ext h (M.tree.built s t L ht h.mem hL) rfl rfl rfl rfl rfl rfl rfl rfl rfl rfl rfl
  · exact ext h (M.clearCache s b h.mem hb) rfl rfl rfl rfl rfl rfl rfl rfl rfl rfl rfl
  · have := (M.stream buf hb).setElem s i v h.mem
    rcases hb with rfl | ⟨k, rfl⟩ | rfl <;> exact ext h this rfl rfl rfl rfl rfl rfl rfl rfl rfl rfl rfl
  · have := (M.stream buf hb).cacheInsert s v h.mem
    rw [cacheInsert_frame] at this ⊢
    exact ext h this rfl rfl rfl rfl rfl rfl rfl rfl rfl rfl rfl

theorem sameList_imageClosed (c : State) : ImageClosed c.SameList := by
  refine ⟨⟨fun _ _ h _ _ => h, fun _ _ _ h => h, fun _ h => h, fun _ _ _ h => h, fun _ _ _ h => h, fun _ _ _ h => h,
    fun _ _ _ _ h _ => h⟩, fun _ _ h _ => h, fun buf hb => ⟨fun _ _ h _ _ => h, fun s i v h => ?_, fun s v h => ?_⟩⟩
  · rcases hb with rfl | ⟨k, rfl⟩ | rfl <;> exact h
  · rw [cacheInsert_frame]; exact h

theorem sameGroups_imageClosed (c : State) : ImageClosed c.SameGroups := by
  refine ⟨⟨fun _ _ h _ _ => h, fun _ _ _ h => h, fun _ h => h, fun _ _ _ h => h, fun _ _ _ h => h, fun _ _ _ h => h,
    fun _ _ _ _ h _ => h⟩, fun _ _ h _ => h, fun buf hb => ⟨fun _ _ h _ _ => h, fun s i v h => ?_, fun s v h => ?_⟩⟩
  · rcases hb with rfl | ⟨k, rfl⟩ | rfl <;> exact h
  · rw [cacheInsert_frame]; exact h

theorem State.Since.refl {c : State} (h1 : c.pos ≤ c.endPos) (h2 : c.MemWf) : c.Since c :=
  ⟨rfl, rfl, rfl, rfl, rfl, rfl, Nat.le_refl _, h1, rfl, rfl, rfl, rfl, h2⟩

theorem State.Since.setDesc {c s : State} (h : c.Since s) (k : Fin 4) (d : XfDesc) : c.Since (s.setDesc k d) :=
  ⟨h.1, h.2, h.3, h.4, h.5, h.6, h.7, h.8, h.9, h.10, h.11, h.12, h.13⟩

theorem State.Since.countDesc {c s : State} (h : c.Since s) (k : Nat) : c.Since (s.countDesc k) :=
  ⟨h.1, h.2, h.3, h.4, h.5, h.6, h.7, h.8, h.9, h.10, h.11, h.12, h.13⟩

theorem State.Since.setGroups {c s : State} (h : c.Since s) (e : Bool) (b g : Nat) : c.Since (s.setGroups e b g) :=
  ⟨h.1, h.2, h.3, h.4, h.5, h.6, h.7, h.8, h.9, h.10, h.11, h.12, h.13⟩

/-- The next stage begins from the same state. -/
theorem State.Since.atStage {c s : State} (h : c.Since s) (st : Stage) : (c.atStage st).Since (s.atStage st) :=
  ⟨rfl, h.2, h.3, h.4, h.5, h.6, h.7, h.8, h.9, h.10, h.11, h.12, h.13⟩

/-! ### The transform list -/

/-- The errors of the transform list (48_orchestrator.md R345, stage 2). -/
def transformErrors : List ErrKind := [.readPastEnd, .transformRepeated] ++ subImageErrors

/-- A descriptor whose payload passes the checks of 47_transforms.md R280 for the working size. -/
def State.DescOk (s : State) (d : XfDesc) : Prop :=
  (d.ty = .subtractGreen ∨ d.payloadValid = true) ∧
  match d.ty with
  | .predictor => s.BlocksOk d
  | .color => s.BlocksOk d
  | .subtractGreen => True
  | .palette => 1 ≤ d.palSize.toNat ∧ d.palSize.toNat ≤ Config.paletteMax

theorem State.DescOk.congr {s u : State} {d : XfDesc} (h : s.DescOk d) (h1 : u.params = s.params) (h2 : u.imgW = s.imgW)
    (h3 : u.imgH = s.imgH) : u.DescOk d := by
  obtain ⟨h, h'⟩ := h
  refine ⟨h, ?_⟩
  cases ht : d.ty <;> rw [ht] at h' <;> simp only [State.BlocksOk, h1, h2, h3] at h' ⊢ <;> exact h'

/-- The list holds descriptors of the types read so far, each once, newest first, and each passes its checks. -/
structure State.ListOk (seen : List XfType) (s : State) : Prop where
  count : s.xfCount.toNat = seen.length
  nodup : seen.Nodup
  types : (List.range seen.length).map (fun k => s.xfDesc[descOf k].ty) = seen.reverse
  descs : ∀ k < seen.length, s.DescOk s.xfDesc[descOf k]

/-- There are four types. -/
theorem XfType.length_le {l : List XfType} (h : l.Nodup) : l.length ≤ 4 := by
  have hs : l ⊆ [.predictor, .color, .subtractGreen, .palette] := by
    intro x _
    cases x <;> simp
  exact (h.subperm hs).length_le

theorem descOf_ne {j k : Nat} (hj : j < 4) (hk : k < 4) (h : j ≠ k) : descOf j ≠ descOf k := by
  intro e
  have := congrArg Fin.val e
  simp only [descOf, Fin.val_ofNat] at this
  omega

theorem State.ListOk.xfOk {seen : List XfType} {s : State} (h : s.ListOk seen) (hi : s.ImageOk) {k : Nat}
    (hk : k < s.xfCount.toNat) : s.XfOk k s.xfDesc[descOf k].ty := by
  have h4 := XfType.length_le h.nodup
  have hc := h.count
  obtain ⟨h1, h2⟩ := h.descs k (by omega)
  exact ⟨by omega, by omega, hk, rfl, h1, hi, h2⟩

theorem State.ListOk.distinct {seen : List XfType} {s : State} (h : s.ListOk seen) {j k : Nat} (hj : j < s.xfCount.toNat)
    (hk : k < s.xfCount.toNat) (e : s.xfDesc[descOf j].ty = s.xfDesc[descOf k].ty) : j = k := by
  have hc := h.count
  have hn : ((List.range seen.length).map fun k => s.xfDesc[descOf k].ty).Nodup := by
    rw [h.types]; exact List.nodup_reverse.2 h.nodup
  exact List.inj_on_of_nodup_map hn (List.mem_range.2 (by omega)) (List.mem_range.2 (by omega)) e

theorem listOk_moves (seen : List XfType) : Moves fun s => s.ListOk seen := fun _ _ h _ _ => ⟨h.1, h.2, h.3, h.4⟩

/-- The list with one more descriptor. -/
theorem State.ListOk.push {seen : List XfType} {s u : State} (h : s.ListOk seen) {d : XfDesc} (hn : d.ty ∉ seen)
    (hd : s.DescOk { d with payloadValid := true }) (h1 : u.params = s.params) (h2 : u.imgW = s.imgW)
    (h3 : u.imgH = s.imgH) (h4 : u.xfDesc = s.xfDesc.set (descOf seen.length) d) :
    (u.countDesc seen.length).ListOk (d.ty :: seen) := by
  have hnd : (d.ty :: seen).Nodup := List.nodup_cons.2 ⟨hn, h.nodup⟩
  have hlen : seen.length < 4 := XfType.length_le hnd
  have self : (u.countDesc seen.length).xfDesc[descOf seen.length] = { d with payloadValid := true } := by
    show (u.xfDesc.set (descOf seen.length) _)[descOf seen.length] = _
    rw [vget_set_self, h4, vget_set_self]
  have other : ∀ k < seen.length, (u.countDesc seen.length).xfDesc[descOf k] = s.xfDesc[descOf k] := by
    intro k hk
    have hne := descOf_ne (by omega) hlen (show k ≠ seen.length by omega)
    show (u.xfDesc.set (descOf seen.length) _)[descOf k] = _
    rw [vget_set_ne _ hne, h4, vget_set_ne _ hne]
  refine ⟨?_, hnd, ?_, fun k hk => ?_⟩
  · show (BitVec.ofNat 3 (seen.length + 1)).toNat = seen.length + 1
    rw [BitVec.toNat_ofNat, Nat.mod_eq_of_lt (by omega)]
  · rw [List.length_cons, List.range_succ, List.map_append, List.map_singleton, self, List.reverse_cons, ← h.types]
    congr 1
    exact List.map_congr_left fun k hk => by rw [other k (List.mem_range.1 hk)]
  · rcases Nat.lt_succ_iff_lt_or_eq.1 (by simpa using hk) with hk | rfl
    · rw [other k hk]; exact (h.descs k hk).congr h1 h2 h3
    · rw [self]; exact hd.congr h1 h2 h3

/-- The block bits and the sub-image of a predictor or color transform. -/
theorem hoare_readBlockPayload {c : State} (k : Fin 4) (w h : Nat) :
    Hoare (fun s => c.Since s ∧ c.SameList s) (readBlockPayload k w h)
      (fun _ s => c.Since s ∧ s.xfCount = c.xfCount ∧ ∃ bb : BitVec 4, s.xfDesc = c.xfDesc.set k { c.xfDesc[k] with blockBits := bb } ∧
        2 ≤ bb.toNat ∧ bb.toNat ≤ 9 ∧ blockCount w h bb.toNat ≤ c.params.subCapacity)
      (fun e s => c.Since s ∧ e.kind ∈ transformErrors) := by
  have C := (since_imageClosed c).and (sameList_imageClosed c)
  refine Hoare.bind (R := fun b s => (c.Since s ∧ c.SameList s) ∧ b < 2 ^ 3)
    ((does_readBits (S := transformErrors) C.tree.move (by decide) (by decide) (by decide)).conseq (fun _ h => h)
      (fun _ _ h => h) fun _ _ h => ⟨h.1.1, h.2⟩) fun b => ?_
  intro s hs
  have hb : (BitVec.ofNat 4 (b + 2)).toNat = b + 2 := by
    have := hs.2
    rw [BitVec.toNat_ofNat]; omega
  have hb8 : b < 8 := hs.2
  refine Hoare.bind (P := fun s => (c.Since s ∧ c.SameList s) ∧ s.clmem.wf) ((hoare_entropyImage C (fun s h => h.1.params)
    (.inr (.inl ⟨k, rfl⟩)) _ _).conseq (fun _ h => h) (fun _ _ h => h) fun _ _ h => ⟨h.1.1, List.mem_append_right _ h.2⟩)
    (fun _ => hoare_update fun u hu => ?_) s ⟨hs.1, hs.1.1.mem.2.2.2.2.1⟩
  obtain ⟨⟨⟨h1, h2, h3⟩, -⟩, h4⟩ := hu
  refine ⟨h1.setDesc _ _, h3, BitVec.ofNat 4 (b + 2), ?_, by omega, by omega, ?_⟩
  · show u.xfDesc.set k _ = _; rw [h2]
  · rw [hb]; exact h4

/-- The palette of a palette transform. -/
theorem hoare_readPalette {c : State} (k : Fin 4) :
    Hoare (fun s => c.Since s ∧ c.SameList s) (readPalette k)
      (fun _ s => c.Since s ∧ s.xfCount = c.xfCount ∧ ∃ ps : BitVec 9, s.xfDesc = c.xfDesc.set k { c.xfDesc[k] with palSize := ps } ∧
        1 ≤ ps.toNat ∧ ps.toNat ≤ Config.paletteMax)
      (fun e s => c.Since s ∧ e.kind ∈ transformErrors) := by
  have C := (since_imageClosed c).and (sameList_imageClosed c)
  refine Hoare.bind (R := fun b s => (c.Since s ∧ c.SameList s) ∧ b < 2 ^ 8)
    ((does_readBits (S := transformErrors) C.tree.move (by decide) (by decide) (by decide)).conseq (fun _ h => h)
      (fun _ _ h => h) fun _ _ h => ⟨h.1.1, h.2⟩) fun b => ?_
  intro s hs
  have hb8 : b < 256 := hs.2
  have hb : (BitVec.ofNat 9 (b + 1)).toNat = b + 1 := by rw [BitVec.toNat_ofNat]; omega
  refine Hoare.bind (P := fun s => (c.Since s ∧ c.SameList s) ∧ s.clmem.wf) ((hoare_entropyImage C (fun s h => h.1.params)
    (.inr (.inl ⟨k, rfl⟩)) _ _).conseq (fun _ h => h) (fun _ _ h => h.1.1) fun _ _ h => ⟨h.1.1, List.mem_append_right _ h.2⟩)
    (fun _ => Hoare.bind (R := fun _ s => c.Since s ∧ c.SameList s) ?_ fun _ => hoare_update fun u hu => ?_) s
    ⟨hs.1, hs.1.1.mem.2.2.2.2.1⟩
  · exact (does_forRange (S := transformErrors) b 1 fun i _ _ => does_update fun u hu =>
      (C.stream (.sub k) (.inr (.inl ⟨k, rfl⟩))).setElem u i _ hu).conseq (fun _ h => h) (fun _ _ h => h.1)
      fun _ _ h => ⟨h.1.1, h.2⟩
  · obtain ⟨h1, h2, h3⟩ := hu
    refine ⟨h1.setDesc _ _, h3, BitVec.ofNat 9 (b + 1), ?_, by omega, ?_⟩
    · show u.xfDesc.set k _ = _; rw [h2]
    · rw [hb]; exact hb8

/-- One entry of the list (48_orchestrator.md R315, R322). -/
theorem hoare_readTransform {c : State} (seen : List XfType) :
    Hoare (fun s => c.Since s ∧ s.ListOk seen) (readTransform c.imgW.toNat c.imgH.toNat seen)
      (fun seen' s => c.Since s ∧ s.ListOk seen') (fun e s => c.Since s ∧ e.kind ∈ transformErrors) := by
  refine Hoare.bind (R := fun v s => (c.Since s ∧ s.ListOk seen) ∧ v < 2 ^ 2)
    ((does_readBits (S := transformErrors) ((since_imageClosed c).tree.move.and (listOk_moves seen)) (by decide) (by decide)
      (by decide)).conseq (fun _ h => h) (fun _ _ h => h) fun _ _ h => ⟨h.1.1, h.2⟩) fun v => ?_
  refine Hoare.bind (R := fun _ s => (c.Since s ∧ s.ListOk seen) ∧ XfType.ofCode v ∉ seen)
    (hoare_raiseIf (fun s h _ => ⟨h.1.1, by show ErrKind.transformRepeated ∈ _; decide⟩)
      fun s h hc => ⟨h.1, by simpa using hc⟩) fun _ => ?_
  intro s hs
  obtain ⟨⟨hS, hL⟩, hn⟩ := hs
  have hlen : seen.length < 4 := XfType.length_le (List.nodup_cons.2 ⟨hn, hL.nodup⟩)
  rw [cmd_bind_of_ok (readState_apply _ _), cmd_bind_of_ok (update_apply _ _), hL.count]
  set k := descOf seen.length with hk
  -- `u` is the state with the new descriptor started
  set u := s.setDesc k ⟨XfType.ofCode v, 0, 0, false⟩ with hu
  have uS : c.Since u := hS.setDesc _ _
  have uSince : u.Since u := State.Since.refl uS.high uS.mem
  have back : ∀ t, u.Since t → c.Since t := fun t h => ⟨h.stage.trans uS.stage, h.params.trans uS.params, h.err.trans uS.err,
    h.inLen.trans uS.inLen, h.inp.trans uS.inp, h.brStart.trans uS.brStart, uS.low.trans h.low, h.high, h.imgW.trans uS.imgW,
    h.imgH.trans uS.imgH, h.imgAlpha.trans uS.imgAlpha, h.imgVersion.trans uS.imgVersion, h.mem⟩
  have uk : u.xfDesc[k] = ⟨XfType.ofCode v, 0, 0, false⟩ := vget_set_self _ _ _
  have uset : ∀ d, u.xfDesc.set k d = s.xfDesc.set k d := fun d => vset_set _ _ _ _
  have last : ∀ {x : Cmd Unit}, Hoare (fun t => u.Since t ∧ u.SameList t) x
      (fun _ t => u.Since t ∧ ∃ d, d.ty = XfType.ofCode v ∧ s.DescOk { d with payloadValid := true } ∧
        t.xfDesc = u.xfDesc.set k d)
      (fun e t => u.Since t ∧ e.kind ∈ transformErrors) →
      Hoare (fun t => u.Since t ∧ u.SameList t) (do x; update fun t => t.countDesc seen.length; pure (XfType.ofCode v :: seen))
        (fun seen' t => c.Since t ∧ t.ListOk seen') (fun e t => c.Since t ∧ e.kind ∈ transformErrors) := by
    intro x hx
    refine Hoare.bind (hx.conseq (fun _ h => h) (fun _ _ h => h) fun e t h => ⟨back t h.1, h.2⟩) fun _ =>
      Hoare.bind (R := fun _ t => c.Since t ∧ t.ListOk (XfType.ofCode v :: seen)) (hoare_update ?_) fun _ =>
        hoare_pure fun _ h => h
    rintro t ⟨ht, d, hd, hok, he⟩
    rw [uset] at he
    refine ⟨(back t ht).countDesc _, ?_⟩
    rw [← hd]
    exact hL.push (by rw [hd]; exact hn) hok ht.params ht.imgW ht.imgH he
  have bw : c.imgW.toNat = s.imgW.toNat := by rw [hS.imgW]
  have bh : c.imgH.toNat = s.imgH.toNat := by rw [hS.imgH]
  have block : (XfType.ofCode v = .predictor ∨ XfType.ofCode v = .color) →
      Hoare (fun t => u.Since t ∧ u.SameList t) (readBlockPayload k c.imgW.toNat c.imgH.toNat)
        (fun _ t => u.Since t ∧ ∃ d, d.ty = XfType.ofCode v ∧ s.DescOk { d with payloadValid := true } ∧
          t.xfDesc = u.xfDesc.set k d)
        (fun e t => u.Since t ∧ e.kind ∈ transformErrors) := by
    intro ht
    refine (hoare_readBlockPayload (c := u) k c.imgW.toNat c.imgH.toNat).conseq (fun _ h => h) ?_ fun _ _ h => h
    rintro - t ⟨h1, -, bb, h2, h3, h4, h5⟩
    refine ⟨h1, _, ?_, ⟨.inr rfl, ?_⟩, h2⟩
    · rw [uk]
    · rw [bw, bh] at h5
      have hb : s.BlocksOk { u.xfDesc[k] with blockBits := bb, payloadValid := true } := ⟨h3, h4, h5⟩
      show match u.xfDesc[k].ty with
        | .predictor => _ | .color => _ | .subtractGreen => _ | .palette => _
      rw [uk]
      rw [uk] at hb
      rcases ht with ht | ht <;> simp only [ht] <;> rw [ht] at hb <;> exact hb
  cases hty : XfType.ofCode v with
  | predictor => rw [hty] at last block; exact last (block (.inl rfl)) u ⟨uSince, rfl, rfl⟩
  | color => rw [hty] at last block; exact last (block (.inr rfl)) u ⟨uSince, rfl, rfl⟩
  | subtractGreen =>
    rw [hty] at last
    refine last (x := pure ()) (hoare_pure fun t ht => ⟨ht.1, u.xfDesc[k], by rw [uk, hty], ⟨.inr rfl, ?_⟩, ?_⟩) u
      ⟨uSince, rfl, rfl⟩
    · rw [uk, hty]; trivial
    · rw [ht.2.1]; simp
  | palette =>
    rw [hty] at last
    refine last ((hoare_readPalette (c := u) k).conseq (fun _ h => h) ?_ fun _ _ h => h) u ⟨uSince, rfl, rfl⟩
    rintro - t ⟨h1, -, ps, h2, h3, h4⟩
    refine ⟨h1, _, ?_, ⟨.inr rfl, ?_⟩, h2⟩
    · rw [uk, hty]
    · rw [uk, hty]; exact ⟨h3, h4⟩

/-- The whole list (48_orchestrator.md R310, R322). -/
theorem hoare_transformLoop {c : State} (fuel : Nat) (seen : List XfType) :
    Hoare (fun s => c.Since s ∧ s.ListOk seen) (transformLoop c.imgW.toNat c.imgH.toNat fuel seen)
      (fun _ s => c.Since s ∧ ∃ seen', s.ListOk seen') (fun e s => c.Since s ∧ e.kind ∈ transformErrors) := by
  induction fuel generalizing seen with
  | zero => exact hoare_pure fun s h => ⟨h.1, seen, h.2⟩
  | succ fuel ih =>
    refine Hoare.bind (R := fun _ s => c.Since s ∧ s.ListOk seen)
      ((does_readBits (S := transformErrors) ((since_imageClosed c).tree.move.and (listOk_moves seen)) (by decide) (by decide)
        (by decide)).conseq (fun _ h => h) (fun _ _ h => h.1) fun _ _ h => ⟨h.1.1, h.2⟩) fun more => ?_
    exact Hoare.ite (fun _ => Hoare.bind (hoare_readTransform seen) fun seen' => ih seen')
      fun _ => hoare_pure fun s h => ⟨h.1, seen, h.2⟩

/-! ### The entropy image and the groups -/

theorem groupIndex_lt (e : Word) : groupIndex e < 65536 := Nat.mod_lt _ (by decide)

theorem State.maxGroup_lt (s : State) (n : Nat) : s.maxGroup n < 65536 := by
  unfold State.maxGroup
  have : ∀ (l : List Nat) (m : Nat), m < 65536 →
      l.foldl (fun m j => max m (groupIndex (s.ent.read .ent j))) m < 65536 := by
    intro l
    induction l with
    | nil => exact fun _ h => h
    | cons j l ih => exact fun m h => ih _ (max_lt h (groupIndex_lt _))
  exact this _ _ (by decide)

/-- NGROUPS and ENT_INFO hold what the entropy image's stage declares (48_orchestrator.md R324, R325). -/
structure State.GroupsDeclared (ng : Nat) (s : State) : Prop where
  count : s.nGroups.toNat = ng
  low : 1 ≤ ng
  high : ng ≤ 65536
  absent : s.entPresent = false → ng = 1 ∧ s.entBits = 0
  present : s.entPresent = true → 2 ≤ s.entBits.toNat ∧ s.entBits.toNat ≤ 9

/-- The entropy image's stage keeps the list. -/
theorem hoare_readMetaPrefix {c : State} (w h : Nat) :
    Hoare (fun s => c.Since s ∧ c.SameList s) (readMetaPrefix w h)
      (fun ng s => (c.Since s ∧ c.SameList s) ∧ s.GroupsDeclared ng)
      (fun e s => c.Since s ∧ e.kind ∈ [.readPastEnd] ++ subImageErrors) := by
  have C := (since_imageClosed c).and (sameList_imageClosed c)
  refine Hoare.bind (R := fun _ s => c.Since s ∧ c.SameList s)
    ((does_readBits (S := [.readPastEnd] ++ subImageErrors) C.tree.move (by decide) (by decide) (by decide)).conseq
      (fun _ h => h) (fun _ _ h => h.1) fun _ _ h => ⟨h.1.1, h.2⟩) fun present => ?_
  refine Hoare.ite (fun _ => Hoare.bind (R := fun _ s => (c.Since s ∧ c.SameList s) ∧ s.GroupsDeclared 1)
    (hoare_update fun s hs => ⟨⟨hs.1.setGroups _ _ _, hs.2⟩, rfl, by decide, by decide, fun _ => ⟨rfl, rfl⟩,
      fun h => Bool.noConfusion h⟩) fun _ => hoare_pure fun _ h => h) fun _ => ?_
  refine Hoare.bind (R := fun b s => (c.Since s ∧ c.SameList s) ∧ b < 2 ^ 3)
    ((does_readBits (S := [.readPastEnd] ++ subImageErrors) C.tree.move (by decide) (by decide) (by decide)).conseq
      (fun _ h => h) (fun _ _ h => h) fun _ _ h => ⟨h.1.1, h.2⟩) fun b => ?_
  intro s hs
  have hb8 : b < 8 := hs.2
  have hb : (BitVec.ofNat 4 (b + 2)).toNat = b + 2 := by rw [BitVec.toNat_ofNat]; omega
  refine Hoare.bind (P := fun s => (c.Since s ∧ c.SameList s) ∧ s.clmem.wf) ((hoare_entropyImage C (fun s h => h.1.params)
    (.inr (.inr rfl)) _ _).conseq (fun _ h => h) (fun _ _ h => h.1.1) fun _ _ h => ⟨h.1.1, List.mem_append_right _ h.2⟩)
    (fun _ => ?_) s ⟨hs.1, hs.1.1.mem.2.2.2.2.1⟩
  intro t ht
  rw [cmd_bind_of_ok (readState_apply _ _), cmd_bind_of_ok (update_apply _ _)]
  have hm := t.maxGroup_lt (ceilDiv w (2 ^ (b + 2)) * ceilDiv h (2 ^ (b + 2)))
  refine ⟨⟨ht.1.setGroups _ _ _, ht.2⟩, ?_, by omega, by omega, fun h => Bool.noConfusion h, fun _ => ?_⟩
  · show (trunc32 _).toNat = _
    unfold trunc32
    rw [BitVec.toNat_ofNat, Nat.mod_eq_of_lt (by omega)]
  · show 2 ≤ (BitVec.ofNat 4 (b + 2)).toNat ∧ (BitVec.ofNat 4 (b + 2)).toNat ≤ 9
    omega

/-- The groups after the first (48_orchestrator.md R310, R327). -/
theorem hoare_otherGroups {P : State → Prop} (C : TreeClosed (fun t => t = metaSlot ∨ t = scratchSlot) P) {cs : Nat}
    (hcs : cs ≤ Config.cacheCapacity) (at_ : Bool) (n : Nat) :
    Hoare (fun s => P s ∧ s.clmem.wf) (forRange (fun _ => readGroup cs at_ false) n 1)
      (fun _ s => P s ∧ s.clmem.wf) (fun e s => P s ∧ e.kind ∈ treeErrors) :=
  hoare_forRange (I := fun _ s => P s ∧ s.clmem.wf) n fun _ _ _ => hoare_readGroup_scratch C hcs at_

/-- The tables of a group outlast trees read into other slots. -/
theorem groupOk_treeClosed (cs : Nat) (at_ : Bool) :
    TreeClosed (fun t => t = metaSlot ∨ t = scratchSlot)
      fun s => s.GroupOk cs at_ ∧ (at_ = false → s.tabInfo[(3 : Fin 7)].valid = false) := by
  have ne : ∀ {u : Fin 7}, u ≠ 5 → u ≠ 6 → ¬ (u = metaSlot ∨ u = scratchSlot) := fun h1 h2 h => h.elim h1 h2
  have c0 := fun u h1 h2 N => slotBelow_treeClosed (T := fun t => t = metaSlot ∨ t = scratchSlot) (u := u) (ne h1 h2) N
  have a := c0 0 (by decide) (by decide) (256 + Config.nLengthCodes + cs)
  have b := c0 1 (by decide) (by decide) 256
  have c := c0 2 (by decide) (by decide) 256
  have d := c0 3 (by decide) (by decide) 256
  have e := c0 4 (by decide) (by decide) Config.distAlphabet
  have h3 : ∀ t : Fin 7, t = metaSlot ∨ t = scratchSlot → (3 : Fin 7) ≠ t := by
    rintro t (rfl | rfl) <;> decide
  have other : ∀ (s : State) (t : Fin 7) (i : TabInfo), t = metaSlot ∨ t = scratchSlot →
      ((s.tabInfo.set t i)[(3 : Fin 7)]) = s.tabInfo[(3 : Fin 7)] := fun s t i ht => vget_set_ne _ (h3 t ht) _
  refine ⟨fun s q h x y => h, fun s i vs h => h, fun s h => h, fun s m v h => h, fun s t ht h => ?_, fun s t ht h => ?_,
    fun s t L ht h hL => ?_⟩
  · exact ⟨⟨a.invalidate s t ht h.1.1, b.invalidate s t ht h.1.2.1, c.invalidate s t ht h.1.2.2.1,
      fun x => d.invalidate s t ht (h.1.2.2.2.1 x), e.invalidate s t ht h.1.2.2.2.2⟩,
      fun x => by
        show ((s.tabInfo.set t _)[(3 : Fin 7)]).valid = false
        rw [other s t _ ht]; exact h.2 x⟩
  · exact ⟨⟨a.failed s t ht h.1.1, b.failed s t ht h.1.2.1, c.failed s t ht h.1.2.2.1,
      fun x => d.failed s t ht (h.1.2.2.2.1 x), e.failed s t ht h.1.2.2.2.2⟩,
      fun x => by
        show ((s.tabInfo.set t _)[(3 : Fin 7)]).valid = false
        rw [other s t _ ht]; exact h.2 x⟩
  · exact ⟨⟨a.built s t L ht h.1.1 hL, b.built s t L ht h.1.2.1 hL, c.built s t L ht h.1.2.2.1 hL,
      fun x => d.built s t L ht (h.1.2.2.2.1 x) hL, e.built s t L ht h.1.2.2.2.2 hL⟩,
      fun x => by
        show ((s.tabInfo.set t _)[(3 : Fin 7)]).valid = false
        rw [other s t _ ht]; exact h.2 x⟩

/-! ### The chain -/

/-- The errors of the chain in a decode (48_orchestrator.md R345, stage 7). -/
def chainErrors : List ErrKind := [.invalidPredictorMode, .paletteIndexRange]

/-- The check of the chain passes for a list of descriptors that pass theirs. -/
theorem chainCheck_ok {s : State} {k : Nat} (h : s.XfOk k s.xfDesc[descOf k].ty) : chainCheck k s = .ok () s := by
  unfold chainCheck
  rw [cmd_bind_of_ok (readState_apply _ _)]
  exact xfCheck_ok h

/-- A property that a change of one pixel keeps. -/
def PixClosed (P : State → Prop) : Prop := ∀ s i p, P s → P (s.setPix i p)

variable {P : State → Prop}

theorem does_invPredictor (C : PixClosed P) (k : Fin 4) : Does P (invPredictor k) (fun _ => True) chainErrors := by
  refine (does_readState (Q := fun _ => True) fun _ _ => trivial).bind fun n _ => does_forRange n 0 fun i _ _ => ?_
  intro s hs
  rw [invPredictPixel_apply]
  generalize predictPix _ _ _ _ _ _ = r
  cases r with
  | some p => exact ⟨C _ _ _ hs, trivial⟩
  | none => exact ⟨hs, by show ErrKind.invalidPredictorMode ∈ _; decide⟩

theorem does_palApply (C : PixClosed P) (k : Fin 4) : Does P (palApply k) (fun _ => True) chainErrors := by
  refine (does_readState (Q := fun _ => True) fun _ _ => trivial).bind fun n _ => does_forRange n 0 fun i _ _ => ?_
  intro s hs
  rcases Nat.lt_or_ge (chanB (s.pixAt i)).toNat s.xfDesc[k].palSize.toNat with h | h
  · rw [palApplyPixel_ok h]; exact ⟨C _ _ _ hs, trivial⟩
  · rw [palApplyPixel_error h]; exact ⟨hs, by show ErrKind.paletteIndexRange ∈ _; decide⟩

theorem does_undoTransforms (C : PixClosed P) (n : Nat) : Does P (undoTransforms n) (fun _ => True) chainErrors := by
  induction n with
  | zero => exact does_pure trivial
  | succ n ih =>
    refine Does.bind (Q := fun _ => True) ?_ fun _ _ => ih
    refine (does_readState (Q := fun _ => True) fun _ _ => trivial).bind fun ty _ => ?_
    have walk : ∀ g : Nat → State → State, (∀ i s, P s → P (g i s)) → Does P (do
        let n ← readState State.npix
        forRange (fun i => update fun s => g i s) n 0) (fun _ => True) chainErrors := fun g hg =>
      (does_readState (Q := fun _ => True) fun _ _ => trivial).bind fun n _ =>
        does_forRange n 0 fun i _ _ => does_update fun s hs => hg i s hs
    cases ty with
    | predictor => exact does_invPredictor C _
    | color => exact walk (fun i s => s.invColorAt (descOf n) i) fun i s hs => C s i _ hs
    | subtractGreen => exact walk (fun i s => s.setPix i (addGreen (s.pixAt i))) fun i s hs => C s i _ hs
    | palette => exact does_palApply C _

/-- The chain over a list whose descriptors pass their checks: only PIX changes, and only the two errors arise. -/
theorem hoare_invChain (C : PixClosed P) (hP : ∀ s, P s → s.xfCount.toNat ≤ 4 ∧
    ∀ k < s.xfCount.toNat, s.XfOk k s.xfDesc[descOf k].ty) :
    Hoare P invChain (fun _ s => P s) (fun e s => P s ∧ e.kind ∈ chainErrors) := by
  intro s hs
  obtain ⟨h4, hk⟩ := hP s hs
  unfold invChain
  rw [cmd_bind_of_ok (readState_apply _ _), cmd_bind_of_ok (raiseIf_of_not (by omega) _ _ _)]
  have checks : forRange chainCheck s.xfCount.toNat 0 s = .ok () s := by
    obtain ⟨t, ht, rfl⟩ := forRange_ok (lo := 0) (s := s) (f := chainCheck) (P := fun _ t => t = s) s.xfCount.toNat
      (by rintro j _ _ hj rfl; exact ⟨_, chainCheck_ok (hk j (by omega)), rfl⟩) rfl
    exact ht
  rw [cmd_bind_of_ok checks]
  exact (does_undoTransforms C s.xfCount.toNat).conseq (fun _ h => h) (fun _ _ h => h.1) (fun _ _ h => h) s hs

theorem since_pixClosed (c : State) : PixClosed fun s => c.Since s ∧ c.SameList s :=
  fun s i p h => (((since_imageClosed c).and (sameList_imageClosed c)).stream .pix (.inl rfl)).setElem s i p h

/-! ### The conversion -/

theorem State.Since.withOut {c s : State} (h : c.Since s) {m : Memory 8} (hm : m.wf) : c.Since (s.withOut m) := by
  obtain ⟨h1, -, h3, h4, h5, h6, h7, h8⟩ := h.mem
  exact ⟨h.1, h.2, h.3, h.4, h.5, h.6, h.7, h.8, h.9, h.10, h.11, h.12, h1, hm, h3, h4, h5, h6, h7, h8⟩

/-- The conversion leaves in OUT the bytes of the pixels and changes nothing else (48_orchestrator.md R340). -/
theorem rgbaConvert_outHoldsPix {s : State} (hw : s.out.wf) :
    ∃ m : Memory 8, rgbaConvert s = .ok () (s.withOut m) ∧ m.wf ∧ (s.withOut m).OutHoldsPix := by
  obtain ⟨m, h1, h2, h3, -⟩ := rgbaConvert_ok hw
  refine ⟨m, h1, h2, fun i hi => ?_⟩
  obtain ⟨a, b, c, d⟩ := h3 i hi
  exact ⟨(congrArg BitVec.toNat a).trans (chanR_toNat _), (congrArg BitVec.toNat b).trans (chanG_toNat _),
    (congrArg BitVec.toNat c).trans (chanB_toNat _), (congrArg BitVec.toNat d).trans (chanA_toNat _)⟩

end Sys2Proof.Machine
end

