-- ==== Sys2Proof/Laws/PerInstr.lean ====
section
/-! SUPPORT. Laws stated of every command as syntax, one lemma a constructor. -/

namespace Sys2Proof.Laws.EncodedOpcode

/-- The low byte of a well-formed command's word is its opcode, and the rest is its IMM8, 0 for format N (30_encoding.md
R110, R117). -/
def Statement (i : Instr) : Prop :=
  i.WellFormed → (encode i).toNat % 256 = opcodeOf i ∧ (encode i).toNat / 256 = i.imm8.getD 0

theorem opcodeOf_lt (i : Instr) : opcodeOf i < 256 := by cases i <;> simp [opcodeOf]

theorem of_imm8 {i : Instr} {v : Nat} (h : i.imm8 = some v) : Statement i := by
  intro hw
  have ho := opcodeOf_lt i
  have hv : v ≤ 255 := by simpa [Instr.WellFormed, h] using hw
  simp only [encode, h, BitVec.toNat_ofNat, Option.getD_some]
  omega

theorem of_none {i : Instr} (h : i.imm8 = none) : Statement i := by
  intro _
  have ho := opcodeOf_lt i
  simp only [encode, h, BitVec.toNat_ofNat, Option.getD_none]
  omega

theorem nop : Statement .nop := of_none rfl

theorem softReset : Statement .softReset := of_none rfl

theorem brInit : Statement .brInit := of_none rfl

theorem brRead (v : Nat) : Statement (.brRead v) := of_imm8 rfl

theorem brHasdata : Statement .brHasdata := of_none rfl

theorem brTell : Statement .brTell := of_none rfl

theorem hufBuild (v : Nat) : Statement (.hufBuild v) := of_imm8 rfl

theorem hufDecode (v : Nat) : Statement (.hufDecode v) := of_imm8 rfl

theorem clRead : Statement .clRead := of_none rfl

theorem ccInit : Statement .ccInit := of_none rfl

theorem ccHash : Statement .ccHash := of_none rfl

theorem ccInsert : Statement .ccInsert := of_none rfl

theorem ccGet : Statement .ccGet := of_none rfl

theorem lzPrefix (v : Nat) : Statement (.lzPrefix v) := of_imm8 rfl

theorem lzCopy : Statement .lzCopy := of_none rfl

theorem pred (v : Nat) : Statement (.pred v) := of_imm8 rfl

theorem xfPredInv (v : Nat) : Statement (.xfPredInv v) := of_imm8 rfl

theorem xfColorInv (v : Nat) : Statement (.xfColorInv v) := of_imm8 rfl

theorem xfSubgInv (v : Nat) : Statement (.xfSubgInv v) := of_imm8 rfl

theorem xfPalApply (v : Nat) : Statement (.xfPalApply v) := of_imm8 rfl

theorem xfPalInvert (v : Nat) : Statement (.xfPalInvert v) := of_imm8 rfl

theorem xfChainInv : Statement .xfChainInv := of_none rfl

theorem hdrParse : Statement .hdrParse := of_none rfl

theorem decode : Statement .decode := of_none rfl

theorem rgbaConvert : Statement .rgbaConvert := of_none rfl

end Sys2Proof.Laws.EncodedOpcode
end

