-- ==== Sys2Proof/Laws/Runs.lean ====
section
/-! SUPPORT. A decode of a stream an encoder wrote, piece by piece: each piece of the stream's bits is read with the value they were written from, and leaves what that value stands for. -/

namespace Sys2Proof.Machine

variable {P : State → Prop}

/-! ### Trees and groups -/

/-- Trees read into other slots keep the table of a slot. -/
theorem slotHolds_treeClosed {T : Fin 7 → Prop} {u : Fin 7} (hu : ¬ T u) (L : List Byte) :
    TreeClosed T fun s => s.SlotHolds u L where
  move _ _ hs _ _ := hs
  lengths _ _ _ hs := hs
  clmClear _ hs := hs
  clmSet _ _ _ hs := hs
  invalidate s t ht hs := by
    have : u ≠ t := fun e => hu (e ▸ ht)
    exact ⟨(vget_set_ne _ this _).trans hs.1, hs.2⟩
  failed s t ht hs := by
    have : u ≠ t := fun e => hu (e ▸ ht)
    obtain ⟨h1, tab, h2⟩ := hs
    exact ⟨(vget_set_ne _ this _).trans h1, tab, (vget_set_ne _ this _).trans h2⟩
  built s t L' ht hs _ := by
    have : u ≠ t := fun e => hu (e ▸ ht)
    exact State.built_slotHolds_ne this hs

/-- Each of the 3-bit fields a list of values is written in reads as its value. -/
theorem State.field_of_threeBits {s : State} {vs : List Nat} {q : Nat} (hv : ∀ v ∈ vs, v < 8)
    (hb : s.HasBits q (vs.flatMap fun v => lsbBits v 3)) (j : Nat) (hj : j < vs.length) : s.field (q + 3 * j) 3 = vs[j] := by
  induction vs generalizing q j with
  | nil => simp at hj
  | cons v vs ih =>
    rw [List.flatMap_cons, State.hasBits_append] at hb
    cases j with
    | zero => simpa using State.field_of_lsbBits hb.1 (hv v List.mem_cons_self)
    | succ j =>
      have := ih (q := q + 3) (fun w hw => hv w (List.mem_cons_of_mem _ hw)) (by simpa [length_lsbBits] using hb.2) j
        (by simpa using hj)
      rw [List.getElem_cons_succ, ← this, show q + 3 + 3 * j = q + 3 * (j + 1) by omega]

theorem State.codeLengths_eq {s : State} {L : List Byte} (h : ∀ j (hj : j < L.length), s.clmem.read .clmem j = L[j]) :
    s.codeLengths L.length = L := by
  apply List.ext_getElem
  · simp [State.codeLengths]
  · intro j h1 h2
    simp only [State.codeLengths, List.getElem_map, List.getElem_range]
    exact h j h2

theorem TreeCode.length_lengths {order : List Nat} {n : Nat} {c : TreeCode} (h : c.Ok order n) : (c.lengths n).length = n := by
  cases c with
  | literal vs =>
    have := h.2.2.2.1
    simp only [TreeCode.lengths, List.length_map, List.length_append, List.length_replicate]; omega
  | coded ms ts =>
    have := h.2.2.2.2
    simpa [TreeCode.lengths] using this

/-- The code lengths of a tree, read from its bits (43_code_lengths.md R191 to R198). -/
theorem readCodeLengths_runs {s : State} {n : Nat} {c : TreeCode} (ha : s.params.Admissible) (hw : s.clmem.wf)
    (hc : c.Ok s.params.clCodeOrder n) (hb : s.HasBits s.pos (c.bits s.params.clCodeOrder))
    (hend : s.pos + (c.bits s.params.clCodeOrder).length ≤ s.endPos) :
    ∃ t, readCodeLengths n s = .ok () t ∧ t.pos = s.pos + (c.bits s.params.clCodeOrder).length ∧
      t.codeLengths n = c.lengths n := by
  have hlt := s.endPos_lt
  have hlen := TreeCode.length_lengths hc
  cases c with
  | literal vs =>
    obtain ⟨-, h4, h19, hn, h8⟩ := hc
    have e : (TreeCode.bits s.params.clCodeOrder (.literal vs)) = [0] ++ lsbBits (vs.length - 4) 4 ++ vs.flatMap fun v => lsbBits v 3 := rfl
    rw [e] at hb hend ⊢
    simp only [List.length_append, List.length_singleton, length_lsbBits, length_flatMap_three] at hend ⊢
    rw [State.hasBits_append, State.hasBits_append] at hb
    simp only [List.length_append, List.length_singleton, length_lsbBits] at hb
    have h1 : s.field s.pos 1 = 0 := by
      have h0 := hb.1.1 0 (by simp)
      rw [State.field_succ, State.field_zero]
      simpa using h0
    have h4' := State.field_of_lsbBits hb.1.2 (by omega)
    obtain ⟨m, r1, -, r3⟩ := readCodeLengths_literal (s := s) (n := n) (cnt := vs.length) hw h1 (by omega) hn (by omega)
    refine ⟨_, r1, by rw [State.pos_lensAt _ (by omega)]; omega, ?_⟩
    have : (TreeCode.lengths n (.literal vs)).length = n := hlen
    conv_lhs => rw [← this]
    refine State.codeLengths_eq fun j hj => ?_
    rw [State.lensAt_clmem, r3 j]
    simp only [TreeCode.lengths, List.getElem_map]
    by_cases hjv : j < vs.length
    · rw [if_pos hjv, List.getElem_append_left hjv, show s.pos + 5 + 3 * j = s.pos + (1 + 4) + 3 * j by omega,
        State.field_of_threeBits h8 hb.2 j hjv]
    · rw [if_neg hjv, if_pos (by omega), List.getElem_append_right (by omega), List.getElem_replicate]; rfl
  | coded ms ts =>
    obtain ⟨-, hm, hM, hk, hn⟩ := hc
    obtain ⟨cl, h1, h2⟩ := readCodeLengths_coded ha hm hM hk hn hb hend
    refine ⟨_, h2, by rw [State.pos_lensAt _ (by exact hend)]; rfl, ?_⟩
    have : (TreeCode.lengths n (.coded ms ts)).length = n := hlen
    conv_lhs => rw [← this]
    refine State.codeLengths_eq fun j hj => ?_
    rw [State.lensAt_clmem, Memory.read_writeList .clmem hw]
    rw [dif_pos ⟨by omega, by simpa [TreeCode.lengths] using hj⟩]
    rfl

/-- One tree of a group, read from its bits (48_orchestrator.md R326). -/
theorem readTree_runs {s : State} {u : Fin 7} {n : Nat} {c : TreeCode} (ha : s.params.Admissible) (hm : s.MemWf)
    (hn : n ≤ 4096) (hc : c.Ok s.params.clCodeOrder n) (hb : s.HasBits s.pos (c.bits s.params.clCodeOrder))
    (hend : s.pos + (c.bits s.params.clCodeOrder).length ≤ s.endPos) :
    ∃ t, readTree u n s = .ok () t ∧ t.pos = s.pos + (c.bits s.params.clCodeOrder).length ∧ t.SlotHolds u (c.lengths n) ∧
      ∀ P : State → Prop, TreeClosed (fun v => v = metaSlot ∨ v = u) P → P s → P t := by
  have hw : s.clmem.wf := hm.2.2.2.2.1
  obtain ⟨t, h1, h2, h3⟩ := readCodeLengths_runs ha hw hc hb hend
  have e : readTree u n s = .ok () (t.built u (c.lengths n)) := by
    unfold readTree
    rw [cmd_bind_of_ok h1, cmd_bind_of_ok (readState_apply _ _), h3, build_ok hc.1]
  refine ⟨_, e, h2, State.built_slotHolds _ _ _, fun P C hs => ?_⟩
  have := (hoare_readTree C (.inl rfl) (.inr rfl) hn) s ⟨hs, hw⟩
  rw [e] at this
  exact this.1.1

/-- The slots a list of trees is read into (R326, R327). -/
def treeSlots (primary : Bool) (l : List (Fin 7 × TreeCode × Nat)) (v : Fin 7) : Prop :=
  v = metaSlot ∨ if primary then v ∈ l.map Prod.fst else v = scratchSlot

/-- The trees of a list, read from their bits. -/
theorem readTrees_runs (primary : Bool) (l : List (Fin 7 × TreeCode × Nat)) {s : State} (ha : s.params.Admissible)
    (hm : s.MemWf) (hl : ∀ x ∈ l, x.2.1.Ok s.params.clCodeOrder x.2.2 ∧ x.2.2 ≤ 4096 ∧ x.1 ≠ metaSlot)
    (hd : (l.map Prod.fst).Nodup)
    (hb : s.HasBits s.pos (l.flatMap fun x => x.2.1.bits s.params.clCodeOrder))
    (hend : s.pos + (l.flatMap fun x => x.2.1.bits s.params.clCodeOrder).length ≤ s.endPos) :
    ∃ t, readTrees primary (l.map fun x => (x.1, x.2.2)) s = .ok () t ∧
      t.pos = s.pos + (l.flatMap fun x => x.2.1.bits s.params.clCodeOrder).length ∧
      (primary = true → ∀ x ∈ l, t.SlotHolds x.1 (x.2.1.lengths x.2.2)) ∧
      ∀ P : State → Prop, TreeClosed (treeSlots primary l) P → P s → P t := by
  induction l generalizing s with
  | nil => exact ⟨s, rfl, by simp, fun _ x hx => by simp at hx, fun P _ h => h⟩
  | cons x l ih =>
    obtain ⟨hx1, hx2, hx3⟩ := hl x List.mem_cons_self
    rw [List.flatMap_cons, State.hasBits_append] at hb
    rw [List.flatMap_cons, List.length_append] at hend ⊢
    rw [List.map_cons, List.nodup_cons] at hd
    obtain ⟨t, h1, h2, h3, h4⟩ := readTree_runs (u := if primary then x.1 else scratchSlot) ha hm hx2 hx1 hb.1 (by omega)
    have hS : s.Since t := h4 _ ((since_imageClosed s).tree.mono fun _ _ => trivial) (State.Since.refl (by omega) hm)
    have hp : t.params = s.params := hS.params
    have he : t.endPos = s.endPos := by unfold State.endPos; rw [hS.inLen]
    obtain ⟨w, g1, g2, g3, g4⟩ := ih (s := t) (by rw [hp]; exact ha) hS.mem
      (fun y hy => by rw [hp]; exact hl y (List.mem_cons_of_mem _ hy)) hd.2
      (by rw [hp, h2]; exact State.hasBits_congr hS.inp hb.2) (by rw [hp, h2, he]; omega)
    refine ⟨w, by rw [List.map_cons, readTrees, cmd_bind_of_ok h1]; exact g1, by rw [g2, h2, hp]; omega, ?_, ?_⟩
    · intro hpr y hy
      rcases List.mem_cons.1 hy with rfl | hy
      · subst hpr
        refine g4 (fun s => s.SlotHolds y.1 (y.2.1.lengths y.2.2)) (slotHolds_treeClosed ?_ _) (by simpa using h3)
        rintro (h | h)
        · exact hx3 h
        · exact hd.1 (by simpa using h)
      · exact g3 hpr y hy
    · intro P C hs
      refine g4 P (C.mono fun v hv => ?_) (h4 P (C.mono fun v hv => ?_) hs)
      · rcases hv with h | h
        · exact .inl h
        · refine .inr ?_
          cases primary with
          | true => simpa using .inr (by simpa using h)
          | false => simpa using h
      · rcases hv with h | h
        · exact .inl h
        · refine .inr ?_
          cases primary with
          | true => simpa using .inl h
          | false => simpa using h

theorem GroupCode.mem_trees {cs : Nat} {at_ : Bool} {g : GroupCode} {x : Fin 7 × TreeCode × Nat} :
    x ∈ g.trees cs at_ ↔ x = (0, g.green, 280 + cs) ∨ x = (1, g.red, 256) ∨ x = (2, g.blue, 256) ∨
      (at_ = true ∧ x = (3, g.alpha, 256)) ∨ x = (4, g.dist, 40) := by
  cases at_ <;> simp [GroupCode.trees]

theorem GroupCode.trees_ok {order : List Nat} {cs : Nat} {at_ : Bool} {g : GroupCode} (hg : g.Ok order cs at_)
    (hcs : cs ≤ 2048) : ∀ x ∈ g.trees cs at_, x.2.1.Ok order x.2.2 ∧ x.2.2 ≤ 4096 ∧ x.1 ≠ metaSlot := by
  intro x hx
  refine ⟨hg x hx, ?_⟩
  rcases GroupCode.mem_trees.1 hx with rfl | rfl | rfl | ⟨-, rfl⟩ | rfl
  all_goals exact ⟨by dsimp only; omega, by dsimp only; decide⟩

/-- The slots reading a group changes: the scratch slot is for the groups after the first (R327). -/
def groupSlots (primary : Bool) (v : Fin 7) : Prop := if primary then v ≠ scratchSlot else v = metaSlot ∨ v = scratchSlot

theorem GroupCode.slots {cs : Nat} {at_ primary : Bool} {g : GroupCode} (v : Fin 7)
    (h : treeSlots primary (g.trees cs at_) v) : groupSlots primary v := by
  cases primary with
  | false => simpa [treeSlots, groupSlots] using h
  | true =>
    rcases h with rfl | h
    · show (5 : Fin 7) ≠ 6; decide
    · show v ≠ 6
      rintro rfl
      have : (6 : Fin 7) ∈ (g.trees cs at_).map Prod.fst := by simpa using h
      cases at_ <;> simp [GroupCode.trees] at this

/-- A group, read from its bits (48_orchestrator.md R326, R327). -/
theorem readGroup_runs (primary : Bool) {s : State} {g : GroupCode} {cs : Nat} {at_ : Bool} (hcs : cs ≤ 2048)
    (ha : s.params.Admissible) (hm : s.MemWf) (hg : g.Ok s.params.clCodeOrder cs at_)
    (hb : s.HasBits s.pos (g.bits s.params.clCodeOrder cs at_))
    (hend : s.pos + (g.bits s.params.clCodeOrder cs at_).length ≤ s.endPos) :
    ∃ t, readGroup cs at_ primary s = .ok () t ∧ t.pos = s.pos + (g.bits s.params.clCodeOrder cs at_).length ∧
      (primary = true → (∀ x ∈ g.trees cs at_, t.SlotHolds x.1 (x.2.1.lengths x.2.2)) ∧
        (at_ = false → t.tabInfo[(3 : Fin 7)].valid = false)) ∧
      ∀ P : State → Prop, TreeClosed (groupSlots primary) P → P s → P t := by
  obtain ⟨t, h1, h2, h3, h4⟩ := readTrees_runs primary (g.trees cs at_) ha hm (GroupCode.trees_ok hg hcs)
    (by cases at_ <;> simp only [GroupCode.trees] <;> simp) hb hend
  have e : groupTrees cs at_ = (g.trees cs at_).map fun x => (x.1, x.2.2) := by
    cases at_ <;> rfl
  have keep : ∀ P : State → Prop, TreeClosed (groupSlots primary) P → P s → P t := fun P C hs =>
    h4 P (C.mono GroupCode.slots) hs
  unfold readGroup
  rw [e, cmd_bind_of_ok h1]
  by_cases hc : (primary && !at_) = true
  · rw [if_pos hc]
    simp only [Bool.and_eq_true, Bool.not_eq_true'] at hc
    obtain ⟨rfl, rfl⟩ := hc
    refine ⟨_, rfl, h2, fun _ => ⟨fun x hx => ?_, fun _ => ?_⟩, fun P C hs =>
      C.invalidate _ _ (by show (3 : Fin 7) ≠ 6; decide) (keep P C hs)⟩
    · refine (slotHolds_treeClosed (T := fun v => v = (3 : Fin 7)) ?_ _).invalidate t 3 rfl (h3 rfl x hx)
      rcases GroupCode.mem_trees.1 hx with rfl | rfl | rfl | ⟨hf, -⟩ | rfl
      · dsimp only; decide
      · dsimp only; decide
      · dsimp only; decide
      · cases hf
      · dsimp only; decide
    · show ((t.tabInfo.set (3 : Fin 7) _)[(3 : Fin 7)]).valid = false
      rw [vget_set_self]
  · rw [if_neg hc]
    refine ⟨t, rfl, h2, fun hp => ⟨h3 hp, fun hf => ?_⟩, keep⟩
    exact absurd (by rw [hp, hf]; rfl) hc

/-! ### The cache-size field -/

/-- The length of a cache-size field. -/
theorem length_cacheField (cache : Option Nat) : (cacheField cache).length = if cache = none then 1 else 5 := by
  cases cache <;> simp [cacheField, length_lsbBits]

/-- One bit, read. -/
theorem readBit_runs {s : State} {b : Nat} (hb : s.HasBits s.pos [b]) (hend : s.pos + 1 ≤ s.endPos) :
    readBits 1 s = .ok b (s.moveTo (s.pos + 1)) := by
  rw [readBits_ok (by decide) (by decide) hend]
  have h0 := hb 0 (by simp)
  have : s.field s.pos 1 = b := by
    rw [State.field_succ, State.field_zero]
    simpa using h0
  rw [this]

/-- A field of up to 16 bits, read. -/
theorem readField_runs {s : State} {x n : Nat} (h1 : 1 ≤ n) (h16 : n ≤ 16) (hx : x < 2 ^ n) (hb : s.HasBits s.pos (lsbBits x n))
    (hend : s.pos + n ≤ s.endPos) : readBits n s = .ok x (s.moveTo (s.pos + n)) := by
  rw [readBits_ok h1 h16 hend, State.field_of_lsbBits hb hx]

/-- The cache-size field, read from its bits (48_orchestrator.md R319). -/
theorem readCacheBits_runs {s : State} {cache : Option Nat} (hc : fieldBits cache ≤ 11) (hb : s.HasBits s.pos (cacheField cache))
    (hend : s.pos + (cacheField cache).length ≤ s.endPos) :
    readCacheBits s = .ok (fieldBits cache) (s.moveTo (s.pos + (cacheField cache).length)) := by
  have hlt := s.endPos_lt
  unfold readCacheBits
  cases cache with
  | none =>
    have hend : s.pos + 1 ≤ s.endPos := hend
    rw [cmd_bind_of_ok (readBit_runs hb hend), if_pos rfl]; rfl
  | some cb =>
    have hc : cb ≤ 11 := hc
    have e : cacheField (some cb) = [1] ++ lsbBits cb 4 := rfl
    rw [e] at hb hend ⊢
    rw [State.hasBits_append] at hb
    simp only [List.length_append, List.length_singleton, length_lsbBits] at hb hend ⊢
    have hp : (s.moveTo (s.pos + 1)).pos = s.pos + 1 := State.pos_moveTo _ (by omega)
    rw [cmd_bind_of_ok (readBit_runs hb.1 (by omega)), if_neg (by decide),
      cmd_bind_of_ok (readField_runs (x := cb) (by decide) (by decide) (by omega) (by rw [hp]; exact hb.2)
        (by rw [hp]; show _ ≤ s.endPos; omega)),
      cmd_bind_of_ok (raiseIf_of_not (by show ¬ 11 < cb; omega) _ _ _), hp]
    rfl

/-! ### Pixels -/

/-- What a pixel stream into `buf` has drawn, and what it draws from: the group's tables and a cache of `bits` index bits. -/
structure State.Drawing (s : State) (buf : Space) (g : GroupCode) (at_ : Bool) (bits : Nat) (c : Canvas) : Prop where
  mem    : s.MemWf
  tables : ∀ x ∈ g.trees (cacheSize bits) at_, s.SlotHolds x.1 (x.2.1.lengths x.2.2)
  ccBits : s.ccBits.toNat = bits
  px     : s.SpaceHolds buf c.px
  cache  : ∀ j, s.cache.read .cache j = c.cache j

theorem State.Drawing.moveTo {s : State} {buf : Space} {g : GroupCode} {at_ : Bool} {bits : Nat} {c : Canvas}
    (h : s.Drawing buf g at_ bits c) (q : Nat) : (s.moveTo q).Drawing buf g at_ bits c :=
  ⟨h.1, h.2, h.3, h.4, h.5⟩

theorem elem_setElem_target {buf : Space} (hb : IsTarget buf) {s : State} (hm : s.MemWf) (i : Nat) (v : Word) :
    (s.setElem buf i v).elem buf i = v := by
  rcases hb with rfl | ⟨k, rfl⟩ | rfl
  · exact State.elem_setElem_pix hm.2.2.1 _ _
  · exact State.elem_setElem_sub (hm.2.2.2.2.2.2.1 k) _ _
  · exact State.elem_setElem_ent hm.2.2.2.1 _ _

theorem elem_cacheInsert {buf : Space} (hb : IsTarget buf) (s : State) (p : Word) (i : Nat) :
    (s.cacheInsert p).elem buf i = s.elem buf i := by
  rcases hb with rfl | ⟨k, rfl⟩ | rfl <;> rw [cacheInsert_frame] <;> rfl

theorem setElem_cache {buf : Space} (hb : IsTarget buf) (s : State) (i : Nat) (v : Word) :
    (s.setElem buf i v).cache = s.cache := by
  rcases hb with rfl | ⟨k, rfl⟩ | rfl <;> rfl

/-- One pixel drawn at the end (48_orchestrator.md R331, R333; 45_lz77.md R235). -/
theorem State.Drawing.emit {s : State} {buf : Space} {g : GroupCode} {at_ : Bool} {bits : Nat} {c : Canvas}
    (h : s.Drawing buf g at_ bits c) (hb : IsTarget buf) (p : Word) :
    (s.emitPixel buf c.px.length p).Drawing buf g at_ bits (c.put bits p) := by
  have hm : (s.setElem buf c.px.length p).MemWf := (memWf_imageClosed.stream buf hb).setElem _ _ _ h.mem
  obtain ⟨h1, h2, h3⟩ := setElem_tab hb s c.px.length p
  refine ⟨(memWf_imageClosed.stream buf hb).cacheInsert _ _ hm, fun x hx => ?_, ?_, fun i hi => ?_, fun j => ?_⟩
  · have := h.tables x hx
    unfold State.SlotHolds State.emitPixel at *
    rw [cacheInsert_tab, cacheInsert_tabInfo, h1, h2]; exact this
  · unfold State.emitPixel; rw [cacheInsert_ccBits, h3]; exact h.ccBits
  · have hi : i < c.px.length + 1 := by simpa [Canvas.put] using hi
    unfold State.emitPixel
    rw [elem_cacheInsert hb]
    simp only [Canvas.put]
    by_cases hlt : i < c.px.length
    · rw [List.getElem_append_left hlt, State.elem_setElem_ne _ (by omega)]; exact h.px i hlt
    · obtain rfl : i = c.px.length := by omega
      rw [elem_setElem_target hb h.mem]; simp
  · unfold State.emitPixel
    simp only [Canvas.put]
    by_cases hz : s.ccBits = 0
    · have hz' : (s.setElem buf c.px.length p).ccBits = 0 := h3.trans hz
      have : bits = 0 := by rw [← h.ccBits, hz]; rfl
      rw [cacheInsert_disabled hz', setElem_cache hb, h.cache j, if_neg (by omega)]
    · have hz' : (s.setElem buf c.px.length p).ccBits ≠ 0 := by rw [h3]; exact hz
      have hbit : bits ≠ 0 := by rw [← h.ccBits]; exact ccBits_toNat_ne hz
      rw [cacheInsert_enabled hz', cacheHash_eq hz', h3, h.ccBits]
      show ((s.setElem buf c.px.length p).cache.write _ p).read .cache j = _
      rw [setElem_cache hb]
      by_cases hj : j = p.toNat * 0x1E35A7BD % 2 ^ 32 / 2 ^ (32 - bits)
      · rw [if_pos ⟨hbit, hj⟩, hj, Memory.read_write_self _ h.mem.2.2.2.2.2.1]
      · rw [if_neg (fun x => hj x.2), Memory.read_write_ne _ _ hj]; exact h.cache j

/-- A run of pixels copied from `dist` pixels back (45_lz77.md R235). -/
theorem State.Drawing.copy {buf : Space} {g : GroupCode} {at_ : Bool} {bits dist : Nat} (hb : IsTarget buf) (n : Nat) {s : State}
    {c : Canvas} (h : s.Drawing buf g at_ bits c) (hd1 : 1 ≤ dist) (hd : dist ≤ c.px.length) :
    (s.copyRun buf c.px.length dist true n).Drawing buf g at_ bits (c.copy bits dist n) := by
  induction n generalizing s c with
  | zero => exact h
  | succ n ih =>
    have e : s.copyPixel buf c.px.length dist true = s.emitPixel buf c.px.length (c.px.getD (c.px.length - dist) 0) := by
      have := h.px (c.px.length - dist) (by omega)
      unfold State.copyPixel
      rw [this, List.getD_eq_getElem _ _ (by omega)]; rfl
    have hl : (c.put bits (c.px.getD (c.px.length - dist) 0)).px.length = c.px.length + 1 := by simp [Canvas.put]
    have := ih (h.emit hb (c.px.getD (c.px.length - dist) 0)) (by omega)
    rw [hl] at this
    unfold State.copyRun Canvas.copy
    rw [e]; exact this

theorem Canvas.length_copy (bits dist n : Nat) (c : Canvas) : (c.copy bits dist n).px.length = c.px.length + n := by
  induction n generalizing c with
  | zero => rfl
  | succ n ih => rw [Canvas.copy, ih]; simp [Canvas.put]; omega

theorem Canvas.length_token (bits : Nat) (c : Canvas) (t : PixelToken) :
    (c.token bits t).px.length = c.px.length + t.size := by
  cases t with
  | literal p => simp [Canvas.token, Canvas.put, PixelToken.size]
  | backRef k x d y => exact Canvas.length_copy _ _ _ _
  | cacheRef j => simp [Canvas.token, Canvas.put, PixelToken.size]

/-- A symbol of a tree of the group, read at bit `q` (42_huffman.md R175). -/
theorem decodeSym_runs {s : State} {t : Fin 7} {L : List Byte} (hs : s.SlotHolds t L) (hL : Buildable L) (hn : L.length ≤ 4096)
    {i q : Nat} (h0 : lengthAt L i ≠ 0) (hb : s.HasBits q (codeBits L i)) (hend : q + lengthAt L i ≤ s.endPos) :
    decodeSym t (s.moveTo q) = .ok i (s.moveTo (q + lengthAt L i)) := by
  have hlt := s.endPos_lt
  have hp : (s.moveTo q).pos = q := State.pos_moveTo _ (by omega)
  have := decodeSym_holds (s := s.moveTo q) (t := t) hs hL hn h0 (by rw [hp]; exact hb) (by rw [hp]; exact hend)
  rw [hp] at this
  exact this

/-- A value by its prefix code, read at bit `q` (45_lz77.md R231, R232). -/
theorem prefixValue_runs {s : State} {c x q : Nat} (hc : c ≤ 39) (hx : x < 2 ^ prefixExtra c)
    (hb : s.HasBits q (lsbBits x (prefixExtra c))) (hend : q + prefixExtra c ≤ s.endPos) :
    prefixValue c (s.moveTo q) = .ok (prefixBase c + x) (s.moveTo (q + prefixExtra c)) := by
  have hlt := s.endPos_lt
  have hp : (s.moveTo q).pos = q := State.pos_moveTo _ (by omega)
  unfold prefixValue
  rw [cmd_bind_of_ok (readExtra_ok (prefix_range c hc).2.1 (by rw [hp]; exact hend)), hp]
  simp only [State.moveTo_field, State.moveTo_moveTo]
  rw [State.field_of_lsbBits hb hx]
  rfl

/-- A pixel is packed from its channels. -/
theorem mkPix_chan (p : Word) (a : Nat) (ha : chan p 24 = a) : mkPix (BitVec.ofNat 8 a) (BitVec.ofNat 8 (chan p 16))
    (BitVec.ofNat 8 (chan p 8)) (BitVec.ofNat 8 (chan p 0)) = p := by
  obtain ⟨c1, c2, c3, c4⟩ := chan_mkPix (BitVec.ofNat 8 a) (BitVec.ofNat 8 (chan p 16)) (BitVec.ofNat 8 (chan p 8))
    (BitVec.ofNat 8 (chan p 0))
  have l1 := chan_lt p 24
  have l2 := chan_lt p 16
  have l3 := chan_lt p 8
  have l4 := chan_lt p 0
  simp only [BitVec.toNat_ofNat] at c1 c2 c3 c4
  exact pix_ext (by omega) (by omega) (by omega) (by omega)

/-- The tables of a drawing decode the codes of its group. -/
theorem State.Drawing.tree {s : State} {buf : Space} {g : GroupCode} {at_ : Bool} {bits : Nat} {c : Canvas}
    (h : s.Drawing buf g at_ bits c) (hg : g.Ok s.params.clCodeOrder (cacheSize bits) at_) (hcs : cacheSize bits ≤ 2048)
    {x : Fin 7 × TreeCode × Nat} (hx : x ∈ g.trees (cacheSize bits) at_) :
    s.SlotHolds x.1 (x.2.1.lengths x.2.2) ∧ Buildable (x.2.1.lengths x.2.2) ∧ (x.2.1.lengths x.2.2).length ≤ 4096 := by
  obtain ⟨h1, h2, -⟩ := GroupCode.trees_ok hg hcs x hx
  exact ⟨h.tables x hx, h1.1, by rw [TreeCode.length_lengths h1]; exact h2⟩

/-- Drawing a pixel leaves the cursor. -/
theorem emitPixel_pos {buf : Space} (hbuf : IsTarget buf) (s : State) (i : Nat) (p : Word) : (s.emitPixel buf i p).pos = s.pos := by
  unfold State.emitPixel
  rw [cacheInsert_frame]
  rcases hbuf with rfl | ⟨k, rfl⟩ | rfl <;> rfl

theorem copyRun_pos {buf : Space} (hbuf : IsTarget buf) (dist n : Nat) (s : State) (i : Nat) :
    (s.copyRun buf i dist true n).pos = s.pos := by
  induction n generalizing s i with
  | zero => rfl
  | succ n ih => exact (ih _ _).trans (emitPixel_pos hbuf _ _ _)

/-- One token of a pixel stream, read from its bits at bit `q` (48_orchestrator.md R330 to R333). -/
theorem pixelToken_runs {s : State} {buf : Space} (hbuf : IsTarget buf) {g : GroupCode} {at_ : Bool} {bits n q : Nat}
    {c : Canvas} (h : s.Drawing buf g at_ bits c) (hg : g.Ok s.params.clCodeOrder (cacheSize bits) at_)
    (hcs : cacheSize bits ≤ 2048) {t : PixelToken}
    (ht : t.Legal g (cacheSize bits) at_ s.params.lzMaxDistance n c.px.length) (hq : s.pos ≤ q)
    (hb : s.HasBits q (t.bits g (cacheSize bits) at_)) (hend : q + (t.bits g (cacheSize bits) at_).length ≤ s.endPos) :
    ∃ u, pixelToken buf n at_ c.px.length (s.moveTo q) = .ok (c.px.length + t.size) u ∧
      u.pos = q + (t.bits g (cacheSize bits) at_).length ∧ u.Drawing buf g at_ bits (c.token bits t) ∧
      ∀ P : State → Prop, StreamClosed buf P → P s → P u := by
  have hlt := s.endPos_lt
  have T := fun {x} hx => h.tree hg hcs (x := x) hx
  obtain ⟨G1, G2, G3⟩ := T (GroupCode.mem_trees.2 (.inl rfl))
  obtain ⟨R1, R2, R3⟩ := T (GroupCode.mem_trees.2 (.inr (.inl rfl)))
  obtain ⟨B1, B2, B3⟩ := T (GroupCode.mem_trees.2 (.inr (.inr (.inl rfl))))
  obtain ⟨D1, D2, D3⟩ := T (GroupCode.mem_trees.2 (.inr (.inr (.inr (.inr rfl)))))
  dsimp only at G1 G2 G3 R1 R2 R3 B1 B2 B3 D1 D2 D3
  have emitPos : ∀ (q : Nat) (p : Word), q ≤ s.endPos → ((s.moveTo q).emitPixel buf c.px.length p).pos = q := fun q p hq =>
    (emitPixel_pos hbuf _ _ _).trans (State.pos_moveTo _ (by omega))
  have emitKeep : ∀ (q : Nat) (p : Word), s.pos ≤ q → q ≤ s.endPos → ∀ P : State → Prop, StreamClosed buf P → P s →
      P ((s.moveTo q).emitPixel buf c.px.length p) := fun q p h1 h2 P C hs =>
    C.cacheInsert _ _ (C.setElem _ _ _ (C.move s q hs h2 h1))
  unfold pixelToken
  cases t with
  | literal p =>
    obtain ⟨l1, l2, l3, l4⟩ := ht
    have eb : PixelToken.bits g (cacheSize bits) at_ (.literal p) = codeBits (g.green.lengths (280 + cacheSize bits)) (chan p 8) ++
      codeBits (g.red.lengths 256) (chan p 16) ++ codeBits (g.blue.lengths 256) (chan p 0) ++
        (if at_ then codeBits (g.alpha.lengths 256) (chan p 24) else []) := rfl
    rw [eb] at hb hend ⊢
    simp only [List.length_append, length_codeBits] at hend ⊢
    rw [State.hasBits_append, State.hasBits_append, State.hasBits_append] at hb
    simp only [List.length_append, length_codeBits] at hb
    obtain ⟨⟨⟨b1, b2⟩, b3⟩, b4⟩ := hb
    have hg8 := chan_lt p 8
    rw [cmd_bind_of_ok (decodeSym_runs G1 G2 G3 l1 b1 (by omega)), if_pos hg8]
    unfold literalToken
    rw [cmd_bind_of_ok (decodeSym_runs R1 R2 R3 l2 b2 (by omega)),
      cmd_bind_of_ok (decodeSym_runs B1 B2 B3 l3 (by rw [Nat.add_assoc]; exact b3) (by omega))]
    have al : ∃ a, a = chan p 24 ∧ alphaSym at_ (s.moveTo (q + lengthAt (g.green.lengths (280 + cacheSize bits)) (chan p 8) +
        lengthAt (g.red.lengths 256) (chan p 16) + lengthAt (g.blue.lengths 256) (chan p 0))) = .ok a
        (s.moveTo (q + lengthAt (g.green.lengths (280 + cacheSize bits)) (chan p 8) +
        lengthAt (g.red.lengths 256) (chan p 16) + lengthAt (g.blue.lengths 256) (chan p 0) +
          (if at_ then codeBits (g.alpha.lengths 256) (chan p 24) else []).length)) := by
      cases at_ with
      | false => exact ⟨0xFF, l4.symm, rfl⟩
      | true =>
        obtain ⟨A1, A2, A3⟩ := T (GroupCode.mem_trees.2 (.inr (.inr (.inr (.inl ⟨rfl, rfl⟩)))))
        dsimp only at A1 A2 A3
        refine ⟨chan p 24, rfl, ?_⟩
        simp only [if_true, length_codeBits] at l4 b4 hend ⊢
        exact decodeSym_runs A1 A2 A3 l4 (by rw [show ∀ a b d : Nat, q + a + b + d = q + (a + b + d) by intros; omega]; exact b4) (by omega)
    obtain ⟨a, ha, hal⟩ := al
    rw [cmd_bind_of_ok hal, mkPix_chan p a ha.symm, cmd_bind_of_ok (update_apply _ _)]
    refine ⟨_, rfl, by rw [emitPos _ _ (by omega)]; omega, (h.moveTo _).emit hbuf p, emitKeep _ _ (by omega) (by omega)⟩
  | backRef k x d y =>
    obtain ⟨k24, hx, d40, hy, l1, l2, l3, l4, l5⟩ := ht
    have eb : PixelToken.bits g (cacheSize bits) at_ (.backRef k x d y) = codeBits (g.green.lengths (280 + cacheSize bits)) (256 + k) ++
      lsbBits x (prefixExtra k) ++ codeBits (g.dist.lengths 40) d ++ lsbBits y (prefixExtra d) := rfl
    rw [eb] at hb hend ⊢
    simp only [List.length_append, length_codeBits, length_lsbBits] at hend ⊢
    rw [State.hasBits_append, State.hasBits_append, State.hasBits_append] at hb
    simp only [List.length_append, length_codeBits, length_lsbBits] at hb
    obtain ⟨⟨⟨b1, b2⟩, b3⟩, b4⟩ := hb
    rw [cmd_bind_of_ok (decodeSym_runs G1 G2 G3 l1 b1 (by omega)), if_neg (by omega), if_pos (by omega),
      show 256 + k - 256 = k by omega]
    unfold backRefToken
    rw [cmd_bind_of_ok (prefixValue_runs (by omega) hx b2 (by omega)),
      cmd_bind_of_ok (decodeSym_runs D1 D2 D3 l2 (by rw [Nat.add_assoc]; exact b3) (by omega)),
      cmd_bind_of_ok (prefixValue_runs (by omega) hy
        (by rw [show ∀ a b d : Nat, q + a + b + d = q + (a + b + d) by intros; omega]; exact b4) (by omega))]
    obtain ⟨r1, -, r3⟩ := prefix_range k (by omega)
    obtain ⟨r1', -, -⟩ := prefix_range d (by omega)
    have r3 := r3 k24
    rw [cmd_bind_of_ok (t := _) (by
      rw [lzCopy_apply, if_neg (by show ¬ (_ ∨ s.params.lzMaxDistance < _); omega), if_neg (by omega),
        if_neg (by show ¬ (_ ∨ 4096 < _); omega), if_neg (by omega)])]
    have hcopy := (h.moveTo (q + lengthAt (g.green.lengths (280 + cacheSize bits)) (256 + k) + prefixExtra k +
      lengthAt (g.dist.lengths 40) d + prefixExtra d)).copy hbuf (prefixBase k + x) (dist := prefixBase d + y) (by omega) l4
    exact ⟨_, rfl, (copyRun_pos hbuf _ _ _ _).trans ((State.pos_moveTo _ (by omega)).trans (by omega)), hcopy, fun P C hs =>
      copyRun_closed C true _ (C.move s _ hs (by omega) (by omega))⟩
  | cacheRef j =>
    obtain ⟨hj, l1⟩ := ht
    have eb : PixelToken.bits g (cacheSize bits) at_ (.cacheRef j) = codeBits (g.green.lengths (280 + cacheSize bits)) (280 + j) := rfl
    rw [eb] at hb hend ⊢
    simp only [length_codeBits] at hend ⊢
    rw [cmd_bind_of_ok (decodeSym_runs G1 G2 G3 l1 hb (by omega)), if_neg (by omega), if_neg (by omega),
      show 280 + j - 280 = j by omega]
    unfold cacheRefToken
    have hcc : (s.moveTo (q + lengthAt (g.green.lengths (280 + cacheSize bits)) (280 + j))).ccSize = cacheSize bits := by
      show cacheSize s.ccBits.toNat = _; rw [h.ccBits]
    rw [cmd_bind_of_ok (by rw [cacheGet_apply, if_neg (by rw [hcc]; omega)]), cmd_bind_of_ok (update_apply _ _)]
    have hcj : (s.moveTo (q + lengthAt (g.green.lengths (280 + cacheSize bits)) (280 + j))).cache.read .cache j = c.cache j := h.cache j
    rw [hcj]
    refine ⟨_, rfl, by rw [emitPos _ _ (by omega)], (h.moveTo _).emit hbuf _, emitKeep _ _ (by omega) (by omega)⟩

theorem PixelToken.size_pos {g : GroupCode} {cs : Nat} {at_ : Bool} {maxDist n pos : Nat} {t : PixelToken}
    (h : t.Legal g cs at_ maxDist n pos) : 1 ≤ t.size := by
  cases t with
  | literal p => exact Nat.le_refl _
  | backRef c x d y => exact Nat.le_add_right_of_le (prefix_range c (by have := h.1; omega)).1
  | cacheRef j => exact Nat.le_refl _

/-- The tokens of a buffer of `n` pixels draw `n` pixels. -/
theorem TokensOk.length {g : GroupCode} {cs : Nat} {at_ : Bool} {maxDist n bits : Nat} {ts : List PixelToken} {c : Canvas}
    (h : TokensOk g cs at_ maxDist n c.px.length ts) : (ts.foldl (Canvas.token bits) c).px.length = n := by
  induction ts generalizing c with
  | nil => exact h
  | cons t ts ih => exact ih (c := c.token bits t) (by rw [Canvas.length_token]; exact h.2.2)

/-- The tokens of a buffer, read from their bits (48_orchestrator.md R330). -/
theorem pixelLoop_runs {buf : Space} (hbuf : IsTarget buf) {g : GroupCode} {at_ : Bool} {bits n : Nat}
    (hcs : cacheSize bits ≤ 2048) (ts : List PixelToken) {s : State} {c : Canvas} (h : s.Drawing buf g at_ bits c)
    (hg : g.Ok s.params.clCodeOrder (cacheSize bits) at_)
    (ht : TokensOk g (cacheSize bits) at_ s.params.lzMaxDistance n c.px.length ts) {fuel : Nat} (hf : n ≤ c.px.length + fuel)
    (hb : s.HasBits s.pos (ts.flatMap (PixelToken.bits g (cacheSize bits) at_)))
    (hend : s.pos + (ts.flatMap (PixelToken.bits g (cacheSize bits) at_)).length ≤ s.endPos) :
    ∃ u, pixelLoop buf n at_ fuel c.px.length s = .ok () u ∧
      u.pos = s.pos + (ts.flatMap (PixelToken.bits g (cacheSize bits) at_)).length ∧
      u.Drawing buf g at_ bits (ts.foldl (Canvas.token bits) c) ∧ ∀ P : State → Prop, StreamClosed buf P → P s → P u := by
  induction ts generalizing s c fuel with
  | nil =>
    refine ⟨s, ?_, by simp, h, fun P _ hs => hs⟩
    have : c.px.length = n := ht
    cases fuel with
    | zero => rfl
    | succ fuel => rw [pixelLoop, if_neg (by omega)]; rfl
  | cons t ts ih =>
    obtain ⟨hlt, hl, hr⟩ := ht
    obtain ⟨fuel, rfl⟩ : ∃ f, fuel = f + 1 := ⟨fuel - 1, by omega⟩
    rw [List.flatMap_cons, State.hasBits_append] at hb
    rw [List.flatMap_cons, List.length_append] at hend ⊢
    obtain ⟨v, e, hp, hv, hk⟩ := pixelToken_runs hbuf h hg hcs hl (Nat.le_refl _) hb.1 (by omega)
    rw [State.moveTo_pos_self] at e
    have S : s.Since v := hk _ ((since_imageClosed s).stream buf hbuf) (State.Since.refl (by omega) h.mem)
    have he : v.endPos = s.endPos := by unfold State.endPos; rw [S.inLen]
    have hsz := PixelToken.size_pos hl
    obtain ⟨u, e', hp', hu, hk'⟩ := ih hv (by rw [S.params]; exact hg)
      (by rw [S.params, Canvas.length_token]; exact hr) (fuel := fuel) (by rw [Canvas.length_token]; omega)
      (by rw [hp]; exact State.hasBits_congr S.inp hb.2) (by rw [hp, he]; omega)
    refine ⟨u, ?_, by omega, hu, fun P C hs => hk' P C (hk P C hs)⟩
    rw [pixelLoop, if_pos hlt, cmd_bind_of_ok e, ← Canvas.length_token bits]
    exact e'

/-- The tables a primary group leaves in its slots. -/
def State.TablesHold (s : State) (g : GroupCode) (cs : Nat) (at_ : Bool) : Prop :=
  ∀ x ∈ g.trees cs at_, s.SlotHolds x.1 (x.2.1.lengths x.2.2)

/-- A cleared cache and the tokens of a buffer after it. -/
theorem cachedStream_runs {buf : Space} (hbuf : IsTarget buf) {g : GroupCode} {at_ : Bool} {bits n : Nat} (hbits : bits ≤ 11)
    (ts : List PixelToken) {s : State} (hm : s.MemWf) (hT : s.TablesHold g (cacheSize bits) at_)
    (hg : g.Ok s.params.clCodeOrder (cacheSize bits) at_)
    (ht : TokensOk g (cacheSize bits) at_ s.params.lzMaxDistance n 0 ts)
    (hb : s.HasBits s.pos (ts.flatMap (PixelToken.bits g (cacheSize bits) at_)))
    (hend : s.pos + (ts.flatMap (PixelToken.bits g (cacheSize bits) at_)).length ≤ s.endPos) :
    ∃ u, cacheInit bits s = .ok () (s.clearCache bits) ∧ pixelStream buf n at_ (s.clearCache bits) = .ok () u ∧
      u.pos = s.pos + (ts.flatMap (PixelToken.bits g (cacheSize bits) at_)).length ∧
      u.Drawing buf g at_ bits (drawTokens bits ts) ∧ ∀ P : State → Prop, StreamClosed buf P → P (s.clearCache bits) → P u := by
  have h0 : (s.clearCache bits).Drawing buf g at_ bits .empty :=
    ⟨memWf_imageClosed.clearCache s bits hm hbits, hT, by
      show (BitVec.ofNat 4 bits).toNat = bits; rw [BitVec.toNat_ofNat]; omega, fun i hi => absurd hi (Nat.not_lt_zero i), fun j => rfl⟩
  obtain ⟨u, e, h1, h2, h3⟩ := pixelLoop_runs hbuf (Closed.cacheSize_le hbits) ts h0 hg ht (fuel := n) (by omega) hb hend
  exact ⟨u, cacheInit_ok hbits s, e, h1, h2, h3⟩

/-! ### Sub-images -/

/-- A property that reading a sub-image into `dst` keeps. -/
structure SubClosed (dst : Space) (P : State → Prop) : Prop where
  tree       : TreeClosed (fun _ => True) P
  clearCache : ∀ s b, P s → b ≤ Config.cacheMaxBits → P (s.clearCache b)
  stream     : StreamClosed dst P

theorem ImageClosed.sub (C : ImageClosed P) {dst : Space} (h : IsTarget dst) : SubClosed dst P :=
  ⟨C.tree, C.clearCache, C.stream dst h⟩

/-- A sub-image, read from its bits (48_orchestrator.md R320, R321). -/
theorem entropyImage_runs {dst : Space} (hd : IsTarget dst) {s : State} {m : SubImage} {w h : Nat}
    (ha : s.params.Admissible) (hm : s.MemWf) (hok : m.Ok s.params (w * h)) (hb : s.HasBits s.pos (m.bits s.params.clCodeOrder))
    (hend : s.pos + (m.bits s.params.clCodeOrder).length ≤ s.endPos) :
    ∃ u, entropyImage w h dst s = .ok () u ∧ u.pos = s.pos + (m.bits s.params.clCodeOrder).length ∧
      u.SpaceHolds dst m.words ∧ m.words.length = w * h ∧ ∀ P : State → Prop, SubClosed dst P → P s → P u := by
  have hlt := s.endPos_lt
  obtain ⟨h1, h2, h3, h4⟩ := hok
  have hcs := Closed.cacheSize_le (bits := fieldBits m.cache) h2
  unfold SubImage.bits at hb hend ⊢
  rw [State.hasBits_append, State.hasBits_append] at hb
  simp only [List.length_append] at hb hend ⊢
  obtain ⟨⟨b1, b2⟩, b3⟩ := hb
  have e1 := readCacheBits_runs h2 b1 (by omega)
  have p1 : (s.moveTo (s.pos + (cacheField m.cache).length)).pos = s.pos + (cacheField m.cache).length :=
    State.pos_moveTo _ (by omega)
  obtain ⟨v, e2, p2, T, K⟩ := readGroup_runs true (s := s.moveTo (s.pos + (cacheField m.cache).length)) hcs ha hm h3
    (by rw [p1]; exact b2) (by rw [p1]; simp only [State.moveTo_params]; show _ ≤ s.endPos; omega)
  rw [p1] at p2
  simp only [State.moveTo_params] at p2
  have S : s.Since v := K _ ((since_imageClosed s).tree.mono fun _ _ => trivial)
    ((since_imageClosed s).tree.move s _ (State.Since.refl (by omega) hm) (by omega) (by omega))
  have he : v.endPos = s.endPos := by unfold State.endPos; rw [S.inLen]
  obtain ⟨u, e3, e4, p3, D, K'⟩ := cachedStream_runs hd (g := m.codes) (at_ := true) (n := w * h) h2 m.tokens S.mem (T rfl).1
    (by rw [S.params]; exact h3) (by rw [S.params]; exact h4)
    (by rw [p2, Nat.add_assoc]; exact State.hasBits_congr S.inp b3) (by rw [p2, he]; omega)
  refine ⟨u, ?_, by omega, D.px, TokensOk.length (bits := fieldBits m.cache) (c := .empty) h4, fun P C hs => ?_⟩
  · unfold entropyImage
    rw [cmd_bind_of_ok (readState_apply _ _), cmd_bind_of_ok (raiseIf_of_not (by omega) _ _ _), cmd_bind_of_ok e1,
      cmd_bind_of_ok e2, cmd_bind_of_ok e3]
    exact e4
  · exact K' P C.stream (C.clearCache _ _ (K P (C.tree.mono fun _ _ => trivial) (C.tree.move s _ hs (by omega) (by omega))) h2)

/-! ### What a sub-image leaves of the other spaces -/

theorem spaceHolds_treeClosed (T : Fin 7 → Prop) {sp : Space} (h : IsTarget sp) (vs : List Word) :
    TreeClosed T fun s => s.SpaceHolds sp vs := by
  rcases h with rfl | ⟨k, rfl⟩ | rfl <;>
    exact ⟨fun _ _ h _ _ => h, fun _ _ _ h => h, fun _ h => h, fun _ _ _ h => h, fun _ _ _ h => h, fun _ _ _ h => h,
      fun _ _ _ _ h _ => h⟩

theorem spaceHolds_streamClosed {dst sp : Space} (h : IsTarget sp) (hne : sp ≠ dst) (vs : List Word) :
    StreamClosed dst fun s => s.SpaceHolds sp vs where
  move _ _ hs _ _ := by rcases h with rfl | ⟨k, rfl⟩ | rfl <;> exact hs
  setElem _ _ _ hs i hi := (State.elem_setElem_ne _ (fun x => hne x.1) _).trans (hs i hi)
  cacheInsert _ _ hs i hi := (elem_cacheInsert h _ _ _).trans (hs i hi)

theorem spaceHolds_subClosed {dst sp : Space} (h : IsTarget sp) (hne : sp ≠ dst) (vs : List Word) :
    SubClosed dst fun s => s.SpaceHolds sp vs :=
  ⟨spaceHolds_treeClosed _ h vs, fun _ _ hs _ => by rcases h with rfl | ⟨k, rfl⟩ | rfl <;> exact hs,
    spaceHolds_streamClosed h hne vs⟩

/-! ### The transform list -/

theorem length_sumEntries (ws : List Word) (prev : Word) : (sumEntries prev ws).length = ws.length := by
  induction ws generalizing prev with
  | nil => rfl
  | cons q r ih => simp [sumEntries, ih]

theorem length_paletteEntries (ws : List Word) : (paletteEntries ws).length = ws.length := by
  cases ws <;> simp [paletteEntries, length_sumEntries]

theorem sumEntries_succ (ws : List Word) (prev : Word) (i : Nat) (h : i + 1 < ws.length) :
    (sumEntries prev ws).getD (i + 1) 0 = addPix ws[i + 1] ((sumEntries prev ws).getD i 0) := by
  induction ws generalizing prev i with
  | nil => simp at h
  | cons q r ih =>
    cases i with
    | zero =>
      cases r with
      | nil => simp at h
      | cons q' r => simp [sumEntries]
    | succ i => simpa [sumEntries] using ih (addPix q prev) i (by simpa using h)

/-- An entry of the palette is its difference added to the entry before it (48_orchestrator.md R317). -/
theorem paletteEntries_succ (ws : List Word) (i : Nat) (h : i + 1 < ws.length) :
    (paletteEntries ws).getD (i + 1) 0 = addPix ws[i + 1] ((paletteEntries ws).getD i 0) := by
  cases ws with
  | nil => simp at h
  | cons q r =>
    cases i with
    | zero =>
      cases r with
      | nil => simp at h
      | cons q' r => simp [paletteEntries, sumEntries]
    | succ i => simpa [paletteEntries] using sumEntries_succ r q i (by simpa using h)

/-- The block bits and the sub-image of a predictor or color transform, read from their bits (48_orchestrator.md R316). -/
theorem readBlockPayload_runs {s : State} {k : Fin 4} {m : SubImage} {w h b : Nat} (ha : s.params.Admissible) (hm : s.MemWf)
    (hb8 : b < 8) (hok : m.Ok s.params (gridCount w h b)) (hb : s.HasBits s.pos (lsbBits b 3 ++ m.bits s.params.clCodeOrder))
    (hend : s.pos + (lsbBits b 3 ++ m.bits s.params.clCodeOrder).length ≤ s.endPos) :
    ∃ u, readBlockPayload k w h s = .ok () (u.setDesc k { u.xfDesc[k] with blockBits := BitVec.ofNat 4 (b + 2) }) ∧
      u.pos = s.pos + (lsbBits b 3 ++ m.bits s.params.clCodeOrder).length ∧ u.SpaceHolds (.sub k) m.words ∧
      ∀ P : State → Prop, SubClosed (.sub k) P → P s → P u := by
  have hlt := s.endPos_lt
  rw [State.hasBits_append, length_lsbBits] at hb
  rw [List.length_append, length_lsbBits] at hend ⊢
  have p1 : (s.moveTo (s.pos + 3)).pos = s.pos + 3 := State.pos_moveTo _ (by omega)
  obtain ⟨u, e, h1, h2, -, h4⟩ := entropyImage_runs (.inr (.inl ⟨k, rfl⟩)) (s := s.moveTo (s.pos + 3)) ha hm hok
    (by rw [p1]; exact hb.2) (by rw [p1]; show _ ≤ s.endPos; simp only [State.moveTo_params]; omega)
  rw [p1, State.moveTo_params] at h1
  refine ⟨u, ?_, by omega, h2, fun P C hs => h4 P C (C.tree.move s _ hs (by omega) (by omega))⟩
  unfold readBlockPayload
  rw [cmd_bind_of_ok (readField_runs (by decide) (by decide) hb8 hb.1 (by omega)), cmd_bind_of_ok e]
  rfl

/-- The delta decoding of a palette (48_orchestrator.md R317). -/
theorem deltaEntries_runs {k : Fin 4} {ws : List Word} {s : State} (hm : s.MemWf) (hs : s.SpaceHolds (.sub k) ws)
    (hw : 1 ≤ ws.length) :
    ∃ u, forRange (fun i => update fun s => s.deltaEntry k i) (ws.length - 1) 1 s = .ok () u ∧ u.pos = s.pos ∧
      u.SpaceHolds (.sub k) (paletteEntries ws) ∧ ∀ P : State → Prop, StreamClosed (.sub k) P → P s → P u := by
  have h0 : (paletteEntries ws).getD 0 0 = ws[0] := by cases ws with
    | nil => simp at hw
    | cons q r => rfl
  obtain ⟨u, e, hp, -, hu, hk⟩ := forRange_ok (lo := 1) (s := s) (f := fun i => update fun s => s.deltaEntry k i)
    (P := fun i t => t.pos = s.pos ∧ t.MemWf ∧ (∀ j (hj : j < ws.length), t.elem (.sub k) j =
      if j < i then (paletteEntries ws).getD j 0 else ws[j]) ∧ ∀ P : State → Prop, StreamClosed (.sub k) P → P s → P t)
    (ws.length - 1) (by
      rintro i t h1 h2 ⟨hp, hw, ht, hk⟩
      have C := memWf_imageClosed.stream (.sub k) (.inr (.inl ⟨k, rfl⟩))
      refine ⟨_, rfl, hp, C.setElem _ _ _ hw, fun j hj => ?_, fun P C hs => C.setElem _ _ _ (hk P C hs)⟩
      unfold State.deltaEntry
      by_cases h : j = i
      · subst h
        obtain ⟨i, rfl⟩ : ∃ i, j = i + 1 := ⟨j - 1, by omega⟩
        rw [State.elem_setElem_sub (hw.2.2.2.2.2.2.1 k), if_pos (by omega), ht (i + 1) hj, if_neg (by omega),
          Nat.add_sub_cancel, ht i (by omega), if_pos (by omega), paletteEntries_succ ws i hj]
      · rw [State.elem_setElem_ne _ (fun x => h x.2), ht j hj]
        by_cases h' : j < i
        · rw [if_pos h', if_pos (by omega)]
        · rw [if_neg h', if_neg (by omega)])
    ⟨rfl, hm, fun j hj => by
      by_cases h : j < 1
      · obtain rfl : j = 0 := by omega
        rw [if_pos h, h0]; exact hs 0 hj
      · rw [if_neg h]; exact hs j hj, fun P _ hs => hs⟩
  refine ⟨u, e, hp, fun i hi => ?_, hk⟩
  have hi' : i < ws.length := by rwa [length_paletteEntries] at hi
  rw [hu i hi', if_pos (by omega), List.getD_eq_getElem _ _ hi]

/-- The palette of a palette transform, read from its bits (48_orchestrator.md R317). -/
theorem readPalette_runs {s : State} {k : Fin 4} {m : SubImage} {b : Nat} (ha : s.params.Admissible) (hm : s.MemWf)
    (hb8 : b < 256) (hok : m.Ok s.params (b + 1)) (hb : s.HasBits s.pos (lsbBits b 8 ++ m.bits s.params.clCodeOrder))
    (hend : s.pos + (lsbBits b 8 ++ m.bits s.params.clCodeOrder).length ≤ s.endPos) :
    ∃ u, readPalette k s = .ok () (u.setDesc k { u.xfDesc[k] with palSize := BitVec.ofNat 9 (b + 1) }) ∧
      u.pos = s.pos + (lsbBits b 8 ++ m.bits s.params.clCodeOrder).length ∧ u.SpaceHolds (.sub k) (paletteEntries m.words) ∧
      ∀ P : State → Prop, SubClosed (.sub k) P → P s → P u := by
  have hlt := s.endPos_lt
  rw [State.hasBits_append, length_lsbBits] at hb
  rw [List.length_append, length_lsbBits] at hend ⊢
  have p1 : (s.moveTo (s.pos + 8)).pos = s.pos + 8 := State.pos_moveTo _ (by omega)
  obtain ⟨v, e, h1, h2, h3, h4⟩ := entropyImage_runs (.inr (.inl ⟨k, rfl⟩)) (s := s.moveTo (s.pos + 8)) (w := b + 1) (h := 1)
    ha hm (by rw [Nat.mul_one]; exact hok) (by rw [p1]; exact hb.2)
    (by rw [p1]; show _ ≤ s.endPos; simp only [State.moveTo_params]; omega)
  rw [p1, State.moveTo_params] at h1
  have hv : v.MemWf := h4 _ (memWf_imageClosed.sub (.inr (.inl ⟨k, rfl⟩))) hm
  obtain ⟨u, e', g1, g2, g3⟩ := deltaEntries_runs hv h2 (by omega)
  rw [h3, Nat.mul_one, Nat.add_sub_cancel] at e'
  refine ⟨u, ?_, by omega, g2, fun P C hs => g3 P C.stream (h4 P C (C.tree.move s _ hs (by omega) (by omega)))⟩
  unfold readPalette
  rw [cmd_bind_of_ok (readField_runs (by decide) (by decide) hb8 hb.1 (by omega)), cmd_bind_of_ok e, cmd_bind_of_ok e']
  rfl

/-- The registers and the spaces hold the transforms of a list (10_state.md R53). -/
structure State.ListHolds (s : State) (l : List TransformCode) : Prop where
  count   : s.xfCount.toNat = l.length
  desc    : ∀ k (h : k < l.length), s.xfDesc[descOf k] = l[k].desc
  payload : ∀ k (h : k < l.length), s.SpaceHolds (.sub (descOf k)) l[k].payload

theorem State.ListHolds.push {s v : State} {l : List TransformCode} {t : TransformCode} {d : XfDesc} (hl : s.ListHolds l)
    (h4 : l.length < 4) (h1 : v.xfDesc = s.xfDesc.set (descOf l.length) d) (hd : { d with payloadValid := true } = t.desc)
    (hp : ∀ k (h : k < l.length), v.SpaceHolds (.sub (descOf k)) l[k].payload)
    (hn : v.SpaceHolds (.sub (descOf l.length)) t.payload) : (v.countDesc l.length).ListHolds (l ++ [t]) := by
  refine ⟨?_, fun k hk => ?_, fun k hk => ?_⟩
  · show (BitVec.ofNat 3 (l.length + 1)).toNat = _
    rw [BitVec.toNat_ofNat, List.length_append, List.length_singleton]; omega
  · rw [List.length_append, List.length_singleton] at hk
    show (v.xfDesc.set (descOf l.length) _)[descOf k] = _
    by_cases h : k < l.length
    · rw [vget_set_ne _ (descOf_ne (by omega) h4 (by omega)), h1, vget_set_ne _ (descOf_ne (by omega) h4 (by omega)),
        hl.desc k h, List.getElem_append_left h]
    · obtain rfl : k = l.length := by omega
      rw [vget_set_self, h1, vget_set_self, hd]; simp
  · rw [List.length_append, List.length_singleton] at hk
    by_cases h : k < l.length
    · rw [List.getElem_append_left h]; exact hp k h
    · obtain rfl : k = l.length := by omega
      show v.SpaceHolds (.sub (descOf l.length)) _
      simpa using hn

/-- The two bits of an entry's type, as a number (48_orchestrator.md R315). -/
def TransformCode.code : TransformCode → Nat
  | .predictor _ _ => 0
  | .color _ _ => 1
  | .subtractGreen => 2
  | .palette _ _ => 3

/-- The bits of an entry's payload (R316, R317). -/
def TransformCode.rest (order : List Nat) : TransformCode → List Nat
  | .predictor b m => lsbBits b 3 ++ m.bits order
  | .color b m => lsbBits b 3 ++ m.bits order
  | .subtractGreen => []
  | .palette b m => lsbBits b 8 ++ m.bits order

/-- The bits of an entry after the bit that announces it. -/
def TransformCode.body (order : List Nat) (t : TransformCode) : List Nat := lsbBits t.code 2 ++ t.rest order

theorem TransformCode.bits_eq (order : List Nat) (t : TransformCode) : t.bits order = [1] ++ t.body order := by
  cases t <;> simp [TransformCode.bits, TransformCode.body, TransformCode.code, TransformCode.rest]

theorem TransformCode.ofCode_code (t : TransformCode) : XfType.ofCode t.code = t.ty := by cases t <;> rfl

theorem TransformCode.code_lt (t : TransformCode) : t.code < 4 := by cases t <;> exact Nat.le_of_ble_eq_true rfl

theorem TransformCode.ty_desc (t : TransformCode) : t.desc.ty = t.ty := by cases t <;> rfl

theorem State.ListHolds.subClosed {dst : Space} (l : List TransformCode)
    (hd : ∀ k (_ : k < l.length), dst ≠ .sub (descOf k)) :
    SubClosed dst fun v => ∀ k (h : k < l.length), v.SpaceHolds (.sub (descOf k)) l[k].payload := by
  have C := fun k (h : k < l.length) => spaceHolds_subClosed (dst := dst) (.inr (.inl ⟨descOf k, rfl⟩))
    (fun e => hd k h e.symm) l[k].payload
  exact ⟨⟨fun s q hs a b k h => (C k h).tree.move s q (hs k h) a b, fun s i vs hs k h => (C k h).tree.lengths s i vs (hs k h),
    fun s hs k h => (C k h).tree.clmClear s (hs k h), fun s m v hs k h => (C k h).tree.clmSet s m v (hs k h),
    fun s t ht hs k h => (C k h).tree.invalidate s t ht (hs k h), fun s t ht hs k h => (C k h).tree.failed s t ht (hs k h),
    fun s t L ht hs hL k h => (C k h).tree.built s t L ht (hs k h) hL⟩,
    fun s b hs hb k h => (C k h).clearCache s b (hs k h) hb,
    ⟨fun s q hs a b k h => (C k h).stream.move s q (hs k h) a b, fun s i v hs k h => (C k h).stream.setElem s i v (hs k h),
      fun s v hs k h => (C k h).stream.cacheInsert s v (hs k h)⟩⟩

/-- One entry of the list, read from its bits after the one that announces it (48_orchestrator.md R315). -/
theorem readTransform_runs {s : State} {l : List TransformCode} {t : TransformCode} {w h : Nat} (ha : s.params.Admissible)
    (hm : s.MemWf) (hl : s.ListHolds l) (hn : ((l ++ [t]).map TransformCode.ty).Nodup) (hok : t.Ok s.params w h)
    (hb : s.HasBits s.pos (t.body s.params.clCodeOrder)) (hend : s.pos + (t.body s.params.clCodeOrder).length ≤ s.endPos) :
    ∃ u, readTransform w h (l.map TransformCode.ty).reverse s = .ok ((l ++ [t]).map TransformCode.ty).reverse u ∧
      u.pos = s.pos + (t.body s.params.clCodeOrder).length ∧ u.ListHolds (l ++ [t]) ∧ s.Since u := by
  have hlt := s.endPos_lt
  have h4 : l.length < 4 := by
    have := XfType.length_le hn
    simpa using this
  -- the two bits of the type, and the descriptor started
  have hc := t.code_lt
  have hcb := t.ofCode_code
  have hbl : (t.body s.params.clCodeOrder).length = 2 + (t.rest s.params.clCodeOrder).length := by
    rw [TransformCode.body, List.length_append, length_lsbBits]
  rw [TransformCode.body, State.hasBits_append, length_lsbBits] at hb
  rw [hbl] at hend
  set u := (s.moveTo (s.pos + 2)).setDesc (descOf l.length) ⟨t.ty, 0, 0, false⟩ with hu
  have up : u.pos = s.pos + 2 := State.pos_moveTo s (by omega)
  have uS : s.Since u := (((since_imageClosed s).tree.move s _ (State.Since.refl (by omega) hm) (by omega) (by omega)).setDesc _ _)
  have hpay : ∀ k (h : k < l.length), u.SpaceHolds (.sub (descOf k)) l[k].payload := hl.payload
  have ud : u.xfDesc[descOf l.length] = ⟨t.ty, 0, 0, false⟩ := vget_set_self _ _ _
  have uset : ∀ d, u.xfDesc.set (descOf l.length) d = s.xfDesc.set (descOf l.length) d := fun d => vset_set _ _ _ _
  have hni : ¬ t.ty ∈ (l.map TransformCode.ty).reverse := by
    rw [List.mem_reverse]
    rw [List.map_append, List.nodup_append] at hn
    exact fun hmem => hn.2.2 _ hmem t.ty (by simp) rfl
  -- what is left once the payload is read, with the state `v` and the descriptor `d`
  have finish : ∀ v d, (match t.ty with
        | .predictor => readBlockPayload (descOf l.length) w h
        | .color => readBlockPayload (descOf l.length) w h
        | .subtractGreen => pure ()
        | .palette => readPalette (descOf l.length)) u = .ok () v →
      u.Since v → v.xfDesc = u.xfDesc.set (descOf l.length) d → { d with payloadValid := true } = t.desc →
      (∀ k (h : k < l.length), v.SpaceHolds (.sub (descOf k)) l[k].payload) → v.SpaceHolds (.sub (descOf l.length)) t.payload →
      v.pos = s.pos + (t.body s.params.clCodeOrder).length →
      ∃ u, readTransform w h (l.map TransformCode.ty).reverse s = .ok ((l ++ [t]).map TransformCode.ty).reverse u ∧
        u.pos = s.pos + (t.body s.params.clCodeOrder).length ∧ u.ListHolds (l ++ [t]) ∧ s.Since u := by
    intro v d hv S h1 h2 h3 h4' h5
    refine ⟨v.countDesc l.length, ?_, h5, hl.push h4 (by rw [h1, uset]) h2 h3 h4', ?_⟩
    · unfold readTransform
      rw [cmd_bind_of_ok (readField_runs (x := t.code) (by decide) (by decide) hc hb.1 (by omega))]
      dsimp only
      rw [cmd_bind_of_ok (raiseIf_of_not (by rw [hcb]; exact hni) _ _ _), cmd_bind_of_ok (readState_apply _ _),
        cmd_bind_of_ok (update_apply _ _), hcb]
      have hcnt : (s.moveTo (s.pos + 2)).xfCount.toNat = l.length := hl.count
      have hr : ((l ++ [t]).map TransformCode.ty).reverse = t.ty :: (l.map TransformCode.ty).reverse := by simp
      rw [hcnt, ← hu, hr]
      revert hv
      cases t.ty <;> intro hv
      · exact (cmd_bind_of_ok hv).trans rfl
      · exact (cmd_bind_of_ok hv).trans rfl
      · cases hv; rfl
      · exact (cmd_bind_of_ok hv).trans rfl
    · have := S.countDesc l.length
      exact ⟨this.stage.trans uS.stage, this.params.trans uS.params, this.err.trans uS.err, this.inLen.trans uS.inLen,
        this.inp.trans uS.inp, this.brStart.trans uS.brStart, uS.low.trans this.low, this.high, this.imgW.trans uS.imgW,
        this.imgH.trans uS.imgH, this.imgAlpha.trans uS.imgAlpha, this.imgVersion.trans uS.imgVersion, this.mem⟩
  have uS' : u.Since u := State.Since.refl uS.high uS.mem
  have hpc : ∀ k (_ : k < l.length), Space.sub (descOf l.length) ≠ .sub (descOf k) := fun k hk e =>
    descOf_ne h4 (by omega) (by omega) (Space.sub.inj e)
  have hbx : u.HasBits u.pos (t.rest u.params.clCodeOrder) := by rw [up]; exact hb.2
  have hend' : u.pos + (t.rest u.params.clCodeOrder).length ≤ u.endPos := by
    rw [up]; show _ + (t.rest s.params.clCodeOrder).length ≤ s.endPos; omega
  have target : IsTarget (.sub (descOf l.length)) := .inr (.inl ⟨_, rfl⟩)
  cases t with
  | predictor b m =>
    obtain ⟨v, e, g1, g2, g3⟩ := readBlockPayload_runs (s := u) (k := descOf l.length) ha uS.mem hok.1 hok.2 hbx hend'
    have L := (g3 _ ((sameList_imageClosed u).sub target) (⟨rfl, rfl⟩ : u.SameList u)).1
    refine finish _ _ e ((g3 _ ((since_imageClosed u).sub target) uS').setDesc _ _) (by
      show v.xfDesc.set _ _ = _; rw [L]) (by rw [ud]; rfl) (g3 _ (State.ListHolds.subClosed l hpc) hpay) g2 (g1.trans (by
      rw [up, hbl, Nat.add_assoc]; rfl))
  | color b m =>
    obtain ⟨v, e, g1, g2, g3⟩ := readBlockPayload_runs (s := u) (k := descOf l.length) ha uS.mem hok.1 hok.2 hbx hend'
    have L := (g3 _ ((sameList_imageClosed u).sub target) (⟨rfl, rfl⟩ : u.SameList u)).1
    refine finish _ _ e ((g3 _ ((since_imageClosed u).sub target) uS').setDesc _ _) (by
      show v.xfDesc.set _ _ = _; rw [L]) (by rw [ud]; rfl) (g3 _ (State.ListHolds.subClosed l hpc) hpay) g2 (g1.trans (by
      rw [up, hbl, Nat.add_assoc]; rfl))
  | subtractGreen =>
    exact finish u u.xfDesc[descOf l.length] rfl uS' (by simp) (by rw [ud]; rfl) hpay (fun i hi => absurd hi (Nat.not_lt_zero i))
      (by rw [up, hbl]; rfl)
  | palette b m =>
    obtain ⟨v, e, g1, g2, g3⟩ := readPalette_runs (s := u) (k := descOf l.length) ha uS.mem hok.1 hok.2 hbx hend'
    have L := (g3 _ ((sameList_imageClosed u).sub target) (⟨rfl, rfl⟩ : u.SameList u)).1
    refine finish _ _ e ((g3 _ ((since_imageClosed u).sub target) uS').setDesc _ _) (by
      show v.xfDesc.set _ _ = _; rw [L]) (by rw [ud]; rfl) (g3 _ (State.ListHolds.subClosed l hpc) hpay) g2 (g1.trans (by
      rw [up, hbl, Nat.add_assoc]; rfl))

theorem State.Since.trans {a b c : State} (h : a.Since b) (h' : b.Since c) : a.Since c :=
  ⟨h'.stage.trans h.stage, h'.params.trans h.params, h'.err.trans h.err, h'.inLen.trans h.inLen, h'.inp.trans h.inp,
    h'.brStart.trans h.brStart, h.low.trans h'.low, h'.high, h'.imgW.trans h.imgW, h'.imgH.trans h.imgH,
    h'.imgAlpha.trans h.imgAlpha, h'.imgVersion.trans h.imgVersion, h'.mem⟩

theorem State.Since.endPos {a b : State} (h : a.Since b) : b.endPos = a.endPos := by unfold State.endPos; rw [h.inLen]

/-- The cursor moved on. -/
theorem State.Since.step {s : State} (hm : s.MemWf) {q : Nat} (h1 : s.pos ≤ q) (h2 : q ≤ s.endPos) : s.Since (s.moveTo q) :=
  (since_imageClosed s).tree.move s q (State.Since.refl (h1.trans h2) hm) h2 h1

theorem State.ListHolds.congr {s u : State} {l : List TransformCode} (h : s.ListHolds l) (h1 : s.SameList u)
    (h2 : ∀ k (h : k < l.length), u.SpaceHolds (.sub (descOf k)) l[k].payload) : u.ListHolds l :=
  ⟨by rw [h1.2]; exact h.count, by rw [h1.1]; exact h.desc, h2⟩

/-- The list, read from its bits (48_orchestrator.md R310 step 2). -/
theorem transformLoop_runs {w h : Nat} (r : List TransformCode) {s : State} {l : List TransformCode} (ha : s.params.Admissible)
    (hm : s.MemWf) (hl : s.ListHolds l) (hn : ((l ++ r).map TransformCode.ty).Nodup) (hok : ∀ t ∈ r, t.Ok s.params w h)
    {fuel : Nat} (hf : r.length < fuel) (hb : s.HasBits s.pos (r.flatMap (TransformCode.bits s.params.clCodeOrder) ++ [0]))
    (hend : s.pos + (r.flatMap (TransformCode.bits s.params.clCodeOrder) ++ [0]).length ≤ s.endPos) :
    ∃ u, transformLoop w h fuel (l.map TransformCode.ty).reverse s = .ok () u ∧
      u.pos = s.pos + (r.flatMap (TransformCode.bits s.params.clCodeOrder) ++ [0]).length ∧ u.ListHolds (l ++ r) ∧
      s.Since u := by
  have hlt := s.endPos_lt
  induction r generalizing s l fuel with
  | nil =>
    obtain ⟨fuel, rfl⟩ : ∃ f, fuel = f + 1 := ⟨fuel - 1, by simp at hf; omega⟩
    have hend : s.pos + 1 ≤ s.endPos := hend
    refine ⟨s.moveTo (s.pos + 1), ?_, State.pos_moveTo _ (by omega), ?_, State.Since.step hm (by omega) hend⟩
    · rw [transformLoop, cmd_bind_of_ok (readBit_runs hb hend), if_neg (by decide)]; rfl
    · rw [List.append_nil]; exact ⟨hl.count, hl.desc, hl.payload⟩
  | cons t r ih =>
    obtain ⟨fuel, rfl⟩ : ∃ f, fuel = f + 1 := ⟨fuel - 1, by simp at hf; omega⟩
    rw [List.flatMap_cons, TransformCode.bits_eq, List.append_assoc, List.append_assoc, State.hasBits_append,
      State.hasBits_append] at hb
    rw [List.flatMap_cons, TransformCode.bits_eq, List.append_assoc, List.append_assoc] at hend ⊢
    simp only [List.length_append, List.length_singleton] at hb hend ⊢
    have p1 : (s.moveTo (s.pos + 1)).pos = s.pos + 1 := State.pos_moveTo _ (by omega)
    have e : l ++ t :: r = l ++ [t] ++ r := by simp
    rw [e] at hn ⊢
    obtain ⟨v, e1, h1, h2, h3⟩ := readTransform_runs (s := s.moveTo (s.pos + 1)) (w := w) (h := h) ha hm
      ⟨hl.count, hl.desc, hl.payload⟩ (by rw [List.map_append] at hn; exact (List.nodup_append.1 hn).1)
      (hok t List.mem_cons_self) (by rw [p1]; exact hb.2.1) (by rw [p1]; simp only [State.moveTo_params, State.moveTo_endPos]; omega)
    rw [p1, State.moveTo_params] at h1
    have S : s.Since v := (State.Since.step hm (by omega) (by omega)).trans h3
    obtain ⟨u, e2, g1, g2, g3⟩ := ih (s := v) (by rw [S.params]; exact ha) S.mem h2 hn
      (fun x hx => by rw [S.params]; exact hok x (List.mem_cons_of_mem _ hx)) (fuel := fuel) (by simp at hf; omega)
      (by rw [S.params, h1]; exact State.hasBits_congr S.inp hb.2.2)
      (by rw [S.params, h1, S.endPos, List.length_append, List.length_singleton]; omega) (by rw [S.endPos]; exact hlt)
    refine ⟨u, ?_, ?_, g2, S.trans g3⟩
    · rw [transformLoop, cmd_bind_of_ok (readBit_runs hb.1 (by omega)), if_pos rfl, cmd_bind_of_ok e1]
      exact e2
    · rw [g1, h1, S.params, List.length_append, List.length_singleton]; omega

/-! ### The entropy image and the groups -/

theorem State.maxGroup_eq {s : State} {ws : List Word} (h : s.SpaceHolds .ent ws) :
    s.maxGroup ws.length = (ws.map groupIndex).foldl max 0 := by
  have e : ws.map groupIndex = (List.range ws.length).map fun j => groupIndex (s.ent.read .ent j) := by
    apply List.ext_getElem
    · simp
    · intro j h1 h2
      have hj : j < ws.length := by simpa using h1
      simp only [List.getElem_map, List.getElem_range]
      exact congrArg groupIndex (h j hj).symm
  rw [e, List.foldl_map]
  rfl

/-- The entropy image's part, read from its bits (48_orchestrator.md R324, R325). -/
theorem readMetaPrefix_runs {s : State} {l : List TransformCode} {w h : Nat} {e : Option (Nat × SubImage)}
    (ha : s.params.Admissible) (hm : s.MemWf) (hl : s.ListHolds l)
    (hok : ∀ x, e = some x → x.1 < 8 ∧ x.2.Ok s.params (gridCount w h x.1))
    (hb : s.HasBits s.pos (entropyBits s.params.clCodeOrder e))
    (hend : s.pos + (entropyBits s.params.clCodeOrder e).length ≤ s.endPos) :
    let ng := 1 + ((entropyWords e).map groupIndex).foldl max 0
    ∃ u, readMetaPrefix w h s = .ok ng u ∧ u.pos = s.pos + (entropyBits s.params.clCodeOrder e).length ∧ u.ListHolds l ∧
      s.Since u ∧ u.entPresent = e.isSome ∧ u.entBits.toNat = (e.elim 0 fun e => e.1 + 2) ∧
      u.SpaceHolds .ent (entropyWords e) ∧ u.nGroups = trunc32 ng := by
  intro ng
  have hlt := s.endPos_lt
  cases e with
  | none =>
    have hend : s.pos + 1 ≤ s.endPos := hend
    refine ⟨(s.moveTo (s.pos + 1)).setGroups false 0 1, ?_, State.pos_moveTo s (by omega), ⟨hl.count, hl.desc, hl.payload⟩,
      (State.Since.step hm (by omega) hend).setGroups _ _ _, rfl, rfl, fun i hi => absurd hi (Nat.not_lt_zero i), rfl⟩
    unfold readMetaPrefix
    rw [cmd_bind_of_ok (readBit_runs hb hend), if_pos rfl]; rfl
  | some x =>
    obtain ⟨b, m⟩ := x
    obtain ⟨hb8, hok⟩ := hok _ rfl
    dsimp only at hb8 hok
    have e0 : entropyBits s.params.clCodeOrder (some (b, m)) = [1] ++ (lsbBits b 3 ++ m.bits s.params.clCodeOrder) :=
      List.append_assoc _ _ _
    rw [e0, State.hasBits_append, State.hasBits_append, length_lsbBits] at hb
    rw [e0] at hend ⊢
    simp only [List.length_append, List.length_singleton, length_lsbBits] at hb hend ⊢
    have p1 : (s.moveTo (s.pos + 1)).pos = s.pos + 1 := State.pos_moveTo _ (by omega)
    have p2 : (s.moveTo (s.pos + 1 + 3)).pos = s.pos + 1 + 3 := State.pos_moveTo _ (by omega)
    obtain ⟨u, e1, h1, h2, h3, h4⟩ := entropyImage_runs (.inr (.inr rfl)) (s := s.moveTo (s.pos + 1 + 3))
      (w := ceilDiv w (2 ^ (b + 2))) (h := ceilDiv h (2 ^ (b + 2))) ha hm hok
      (by rw [p2]; exact hb.2.2) (by rw [p2]; simp only [State.moveTo_params, State.moveTo_endPos]; omega)
    rw [p2, State.moveTo_params] at h1
    have hng : 1 + u.maxGroup (ceilDiv w (2 ^ (b + 2)) * ceilDiv h (2 ^ (b + 2))) = ng := by
      rw [← h3, State.maxGroup_eq h2]; rfl
    have L : ∀ k (h : k < l.length), u.SpaceHolds (.sub (descOf k)) l[k].payload :=
      h4 _ (State.ListHolds.subClosed l fun k hk => Space.noConfusion) hl.payload
    have SL := h4 _ ((sameList_imageClosed s).sub (.inr (.inr rfl))) (⟨rfl, rfl⟩ : s.SameList (s.moveTo (s.pos + 1 + 3)))
    have S : s.Since u := h4 _ ((since_imageClosed s).sub (.inr (.inr rfl))) (State.Since.step hm (by omega) (by omega))
    refine ⟨u.setGroups true (b + 2) ng, ?_, by show u.pos = _; omega, hl.congr SL L, S.setGroups _ _ _, rfl, ?_, h2, rfl⟩
    · unfold readMetaPrefix
      rw [cmd_bind_of_ok (readBit_runs hb.1 (by omega)), if_neg (by decide),
        cmd_bind_of_ok (readField_runs (x := b) (by decide) (by decide) hb8 (by rw [p1]; exact hb.2.1)
          (by rw [p1]; show _ ≤ s.endPos; omega)), p1, State.moveTo_moveTo, cmd_bind_of_ok e1,
        cmd_bind_of_ok (readState_apply _ _), hng]
      rfl
    · show (BitVec.ofNat 4 (b + 2)).toNat = b + 2
      rw [BitVec.toNat_ofNat]; omega

/-- The groups after the first, read from their bits and discarded (48_orchestrator.md R310, R327). -/
theorem otherGroups_runs {cs : Nat} {at_ : Bool} (hcs : cs ≤ 2048) (gs : List GroupCode) {s : State}
    (ha : s.params.Admissible) (hm : s.MemWf) (hg : ∀ g ∈ gs, g.Ok s.params.clCodeOrder cs at_)
    (hb : s.HasBits s.pos (gs.flatMap (GroupCode.bits s.params.clCodeOrder cs at_)))
    (hend : s.pos + (gs.flatMap (GroupCode.bits s.params.clCodeOrder cs at_)).length ≤ s.endPos) (lo : Nat) :
    ∃ u, forRange (fun _ => readGroup cs at_ false) gs.length lo s = .ok () u ∧
      u.pos = s.pos + (gs.flatMap (GroupCode.bits s.params.clCodeOrder cs at_)).length ∧
      ∀ P : State → Prop, TreeClosed (groupSlots false) P → P s → P u := by
  induction gs generalizing s lo with
  | nil => exact ⟨s, rfl, rfl, fun P _ h => h⟩
  | cons g gs ih =>
    rw [List.flatMap_cons, State.hasBits_append] at hb
    rw [List.flatMap_cons, List.length_append] at hend ⊢
    obtain ⟨v, e1, h1, -, h3⟩ := readGroup_runs false hcs ha hm (hg g List.mem_cons_self) hb.1 (by omega)
    have S : s.Since v := h3 _ ((since_imageClosed s).tree.mono fun _ _ => trivial) (State.Since.refl (by omega) hm)
    obtain ⟨u, e2, g1, g2⟩ := ih (s := v) (by rw [S.params]; exact ha) S.mem
      (fun x hx => by rw [S.params]; exact hg x (List.mem_cons_of_mem _ hx))
      (by rw [S.params, h1]; exact State.hasBits_congr S.inp hb.2) (by rw [S.params, h1, S.endPos]; omega) (lo + 1)
    refine ⟨u, ?_, by rw [g1, h1, S.params]; omega, fun P C hs => g2 P C (h3 P C hs)⟩
    rw [List.length_cons, forRange_succ, cmd_bind_of_ok e1]
    exact e2

/-! ### The whole stream -/

theorem lsbBits_one (x : Nat) (h : x < 2) : lsbBits x 1 = [x] := by
  have : x = 0 ∨ x = 1 := by omega
  rcases this with rfl | rfl <;> rfl

/-- The bits of a stream's header (48_orchestrator.md R312). -/
def StreamCode.header (d : StreamCode) : List Nat :=
  lsbBits 0x2F 8 ++ lsbBits (d.w - 1) 14 ++ lsbBits (d.h - 1) 14 ++ [d.alpha.toNat] ++ lsbBits 0 3

theorem StreamCode.length_header (d : StreamCode) : d.header.length = 40 := by
  simp [StreamCode.header, length_lsbBits]

/-- The header's fields, from its bits. -/
theorem State.header_runs {s : State} {d : StreamCode} (h1 : 1 ≤ d.w) (h2 : d.w ≤ 16384) (h3 : 1 ≤ d.h) (h4 : d.h ≤ 16384)
    (hb : s.HasBits 0 d.header) : s.inByte 0 = signature ∧ s.inByte 4 / 32 = 0 ∧ s.headerW = d.w ∧ s.headerH = d.h ∧
      s.headerAlpha = d.alpha := by
  obtain ⟨f1, f2, f3, f4, f5⟩ := s.header_fields
  unfold StreamCode.header at hb
  rw [State.hasBits_append, State.hasBits_append, State.hasBits_append, State.hasBits_append] at hb
  simp only [List.length_append, length_lsbBits, List.length_singleton, Nat.zero_add, Nat.reduceAdd] at hb
  obtain ⟨⟨⟨⟨b1, b2⟩, b3⟩, b4⟩, b5⟩ := hb
  have e1 := State.field_of_lsbBits b1 (by decide)
  have e2 := State.field_of_lsbBits b2 (by omega)
  have e3 := State.field_of_lsbBits b3 (by omega)
  have e5 := State.field_of_lsbBits b5 (by decide)
  have ha : d.alpha.toNat < 2 := by cases d.alpha <;> decide
  rw [← lsbBits_one _ ha] at b4
  have e4 := State.field_of_lsbBits b4 (by omega)
  refine ⟨by rw [← f1, e1], by rw [← f5]; exact e5, by rw [← f2]; omega, by rw [← f3]; omega, ?_⟩
  unfold State.headerAlpha
  rw [← f4, e4]
  cases d.alpha <;> rfl

/-- What is left of a decode once the pixels are read. -/
def afterStream : Cmd Unit := do
  setStage .inverseTransforms
  invChain
  setStage .pixelFormatConvert
  rgbaConvert
  setStage .done

theorem setStage_bind {α : Type} (st : Stage) (y : Unit → Cmd α) (s : State) : (setStage st >>= y) s = y () (s.atStage st) := rfl

/-- What is left of a decode once the header is read. -/
def afterHeader (hd : Header) : Cmd Unit := do
  transformLoop hd.w hd.h 5 []
  setStage .colorCacheSize
  let cb ← readCacheBits
  setStage .entropyImage
  let ng ← readMetaPrefix hd.w hd.h
  setStage .huffmanGroups
  let at_ ← readState fun s => s.alphaTree hd.alpha
  readGroup (cacheSize cb) at_ true
  forRange (fun _ => readGroup (cacheSize cb) at_ false) (ng - 1) 1
  setStage .pixelStream
  cacheInit cb
  pixelStream .pix (hd.w * hd.h) at_
  afterStream

/-- What a header leaves: its fields in the image registers, the cursor after it and an empty list. -/
structure State.Headed (s c : State) (w h : Nat) (alpha : Bool) : Prop where
  pos        : c.pos = 40
  endPos     : c.endPos = s.endPos
  params     : c.params = s.params
  inp        : c.inp = s.inp
  inLen      : c.inLen = s.inLen
  err        : c.err = s.err
  brStart    : c.brStart = 0
  imgW       : c.imgW.toNat = w
  imgH       : c.imgH.toNat = h
  imgAlpha   : c.imgAlpha = alpha
  imgVersion : c.imgVersion = 0
  mem        : c.MemWf
  list       : c.ListHolds []

/-- A decode as far as the header. -/
theorem decodeBody_header {s : State} {d : StreamCode} (hm : s.MemWf) (hi : s.InputOk) (h1 : 1 ≤ d.w) (h2 : d.w ≤ 16384)
    (h3 : 1 ≤ d.h) (h4 : d.h ≤ 16384) (hcap : d.w * d.h ≤ s.params.pixCapacity) (hb : s.HasBits 0 d.header)
    (hend : 40 ≤ s.endPos) :
    ∃ c, s.Headed c d.w d.h d.alpha ∧ decodeBody s = afterHeader ⟨d.w, d.h, d.alpha⟩ c := by
  obtain ⟨f0, f4, fw, fh, fa⟩ := State.header_runs h1 h2 h3 h4 hb
  have h5 : 5 ≤ s.inLen.toNat := by have : s.endPos = s.inLen.toNat * 8 := rfl; omega
  refine ⟨((s.atStage .header).decodeInit.headed).atStage .transformList,
    ⟨?_, ?_, ?_, ?_, ?_, ?_, ?_, ?_, ?_, ?_, ?_, ?_, ?_⟩, ?_⟩
  · exact State.pos_moveTo (s.atStage .header).decodeInit (by decide)
  · show (State.headed _).inLen.toNat * 8 = _
    rw [State.headed, State.setImage_inLen]; rfl
  · show (State.headed _).params = _
    rw [State.headed, State.setImage_params]; rfl
  · show (State.headed _).inp = _
    rw [State.headed, State.setImage_inp]; rfl
  · show (State.headed _).inLen = _
    rw [State.headed, State.setImage_inLen]; rfl
  · show (State.headed _).err = _
    rw [State.headed, State.setImage_err]; rfl
  · show (State.headed _).brStart = _
    rw [State.headed, State.setImage_brStart]; rfl
  · show (trunc32 s.headerW).toNat = _
    unfold trunc32; rw [BitVec.toNat_ofNat]; omega
  · show (trunc32 s.headerH).toNat = _
    unfold trunc32; rw [BitVec.toNat_ofNat]; omega
  · exact fa
  · rfl
  · exact (closed_memWf [.cursor, .cache, .transforms, .groups, .tableInfo]).init (by decide) (by decide)
      (by decide) (by decide) (by decide) (s.atStage .header) hm
  · exact ⟨rfl, fun k h => absurd h (Nat.not_lt_zero k), fun k h => absurd h (Nat.not_lt_zero k)⟩
  · have hp := parseHeader_apply (s := (s.atStage .header).decodeInit) (by rfl)
    rw [if_neg (by show ¬ s.inLen.toNat < 5; omega), if_neg (by show ¬ s.inByte 0 ≠ _; rw [f0]; simp),
      if_neg (by show ¬ s.inByte 4 / 32 ≠ 0; rw [f4]; simp),
      if_neg (by show ¬ s.params.pixCapacity < s.headerW * s.headerH; rw [fw, fh]; omega)] at hp
    have hw : (s.atStage .header).decodeInit.headerW = d.w := fw
    have hh : (s.atStage .header).decodeInit.headerH = d.h := fh
    have ha : (s.atStage .header).decodeInit.headerAlpha = d.alpha := fa
    rw [hw, hh, ha] at hp
    unfold decodeBody
    rw [setStage_bind, cmd_bind_of_ok (inputCheck_ok (s := s.atStage .header) hi), cmd_bind_of_ok (update_apply _ _),
      cmd_bind_of_ok hp, setStage_bind]
    rfl

/-- What the stages after the header leave of the stream `d`, of the state `c` the header leaves. -/
structure State.Streamed (c u : State) (d : StreamCode) : Prop where
  since      : (c.atStage .pixelStream).Since u
  list       : u.ListHolds d.transforms
  entPresent : u.entPresent = d.entropy.isSome
  entBits    : u.entBits.toNat = d.entropy.elim 0 fun e => e.1 + 2
  ent        : u.SpaceHolds .ent (entropyWords d.entropy)
  nGroups    : u.nGroups.toNat = 1 + d.others.length
  noAlpha    : d.alphaTree c.params = false → u.tabInfo[(3 : Fin 7)].valid = false
  drawing    : u.Drawing .pix d.main (d.alphaTree c.params) (fieldBits d.cache) (drawTokens (fieldBits d.cache) d.tokens)

theorem SubClosed.and {dst : Space} {P' : State → Prop} (C : SubClosed dst P) (C' : SubClosed dst P') :
    SubClosed dst fun s => P s ∧ P' s :=
  ⟨C.tree.and C'.tree, fun s b hs hb => ⟨C.clearCache s b hs.1 hb, C'.clearCache s b hs.2 hb⟩, C.stream.and C'.stream⟩

/-- What the groups and the main image keep of what the stages before them left in `u`. -/
def State.Declared (u : State) (d : StreamCode) (v : State) : Prop :=
  (u.SameList v ∧ u.SameGroups v) ∧
  (∀ k (h : k < d.transforms.length), v.SpaceHolds (.sub (descOf k)) d.transforms[k].payload) ∧
  v.SpaceHolds .ent (entropyWords d.entropy)

theorem declared_subClosed (u : State) (d : StreamCode) : SubClosed .pix (u.Declared d) :=
  (((sameList_imageClosed u).and (sameGroups_imageClosed u)).sub (.inl rfl)).and
    ((State.ListHolds.subClosed d.transforms fun _ _ => Space.noConfusion).and
      (spaceHolds_subClosed (.inr (.inr rfl)) Space.noConfusion (entropyWords d.entropy)))

/-- The bits of a stream after its header (48_orchestrator.md R310). -/
def StreamCode.sections (p : Params) (d : StreamCode) : List Nat :=
  (d.transforms.flatMap (TransformCode.bits p.clCodeOrder) ++ [0]) ++ (cacheField d.cache ++
    (entropyBits p.clCodeOrder d.entropy ++ (d.main.bits p.clCodeOrder (cacheSize (fieldBits d.cache)) (d.alphaTree p) ++
      (d.others.flatMap (GroupCode.bits p.clCodeOrder (cacheSize (fieldBits d.cache)) (d.alphaTree p)) ++
        d.tokens.flatMap (PixelToken.bits d.main (cacheSize (fieldBits d.cache)) (d.alphaTree p))))))

theorem StreamCode.bits_eq (p : Params) (d : StreamCode) : d.bits p = d.header ++ d.sections p := by
  simp only [StreamCode.bits, StreamCode.header, StreamCode.sections, List.append_assoc]

/-- Trees read into other slots keep a slot's TAB_INFO. -/
theorem tabInfo_treeClosed {T : Fin 7 → Prop} {u : Fin 7} (hu : ¬ T u) (i : TabInfo) : TreeClosed T fun s => s.tabInfo[u] = i := by
  have ne : ∀ {t}, T t → u ≠ t := fun ht e => hu (e ▸ ht)
  exact ⟨fun _ _ h _ _ => h, fun _ _ _ h => h, fun _ h => h, fun _ _ _ h => h, fun s t ht h => (vget_set_ne _ (ne ht) _).trans h,
    fun s t ht h => (vget_set_ne _ (ne ht) _).trans h, fun s t L ht h _ => (vget_set_ne _ (ne ht) _).trans h⟩

/-- The groups after the first keep the tables of the main group. -/
theorem tablesHold_treeClosed (g : GroupCode) (cs : Nat) (at_ : Bool) :
    TreeClosed (groupSlots false) fun s => s.TablesHold g cs at_ := by
  have C : ∀ x ∈ g.trees cs at_, TreeClosed (groupSlots false) fun s => s.SlotHolds x.1 (x.2.1.lengths x.2.2) := by
    intro x hx
    refine slotHolds_treeClosed ?_ _
    rcases GroupCode.mem_trees.1 hx with rfl | rfl | rfl | ⟨-, rfl⟩ | rfl
    all_goals
      dsimp only
      unfold groupSlots
      decide
  exact ⟨fun s q hs a b x hx => (C x hx).move s q (hs x hx) a b, fun s i vs hs x hx => (C x hx).lengths s i vs (hs x hx),
    fun s hs x hx => (C x hx).clmClear s (hs x hx), fun s m v hs x hx => (C x hx).clmSet s m v (hs x hx),
    fun s t ht hs x hx => (C x hx).invalidate s t ht (hs x hx), fun s t ht hs x hx => (C x hx).failed s t ht (hs x hx),
    fun s t L ht hs hL x hx => (C x hx).built s t L ht (hs x hx) hL⟩

/-- The stages after the header, up to the last token. -/
theorem afterHeader_runs {c : State} {d : StreamCode} (ha : c.params.Admissible) (hm : c.MemWf) (hd : d.Ok c.params)
    (hl : c.ListHolds []) (hb : c.HasBits c.pos (d.sections c.params))
    (hend : c.pos + (d.sections c.params).length ≤ c.endPos) :
    ∃ u, afterHeader ⟨d.w, d.h, d.alpha⟩ c = afterStream u ∧ u.pos = c.pos + (d.sections c.params).length ∧ c.Streamed u d := by
  have hlt := c.endPos_lt
  obtain ⟨w1, w2, w3, w4, hcap, hT, hN, hcb, hE, hO, hM, hG, hK⟩ := hd
  have hcs := Closed.cacheSize_le (bits := fieldBits d.cache) hcb
  unfold StreamCode.sections at hb hend ⊢
  rw [State.hasBits_append, State.hasBits_append (a := cacheField d.cache), State.hasBits_append (a := entropyBits _ _),
    State.hasBits_append (a := GroupCode.bits _ _ _ _),
    State.hasBits_append (a := d.others.flatMap _)] at hb
  rw [List.length_append, List.length_append (as := cacheField d.cache), List.length_append (as := entropyBits _ _),
    List.length_append (as := GroupCode.bits _ _ _ _), List.length_append (as := d.others.flatMap _)] at hend ⊢
  obtain ⟨b1, b2, b3, b4, b5, b6⟩ := hb
  -- the transform list
  have hlen4 : d.transforms.length < 5 := by
    have := XfType.length_le hN
    rw [List.length_map] at this; omega
  obtain ⟨v1, e1, p1, L1, S1⟩ := transformLoop_runs (w := d.w) (h := d.h) d.transforms ha hm hl hN hT hlen4 b1 (by omega)
  generalize (d.transforms.flatMap (TransformCode.bits c.params.clCodeOrder) ++ [0]).length = x1 at *
  -- the cache-size field
  have S2 := S1.atStage .colorCacheSize
  have p2 : (v1.atStage .colorCacheSize).pos = c.pos + x1 := p1
  have z2 : (v1.atStage .colorCacheSize).endPos = c.endPos := S2.endPos
  have e2 := readCacheBits_runs (s := v1.atStage .colorCacheSize) hcb (by rw [p2]; exact State.hasBits_congr S2.inp b2)
    (by rw [p2, z2]; omega)
  rw [p2] at e2
  generalize (cacheField d.cache).length = x2 at *
  -- the entropy image
  have S3 : (c.atStage .entropyImage).Since (((v1.atStage .colorCacheSize).moveTo (c.pos + x1 + x2)).atStage .entropyImage) :=
    (S2.trans (State.Since.step S2.mem (by omega) (by omega))).atStage _
  have p3 : (((v1.atStage .colorCacheSize).moveTo (c.pos + x1 + x2)).atStage .entropyImage).pos = c.pos + x1 + x2 :=
    State.pos_moveTo (v1.atStage .colorCacheSize) (by omega)
  have L3 : (((v1.atStage .colorCacheSize).moveTo (c.pos + x1 + x2)).atStage .entropyImage).ListHolds d.transforms :=
    ⟨L1.count, L1.desc, L1.payload⟩
  generalize hu3 : ((v1.atStage .colorCacheSize).moveTo (c.pos + x1 + x2)).atStage .entropyImage = u3 at *
  have q3 : u3.params = c.params := S3.params
  have z3 : u3.endPos = c.endPos := S3.endPos
  obtain ⟨v4, e4, p4, L4, S4, g1, g2, g3, g4⟩ := readMetaPrefix_runs (w := d.w) (h := d.h) (e := d.entropy) (by rw [q3]; exact ha)
    S3.mem L3 (by rw [q3]; exact hE) (by rw [p3, q3]; exact State.hasBits_congr S3.inp b3) (by rw [p3, q3, z3]; omega)
  rw [p3, q3] at p4
  generalize (entropyBits c.params.clCodeOrder d.entropy).length = x3 at *
  have hng : ((entropyWords d.entropy).map groupIndex).foldl max 0 = d.others.length := hO.symm
  rw [hng] at e4 g4
  -- the groups
  have S5 := (S3.trans S4).atStage .huffmanGroups
  have p5 : (v4.atStage .huffmanGroups).pos = c.pos + x1 + x2 + x3 := p4
  have at5 : (v4.atStage .huffmanGroups).alphaTree d.alpha = d.alphaTree c.params := by
    unfold State.alphaTree StreamCode.alphaTree; rw [S5.params]; rfl
  have D5 : v4.Declared d (v4.atStage .huffmanGroups) := ⟨⟨⟨rfl, rfl⟩, rfl, rfl, rfl⟩, L4.payload, g3⟩
  have q5 : (v4.atStage .huffmanGroups).params = c.params := S5.params
  have z5 : (v4.atStage .huffmanGroups).endPos = c.endPos := S5.endPos
  generalize hu5 : v4.atStage .huffmanGroups = u5 at *
  obtain ⟨v6, e6, p6, T6, K6⟩ := readGroup_runs true hcs (s := u5) (by rw [q5]; exact ha) S5.mem (by rw [q5]; exact hM)
    (by rw [p5, q5]; simpa only [Nat.add_assoc] using State.hasBits_congr S5.inp b4) (by rw [p5, q5, z5]; omega)
  obtain ⟨T6, N6⟩ := T6 rfl
  rw [p5, q5] at p6
  generalize (GroupCode.bits c.params.clCodeOrder (cacheSize (fieldBits d.cache)) (d.alphaTree c.params) d.main).length = x4 at *
  have S6 := K6 _ ((since_imageClosed _).tree.mono fun _ _ => trivial) S5
  have D6 := K6 _ ((declared_subClosed v4 d).tree.mono fun _ _ => trivial) D5
  have q6 : v6.params = c.params := S6.params
  have z6 : v6.endPos = c.endPos := S6.endPos
  obtain ⟨v7, e7, p7, K7⟩ := otherGroups_runs hcs d.others (s := v6) (at_ := d.alphaTree c.params) (by rw [q6]; exact ha) S6.mem
    (by rw [q6]; exact hG) (by rw [p6, q6]; simpa only [Nat.add_assoc] using State.hasBits_congr S6.inp b5)
    (by rw [p6, q6, z6]; omega) 1
  rw [p6, q6] at p7
  generalize (d.others.flatMap (GroupCode.bits c.params.clCodeOrder (cacheSize (fieldBits d.cache)) (d.alphaTree c.params))).length = x5 at *
  have S7 := (K7 _ ((since_imageClosed _).tree.mono fun _ _ => trivial) S6).atStage .pixelStream
  have D7 := K7 _ ((declared_subClosed v4 d).tree.mono fun _ _ => trivial) D6
  have T7 := K7 _ (tablesHold_treeClosed d.main (cacheSize (fieldBits d.cache)) (d.alphaTree c.params)) T6
  have N7 := K7 _ (tabInfo_treeClosed (u := 3) (by unfold groupSlots; decide) v6.tabInfo[(3 : Fin 7)]) rfl
  -- the tokens
  have p7' : (v7.atStage .pixelStream).pos = c.pos + x1 + x2 + x3 + x4 + x5 := p7
  have q7 : (v7.atStage .pixelStream).params = c.params := S7.params
  have z7 : (v7.atStage .pixelStream).endPos = c.endPos := S7.endPos
  have T7 : (v7.atStage .pixelStream).TablesHold d.main (cacheSize (fieldBits d.cache)) (d.alphaTree c.params) := T7
  have D7 : v4.Declared d (v7.atStage .pixelStream) := D7
  have N7 : (v7.atStage .pixelStream).tabInfo[(3 : Fin 7)] = v6.tabInfo[(3 : Fin 7)] := N7
  generalize hu7 : v7.atStage .pixelStream = u7 at *
  obtain ⟨u, e8, e9, p8, D8, K8⟩ := cachedStream_runs (buf := .pix) (.inl rfl) (n := d.w * d.h) hcb d.tokens S7.mem T7
    (by rw [q7]; exact hM) (by rw [q7]; exact hK) (by rw [p7']; simpa only [Nat.add_assoc] using State.hasBits_congr S7.inp b6)
    (by rw [p7', z7]; omega)
  have S8 := K8 _ ((since_imageClosed _).stream .pix (.inl rfl)) ((since_imageClosed _).clearCache _ _ S7 hcb)
  have DD := K8 _ (declared_subClosed v4 d).stream ((declared_subClosed v4 d).clearCache _ _ D7 hcb)
  have N8 := K8 (fun s => s.tabInfo = u7.tabInfo) ⟨fun _ _ h _ _ => h, fun _ _ _ h => h, fun s v h => by
    rw [cacheInsert_tabInfo]; exact h⟩ rfl
  refine ⟨u, ?_, by rw [p8, p7']; omega, S8, L4.congr DD.1.1 DD.2.1, by rw [DD.1.2.2.1]; exact g1, by rw [DD.1.2.2.2]; exact g2,
    DD.2.2, ?_, fun h => by rw [N8, N7]; exact N6 h, D8⟩
  · unfold afterHeader
    dsimp only
    have e1 : transformLoop d.w d.h 5 [] c = .ok () v1 := e1
    rw [cmd_bind_of_ok e1, setStage_bind, cmd_bind_of_ok e2, setStage_bind, hu3, cmd_bind_of_ok e4, setStage_bind, hu5,
      cmd_bind_of_ok (readState_apply _ _), at5, cmd_bind_of_ok e6, Nat.add_sub_cancel_left, cmd_bind_of_ok e7, setStage_bind, hu7,
      cmd_bind_of_ok e8, cmd_bind_of_ok e9]
  · rw [DD.1.2.1, g4]
    unfold trunc32
    have := v4.maxGroup_lt (entropyWords d.entropy).length
    rw [State.maxGroup_eq g3, hng] at this
    rw [BitVec.toNat_ofNat]; omega

/-- A decode of a stream's bits goes through a state that holds what the stream says (48_orchestrator.md R310 to R334). -/
theorem decodeBody_runs {s : State} {d : StreamCode} (hm : s.MemWf) (hi : s.InputOk) (ha : s.params.Admissible)
    (hd : d.Ok s.params) (hb : s.HasBits 0 (d.bits s.params)) (hend : (d.bits s.params).length ≤ s.endPos) :
    ∃ u : State, u.Holds d ∧ u.params = s.params ∧ u.inp = s.inp ∧ u.inLen = s.inLen ∧ u.err = s.err ∧ u.MemWf ∧
      u.ImageOk ∧ decodeBody s = afterStream u := by
  have hlen : (d.bits s.params).length = 40 + (d.sections s.params).length := by
    rw [StreamCode.bits_eq, List.length_append, StreamCode.length_header]
  rw [hlen] at hend
  rw [StreamCode.bits_eq, State.hasBits_append, StreamCode.length_header] at hb
  obtain ⟨c, C, e1⟩ := decodeBody_header hm hi hd.1 hd.2.1 hd.2.2.1 hd.2.2.2.1 hd.2.2.2.2.1 hb.1 (by omega)
  obtain ⟨u, e2, p, U⟩ := afterHeader_runs (d := d) (by rw [C.params]; exact ha) C.mem (by rw [C.params]; exact hd) C.list
    (by rw [C.pos, C.params]; exact State.hasBits_congr C.inp hb.2) (by rw [C.pos, C.params, C.endPos]; exact hend)
  have S := U.since
  have q : u.params = s.params := S.params.trans C.params
  have iw : u.imgW.toNat = d.w := (congrArg BitVec.toNat S.imgW).trans C.imgW
  have ih : u.imgH.toNat = d.h := (congrArg BitVec.toNat S.imgH).trans C.imgH
  have at_ : d.alphaTree c.params = d.alphaTree u.params := by rw [C.params, q]
  refine ⟨u, ⟨iw, ih, S.imgAlpha.trans C.imgAlpha, S.imgVersion.trans C.imgVersion, S.brStart.trans C.brStart, ?_, U.list.count,
    U.list.desc, U.list.payload, U.entPresent, U.entBits, U.ent, U.nGroups, by rw [← at_]; exact U.drawing.tables,
    by rw [← at_]; exact U.noAlpha, U.drawing.ccBits, U.drawing.cache, U.drawing.px⟩, q, S.inp.trans C.inp,
    S.inLen.trans C.inLen, S.err.trans C.err, S.mem, ⟨?_, ?_, ?_⟩, e1.trans e2⟩
  · rw [p, C.pos, C.params, q, hlen]
  · intro h; have := hd.1; rw [h] at iw; simp at iw; omega
  · intro h; have := hd.2.2.1; rw [h] at ih; simp at ih; omega
  · unfold State.npix; rw [iw, ih, q]; exact hd.2.2.2.2.1

/-! ### The chain in a decode and by itself -/

/-- The state with other STATUS bits of a running command: STAGE, DONE and BUSY. -/
def State.retag (st : Stage) (d b : Bool) (s : State) : State := { s with stage := st, done := d, busy := b }

/-- A result with those bits of its state changed. -/
def retagResult (st : Stage) (d b : Bool) {α : Type} : EStateM.Result Trap State α → EStateM.Result Trap State α
  | .ok a t => .ok a (t.retag st d b)
  | .error e t => .error e (t.retag st d b)

/-- STAGE, DONE and BUSY play no part in a piece. -/
def StatusFree {α : Type} (x : Cmd α) : Prop := ∀ st d b s, x (s.retag st d b) = retagResult st d b (x s)

theorem StatusFree.bind {α β : Type} {x : Cmd α} {f : α → Cmd β} (h : StatusFree x) (hf : ∀ a, StatusFree (f a)) :
    StatusFree (x >>= f) := by
  intro st d b s
  rw [cmd_bind_apply, cmd_bind_apply, h st d b s]
  cases x s with
  | ok a t => exact hf a st d b t
  | error e t => rfl

theorem statusFree_forRange {f : Nat → Cmd Unit} (hf : ∀ i, StatusFree (f i)) (n lo : Nat) : StatusFree (forRange f n lo) := by
  induction n generalizing lo with
  | zero => exact fun _ _ _ _ => rfl
  | succ n ih => rw [forRange_succ]; exact (hf _).bind fun _ => ih _

theorem statusFree_raiseIf (c : Bool) (e : ErrKind) (info : Nat) : StatusFree (raiseIf c e info) := by
  intro st d b s
  cases c <;> rfl

theorem statusFree_invPredictor (k : Fin 4) : StatusFree (invPredictor k) := by
  refine StatusFree.bind (fun _ _ _ _ => rfl) fun n => statusFree_forRange (fun i st d b s => ?_) _ _
  rw [invPredictPixel_apply, invPredictPixel_apply]
  show (match predictPix s.params.mode0Black (s.modeAt k (i % s.imgW.toNat) (i / s.imgW.toNat))
      (s.nbL (i % s.imgW.toNat) i) (s.nbT s.imgW.toNat (i / s.imgW.toNat) i)
      (s.nbTL s.imgW.toNat (i % s.imgW.toNat) (i / s.imgW.toNat) i)
      (s.nbTR s.imgW.toNat (i % s.imgW.toNat) (i / s.imgW.toNat) i) with | some p => _ | none => _) = _
  generalize predictPix _ _ _ _ _ _ = r
  cases r <;> rfl

theorem statusFree_palApply (k : Fin 4) : StatusFree (palApply k) := by
  refine StatusFree.bind (fun _ _ _ _ => rfl) fun n => statusFree_forRange (fun i st d b s => ?_) _ _
  rcases Nat.lt_or_ge (chanB (s.pixAt i)).toNat s.xfDesc[k].palSize.toNat with h | h
  · rw [palApplyPixel_ok h, palApplyPixel_ok (s := s.retag st d b) h]; rfl
  · rw [palApplyPixel_error h, palApplyPixel_error (s := s.retag st d b) h]; rfl

theorem statusFree_undoTransform (k : Nat) : StatusFree (undoTransform k) := by
  refine StatusFree.bind (fun _ _ _ _ => rfl) fun ty => ?_
  have walk : ∀ g : Nat → State → State, (∀ i st d b s, g i (s.retag st d b) = (g i s).retag st d b) → StatusFree (do
      let n ← readState State.npix
      forRange (fun i => update fun s => g i s) n 0) := fun g hg =>
    StatusFree.bind (fun _ _ _ _ => rfl) fun n => statusFree_forRange (fun i st d b s => by
      rw [update_apply, update_apply, hg]; rfl) _ _
  cases ty with
  | predictor => exact statusFree_invPredictor _
  | color => exact walk (fun i s => s.invColorAt (descOf k) i) fun _ _ _ _ _ => rfl
  | subtractGreen => exact walk (fun i s => s.setPix i (addGreen (s.pixAt i))) fun _ _ _ _ _ => rfl
  | palette => exact statusFree_palApply _

theorem statusFree_undoTransforms (n : Nat) : StatusFree (undoTransforms n) := by
  induction n with
  | zero => exact fun _ _ _ _ => rfl
  | succ n ih => exact (statusFree_undoTransform n).bind fun _ => ih

theorem statusFree_imageCheck : StatusFree imageCheck := fun st d b s =>
  ((statusFree_raiseIf (s.imgW = 0) .argumentRange s.imgW.toNat).bind fun _ =>
    (statusFree_raiseIf (s.imgH = 0) .argumentRange s.imgH.toNat).bind fun _ =>
      statusFree_raiseIf (s.params.pixCapacity < s.npix) .capacityExceeded s.npix) st d b s

theorem statusFree_blockCheck (x : XfDesc) : StatusFree (blockCheck x) :=
  (statusFree_raiseIf _ _ _).bind fun _ => StatusFree.bind (fun _ _ _ _ => rfl) fun _ =>
    StatusFree.bind (fun _ _ _ _ => rfl) fun _ => statusFree_raiseIf _ _ _

theorem statusFree_xfCheck (k : Nat) (ty : XfType) : StatusFree (xfCheck k ty) := by
  refine (statusFree_raiseIf _ _ _).bind fun _ => StatusFree.bind (fun _ _ _ _ => rfl) fun _ =>
    (statusFree_raiseIf _ _ _).bind fun _ => (statusFree_raiseIf _ _ _).bind fun _ => StatusFree.bind (fun _ _ _ _ => rfl)
      fun x => (statusFree_raiseIf _ _ _).bind fun _ => (statusFree_raiseIf _ _ _).bind fun _ =>
        statusFree_imageCheck.bind fun _ => ?_
  cases ty with
  | predictor => exact statusFree_blockCheck x
  | color => exact statusFree_blockCheck x
  | subtractGreen => exact fun _ _ _ _ => rfl
  | palette => exact statusFree_raiseIf _ _ _

/-- STATUS plays no part in the chain, so a decode's chain does what XF_CHAIN_INV does. -/
theorem statusFree_invChain : StatusFree invChain :=
  StatusFree.bind (fun _ _ _ _ => rfl) fun _ => (statusFree_raiseIf _ _ _).bind fun _ =>
    (statusFree_forRange (fun k => StatusFree.bind (fun _ _ _ _ => rfl) fun ty => statusFree_xfCheck k ty) _ _).bind fun _ =>
      statusFree_undoTransforms _

end Sys2Proof.Machine
end

