-- ==== Sys2Proof/Laws/Steps.lean ====
section
/-! SUPPORT. Everything one step can do, as one induction: a property kept by each of the host's writes, by acceptance,
by an error at decoding and by `exec` is kept by the step. -/

namespace Sys2Proof.Machine

/-- The word of SOFT_RESET decodes to it. -/
theorem decodeWord_of_softReset {w : Word} (h : w = softResetWord) : decodeWord w = .ok .softReset := by rw [h]; rfl

/-- What a step keeps. `A` is the property between acceptance and the command's effect: acceptance turns `P` into `A`,
and an error at decoding and `exec` turn `A` back into `P`. While `err` is set only SOFT_RESET is executed. -/
theorem step_keeps {P A : State → Prop} (hops : ∀ s r, P s → P { s with hostOps := r })
    (hacc : ∀ s, P s → A s.accept) (hreg : ∀ s o v, P s → P (s.writeReg o v))
    (hel : ∀ s sp i v, P s → P (s.hostWriteElem sp i v)) (hhr : ∀ s, P s → P s.hardReset)
    (hterr : ∀ s e, A s → e.kind = .illegalCommand → P (s.takeError e))
    (hex : ∀ i s t, A s → (s.err = true → i = .softReset) → exec i s = .next t → P t) :
    ∀ s t, P s → step s = .next t → P t := by
  intro s t hs h
  unfold step nextEvent at h
  split at h
  · split_ifs at h; cases h; exact hs
  · rename_i op rest _
    have hs := hops s rest hs
    generalize { s with hostOps := rest } = u at hs h
    cases op with
    | writeReg o v =>
      unfold hostStep at h; simp only at h
      split_ifs at h
      · unfold writeCmd at h; split_ifs at h
        · cases h; exact hs
        · cases h; exact hs
        · rename_i hne
          unfold runWord at h
          cases hd : decodeWord v with
          | ok i =>
            rw [hd] at h
            refine hex i _ _ (hacc _ hs) (fun he => ?_) h
            have he : u.err = true := he
            have : v = softResetWord := by by_contra hc; exact hne (by simp [he, hc])
            rw [decodeWord_of_softReset this] at hd; cases hd; rfl
          | error e => rw [hd] at h; cases h; exact hterr _ _ (hacc _ hs) rfl
      · cases h; exact hs
      · cases h; exact hreg _ _ _ hs
    | writeElem sp i v =>
      unfold hostStep at h; simp only at h; cases h; split_ifs
      · exact hs
      · exact hel _ _ _ _ hs
    | writeWide sp j v =>
      unfold hostStep at h; simp only at h; cases h; split_ifs
      · exact hs
      · unfold State.hostWriteWide; split_ifs
        · exact hel _ _ _ _ (hel _ _ _ _ (hel _ _ _ _ (hel _ _ _ _ hs)))
        · exact hs
    | hardReset => cases h; exact hhr _ hs

/-- A host's write of an element changes the state only by `setElem` of an element that exists and the host may
write (20_memory.md R82, R86). -/
theorem hostWriteElem_keeps {P : State → Prop}
    (h : ∀ s sp i v, P s → hostWritable sp = true → i < s.spaceCount sp → P (s.setElem sp i v)) :
    ∀ s sp i v, P s → P (s.hostWriteElem sp i v) := by
  intro s sp i v hs
  unfold State.hostWriteElem
  split_ifs with hc
  · simp only [Bool.and_eq_true, decide_eq_true_eq] at hc
    exact h _ _ _ _ hs hc.1 hc.2
  · exact hs

end Sys2Proof.Machine
end

