-- ==== Sys2Proof/Tests/Slice0.lean ====
section
/-! SUPPORT. The author's tests: the well-formedness check, decoding of words written out from the encoding tables, one step of each command on the vectors of 95_test_vectors.md, and a witness for the hypotheses of every statement. -/

open Sys2Proof Sys2Proof.Machine

namespace Sys2Proof.Tests

-- One theorem after another: the kernel evaluations below would each hold a thread of their own.
set_option Elab.async false

/-! ### Small states -/

/-- A memory with the given values from index 0 on. -/
def mem {w : Nat} (vs : List Nat) : Memory w := ⟨.unwritten 0, vs.mapIdx fun i v => (i, BitVec.ofNat w v)⟩

/-- The reset state with IN and IN_LEN. -/
def withIn (vs : List Nat) : State := { State.reset with inp := mem vs, inLen := trunc32 vs.length }

/-- The reset state with CLMEM and A0 its length. -/
def withLens (vs : List Nat) : State := { State.reset with clmem := mem vs, a0 := trunc32 vs.length }

/-- The reset state with A0. -/
def withA0 (v : Nat) : State := { State.reset with a0 := trunc32 v }

/-- The reset state with a `w × h` image in PIX. -/
def withPix (w h : Nat) (vs : List Nat) : State := { State.reset with imgW := trunc32 w, imgH := trunc32 h, pix := mem vs }

/-- `s` with one descriptor word in XF_DESC0, SUB_0 and XF_COUNT = 1. -/
def withDesc (s : State) (d : Word) (sub : List Nat) : State :=
  { s with xfCount := 1, xfDesc := s.xfDesc.set 0 (XfDesc.ofWord d), sub := s.sub.set 0 (mem sub) }

/-- The table of V-HUF-1 in slot 0: `[3,1,3,2]`. -/
def withTable (vs : List Nat) : State :=
  { withIn vs with
    tab := State.reset.tab.set 0 (mem [0x11001, 0x12003, 0x11001, 0x13000, 0x11001, 0x12003, 0x11001, 0x13002])
    tabInfo := State.reset.tabInfo.set 0 ⟨3, 4, false, true⟩ }

/-- The state a command answers. -/
def after (i : Instr) (s : State) : Option State :=
  match exec i s with
  | .next t => some t
  | .fault _ => none
  | .refused _ => none

/-- Registers after a command, by their offsets. -/
def regs (i : Instr) (s : State) (offsets : List Nat) : Option (List Word) :=
  (after i s).map fun t => offsets.map t.regWord

/-- Elements after a command. -/
def elems (i : Instr) (s : State) (sp : Space) (n : Nat) : Option (List Word) :=
  (after i s).map fun t => (List.range n).map (t.elem sp)

/-! ### Well-formed terms (30_encoding.md R110) -/

theorem test_wellFormed_imm8_max : (Instr.brRead 255).WellFormed := by decide
theorem test_wellFormed_refuses_brRead : ¬ (Instr.brRead 256).WellFormed := by decide
theorem test_wellFormed_refuses_hufBuild : ¬ (Instr.hufBuild 256).WellFormed := by decide
theorem test_wellFormed_refuses_lzPrefix : ¬ (Instr.lzPrefix 1000).WellFormed := by decide
theorem test_wellFormed_formatN : Instr.decode.WellFormed := by decide

/-! ### Words written out from 30_encoding.md R110 and R115 -/

theorem test_decode_nop : decodeWord 0x00000001#32 = .ok .nop := by decide
theorem test_decode_softReset : decodeWord 0x00000002#32 = .ok .softReset := by decide
theorem test_decode_brInit : decodeWord 0x00000010#32 = .ok .brInit := by decide
theorem test_decode_brRead : decodeWord 0x00000311#32 = .ok (.brRead 3) := by decide
theorem test_decode_brHasdata : decodeWord 0x00000012#32 = .ok .brHasdata := by decide
theorem test_decode_brTell : decodeWord 0x00000013#32 = .ok .brTell := by decide
theorem test_decode_hufBuild : decodeWord 0x00000620#32 = .ok (.hufBuild 6) := by decide
theorem test_decode_hufDecode : decodeWord 0x00000121#32 = .ok (.hufDecode 1) := by decide
theorem test_decode_clRead : decodeWord 0x00000022#32 = .ok .clRead := by decide
theorem test_decode_ccInit : decodeWord 0x00000030#32 = .ok .ccInit := by decide
theorem test_decode_ccHash : decodeWord 0x00000031#32 = .ok .ccHash := by decide
theorem test_decode_ccInsert : decodeWord 0x00000032#32 = .ok .ccInsert := by decide
theorem test_decode_ccGet : decodeWord 0x00000033#32 = .ok .ccGet := by decide
theorem test_decode_lzPrefix : decodeWord 0x00002740#32 = .ok (.lzPrefix 39) := by decide
theorem test_decode_lzCopy : decodeWord 0x00000041#32 = .ok .lzCopy := by decide
theorem test_decode_pred : decodeWord 0x00000D50#32 = .ok (.pred 13) := by decide
theorem test_decode_xfPredInv : decodeWord 0x00000360#32 = .ok (.xfPredInv 3) := by decide
theorem test_decode_xfColorInv : decodeWord 0x00000161#32 = .ok (.xfColorInv 1) := by decide
theorem test_decode_xfSubgInv : decodeWord 0x00000262#32 = .ok (.xfSubgInv 2) := by decide
theorem test_decode_xfPalApply : decodeWord 0x00000063#32 = .ok (.xfPalApply 0) := by decide
theorem test_decode_xfPalInvert : decodeWord 0x00000064#32 = .ok (.xfPalInvert 0) := by decide
theorem test_decode_xfChainInv : decodeWord 0x00000065#32 = .ok .xfChainInv := by decide
theorem test_decode_hdrParse : decodeWord 0x00000070#32 = .ok .hdrParse := by decide
theorem test_decode_decode : decodeWord 0x00000071#32 = .ok .decode := by decide
theorem test_decode_rgbaConvert : decodeWord 0x00000072#32 = .ok .rgbaConvert := by decide
theorem test_decode_imm8_all_ones : decodeWord 0x0000FF11#32 = .ok (.brRead 255) := by decide
theorem test_illegal_opcode : decodeWord 0x00000003#32 = .error .opcode := by decide
theorem test_illegal_reservedN : decodeWord 0x00000101#32 = .error .reservedN := by decide
theorem test_illegal_reservedI : decodeWord 0x00010311#32 = .error .reservedI := by decide
theorem test_tableWord : decodeTableWord 32 0x00001111 = some (.brRead 17) := by decide

/-! ### One step of each command: vectors of 95_test_vectors.md -/

-- STATUS is offset 0x04, ERR_CODE 0x08, ERR_INFO 0x0C, RES0 0x24, BR_BYTEPOS 0x30, BR_BITPOS 0x34.

theorem test_nop : regs .nop State.reset [0x04] = some [0x02] := by decide
-- V-RST-2
theorem test_softReset : regs .softReset { withIn [0xB5] with err := true, errCode := 0x21, errInfo := 1 }
    [0x04, 0x08, 0x0C, 0x28] = some [0x02, 0, 0, 1] := by decide
-- V-BR-3, V-BR-5
theorem test_brInit : regs .brInit { withIn [0xB5, 0x0F] with a0 := 1 } [0x04, 0x2C, 0x30, 0x34] = some [2, 1, 1, 0] := by
  decide
theorem test_brInit_past : regs .brInit { withIn [0xB5, 0x0F] with a0 := 3 } [0x04, 0x08, 0x0C] = some [4, 0x61, 3] := by
  decide
-- V-BR-1 step 2 (a field across two bytes), V-BR-4
theorem test_brRead : regs (.brRead 8) { withIn [0xB5, 0x0F] with brBitPos := 3 } [0x04, 0x24, 0x30, 0x34] =
    some [2, 0xF6, 1, 3] := by decide +kernel
theorem test_brRead_17 : regs (.brRead 17) (withIn [0xB5, 0x0F]) [0x04, 0x08, 0x0C, 0x30] = some [4, 0x20, 0x11, 0] := by
  decide
-- V-BR-1 step 3
theorem test_brHasdata_end : regs .brHasdata { withIn [0xB5, 0x0F] with brBytePos := 2, res0 := 9 } [0x24] = some [0] := by
  decide
theorem test_brTell : regs .brTell { withIn [0xB5, 0x0F] with brBytePos := 1, brBitPos := 3 } [0x24] = some [11] := by
  decide
-- V-HUF-1, V-HUF-14
theorem test_hufBuild : regs (.hufBuild 0) (withLens [3, 1, 3, 2]) [0x04, 0x64] = some [2, 0x80000043] ∧
    elems (.hufBuild 0) (withLens [3, 1, 3, 2]) (.tab 0) 8 =
      some [0x11001, 0x12003, 0x11001, 0x13000, 0x11001, 0x12003, 0x11001, 0x13002] := by decide +kernel
theorem test_hufBuild_under : regs (.hufBuild 0) (withLens [15, 15]) [0x04, 0x08, 0x0C, 0x64] =
    some [4, 0x13, 2, 0] := by decide +kernel
-- V-HUF-D3 (bits 1,1,0), V-HUF-D7
theorem test_hufDecode : regs (.hufDecode 0) (withTable [0x03]) [0x04, 0x24, 0x34] = some [2, 0, 3] := by decide +kernel
theorem test_hufDecode_end : regs (.hufDecode 0) (withTable []) [0x04, 0x08, 0x0C, 0x24] = some [4, 0x21, 1, 0] := by
  decide +kernel
-- V-CL-1, V-CL-3
theorem test_clRead_literal : elems .clRead { withIn [0x20, 0xDA, 0x00] with a0 := 6 } .clmem 6 =
    some [1, 2, 3, 3, 0, 0] := by decide +kernel
theorem test_clRead_coded : elems .clRead { withIn [0x4B, 0x82, 0x00, 0x40, 0x48, 0x18, 0x00] with a0 := 20 } .clmem 20 =
    some [1, 1, 1, 1, 0, 0, 0, 0, 0, 0, 0, 0, 0, 0, 0, 0, 0, 0, 1, 1] := by decide +kernel
-- V-CC-3 and P3
theorem test_ccInit_12 : regs .ccInit { withA0 12 with ccBits := 4 } [0x04, 0x08, 0x0C, 0x44] = some [4, 0x41, 12, 4] := by
  decide
-- V-CC-1, row 80102030, 11 bits
theorem test_ccHash : regs .ccHash { withA0 0x80102030 with ccBits := 11 } [0x24] = some [726] := by decide +kernel
-- V-CC-2
theorem test_ccInsert : elems .ccInsert { withA0 0xFFFFFFFF with ccBits := 1 } .cache 2 = some [0, 0xFFFFFFFF] := by
  decide +kernel
theorem test_ccGet : regs .ccGet { withA0 2 with ccBits := 1 } [0x04, 0x08, 0x0C] = some [4, 0x40, 2] := by decide
-- V-LZ-P5, V-LZ-P3
theorem test_lzPrefix_39 : regs (.lzPrefix 39) (withIn [0xFF, 0xFF, 0xFF]) [0x04, 0x24, 0x30, 0x34] =
    some [2, 1048576, 2, 2] := by decide +kernel
theorem test_lzPrefix_8 : regs (.lzPrefix 8) (withIn [0x05]) [0x24, 0x34] = some [22, 3] := by decide +kernel
-- V-LZ-1, V-LZ-6
theorem test_lzCopy : elems .lzCopy { withPix 8 1 [7, 9] with a0 := 2, a1 := 2, a2 := 6 } .pix 8 =
    some [7, 9, 7, 9, 7, 9, 7, 9] := by decide +kernel
theorem test_lzCopy_bounds : regs .lzCopy { withPix 4 1 [7] with a0 := 1, a1 := 1, a2 := 4 } [0x04, 0x08, 0x0C] =
    some [4, 0x33, 5] := by decide +kernel
-- V-PRED-1 mode 5, V-PRED-2 (a tie)
theorem test_pred_5 : regs (.pred 5) { State.reset with a0 := 0xFF102030, a3 := 0x00FF00FF } [0x24] =
    some [0x7F871097] := by decide +kernel
theorem test_pred_11_tie : regs (.pred 11) { State.reset with a0 := 0x10, a2 := 0x08, res0 := 5 } [0x24] = some [0] := by
  decide +kernel
-- V-XF-4, rows 5 and 2
theorem test_xfPredInv_topRight : elems (.xfPredInv 0) (withDesc (withPix 3 2 [1, 2, 3, 4, 5, 6]) 0x80000020 [0x300]) .pix 6 =
    some [1, 2, 3, 6, 8, 6] := by decide +kernel
-- V-XF-2
theorem test_xfColorInv : elems (.xfColorInv 0)
    (withDesc (withPix 2 1 [0xFF7F8040, 0xFF0000FF]) 0x80000021 [0x0000FF7F]) .pix 2 =
    some [0xFF408041, 0xFF0000FF] := by decide +kernel
-- V-XF-1
theorem test_xfSubgInv : elems (.xfSubgInv 0) (withDesc (withPix 3 1 [0xFFD8320A, 0x01FF01FF, 0]) 2 []) .pix 3 =
    some [0xFF0A323C, 0x01000100, 0] := by decide +kernel
-- V-XF-3
theorem test_xfPalApply : elems (.xfPalApply 0)
      (withDesc (withPix 3 1 [1, 0xABCDEF00, 2]) 0x80000203 [0xFF000000, 0xFFFFFFFF]) .pix 3 =
      some [0xFFFFFFFF, 0xFF000000, 2] ∧
    regs (.xfPalApply 0) (withDesc (withPix 3 1 [1, 0xABCDEF00, 2]) 0x80000203 [0xFF000000, 0xFFFFFFFF])
      [0x04, 0x08, 0x0C] = some [4, 0x51, 2] := by decide +kernel
theorem test_xfPalInvert : regs (.xfPalInvert 0)
    (withDesc (withPix 3 1 [1, 0xABCDEF00, 2]) 0x80000203 [0xFF000000, 0xFFFFFFFF]) [0x04, 0x08, 0x0C] =
    some [4, 0x53, 0] := by decide +kernel
-- V-XF-6
theorem test_xfChainInv : elems .xfChainInv (withDesc (withPix 2 1 [0xFFD8320A, 0x01FF01FF]) 2 []) .pix 2 =
    some [0xFF0A323C, 0x01000100] := by decide +kernel
-- V-HDR-6, V-HDR-2
theorem test_hdrParse : regs .hdrParse (withIn [0x2F, 0x03, 0x80, 0x01, 0x00]) [0x04, 0x38, 0x3C, 0x40, 0x30, 0x34] =
    some [0x12, 4, 7, 0, 5, 0] := by decide +kernel
theorem test_hdrParse_version : regs .hdrParse (withIn [0x2F, 0xFF, 0xFF, 0xFF, 0xFF]) [0x04, 0x08, 0x0C] =
    some [0x14, 0x02, 7] := by decide +kernel
-- V-HDR-7
theorem test_decode_short : regs .decode (withIn [0x2F, 0, 0, 0, 0]) [0x04, 0x08, 0x0C, 0x30, 0x34] =
    some [0x24, 0x21, 1, 5, 0] := by decide +kernel
-- P3, the first two pixels
theorem test_rgbaConvert : elems .rgbaConvert (withPix 2 1 [0xFF0000FF, 0xFF00FF00]) .out 8 =
    some [0, 0, 0xFF, 0xFF, 0, 0xFF, 0, 0xFF] := by decide +kernel

/-! ### A witness for the hypotheses of every statement

Each theorem names its statement and shows a state and operands that meet the hypotheses of one of its clauses, at a boundary
value where the clause has a range. -/

/-- The reset state with IN_LEN one past IN_CAPACITY: the input check fails. -/
def tooLong : State := { State.reset with inLen := 0x20000001 }

/-- A command was accepted and ended in the error state, or ended without error. -/
def ends (i : Instr) (s : State) (done : Bool) : Prop := ∃ t, exec i s = .next t ∧ t.done = done

theorem witness_stepRuns_command :
    let s : State := { State.reset with hostOps := [.writeReg 0x00 1, .writeReg 0x14 7] }
    s.hostOps = .writeReg 0x00 1 :: [.writeReg 0x14 7] ∧ s.busy = false ∧ s.err = false ∧ decodeWord 1 = .ok .nop := by decide
theorem witness_stepRuns_afterError :
    let s : State := { State.reset with err := true, errCode := 0x60, hostOps := [.writeReg 0x00 2] }
    s.hostOps = [.writeReg 0x00 2] ∧ s.busy = false ∧ decodeWord 2 = .ok .softReset := by decide
theorem witness_stepRuns_tableWord :
    State.reset.busy = false ∧ State.reset.err = false ∧ decodeTableWord 32 0xFF11 = some (.brRead 255) := by decide

theorem witness_acceptance_busy : ({ State.reset with busy := true } : State).busy = true := by decide
theorem witness_acceptance_error : let s : State := { State.reset with err := true }
    s.busy = false ∧ s.err = true ∧ (0x00000102#32) ≠ 0x00000002#32 := by decide
theorem witness_acceptance_legal : State.reset.busy = false ∧ State.reset.err = false ∧ decodeWord 2 = .ok .softReset := by
  decide
theorem witness_acceptance_illegal : State.reset.busy = false ∧ State.reset.err = false ∧ decodeWord 0 = .error .opcode := by
  decide

theorem witness_illegalWords : State.reset.busy = false ∧ State.reset.err = false ∧
    IllegalWord 0x00000101 ∧ IllegalWord 0x00010311 ∧ IllegalWord 0x00000003 ∧ ¬ IllegalWord 0x0000FF11 := by
  unfold IllegalWord; decide

theorem witness_decodeEncode : (Instr.pred 0).WellFormed ∧ (Instr.pred 255).WellFormed := by decide
theorem witness_encodeDecode : decodeWord 0x0000FF50#32 = .ok (.pred 255) := by decide

theorem witness_registerPort : State.reset.busy = false ∧ (0x10 : Nat) ≠ 0x00 ∧ 0x10 ∈ writableOffsets ∧
    0x58 ∈ writableOffsets ∧ 0x5C ∉ writableOffsets ∧ Mapped 0x7C ∧ Mapped 0x10 ∧ ¬ Mapped 0x80 ∧ ¬ Mapped 0x12 := by
  unfold Mapped; decide

theorem memWf_reset : State.reset.MemWf := by unfold State.MemWf; decide

theorem witness_memoryPort : State.reset.busy = false ∧ State.reset.MemWf ∧
    2 ^ 29 - 1 < State.reset.spaceCount .inp ∧ 2327 < State.reset.spaceCount .clmem ∧
    2 ^ 24 - 1 < State.reset.spaceCount (.sub 3) ∧ State.reset.spaceCount .clmem ≤ 2328 ∧
    Space.cache ∉ [.inp, .clmem, .pix, .sub 0, .sub 1, .sub 2, .sub 3] :=
  ⟨rfl, memWf_reset, by decide⟩
theorem witness_widePort : State.reset.busy = false ∧ State.reset.MemWf ∧ 4 * 581 + 3 < State.reset.spaceCount .clmem :=
  ⟨rfl, memWf_reset, by decide⟩
theorem witness_widePort_straddle : let s : State := { State.reset with params := { Params.default with inCapacity := 6 } }
    s.busy = false ∧ s.MemWf ∧ 4 * 1 + 1 < s.spaceCount .inp ∧ s.spaceCount .inp ≤ 4 * 1 + 2 := by
  unfold State.MemWf; decide

theorem witness_busyAndIdle : ({ State.reset with busy := true } : State).busy = true ∧
    HostOp.writeReg 0x14 1 ≠ .hardReset ∧ State.reset.busy = false ∧ State.reset.hostOps = [] := by decide

theorem witness_interrupt : ends (.brRead 0) { State.reset with irqEn := true } false ∧ ends .softReset State.reset true :=
  ⟨⟨_, rfl, rfl⟩, ⟨_, rfl, rfl⟩⟩

theorem witness_errorStaysFirst : let s : State := { State.reset with err := true, errCode := 0x40, errInfo := 9 }
    s.err = true ∧ s.busy = false ∧ HostOp.writeReg 0x00 1 ≠ .writeReg 0x00 0x00000002#32 ∧
    HostOp.writeElem .pix 0 1 ≠ .writeReg 0x00 0x00000002#32 ∧ HostOp.writeReg 0x14 1 ≠ .hardReset := by decide
theorem witness_errorStaysFirst_wide : HostOp.writeWide .inp 0 1 ≠ .writeReg 0x00 0x00000002#32 ∧
    HostOp.writeWide .inp 0 1 ≠ .hardReset := by decide

/-- A state with a valid slot and a BR_READ command outstanding, its input read to the end: the step ends in an error. -/
def queued : State := (withTable []).withFetchWord 32 0x111

theorem witness_steps : queued.MemWf ∧ queued.FlagsAgree ∧ queued.RegsLegal ∧ queued.InBounds := by
  refine ⟨?_, ?_, ?_, ?_⟩
  · unfold State.MemWf; decide
  · exact ⟨rfl, by decide, by decide, fun h => absurd h (by decide)⟩
  · unfold State.RegsLegal; decide
  · unfold State.InBounds Memory.Below; decide
theorem witness_steps_noImpossibleError :
    queued.MemWf ∧ queued.NoImpossibleError ∧ queued.tabInfo[(0 : Fin 7)].valid = true := by
  refine ⟨by unfold State.MemWf; decide, ⟨?_, by decide⟩, by decide⟩
  unfold State.TableComplete; decide +kernel
theorem witness_steps_next : ∃ t, step queued = .next t ∧ t.err = true := ⟨_, rfl, rfl⟩
theorem witness_stepNeverStops : queued.busy = false := by decide

theorem witness_commandFrame : ends (.brRead 3) (withIn [0xB5]) true ∧ ends (.brRead 0) (withIn [0xB5]) false :=
  ⟨⟨_, rfl, rfl⟩, ⟨_, rfl, rfl⟩⟩
theorem witness_stageAfterCommand : ends .nop State.reset true ∧ ends .hdrParse (withIn [0x2F]) false ∧
    ends .decode (withIn [0x2F]) false := ⟨⟨_, rfl, rfl⟩, ⟨_, rfl, rfl⟩, ⟨_, rfl, rfl⟩⟩

theorem witness_brInit : let s : State := { withIn [1, 2] with a0 := 2 }
    s.InputOk ∧ s.a0.toNat ≤ s.inLen.toNat := by unfold State.InputOk; decide
theorem witness_brInit_input : ¬ tooLong.InputOk := by unfold State.InputOk; decide
theorem witness_brInit_range : let s : State := { withIn [1, 2] with a0 := 3 }
    s.InputOk ∧ s.inLen.toNat < s.a0.toNat := by unfold State.InputOk; decide

theorem witness_brRead : (withIn [1, 2]).InputOk ∧ (withIn [1, 2]).pos + 16 ≤ (withIn [1, 2]).endPos ∧
    (withIn [1, 2]).pos + 1 ≤ (withIn [1, 2]).endPos := by unfold State.InputOk; decide
theorem witness_brRead_count : (withIn [1, 2]).InputOk ∧ 16 < 17 := by unfold State.InputOk; decide
theorem witness_brRead_end : (withIn [1, 2]).InputOk ∧ (withIn [1]).endPos < (withIn [1]).pos + 9 := by
  unfold State.InputOk; decide
theorem witness_brReadSplit : (withIn [1, 2]).InputOk ∧ 1 + 15 ≤ 16 ∧
    (withIn [1, 2]).pos + (1 + 15) ≤ (withIn [1, 2]).endPos := by unfold State.InputOk; decide
theorem witness_brReadSplit_byte : (withIn [9]).InputOk ∧ (withIn [9]).inLen = 1 ∧ (withIn [9]).pos = 0 ∧
    (withIn [9]).pos + (3 + 5) ≤ (withIn [9]).endPos := by unfold State.InputOk; decide
theorem witness_brTell : let s : State := { withIn [1, 2] with brStart := 1, brBytePos := 2 }
    s.pos ≤ s.endPos ∧ s.brStart.toNat * 8 ≤ s.pos ∧ s.pos - s.brStart.toNat * 8 < 2 ^ 32 := by decide

/-- The code-length array of V-HUF-1. -/
def lengths4 : List Byte := [3, 1, 3, 2]

theorem witness_canonicalCodes : (∀ b ∈ lengths4, b.toNat ≤ 15) ∧ 3 < lengths4.length ∧ lengthAt lengths4 3 ≠ 0 := by decide

theorem witness_hufBuild_length : (withA0 2329).a0.toNat = 2329 ∧ (withA0 2328).a0.toNat ≤ 2328 := by decide
theorem witness_hufBuild_tooLong : let L := (withLens [1, 16]).codeLengths 2
    (withLens [1, 16]).a0.toNat = 2 ∧ 1 < L.length ∧ 15 < lengthAt L 1 ∧ ∀ j < 1, lengthAt L j ≤ 15 := by decide +kernel
theorem witness_hufBuild_zeros : let L := (withLens [0, 0]).codeLengths 2
    (withLens [0, 0]).a0 = 2 ∧ ∀ b ∈ L, b = 0 := by decide +kernel
theorem witness_hufBuild_over : let L := (withLens [1, 1, 15]).codeLengths 3
    (withLens [1, 1, 15]).a0 = 3 ∧ (∀ b ∈ L, b.toNat ≤ 15) ∧ 2 ^ 15 < kraftSum L := by decide +kernel
theorem witness_hufBuild_under : let L := (withLens [2]).codeLengths 1
    (withLens [2]).a0 = 1 ∧ (∀ b ∈ L, b.toNat ≤ 15) ∧ (∃ b ∈ L, b ≠ 0) ∧ kraftSum L < 2 ^ 15 ∧
    ¬ (usedCount L = 1 ∧ ∃ b ∈ L, b = 1) ∧ isSingle L = false := by decide +kernel
theorem witness_hufBuild_complete : let L := (withLens [3, 1, 3, 2]).codeLengths 4
    (withLens [3, 1, 3, 2]).a0 = 4 ∧ (∀ b ∈ L, b.toNat ≤ 15) ∧ kraftSum L = 2 ^ 15 := by decide +kernel
theorem witness_hufSingle : let s : State := { withLens [0, 0, 1] with inLen := 1, inp := mem [0x80] }
    2 < s.a0.toNat ∧ (∀ j < s.a0.toNat, s.clmem.read .clmem j = if j = 2 then 1 else 0) ∧
    (after (.hufBuild 6) s).map (fun t => (t.inLen, t.params.inCapacity, t.pos + 1, t.endPos)) = some (1, 2 ^ 29, 1, 8) := by
  decide +kernel

theorem witness_hufDecode_invalid : State.reset.tabInfo[slotOf 6].valid = false := by decide
theorem witness_hufDecode_input : let s : State := { withTable [] with inLen := 0x20000001 }
    s.tabInfo[slotOf 0].valid = true ∧ ¬ s.InputOk := by unfold State.InputOk; decide
theorem witness_hufDecode_hit : let s := withTable [0x03]
    s.InputOk ∧ s.tabInfo[slotOf 0].valid = true ∧ s.tabInfo[slotOf 0].maxLen.toNat = 3 ∧ s.pos + 3 ≤ s.endPos ∧
    let hit (k : Nat) : Prop := entryFilled (s.tab[slotOf 0].read (.tab (slotOf 0)) (s.field s.pos k)) = true ∧
      entryLen (s.tab[slotOf 0].read (.tab (slotOf 0)) (s.field s.pos k)) = k
    hit 3 ∧ ∀ k' < 3, 1 ≤ k' → ¬ hit k' := by unfold State.InputOk; decide +kernel
theorem witness_hufDecode_noHit : let s : State :=
      { withIn [0xFF] with tab := State.reset.tab.set 0 (mem [0, 0]), tabInfo := State.reset.tabInfo.set 0 ⟨1, 2, false, true⟩ }
    s.InputOk ∧ s.tabInfo[slotOf 0].valid = true ∧ s.tabInfo[slotOf 0].maxLen.toNat = 1 ∧ 1 ≤ s.endPos - s.pos ∧
    entryFilled (s.tab[slotOf 0].read (.tab (slotOf 0)) (s.field s.pos 1)) = false := by
  unfold State.InputOk; decide +kernel
theorem witness_hufDecode_end : (withTable []).InputOk ∧ (withTable []).endPos - (withTable []).pos <
    (withTable []).tabInfo[slotOf 0].maxLen.toNat := by unfold State.InputOk; decide
theorem witness_hufRoundTrip : let u := withTable [0x03]
    (after (.hufBuild 0) (withLens [3, 1, 3, 2])).map (fun t => (t.tab[slotOf 0], t.tabInfo[slotOf 0])) =
      some (u.tab[slotOf 0], u.tabInfo[slotOf 0]) ∧
    (withLens [3, 1, 3, 2]).codeLengths 4 = lengths4 ∧ lengthAt lengths4 0 = 3 ∧ u.InputOk ∧
    u.HasBits u.pos (codeBits lengths4 0) ∧ u.pos + 3 ≤ u.endPos := by
  unfold State.InputOk State.HasBits; decide +kernel

/-- The input of V-CL-1 with a count of lengths. -/
def literalLens (n : Nat) : State := { withIn [0x20, 0xDA, 0x00] with a0 := trunc32 n }

/-- The values of the three meta lengths of V-CL-3 in the order of the default `CL_CODE_ORDER`. -/
def metaValues : List Nat := [2, 2, 0, 2, 0, 0, 0, 0, 2]

theorem witness_clReadLiteral : let s := literalLens 4
    s.clmem.wf ∧ s.InputOk ∧ s.a0.toNat = 4 ∧ s.field s.pos 1 = 0 ∧ 4 = 4 + s.field (s.pos + 1) 4 ∧
    s.pos + 5 + 3 * 4 ≤ s.endPos := by unfold State.InputOk; decide +kernel
theorem witness_clReadCoded : let s : State := { withIn [0x4B, 0x82, 0x00, 0x40, 0x48, 0x18, 0x00] with a0 := 20 }
    let M := metaCode s.params.clCodeOrder metaValues
    let ts := [.literal 1, .repeatPrev 0, .shortZeros 0, .longZeros 0, .literal 1, .literal 1]
    let bits := metaBits metaValues ++ tokenBits M ts
    s.clmem.wf ∧ s.params.Admissible ∧ s.InputOk ∧ s.a0.toNat = 20 ∧ MetaOk metaValues ∧ Buildable M ∧
    (∀ k ∈ ts, k.Legal ∧ lengthAt M k.symbol ≠ 0) ∧ (expandTokens 8 ts).length = 20 ∧ s.HasBits s.pos bits ∧
    s.pos + bits.length ≤ s.endPos := by
  unfold State.InputOk State.HasBits MetaOk Buildable
  refine ⟨by decide, by decide, by decide, by decide, by decide, by decide +kernel, ?_, by decide, by decide +kernel,
    by decide +kernel⟩
  intro k hk
  simp only [List.mem_cons, List.not_mem_nil, or_false] at hk
  rcases hk with rfl | rfl | rfl | rfl | rfl | rfl
  all_goals exact ⟨by simp [LenToken.Legal], by decide +kernel⟩
theorem witness_clReadErrors_range : (withA0 0).a0 = 0 ∧ 2328 < (withA0 2329).a0.toNat := by decide
theorem witness_clReadErrors_input : let s : State := { tooLong with a0 := 2328 }
    1 ≤ s.a0.toNat ∧ s.a0.toNat ≤ 2328 ∧ ¬ s.InputOk := by unfold State.InputOk; decide
theorem witness_clReadErrors_flag : (withA0 1).InputOk ∧ (withA0 1).endPos < (withA0 1).pos + 1 := by
  unfold State.InputOk; decide
theorem witness_clReadErrors_count : let s : State := { withIn [0] with a0 := 1, brBitPos := 4 }
    s.InputOk ∧ s.pos + 1 ≤ s.endPos ∧ s.endPos < s.pos + 5 := by unfold State.InputOk; decide
theorem witness_clReadErrors_oversized : let s := literalLens 3
    s.InputOk ∧ s.pos + 5 ≤ s.endPos ∧ s.field s.pos 1 = 0 ∧ s.a0.toNat < 4 + s.field (s.pos + 1) 4 := by
  unfold State.InputOk; decide +kernel
theorem witness_clReadErrors_literalEnd : let s : State := { withIn [0x20, 0xDA] with a0 := 6 }
    s.clmem.wf ∧ s.InputOk ∧ s.field s.pos 1 = 0 ∧ 3 < 4 + s.field (s.pos + 1) 4 ∧
    4 + s.field (s.pos + 1) 4 ≤ s.a0.toNat ∧ s.pos + 5 + 3 * 3 ≤ s.endPos ∧ s.endPos < s.pos + 5 + 3 * 3 + 3 := by
  unfold State.InputOk; decide +kernel
theorem witness_clReadErrors_metaEnd : let s : State := { withIn [0x01, 0x00] with a0 := 1 }
    s.params.Admissible ∧ s.InputOk ∧ s.field s.pos 1 = 1 ∧ 3 < 4 + s.field (s.pos + 1) 4 ∧
    s.pos + 5 + 3 * 3 ≤ s.endPos ∧ s.endPos < s.pos + 5 + 3 * 3 + 3 := by
  unfold State.InputOk; decide +kernel

/-- A coded array whose meta lengths are `ms`, in the bytes `vs`, is read up to the end of its meta lengths. -/
def metaRead (vs ms : List Nat) : Prop :=
  let s : State := { withIn vs with a0 := 1 }
  s.clmem.wf ∧ s.params.Admissible ∧ s.InputOk ∧ MetaOk ms ∧ s.HasBits s.pos (metaBits ms) ∧
  s.pos + (metaBits ms).length ≤ s.endPos

theorem witness_clReadCodedErrors_empty : metaRead [0x01, 0x00, 0x00] [0, 0, 0, 0] ∧
    usedCount (metaCode State.reset.params.clCodeOrder [0, 0, 0, 0]) = 0 := by
  unfold metaRead State.InputOk State.HasBits MetaOk; decide +kernel
theorem witness_clReadCodedErrors_over : metaRead [0x21, 0x09, 0x00] [1, 1, 1, 0] ∧
    2 ^ 15 < kraftSum (metaCode State.reset.params.clCodeOrder [1, 1, 1, 0]) := by
  unfold metaRead State.InputOk State.HasBits MetaOk; decide +kernel
theorem witness_clReadCodedErrors_under : metaRead [0x41, 0x12, 0x00] [2, 2, 2, 0] ∧
    let M := metaCode State.reset.params.clCodeOrder [2, 2, 2, 0]
    0 < usedCount M ∧ kraftSum M < 2 ^ 15 ∧ isSingle M = false := by
  unfold metaRead State.InputOk State.HasBits MetaOk; decide +kernel
theorem witness_clReadCodedErrors_overflow : let s : State := { withIn [0x4B, 0x82, 0x00, 0x40, 0x02] with a0 := 2 }
    let M := metaCode s.params.clCodeOrder metaValues
    let bits := metaBits metaValues ++ tokenBits M ([] ++ [.repeatPrev 0])
    s.InputOk ∧ Buildable M ∧ lengthAt M 16 ≠ 0 ∧ (expandTokens 8 []).length < s.a0.toNat ∧
    s.a0.toNat < (expandTokens 8 []).length + ((LenToken.repeatPrev 0).lengths (prevAfter 8 [])).length ∧
    s.HasBits s.pos bits ∧ s.pos + bits.length ≤ s.endPos := by
  unfold State.InputOk State.HasBits Buildable
  refine ⟨by decide, by decide +kernel, by decide +kernel, by decide, by decide, by decide +kernel, by decide +kernel⟩

/-- The tokens of a coded array up to the one the input ends inside. -/
def cutRead (vs : List Nat) (ts : List LenToken) (k : LenToken) : Prop :=
  let s : State := { withIn vs with a0 := 20 }
  let M := metaCode s.params.clCodeOrder metaValues
  let bits := metaBits metaValues ++ tokenBits M ts
  s.clmem.wf ∧ s.params.Admissible ∧ s.InputOk ∧ MetaOk metaValues ∧ Buildable M ∧
  (∀ k' ∈ k :: ts, lengthAt M k'.symbol ≠ 0) ∧ (expandTokens 8 ts).length < s.a0.toNat ∧
  s.HasBits s.pos bits ∧ s.pos + bits.length ≤ s.endPos

theorem witness_clReadCodedErrors_symbolEnd :
    let s : State := { withIn [0x4B, 0x82, 0x00, 0x40, 0x04] with a0 := 20 }
    let M := metaCode s.params.clCodeOrder metaValues
    let p := s.pos + (metaBits metaValues ++ tokenBits M [.literal 1, .shortZeros 0]).length
    cutRead [0x4B, 0x82, 0x00, 0x40, 0x04] [.literal 1, .shortZeros 0] (.literal 1) ∧
    s.endPos < p + lengthAt M 1 ∧ s.HasBits p ((codeBits M 1).take (s.endPos - p)) := by
  unfold cutRead State.InputOk State.HasBits MetaOk Buildable; decide +kernel
theorem witness_clReadCodedErrors_extraEnd :
    let s : State := { withIn [0x4B, 0x82, 0x00, 0x40, 0x48] with a0 := 20 }
    let M := metaCode s.params.clCodeOrder metaValues
    let p := s.pos + (metaBits metaValues ++ tokenBits M [.literal 1, .repeatPrev 0]).length
    cutRead [0x4B, 0x82, 0x00, 0x40, 0x48] [.literal 1, .repeatPrev 0] (.shortZeros 0) ∧
    s.HasBits p (codeBits M 17) ∧ p + lengthAt M 17 ≤ s.endPos ∧ s.endPos < p + lengthAt M 17 + 3 := by
  unfold cutRead State.InputOk State.HasBits MetaOk Buildable; decide +kernel
theorem witness_clReadCodedErrors_legal :
    ∀ k ∈ [LenToken.literal 1, .repeatPrev 0, .shortZeros 0], k.Legal := by
  simp [LenToken.Legal]

theorem witness_ccInit : (withA0 11).a0.toNat ≤ 11 ∧ 11 < (withA0 12).a0.toNat := by decide
theorem witness_ccHash : (withA0 1).ccBits = 0 ∧ ({ withA0 1 with ccBits := 11 } : State).ccBits ≠ 0 := by decide
theorem witness_ccInsertAndGet : let s : State := { withA0 1 with ccBits := 1 }
    s.cache.wf ∧ s.ccBits ≠ 0 ∧ s.a0.toNat < 2 ^ s.ccBits.toNat ∧ 2 ^ s.ccBits.toNat ≤ (withA0 2).a0.toNat := by decide

theorem witness_lzPrefix : (withIn [1, 2, 3]).InputOk ∧ (withIn [1, 2, 3]).pos + 18 ≤ (withIn [1, 2, 3]).endPos ∧
    ¬ tooLong.InputOk := by unfold State.InputOk; decide
theorem witness_lzPrefix_end : (withIn []).InputOk ∧ (withIn []).endPos < (withIn []).pos + (35 - 2) / 2 ∧
    (withIn [1]).endPos < (withIn [1]).pos + 16 ∧ 16 < (36 - 2) / 2 := by unfold State.InputOk; decide
theorem witness_lzPrefix_secondRead : let s := withIn [1, 2]
    s.InputOk ∧ s.pos + 16 ≤ s.endPos ∧ s.endPos < s.pos + (36 - 2) / 2 := by unfold State.InputOk; decide
theorem witness_prefixCodes : 0 < 2 ^ prefixExtra 0 ∧ 2 ^ 18 - 1 < 2 ^ prefixExtra 39 ∧
    prefixBase 0 = 1 ∧ prefixBase 39 + (2 ^ 18 - 1) = 2 ^ 20 := by decide
theorem witness_lzCopy : let s : State := { withPix 8 1 [7, 9] with a0 := 2, a1 := 2, a2 := 6 }
    s.pix.wf ∧ s.ImageOk ∧ s.a1.toNat ≤ s.params.lzMaxDistance ∧ s.a1.toNat ≤ s.a0.toNat ∧ 1 ≤ s.a2.toNat ∧
    s.a0.toNat + s.a2.toNat ≤ s.npix := by unfold State.ImageOk; decide
theorem witness_lzCopyErrors_image : State.reset.imgW = 0 ∧ (withPix 1 0 []).imgW ≠ 0 ∧ (withPix 1 0 []).imgH = 0 ∧
    let s := withPix 16385 16384 []
    s.imgW ≠ 0 ∧ s.imgH ≠ 0 ∧ s.params.pixCapacity < s.imgW.toNat * s.imgH.toNat := by decide
theorem witness_lzCopyErrors_copy : (withPix 16384 16384 []).ImageOk ∧
    State.reset.params.lzMaxDistance < (0x8001#32).toNat ∧ 3 < 4 ∧ 4096 < 4097 ∧
    (withPix 2 2 []).ImageOk ∧ (withPix 2 2 []).imgW.toNat * (withPix 2 2 []).imgH.toNat < 1 + 4 := by
  unfold State.ImageOk; decide

theorem witness_pred : (13 : Nat) ≤ 13 ∧ 13 < 14 := by decide

/-- A 3 × 2 image with one Predictor descriptor whose one block holds `mode`. -/
def predicted (mode : Nat) : State := withDesc (withPix 3 2 [1, 2, 3, 4, 5, 6]) 0x80000020 [mode * 256]

theorem witness_xfPredInv : (predicted 13).pix.wf ∧ (predicted 13).XfOk 0 .predictor ∧
    ∀ i < (predicted 13).npix, ((predicted 13).blockData 0 i).toNat / 2 ^ 8 % 16 ≤ 13 := by
  unfold State.XfOk State.ImageOk State.BlocksOk; decide +kernel
theorem witness_xfPredInv_mode14 : (predicted 14).pix.wf ∧ (predicted 14).XfOk 0 .predictor ∧ 0 < (predicted 14).npix ∧
    13 < ((predicted 14).blockData 0 0).toNat / 2 ^ 8 % 16 := by
  unfold State.XfOk State.ImageOk State.BlocksOk; decide +kernel

/-- A `w × h` image with the descriptor word `d` and no payload written. -/
def described (w h : Nat) (d : Word) : State := withDesc (withPix w h []) d []

theorem witness_xfChecks_operands : 3 < 4 ∧ 4 < ({ State.reset with xfCount := 5 } : State).xfCount.toNat ∧
    (described 1 1 2).xfCount.toNat ≤ 1 ∧ (described 1 1 2).xfDesc[descOf 0].ty ≠ .palette := by decide
theorem witness_xfChecks_payload : let s := described 1 1 0x20
    0 < s.xfCount.toNat ∧ s.xfCount.toNat ≤ 4 ∧ s.xfDesc[descOf 0].ty = .predictor ∧
    s.xfDesc[descOf 0].payloadValid = false := by decide
theorem witness_xfChecks_image : (described 0 1 2).imgW = 0 ∧ (described 1 0 2).imgW ≠ 0 ∧ (described 1 0 2).imgH = 0 ∧
    (described 16385 16384 2).params.pixCapacity < (described 16385 16384 2).npix ∧
    (described 1 0 2).xfDesc[descOf 0].ty = .subtractGreen := by decide
theorem witness_xfChecks_blockBits : (described 1 1 0x80000010).ImageOk ∧
    (described 1 1 0x80000010).xfDesc[descOf 0].blockBits.toNat < 2 ∧
    9 < (described 1 1 0x800000A1).xfDesc[descOf 0].blockBits.toNat ∧
    (described 1 1 0x800000A1).xfDesc[descOf 0].ty = .color := by unfold State.ImageOk; decide
theorem witness_xfChecks_blocks : let s := described 1 (2 ^ 28) 0x80000020
    s.ImageOk ∧ s.xfDesc[descOf 0].payloadValid = true ∧
    s.params.subCapacity < ceilDiv s.imgW.toNat (2 ^ 2) * ceilDiv s.imgH.toNat (2 ^ 2) := by unfold State.ImageOk; decide
theorem witness_xfChecks_palette : (described 1 1 0x80000003).xfDesc[descOf 0].palSize = 0 ∧
    256 < (described 1 1 0x80010103).xfDesc[descOf 0].palSize.toNat ∧
    (described 1 1 0x80010103).xfDesc[descOf 0].ty = .palette ∧ (described 1 1 0x80010103).ImageOk := by
  unfold State.ImageOk; decide

theorem witness_xfSubgInv : let s := withDesc (withPix 3 1 [0xFFD8320A, 0x01FF01FF, 0]) 2 []
    let p : Word := 0xFF0A323C
    s.pix.wf ∧ s.XfOk 0 .subtractGreen ∧ 0 < s.npix ∧ chan (s.pixAt 0) 24 = chan p 24 ∧ chan (s.pixAt 0) 8 = chan p 8 ∧
    chan (s.pixAt 0) 16 = (chan p 16 + (256 - chan p 8)) % 256 ∧
    chan (s.pixAt 0) 0 = (chan p 0 + (256 - chan p 8)) % 256 := by
  unfold State.XfOk State.ImageOk; decide +kernel
theorem witness_xfColorInv : let s := withDesc (withPix 2 1 [0xFF7F8040, 0xFF0000FF]) 0x80000021 [0x0000FF7F]
    s.pix.wf ∧ s.XfOk 0 .color := by unfold State.XfOk State.ImageOk State.BlocksOk; decide +kernel
theorem witness_xfPalApply : let s := withDesc (withPix 2 1 [1, 0xABCDEF00]) 0x80000203 [0xFF000000, 0xFFFFFFFF]
    s.pix.wf ∧ s.XfOk 0 .palette ∧ ∀ i < s.npix, chan (s.pixAt i) 0 < s.xfDesc[descOf 0].palSize.toNat := by
  unfold State.XfOk State.ImageOk; decide +kernel
theorem witness_xfPalApply_range : let s := withDesc (withPix 2 1 [1, 0xABCDEF02]) 0x80000203 [0xFF000000, 0xFFFFFFFF]
    s.XfOk 0 .palette ∧ s.xfDesc[descOf 0].palSize.toNat ≤ chan (s.pixAt 1) 0 ∧
    ∀ i < 1, chan (s.pixAt i) 0 < s.xfDesc[descOf 0].palSize.toNat := by unfold State.XfOk State.ImageOk; decide +kernel
theorem witness_xfPalInvert_checks : ¬ State.reset.XfOk 4 .palette := fun h => absurd h.1 (by decide)
theorem witness_xfPalInvert : (described 1 1 0x80010003).XfOk 0 .palette := by
  unfold State.XfOk State.ImageOk; decide +kernel

/-- A 2 × 1 image with a subtract-green descriptor and then a Predictor descriptor whose one block holds mode 1. -/
def chained : State :=
  let s := withDesc (withPix 2 1 [0xFFD8320A, 0x01FF01FF]) 2 []
  { s with xfCount := 2, xfDesc := s.xfDesc.set 1 (XfDesc.ofWord 0x80000020), sub := s.sub.set 1 (mem [0x100]) }

theorem witness_xfChainInv : chained.err = false ∧ chained.ImageOk ∧ chained.xfCount.toNat ≤ 4 ∧
    (∀ k < chained.xfCount.toNat, chained.XfOk k chained.xfDesc[descOf k].ty) ∧
    ∀ k < chained.xfCount.toNat,
      (chained.xfDesc[descOf k].ty = .palette → chained.xfDesc[descOf k].palSize.toNat = 256) ∧
      (chained.xfDesc[descOf k].ty = .predictor →
        ∀ i < chained.npix, (chained.blockData k i).toNat / 2 ^ 8 % 16 ≤ 13) := by
  unfold State.ImageOk
  refine ⟨by decide, by decide, by decide, ?_, by decide +kernel⟩
  intro k hk
  obtain rfl | rfl : k = 0 ∨ k = 1 := by change k < 2 at hk; omega
  · change chained.XfOk 0 .subtractGreen
    unfold State.XfOk State.ImageOk; decide +kernel
  · change chained.XfOk 1 .predictor
    unfold State.XfOk State.ImageOk State.BlocksOk; decide +kernel
theorem witness_xfChainInv_image : State.reset.imgW = 0 ∧ (withPix 1 0 []).imgW ≠ 0 ∧ (withPix 1 0 []).imgH = 0 ∧
    let s := withPix 16385 16384 []
    s.imgW ≠ 0 ∧ s.imgH ≠ 0 ∧ s.params.pixCapacity < s.npix := by decide
theorem witness_xfChainInv_count : let s : State := { withPix 1 1 [] with xfCount := 5 }
    s.ImageOk ∧ 4 < s.xfCount.toNat := by unfold State.ImageOk; decide
theorem witness_xfChainInv_failing :
    let s : State := { chained with xfDesc := chained.xfDesc.set 1 (XfDesc.ofWord 0x20) }
    s.ImageOk ∧ s.xfCount.toNat ≤ 4 ∧ 1 < s.xfCount.toNat ∧
    (∀ k < 1, s.XfOk k s.xfDesc[descOf k].ty) ∧ ¬ s.XfOk 1 s.xfDesc[descOf 1].ty := by
  unfold State.ImageOk
  refine ⟨by decide, by decide, by decide, ?_, ?_⟩
  · intro k hk
    obtain rfl : k = 0 := by omega
    change State.XfOk _ 0 .subtractGreen
    unfold State.XfOk State.ImageOk; decide +kernel
  · change ¬ State.XfOk _ 1 .predictor
    unfold State.XfOk State.ImageOk State.BlocksOk; decide +kernel

theorem witness_hdrParse : let s := withIn [0x2F, 0x03, 0x80, 0x01, 0x00]
    s.InputOk ∧ 5 ≤ s.inLen.toNat ∧ s.inByte 0 = 0x2F ∧ s.inByte 4 / 32 = 0 ∧
    s.headerW * s.headerH ≤ s.params.pixCapacity := by unfold State.InputOk; decide +kernel
theorem witness_hdrParse_short : (withIn [0x2F, 0, 0, 0]).InputOk ∧ (withIn [0x2F, 0, 0, 0]).inLen.toNat < 5 ∧
    ¬ tooLong.InputOk := by unfold State.InputOk; decide
theorem witness_hdrParse_signature : let s := withIn [0x2E, 0, 0, 0, 0]
    s.InputOk ∧ 5 ≤ s.inLen.toNat ∧ s.inByte 0 ≠ 0x2F := by unfold State.InputOk; decide +kernel
theorem witness_hdrParse_version : let s := withIn [0x2F, 0, 0, 0, 0x20]
    s.InputOk ∧ 5 ≤ s.inLen.toNat ∧ s.inByte 0 = 0x2F ∧ s.inByte 4 / 32 ≠ 0 := by unfold State.InputOk; decide +kernel
theorem witness_hdrParse_capacity : let s : State :=
      { withIn [0x2F, 0x03, 0x80, 0x01, 0x00] with params := { Params.default with pixCapacity := 27 } }
    s.InputOk ∧ s.inByte 0 = 0x2F ∧ s.inByte 4 / 32 = 0 ∧ s.params.pixCapacity < s.headerW * s.headerH := by
  unfold State.InputOk; decide +kernel

theorem witness_rgbaConvert : (withPix 2 1 [5, 6]).out.wf ∧ (withPix 2 1 [5, 6]).ImageOk := by
  unfold State.ImageOk; decide

/-- The bytes of a 1 × 1 image of literal pixels without an alpha tree or a transform, its pixel 0B050201. -/
def literalImage : State := withIn [47, 0, 0, 0, 0, 192, 36, 73, 146, 36, 73, 146, 152, 36, 73, 146, 36, 73, 18, 147, 36,
  73, 146, 36, 73, 98, 146, 36, 73, 146, 36, 73, 82, 4]

theorem witness_decodeLiteralImages : let s := literalImage
    let bits := literalStream 1 1 false false fun _ => 0x0B050201
    s.InputOk ∧ s.params.alphaTreePolicy = .ifAlphaFlag ∧ 1 * 1 ≤ s.params.pixCapacity ∧ s.HasBits 0 bits ∧
    bits.length ≤ s.endPos ∧ chan 0x0B050201 16 < 16 ∧ chan 0x0B050201 8 < 16 ∧ chan 0x0B050201 0 < 16 := by
  unfold State.InputOk State.HasBits; decide +kernel
theorem witness_decodeLiteralImages_memWf : literalImage.MemWf := by unfold State.MemWf; decide +kernel

/-- A tree of the one symbol 0. -/
def zeroTree : TreeCode := .literal [1, 0, 0, 0]

/-- A group of such trees beside a green tree. -/
def greenGroup (green : TreeCode) : GroupCode := ⟨green, zeroTree, zeroTree, zeroTree, zeroTree⟩

/-- A sub-image of the one pixel `p`, its green tree `green`. -/
def onePixel (green : TreeCode) (p : Word) : SubImage := ⟨none, greenGroup green, [.literal p]⟩

/-- A coded green tree of the symbols 0, 256 and 280 beside a color cache of two entries. -/
def threeSymbols : TreeCode :=
  .coded [0, 2, 2, 2, 2] [.literal 1, .longZeros 127, .longZeros 106, .literal 2, .longZeros 12, .literal 2, .literal 0]

/-- A 4 × 1 stream with three transforms, a color cache, an entropy image whose one block names group 1, and a token of
every kind. -/
def mixedStream : StreamCode where
  w := 4
  h := 1
  alpha := false
  transforms := [.predictor 0 (onePixel zeroTree 0), .subtractGreen, .palette 0 (onePixel zeroTree 0)]
  cache := some 1
  entropy := some (0, onePixel (.literal [0, 1, 0, 0]) 0x100)
  main := greenGroup threeSymbols
  others := [greenGroup threeSymbols]
  tokens := [.literal 0xFF000000, .backRef 0 0 0 0, .cacheRef 0, .literal 0xFF000000]

/-- The bytes of `mixedStream`. -/
def mixedInput : State := withIn [47, 3, 0, 0, 0, 1, 16, 0, 32, 0, 64, 0, 128, 0, 0, 1, 0, 61, 0, 16, 0, 32, 0, 64, 0, 128,
  0, 0, 1, 0, 70, 0, 8, 0, 2, 0, 4, 0, 8, 0, 16, 0, 48, 32, 73, 254, 95, 221, 140, 0, 1, 0, 2, 0, 4, 192, 128, 36, 249, 127,
  117, 51, 2, 4, 0, 8, 0, 16, 0, 200, 0]

/-- The hypotheses of `TreeCode.Ok` for literal lengths. -/
def literalTreeOk (n : Nat) (vs : List Nat) : Prop := (TreeCode.literal vs).Ok Params.default.clCodeOrder n

theorem zeroTree_ok : literalTreeOk 280 [1, 0, 0, 0] ∧ literalTreeOk 256 [1, 0, 0, 0] ∧ literalTreeOk 40 [1, 0, 0, 0] ∧
    literalTreeOk 280 [0, 1, 0, 0] := by
  unfold literalTreeOk TreeCode.Ok Buildable; decide +kernel

theorem threeSymbols_ok : threeSymbols.Ok Params.default.clCodeOrder 282 := by
  unfold TreeCode.Ok Buildable
  refine ⟨by decide +kernel, by unfold MetaOk; decide, by decide +kernel, ?_, by decide +kernel⟩
  intro k hk
  simp only [List.mem_cons, List.not_mem_nil, or_false] at hk
  rcases hk with rfl | rfl | rfl | rfl | rfl | rfl | rfl
  all_goals exact ⟨by simp [LenToken.Legal], by decide +kernel⟩

theorem greenGroup_ok (green : TreeCode) (cs : Nat) (at_ : Bool) (h : green.Ok Params.default.clCodeOrder (280 + cs)) :
    (greenGroup green).Ok Params.default.clCodeOrder cs at_ := by
  intro x hx
  cases at_ <;> simp [GroupCode.trees, greenGroup] at hx
  · rcases hx with rfl | rfl | rfl | rfl
    exacts [h, zeroTree_ok.2.1, zeroTree_ok.2.1, zeroTree_ok.2.2.1]
  · rcases hx with rfl | rfl | rfl | rfl | rfl
    exacts [h, zeroTree_ok.2.1, zeroTree_ok.2.1, zeroTree_ok.2.1, zeroTree_ok.2.2.1]

theorem zeroPixel_ok : (onePixel zeroTree 0).Ok Params.default 1 :=
  ⟨by decide, by decide, greenGroup_ok _ _ _ zeroTree_ok.1, by
    simp only [onePixel, TokensOk, PixelToken.Legal, PixelToken.size]; decide +kernel⟩

theorem groupOnePixel_ok : (onePixel (.literal [0, 1, 0, 0]) 0x100).Ok Params.default 1 :=
  ⟨by decide, by decide, greenGroup_ok _ _ _ zeroTree_ok.2.2.2, by
    simp only [onePixel, TokensOk, PixelToken.Legal, PixelToken.size]; decide +kernel⟩

theorem mixedStream_ok : mixedStream.Ok Params.default := by
  refine ⟨by decide, by decide, by decide, by decide, by decide, ?_, by decide, by decide, ?_, by decide +kernel,
    greenGroup_ok _ _ _ threeSymbols_ok, ?_, ?_⟩
  · intro t ht
    simp only [mixedStream, List.mem_cons, List.not_mem_nil, or_false] at ht
    rcases ht with rfl | rfl | rfl
    exacts [⟨by decide, zeroPixel_ok⟩, trivial, ⟨by decide, zeroPixel_ok⟩]
  · rintro _ ⟨⟩
    exact ⟨by decide, groupOnePixel_ok⟩
  · intro g hg
    obtain rfl : g = greenGroup threeSymbols := by simpa [mixedStream] using hg
    exact greenGroup_ok _ _ _ threeSymbols_ok
  · simp only [mixedStream, TokensOk, PixelToken.Legal, PixelToken.size]; decide +kernel

theorem hasBits_of_map {s : State} {q : Nat} {bits : List Nat}
    (h : (List.range bits.length).map (fun j => s.inBit (q + j)) = bits) : s.HasBits q bits := fun j hj => by
  have := congrArg (·[j]?) h
  simpa [hj] using this

theorem witness_decodeStreams : mixedInput.InputOk ∧ mixedInput.params.Admissible ∧ mixedStream.Ok mixedInput.params ∧
    mixedInput.HasBits 0 (mixedStream.bits mixedInput.params) ∧
    (mixedStream.bits mixedInput.params).length ≤ mixedInput.endPos := by
  refine ⟨by unfold State.InputOk; decide, by decide, mixedStream_ok, hasBits_of_map ?_, by decide +kernel⟩
  decide +kernel
theorem witness_decodeStreams_memWf : mixedInput.MemWf := by unfold State.MemWf; decide +kernel

theorem witness_decodeErrorsByStage :
    (withIn [0x2F, 0, 0, 0, 0]).MemWf ∧ ends .decode (withIn [0x2F, 0, 0, 0, 0]) false := by
  refine ⟨by unfold State.MemWf; decide +kernel, _, rfl, ?_⟩
  decide +kernel

/-- The input of P4, a 2 × 2 literal image. CLMEM holds zeros, which keeps the evaluation short. -/
def p4 : State :=
  { withIn [0x2F, 0x01, 0x40, 0, 0, 0, 0x09, 0, 0x80, 0, 0x24, 0, 0x08, 0, 0x94, 0x01] with clmem := .cleared }

-- P4: DECODE completes, with STATUS 0x92, the size, the cursor and the R, G, B, A bytes the table gives
set_option maxRecDepth 20000 in
theorem test_decode_p4 : (after .decode p4).map (fun t => (t.done, [0x04, 0x38, 0x3C, 0x30, 0x34, 0x5C].map t.regWord,
      (List.range 16).map (t.elem .out))) =
    some (true, [0x92, 2, 2, 15, 3, 1], [2, 0, 0, 0xFF, 2, 1, 1, 0xFF, 2, 0, 1, 0xFF, 2, 1, 0, 0xFF]) := by decide +kernel

/-- The hypotheses of DecodeResults, and of DecodeDependsOnInputOnly with the one state on both sides. -/
theorem witness_decodeResults : p4.MemWf ∧ ends .decode p4 true := by
  refine ⟨by unfold State.MemWf; decide +kernel, ?_⟩
  have h := test_decode_p4
  unfold after at h
  unfold ends
  split at h
  · next t ht => exact ⟨t, ht, by simpa using congrArg (·.map Prod.fst) h⟩
  · simp at h
  · simp at h

end Sys2Proof.Tests
end

section
/-! The register port, the acceptance of a command word and how a command ends (10_state.md R34, R35, R36). -/

namespace Sys2Proof.Machine

/-! ### The register port -/

/-- No register shows anything in its reserved bits. -/
theorem State.regWord_reserved (s : State) (offset : Nat) : s.regWord offset &&& ~~~ regMask offset = 0 := by
  unfold State.regWord
  split
  case h_1 => exact s.statusWord_reserved
  case h_16 => exact s.imgInfoWord_reserved
  case h_24 => exact s.entInfoWord_reserved
  -- ERR_CODE, CTRL, BR_BITPOS, CC_BITS and XF_COUNT: one narrow field from bit 0
  case h_2 | h_4 | h_13 | h_17 | h_18 => exact setWidth_reserved _ (by decide)
  case h_19 | h_20 | h_21 | h_22 => exact XfDesc.toWord_reserved _
  case h_25 | h_26 | h_27 | h_28 | h_29 | h_30 | h_31 => exact TabInfo.toWord_reserved _
  -- CMD and the offsets the map does not have
  case h_32 => exact BitVec.zero_and
  -- the registers of one 32-bit field
  all_goals exact BitVec.and_zero

theorem State.reset_regWord (offset : Nat) : State.reset.regWord offset = 0 := by
  unfold State.regWord; split <;> rfl

theorem ofBool_getLsbD_setWidth (v : Word) : (BitVec.ofBool (v.getLsbD 0)).setWidth 32 = v &&& 0x1#32 := by
  apply BitVec.eq_of_getLsbD_eq
  intro i hi
  interval_cases i <;> simp

theorem setWidth_three (v : Word) : (v.setWidth 3).setWidth 32 = v &&& 0x7#32 := by
  apply BitVec.eq_of_getLsbD_eq
  intro i hi
  interval_cases i <;> simp

/-- The writable bits of a register read back, and its reserved bits 0. -/
theorem State.regWord_writeReg_self (s : State) {offset : Nat} (h : offset ∈ writableOffsets) (v : Word) :
    (s.writeReg offset v).regWord offset = v &&& regMask offset := by
  have full : v = v &&& 0xFFFFFFFF#32 := BitVec.and_allOnes.symm
  have desc (k : Fin 4) : ((s.xfDesc.set k (.ofWord v))[k]).toWord = v &&& 0x8001FFF3#32 := by
    rw [vget_set_self, XfDesc.toWord_ofWord]
  simp only [writableOffsets, List.mem_cons, List.not_mem_nil, or_false] at h
  rcases h with rfl | rfl | rfl | rfl | rfl | rfl | rfl | rfl | rfl | rfl | rfl | rfl | rfl
  exacts [ofBool_getLsbD_setWidth v, full, full, full, full, full, full, full, setWidth_three v,
    desc 0, desc 1, desc 2, desc 3]

theorem State.writeReg_of_readOnly (s : State) {offset : Nat} (h : offset ∉ writableOffsets) (v : Word) :
    s.writeReg offset v = s := by
  unfold State.writeReg
  split
  case h_14 => rfl
  all_goals exact absurd (by decide) h

/-- A descriptor is read at its own offset only. -/
theorem State.regWord_setDesc_ne (s : State) (k : Fin 4) (d : XfDesc) {other : Nat} (h : other ≠ 0x4C + 4 * k) :
    (s.setDesc k d).regWord other = s.regWord other := by
  unfold State.regWord
  split
  case h_19 | h_20 | h_21 | h_22 => exact congrArg XfDesc.toWord (Vector.getElem_set_ne k.isLt _ (by omega))
  all_goals rfl

/-- A write touches no other register: each field is read at the offset that writes it only. -/
theorem State.regWord_writeReg_ne (s : State) {offset other : Nat} (h : other ≠ offset) (v : Word) :
    (s.writeReg offset v).regWord other = s.regWord other := by
  unfold State.writeReg
  split
  -- XF_DESC_0 to XF_DESC_3, then the offsets that ignore writes
  case h_10 => exact s.regWord_setDesc_ne 0 _ h
  case h_11 => exact s.regWord_setDesc_ne 1 _ h
  case h_12 => exact s.regWord_setDesc_ne 2 _ h
  case h_13 => exact s.regWord_setDesc_ne 3 _ h
  case h_14 => rfl
  all_goals
    unfold State.regWord
    split <;> try rfl
    exact absurd rfl h

theorem State.elem_writeReg (s : State) (offset : Nat) (v : Word) (sp : Space) (i : Nat) :
    (s.writeReg offset v).elem sp i = s.elem sp i := by
  unfold State.writeReg; split <;> rfl

theorem hostStep_writeReg {s : State} {offset : Nat} (hb : s.busy = false) (h : offset ≠ cmdOffset) (v : Word) :
    hostStep (.writeReg offset v) s = .next (s.writeReg offset v) := by
  simp [hostStep, h, hb]

/-- Settles O8: each clause is one of the laws of `regWord` and `writeReg` above. -/
theorem registerPort : Obligations.RegisterPort := fun s offset v _ =>
  ⟨s.regWord_reserved offset, rfl, State.reset_regWord offset, fun hb h => hostStep_writeReg hb h v,
    fun h => s.regWord_writeReg_self h v, fun h => s.writeReg_of_readOnly h v,
    fun _ _ h => s.regWord_writeReg_ne h v, s.elem_writeReg offset v⟩

/-! ### A write to CMD -/

theorem hostStep_cmd (w : Word) (s : State) : hostStep (.writeReg cmdOffset w) s = writeCmd w s := rfl

theorem writeCmd_busy {s : State} (hb : s.busy = true) (w : Word) : writeCmd w s = .next s := by
  simp [writeCmd, hb]

theorem writeCmd_ignored {s : State} {w : Word} (hb : s.busy = false) (he : s.err = true) (hw : w ≠ softResetWord) :
    writeCmd w s = .next s := by
  simp [writeCmd, hb, he, hw]

theorem writeCmd_accepted {s : State} {w : Word} (hb : s.busy = false) (h : s.err = false ∨ w = softResetWord) :
    writeCmd w s = runWord w s.accept := by
  rcases h with h | h <;> simp [writeCmd, hb, h]

theorem runWord_ok {w : Word} {i : Instr} (h : decodeWord w = .ok i) (s : State) : runWord w s = exec i s := by
  simp [runWord, h]

theorem runWord_error {w : Word} {e : Illegal} (h : decodeWord w = .error e) (s : State) :
    runWord w s = .next (s.takeError ⟨.illegalCommand, w⟩) := by
  simp [runWord, h]

/-- Settles O2, by the three cases of R35; the accepted word runs or raises ILLEGAL_COMMAND as it decodes. -/
theorem commandAcceptance : Obligations.CommandAcceptance := by
  intro s w
  refine ⟨rfl, fun hb => writeCmd_busy hb w, fun hb he hw => writeCmd_ignored hb he hw, fun hb h => ⟨?_, ?_⟩⟩
  · intro i hi
    exact (writeCmd_accepted hb h).trans (runWord_ok hi s.accept)
  · intro e he
    exact ⟨_, (writeCmd_accepted hb h).trans (runWord_error he s.accept), rfl, rfl, rfl⟩

/-! ### How a command ends -/

/-- Every command but SOFT_RESET leaves the error registers to its end. -/
theorem exec_ends_errors {i : Instr} (hi : i ≠ .softReset) (s : State) :
    Closed.Ends (fun u => u.err = s.err ∧ u.errCode = s.errCode ∧ u.errInfo = s.errInfo) (exec i s) :=
  (closed_errors s (writtenRegions i)).ends (fun _ _ hu => hu) i hi (fun _ hr => hr) ⟨rfl, rfl, rfl⟩

theorem exec_softReset (s : State) : exec .softReset s = .next (s.atStage .none).softReset.complete := rfl

/-- Settles O21: SOFT_RESET completes with the error registers cleared, and every other command completes or takes an error
in a state with the error registers as they were. -/
theorem commandOutcome : Obligations.CommandOutcome := by
  intro i s
  by_cases hi : i = .softReset
  · subst hi
    exact ⟨_, exec_softReset s, rfl, fun _ _ => ⟨rfl, rfl⟩,
      .inl ⟨rfl, fun hne => absurd rfl hne, fun _ => ⟨rfl, rfl, rfl⟩⟩⟩
  · rcases exec_ends_errors hi s with ⟨u, hu, ht⟩ | ⟨e, u, -, ht⟩
    · obtain ⟨herr, hcode, hinfo⟩ := hu
      refine ⟨_, ht, rfl, fun hs hue => ?_, .inl ⟨rfl, fun _ => ⟨herr, hcode, hinfo⟩, fun h => absurd h hi⟩⟩
      obtain ⟨hc, hn⟩ := hs (herr.symm.trans hue)
      exact ⟨hcode.trans hc, hinfo.trans hn⟩
    · exact ⟨_, ht, rfl, fun _ hue => absurd hue Bool.noConfusion, .inr ⟨rfl, rfl, e.kind, rfl⟩⟩

end Sys2Proof.Machine
end

section
/-! RGBA_CONVERT: the image-size checks, then the walk that fills OUT (10_state.md R43, 48_orchestrator.md R340,
20_memory.md R85). -/

namespace Sys2Proof.Machine

/-! ### The errors of the image check, in its order -/

theorem trunc32_toNat (v : Word) : trunc32 v.toNat = v :=
  (BitVec.ofNat_toNat 32 v).trans v.setWidth_eq

theorem imageCheck_of_imgW_zero {s : State} (hw : s.imgW = 0) :
    imageCheck s = .error ⟨.argumentRange, trunc32 s.imgW.toNat⟩ s := by
  rw [imageCheck_apply, if_pos hw, trunc32_toNat]

theorem imageCheck_of_imgH_zero {s : State} (hw : s.imgW ≠ 0) (hh : s.imgH = 0) :
    imageCheck s = .error ⟨.argumentRange, trunc32 s.imgH.toNat⟩ s := by
  rw [imageCheck_apply, if_neg hw, if_pos hh, trunc32_toNat]

theorem imageCheck_of_capacity {s : State} (hw : s.imgW ≠ 0) (hh : s.imgH ≠ 0) (hc : s.params.pixCapacity < s.npix) :
    imageCheck s = .error ⟨.capacityExceeded, trunc32 s.npix⟩ s := by
  rw [imageCheck_apply, if_neg hw, if_neg hh, if_pos hc]

/-! ### The command -/

theorem exec_rgbaConvert (s : State) : exec .rgbaConvert s = runCommand rgbaConvertBody s := rfl

/-- The walk fills OUT with the bytes of the pixels and keeps every byte past them: what `rgbaConvert_outHoldsPix` and
`rgbaConvert_ok` say of its one result. -/
theorem rgbaConvert_fills_only {s : State} (hw : s.out.wf) :
    ∃ m : Memory 8, rgbaConvert s = .ok () (s.withOut m) ∧ (s.withOut m).OutHoldsPix ∧
      ∀ j, 4 * s.npix ≤ j → m.read .out j = s.out.read .out j := by
  obtain ⟨m, hrun, -, hpix⟩ := rgbaConvert_outHoldsPix hw
  obtain ⟨m', hrun', -, -, hframe⟩ := rgbaConvert_ok hw
  have same : s.withOut m = s.withOut m' := by
    rw [hrun] at hrun'
    injection hrun'
  obtain rfl : m = m' := congrArg State.out same
  exact ⟨m, hrun, hpix, hframe⟩

/-- Behind a passed check the command is the walk alone, so it changes nothing but OUT. -/
theorem exec_rgbaConvert_ok {s : State} (hw : s.out.wf) (hi : s.ImageOk) :
    ∃ m : Memory 8, exec .rgbaConvert s = .next (s.withOut m).completed ∧ (s.withOut m).OutHoldsPix ∧
      ∀ j, 4 * s.npix ≤ j → m.read .out j = s.out.read .out j := by
  obtain ⟨m, hrun, hpix, hframe⟩ := rgbaConvert_fills_only (s := s.atStage .none) hw
  have hbody : rgbaConvertBody (s.atStage .none) = .ok () ((s.atStage .none).withOut m) :=
    (cmd_bind_of_ok (imageCheck_ok (hi.atStage .none))).trans hrun
  exact ⟨m, (exec_rgbaConvert s).trans (runCommand_ok hbody), hpix, hframe⟩

/-- An error of the image check is the command's own, taken before any byte is written. -/
theorem exec_rgbaConvert_of_imageCheck {s : State} {e : Trap}
    (h : imageCheck (s.atStage .none) = .error e (s.atStage .none)) :
    exec .rgbaConvert s = .next ((s.atStage .none).takeError e) :=
  (exec_rgbaConvert s).trans (runCommand_error (cmd_bind_of_error h))

/-- Settles O56: the walk behind a passed image check, and the check's three errors in their order. -/
theorem rgbaConvert_spec : Obligations.RgbaConvert := by
  refine fun s => ⟨fun hw hi => ?_, fun hw => ?_, fun hw hh => ?_, fun hw hh hc => ?_⟩
  · obtain ⟨m, hrun, hpix, hframe⟩ := exec_rgbaConvert_ok hw hi
    exact ⟨_, hrun, rfl, hpix, hframe⟩
  · exact exec_rgbaConvert_of_imageCheck (imageCheck_of_imgW_zero hw)
  · exact exec_rgbaConvert_of_imageCheck (imageCheck_of_imgH_zero hw hh)
  · exact exec_rgbaConvert_of_imageCheck (imageCheck_of_capacity hw hh hc)

end Sys2Proof.Machine
end

section
/-! The bit reader's commands: a read behind the input check, BR_INIT, BR_READ, BR_HASDATA and BR_TELL (10_state.md R41,
41_bit_reader.md R141 to R149). -/

namespace Sys2Proof.Machine

/-! ### The errors of the input check and of ReadBits -/

theorem inputCheck_error {s : State} (h : ¬ s.InputOk) :
    inputCheck s = .error ⟨.argumentRange, trunc32 s.inLen.toNat⟩ s := by
  rw [inputCheck_apply, if_pos (Nat.lt_of_not_le h)]

theorem readBits_invalidBitCount {n : Nat} {s : State} (h : n = 0 ∨ 16 < n) :
    readBits n s = .error ⟨.invalidBitCount, trunc32 n⟩ s := by
  rw [readBits_apply, if_pos (by omega)]

theorem readBits_readPastEnd {n : Nat} {s : State} (h1 : 1 ≤ n) (h16 : n ≤ 16) (h : s.endPos < s.pos + n) :
    readBits n s = .error ⟨.readPastEnd, trunc32 n⟩ s := by
  rw [readBits_apply, if_neg (by omega), if_pos h]

/-! ### A read behind the input check -/

/-- What BR_READ and LZ_PREFIX share: the input check, then a read of the input whose value goes to RES0. -/
def checkedRead (x : Cmd Nat) : Cmd Unit := do
  inputCheck
  let v ← x
  setRes0 (trunc32 v)

section

variable {x : Cmd Nat} {s t : State}

theorem runCommand_checkedRead_ok {v : Nat} (hi : s.InputOk) (hx : x (s.atStage .none) = .ok v (t.atStage .none)) :
    runCommand (checkedRead x) s = .next (t.withRes0 (trunc32 v)).completed :=
  runCommand_ok ((cmd_bind_of_ok (inputCheck_ok (hi.atStage .none))).trans (cmd_bind_of_ok hx))

theorem runCommand_checkedRead_error {e : ErrKind} {info : Nat} (hi : s.InputOk)
    (hx : x (s.atStage .none) = .error ⟨e, trunc32 info⟩ (t.atStage .none)) :
    runCommand (checkedRead x) s = .next (t.failed e info) :=
  runCommand_error ((cmd_bind_of_ok (inputCheck_ok (hi.atStage .none))).trans (cmd_bind_of_error hx))

theorem runCommand_checkedRead_badInput (x : Cmd Nat) (hi : ¬ s.InputOk) :
    runCommand (checkedRead x) s = .next (s.failed .argumentRange s.inLen.toNat) :=
  runCommand_error (cmd_bind_of_error (inputCheck_error (s := s.atStage .none) hi))

end

/-! ### BR_READ -/

theorem exec_brRead (n : Nat) (s : State) : exec (.brRead n) s = runCommand (checkedRead (readBits n)) s := rfl

/-- A cursor that a read leaves reads back: the end of the input is a bit position a cursor can hold. -/
theorem State.pos_moveTo_of_le_endPos (s : State) {q : Nat} (h : q ≤ s.endPos) : (s.moveTo q).pos = q :=
  s.pos_moveTo (Nat.lt_of_le_of_lt h s.endPos_lt)

/-- The state BR_READ leaves when its checks pass: the cursor past the field, the field in RES0. -/
def State.afterBrRead (s : State) (n : Nat) : State :=
  ((s.moveTo (s.pos + n)).withRes0 (trunc32 (s.field s.pos n))).completed

theorem exec_brRead_ok {s : State} {n : Nat} (hi : s.InputOk) (h1 : 1 ≤ n) (h16 : n ≤ 16)
    (h : s.pos + n ≤ s.endPos) :
    exec (.brRead n) s = .next (s.afterBrRead n) :=
  runCommand_checkedRead_ok hi (readBits_ok (s := s.atStage .none) h1 h16 h)

theorem State.afterBrRead_res0 (s : State) (n : Nat) : (s.afterBrRead n).res0 = trunc32 (s.field s.pos n) := rfl

theorem State.afterBrRead_endPos (s : State) (n : Nat) : (s.afterBrRead n).endPos = s.endPos := rfl

theorem State.afterBrRead_field (s : State) (n q m : Nat) : (s.afterBrRead n).field q m = s.field q m := rfl

theorem State.InputOk.afterBrRead {s : State} (h : s.InputOk) (n : Nat) : (s.afterBrRead n).InputOk := h

theorem State.afterBrRead_pos {s : State} {n : Nat} (h : s.pos + n ≤ s.endPos) : (s.afterBrRead n).pos = s.pos + n :=
  s.pos_moveTo_of_le_endPos h

/-- Settles O27: ReadBits behind the input check, its value and its errors in their order. -/
theorem brRead : Obligations.BrRead := by
  refine fun s n => ⟨fun hi h1 h16 h => ?_, fun hi => ?_, fun hi hn => ?_, fun hi h1 h16 h => ?_⟩
  · exact ⟨exec_brRead_ok hi h1 h16 h, s.field_lt s.pos n, s.pos_moveTo_of_le_endPos h⟩
  · exact runCommand_checkedRead_badInput (readBits n) hi
  · exact runCommand_checkedRead_error hi (readBits_invalidBitCount hn)
  · exact runCommand_checkedRead_error hi (readBits_readPastEnd (s := s.atStage .none) h1 h16 h)

/-! ### A field read in two pieces -/

/-- Two pieces joined by OR and shift are one field, since the low piece stays below the shift. -/
theorem trunc32_or_shiftLeft {x a : Nat} (hx : x < 2 ^ a) (y : Nat) :
    trunc32 x ||| (trunc32 y <<< a) = trunc32 (x + 2 ^ a * y) := by
  apply BitVec.eq_of_getLsbD_eq
  intro i hi
  rw [Nat.add_comm x]
  simp only [BitVec.getLsbD_or, BitVec.getLsbD_shiftLeft, BitVec.getLsbD_ofNat, Nat.testBit_two_pow_mul_add y hx]
  by_cases h : i < a
  · simp [h]
  · have high : x.testBit i = false :=
      Nat.testBit_lt_two_pow (Nat.lt_of_lt_of_le hx (Nat.pow_le_pow_right (by decide) (by omega)))
    simp [h, high, hi]
    omega

/-- The second of two reads begins where the first left the cursor, so their values join to the one field. -/
theorem State.afterBrRead_res0_split {s : State} {a : Nat} (b : Nat) (h : s.pos + a ≤ s.endPos) :
    (s.afterBrRead a).res0 ||| (((s.afterBrRead a).afterBrRead b).res0 <<< a) = (s.afterBrRead (a + b)).res0 := by
  simp only [State.afterBrRead_res0, State.afterBrRead_field, State.afterBrRead_pos h]
  rw [trunc32_or_shiftLeft (s.field_lt s.pos a), s.field_add]

/-- Settles O28: two reads in a row against one, and byte 0 as the field of its 8 bits. -/
theorem brReadSplit : Obligations.BrReadSplit := by
  intro s a b hi ha hb hab hend
  have hposA : (s.afterBrRead a).pos = s.pos + a := State.afterBrRead_pos (by omega)
  have hendB : (s.afterBrRead a).pos + b ≤ (s.afterBrRead a).endPos := by
    rw [hposA, State.afterBrRead_endPos]; omega
  have hjoin := State.afterBrRead_res0_split (s := s) (a := a) b (by omega)
  refine ⟨s.afterBrRead a, (s.afterBrRead a).afterBrRead b, s.afterBrRead (a + b),
    exec_brRead_ok hi ha (by omega) (by omega), exec_brRead_ok (hi.afterBrRead a) hb (by omega) hendB,
    exec_brRead_ok hi (by omega) hab hend, hjoin, ?_, fun _ h0 h8 => ?_⟩
  · rw [State.afterBrRead_pos hendB, State.afterBrRead_pos hend, hposA, Nat.add_assoc]
  · rw [hjoin, State.afterBrRead_res0, h0, h8, s.header_fields.1]

/-! ### BR_HASDATA and BR_TELL -/

theorem exec_brHasdata (s : State) : exec .brHasdata s = .next (s.withRes0 s.hasData).completed := rfl

theorem exec_brTell (s : State) : exec .brTell s = .next (s.withRes0 s.tell).completed := rfl

theorem State.hasData_eq_zero_iff (s : State) : s.hasData = 0 ↔ s.inLen.toNat ≤ s.brBytePos.toNat := by
  simp [State.hasData]

/-- A cursor inside the input has no byte left exactly at the end (R147). -/
theorem State.hasData_eq_zero_iff_pos {s : State} (h : s.pos ≤ s.endPos) : s.hasData = 0 ↔ s.pos = s.endPos := by
  rw [State.hasData_eq_zero_iff]
  unfold State.pos State.endPos at *
  omega

/-- The modular difference of R148 is the integer one, taken modulo 2^32. -/
theorem State.tell_eq_ofInt (s : State) :
    s.tell = BitVec.ofInt 32 (((s.brBytePos.toNat : Int) - s.brStart.toNat) * 8 + s.brBitPos.toNat) := by
  unfold State.tell
  rw [BitVec.ofInt_add, BitVec.ofInt_mul, Int.sub_eq_add_neg, BitVec.ofInt_add, BitVec.ofInt_neg]
  simp only [BitVec.ofInt_natCast, BitVec.ofNat_toNat, BitVec.setWidth_eq, ← BitVec.sub_eq_add_neg]
  rfl

theorem State.toNat_tell {s : State} (h : s.brStart.toNat * 8 ≤ s.pos) (hlt : s.pos - s.brStart.toNat * 8 < 2 ^ 32) :
    s.tell.toNat = s.pos - s.brStart.toNat * 8 := by
  have hint : ((s.brBytePos.toNat : Int) - s.brStart.toNat) * 8 + s.brBitPos.toNat =
      ((s.pos - s.brStart.toNat * 8 : Nat) : Int) := by
    unfold State.pos at *; omega
  rw [s.tell_eq_ofInt, hint, BitVec.ofInt_natCast, BitVec.toNat_ofNat, Nat.mod_eq_of_lt hlt]

/-- Settles O29: each command writes the reader's answer to RES0, and the answers are the rules' by the lemmas above. -/
theorem brHasdataAndTell : Obligations.BrHasdataAndTell := fun s =>
  ⟨s.hasData, s.tell, exec_brHasdata s, rfl, State.hasData_eq_zero_iff_pos, exec_brTell s, s.tell_eq_ofInt,
    State.toNat_tell⟩

/-! ### BR_INIT -/

/-- Everything BR_INIT's body can answer behind a passed input check (R145). -/
theorem brInitBody_apply {s : State} (hi : s.InputOk) :
    brInitBody s =
      if s.inLen.toNat < s.a0.toNat then .error ⟨.argumentRange, trunc32 s.a0.toNat⟩ s
      else .ok () (s.startReader s.a0) := by
  unfold brInitBody
  rw [cmd_bind_of_ok (inputCheck_ok hi), cmd_bind_of_ok (opA0_apply s), cmd_bind_of_ok (readState_apply _ _)]
  by_cases h : s.inLen.toNat < s.a0.toNat
  · rw [if_pos h, cmd_bind_of_error (raiseIf_of h _ _ _)]
  · rw [if_neg h, cmd_bind_of_ok (raiseIf_of_not h _ _ _), update_apply]

/-- Settles O26: the input check, then the check of A0 against IN_LEN, then the cursor at byte A0. -/
theorem brInit : Obligations.BrInit := by
  refine fun s => ⟨fun hi h => ?_, fun hi => ?_, fun hi h => ?_⟩
  · exact runCommand_ok ((brInitBody_apply (hi.atStage .none)).trans (if_neg (Nat.not_lt.mpr h)))
  · exact runCommand_error (cmd_bind_of_error (inputCheck_error (s := s.atStage .none) hi))
  · exact runCommand_error ((brInitBody_apply (hi.atStage .none)).trans (if_pos h))

end Sys2Proof.Machine
end

section
/-! LZ_PREFIX: the value of a code from its extra bits, and the errors on the way to it (41_bit_reader.md R144,
45_lz77.md R230 to R232). -/

namespace Sys2Proof.Machine

/-! ### The errors of ReadExtra -/

theorem readExtra_readPastEnd {n : Nat} {s : State} (h1 : 1 ≤ n) (h16 : n ≤ 16) (h : s.endPos < s.pos + n) :
    readExtra n s = .error ⟨.readPastEnd, trunc32 n⟩ s := by
  rw [readExtra, if_neg (by omega), if_pos h16, readBits_readPastEnd h1 h16 h]

/-- A field above 16 bits whose first 16 bits run past the end consumes nothing (R144). -/
theorem readExtra_readPastEnd_low {n : Nat} {s : State} (h16 : 16 < n) (h : s.endPos < s.pos + 16) :
    readExtra n s = .error ⟨.readPastEnd, trunc32 16⟩ s := by
  rw [readExtra, if_neg (by omega), if_neg (by omega),
    cmd_bind_of_error (readBits_readPastEnd (by decide) (by decide) h)]

/-- A field above 16 bits whose rest runs past the end has consumed its first 16 bits (R144). -/
theorem readExtra_readPastEnd_high {n : Nat} {s : State} (hn : n ≤ 32) (hlow : s.pos + 16 ≤ s.endPos)
    (h : s.endPos < s.pos + n) :
    readExtra n s = .error ⟨.readPastEnd, trunc32 (n - 16)⟩ (s.moveTo (s.pos + 16)) := by
  have hpos : (s.moveTo (s.pos + 16)).pos = s.pos + 16 := s.pos_moveTo_of_le_endPos hlow
  rw [readExtra, if_neg (by omega), if_neg (by omega), cmd_bind_of_ok (readBits_ok (by decide) (by decide) hlow),
    cmd_bind_of_error (readBits_readPastEnd (by omega) (by omega) (by rw [hpos, State.moveTo_endPos]; omega))]

/-! ### PrefixValue -/

theorem prefixValue_of_lt {c : Nat} (hc : c < 4) (s : State) : prefixValue c s = .ok (c + 1) s := by
  simp [prefixValue, prefixExtra, prefixBase, readExtra, hc, cmd_bind_apply]

theorem prefixExtra_of_le {c : Nat} (h4 : 4 ≤ c) : prefixExtra c = (c - 2) / 2 := if_neg (Nat.not_lt.mpr h4)

theorem prefixBase_of_le {c : Nat} (h4 : 4 ≤ c) : prefixBase c = (2 + c % 2) * 2 ^ ((c - 2) / 2) + 1 :=
  if_neg (Nat.not_lt.mpr h4)

theorem prefixValue_ok {c x : Nat} {s t : State} (h4 : 4 ≤ c) (h : readExtra ((c - 2) / 2) s = .ok x t) :
    prefixValue c s = .ok ((2 + c % 2) * 2 ^ ((c - 2) / 2) + x + 1) t := by
  rw [prefixValue, prefixExtra_of_le h4, cmd_bind_of_ok h, cmd_pure_apply, prefixBase_of_le h4, Nat.add_right_comm]

theorem prefixValue_error {c : Nat} {s t : State} {e : Trap} (h4 : 4 ≤ c)
    (h : readExtra ((c - 2) / 2) s = .error e t) : prefixValue c s = .error e t := by
  rw [prefixValue, prefixExtra_of_le h4, cmd_bind_of_error h]

/-! ### The command -/

theorem exec_lzPrefix_invalid {c : Nat} (hc : 39 < c) (s : State) :
    exec (.lzPrefix c) s = .next (s.failed .invalidPrefixCode c) :=
  runCommand_error (cmd_bind_of_error (raiseIf_of hc _ _ _))

/-- A code up to 39 is a read behind the input check. -/
theorem exec_lzPrefix {c : Nat} (hc : c ≤ 39) (s : State) :
    exec (.lzPrefix c) s = runCommand (checkedRead (prefixValue c)) s :=
  congrArg finish (cmd_bind_of_ok (raiseIf_of_not (Nat.not_lt.mpr hc) _ _ _))

/-- Settles O42: the check of the code, then the read of its extra bits behind the input check. -/
theorem lzPrefix : Obligations.LzPrefix := by
  intro s c extra offset
  have hextra : c ≤ 39 → extra ≤ 18 := fun hc => by omega
  refine ⟨fun hc => exec_lzPrefix_invalid hc s, fun hc hi => ?_, fun h4 hi => ?_, fun h4 hc hi h => ?_,
    fun h4 hc hi h16 h => ?_, fun h4 hc hi h16 h => ?_, fun h4 hc hi hlow h => ?_⟩
  · exact (exec_lzPrefix hc s).trans (runCommand_checkedRead_badInput (prefixValue c) hi)
  all_goals rw [exec_lzPrefix (by omega)]
  · exact runCommand_checkedRead_ok hi (prefixValue_of_lt h4 (s.atStage .none))
  · exact runCommand_checkedRead_ok hi (prefixValue_ok h4 (readExtra_ok (s := s.atStage .none) (hextra hc) h))
  · exact runCommand_checkedRead_error hi
      (prefixValue_error h4 (readExtra_readPastEnd (s := s.atStage .none) (by omega) h16 h))
  · exact runCommand_checkedRead_error hi
      (prefixValue_error h4 (readExtra_readPastEnd_low (s := s.atStage .none) h16 h))
  · exact runCommand_checkedRead_error hi
      (prefixValue_error h4 (readExtra_readPastEnd_high (s := s.atStage .none) (by omega) hlow h))

end Sys2Proof.Machine
end

section
/-! HUF_DECODE and HUF_BUILD: a decode behind its operand checks, the Kraft errors of a build, and the round trip of every
complete code (42_huffman.md R160, R161, R171 to R173, R175). -/

namespace Sys2Proof.Machine

/-! ### HUF_DECODE -/

theorem exec_hufDecode_badSlot {slot : Nat} (h : 6 < slot) (s : State) :
    exec (.hufDecode slot) s = .next (s.failed .argumentRange slot) :=
  runCommand_error (cmd_bind_of_error (raiseIf_of h _ _ _))

/-- A slot the block has is read for its VALID before anything else. -/
theorem hufDecodeBody_apply {slot : Nat} (h : slot ≤ 6) (s : State) :
    hufDecodeBody slot s =
      if s.tabInfo[slotOf slot].valid then checkedRead (decodeSym (slotOf slot)) s
      else .error ⟨.tableNotBuilt, trunc32 slot⟩ s := by
  unfold hufDecodeBody
  rw [cmd_bind_of_ok (raiseIf_of_not (Nat.not_lt.mpr h) _ _ _), cmd_bind_of_ok (readState_apply _ _)]
  cases s.tabInfo[slotOf slot].valid
  · exact cmd_bind_of_error (raiseIf_true _ _ _)
  · exact cmd_bind_of_ok (raiseIf_false _ _ _)

theorem exec_hufDecode_notBuilt {s : State} {slot : Nat} (h : slot ≤ 6) (hv : s.tabInfo[slotOf slot].valid = false) :
    exec (.hufDecode slot) s = .next (s.failed .tableNotBuilt slot) :=
  runCommand_error ((hufDecodeBody_apply h _).trans (if_neg (Bool.eq_false_iff.mp hv)))

/-- From a valid slot the command is a read of one symbol behind the input check. -/
theorem exec_hufDecode {s : State} {slot : Nat} (h : slot ≤ 6) (hv : s.tabInfo[slotOf slot].valid = true) :
    exec (.hufDecode slot) s = runCommand (checkedRead (decodeSym (slotOf slot))) s :=
  congrArg finish ((hufDecodeBody_apply h _).trans (if_pos hv))

/-- The pattern of INVALID_CODE with MAXLEN above it: a table's prefix stays below bit 16. -/
theorem State.field_or_shiftLeft (s : State) (q : Nat) {n : Nat} (h : n ≤ 16) :
    s.field q n ||| (n <<< 16) = s.field q n + n * 2 ^ 16 := by
  have hlt : s.field q n < 2 ^ 16 := Nat.lt_of_lt_of_le (s.field_lt q n) (Nat.pow_le_pow_right (by decide) h)
  rw [Nat.lor_comm, ← Nat.shiftLeft_add_eq_or_of_lt hlt, Nat.shiftLeft_eq, Nat.add_comm]

/-- Settles O34: the operand checks in their order, then the three ways DecodeSym ends. -/
theorem hufDecode : Obligations.HufDecode := by
  refine fun s slot => ⟨fun h => exec_hufDecode_badSlot h s, exec_hufDecode_notBuilt, fun h hv hi => ?_,
    fun h hv hi => ?_⟩
  · exact (exec_hufDecode h hv).trans (runCommand_checkedRead_badInput _ hi)
  intro maxLen entry hit
  rw [exec_hufDecode h hv]
  have hmax : maxLen ≤ 16 := Nat.le_of_lt s.tabInfo[slotOf slot].maxLen.isLt
  obtain ⟨onHit, onNoHit, onEnd⟩ := decodeSym_apply (slotOf slot) (s.atStage .none)
  refine ⟨fun k h1 hk hend hhit hfirst => ?_, fun hend hno => ?_, fun hend hno => ?_⟩
  · exact runCommand_checkedRead_ok hi (onHit k h1 hk hend hhit hfirst)
  · rw [s.field_or_shiftLeft s.pos hmax]
    exact runCommand_checkedRead_error hi (onNoHit hend hno)
  · exact runCommand_checkedRead_error hi (onEnd hend hno)

/-! ### The Kraft errors of a build -/

theorem usedCount_ne_zero {L : List Byte} {b : Byte} (h : b ∈ L) (h0 : b ≠ 0) : usedCount L ≠ 0 := fun hc =>
  h0 (BitVec.eq_of_toNat_eq (usedCount_eq_zero.1 hc b h))

/-- With every length legal and some symbol used, a build's error depends on the Kraft sum alone. -/
theorem buildError_of_used {L : List Byte} (hL : ∀ b ∈ L, b.toNat ≤ 15) (hu : usedCount L ≠ 0) :
    buildError L =
      if 2 ^ 15 < kraftSum L then some (.overSubscribed, kraftSum L)
      else if kraftSum L < 2 ^ 15 ∧ isSingle L = false then some (.underSubscribed, kraftSum L)
      else none := by
  have hne : L.length ≠ 0 := fun h => hu (by rw [List.length_eq_zero_iff.1 h]; rfl)
  have hlong : ¬ L.findIdx (fun b => Config.maxCodeLength < b.toNat) < L.length := by
    rw [findIdx_long]
    exact fun ⟨b, hb, h⟩ => Nat.not_lt.mpr (hL b hb) h
  rw [buildError, if_neg hne, if_neg hlong, if_neg hu]

theorem buildError_of_overSubscribed {L : List Byte} (hL : ∀ b ∈ L, b.toNat ≤ 15) (hK : 2 ^ 15 < kraftSum L) :
    buildError L = some (.overSubscribed, kraftSum L) := by
  have hu : usedCount L ≠ 0 := fun h => by
    rw [kraftSum_eq_zero (usedCount_eq_zero.1 h)] at hK; omega
  rw [buildError_of_used hL hu, if_pos hK]

theorem buildError_of_underSubscribed {L : List Byte} (hL : ∀ b ∈ L, b.toNat ≤ 15) (hu : ∃ b ∈ L, b ≠ 0)
    (hK : kraftSum L < 2 ^ 15) (hs : isSingle L = false) : buildError L = some (.underSubscribed, kraftSum L) := by
  obtain ⟨b, hb, h0⟩ := hu
  rw [buildError_of_used hL (usedCount_ne_zero hb h0), if_neg (by omega), if_pos ⟨hK, hs⟩]

/-! ### HUF_BUILD -/

/-- Behind the operand checks HUF_BUILD is the build of the lengths in CLMEM. -/
theorem exec_hufBuild {s : State} {slot : Nat} (h : slot ≤ 6) (hn : s.a0.toNat ≤ 2328) :
    exec (.hufBuild slot) s = runCommand (build (slotOf slot) (s.codeLengths s.a0.toNat)) s :=
  congrArg finish ((cmd_bind_of_ok (raiseIf_of_not (Nat.not_lt.mpr h) _ _ _)).trans
    ((cmd_bind_of_ok (opA0_apply _)).trans
      ((cmd_bind_of_ok (raiseIf_of_not (Nat.not_lt.mpr hn) _ _ _)).trans (cmd_bind_of_ok (readState_apply _ _)))))

theorem exec_hufBuild_ok {s : State} {slot : Nat} (h : slot ≤ 6) (hn : s.a0.toNat ≤ 2328)
    (hL : Buildable (s.codeLengths s.a0.toNat)) :
    exec (.hufBuild slot) s = .next (s.built (slotOf slot) (s.codeLengths s.a0.toNat)).completed :=
  (exec_hufBuild h hn).trans (runCommand_ok (build_ok hL _))

theorem exec_hufBuild_error {s : State} {slot : Nat} (h : slot ≤ 6) (hn : s.a0.toNat ≤ 2328) {e : ErrKind} {info : Nat}
    (he : buildError (s.codeLengths s.a0.toNat) = some (e, info)) :
    exec (.hufBuild slot) s =
      .next (((s.invalidate (slotOf slot)).forgetTab (slotOf slot)).failed e info) := by
  refine (exec_hufBuild h hn).trans (runCommand_error ?_)
  rw [build_apply, he]
  rfl

/-! ### The round trip -/

/-- The rest of the state has no part in what a slot holds. -/
theorem State.SlotHolds.congr {s u : State} {t : Fin 7} {L : List Byte} (h : s.SlotHolds t L)
    (htab : u.tab[t] = s.tab[t]) (hinfo : u.tabInfo[t] = s.tabInfo[t]) : u.SlotHolds t L := by
  obtain ⟨hi, tab, ht⟩ := h
  exact ⟨hinfo.trans hi, tab, htab.trans ht⟩

/-- From a slot that holds a code's table, HUF_DECODE reads a used symbol's bits back as that symbol (R175). -/
theorem exec_hufDecode_of_slotHolds {u : State} {slot : Nat} (h : slot ≤ 6) {L : List Byte}
    (hs : u.SlotHolds (slotOf slot) L) (hL : Buildable L) (hn : L.length ≤ 4096) (hi : u.InputOk) {i : Nat}
    (h0 : lengthAt L i ≠ 0) (hb : u.HasBits u.pos (codeBits L i)) (hend : u.pos + lengthAt L i ≤ u.endPos) :
    exec (.hufDecode slot) u =
      .next ((u.moveTo (u.pos + lengthAt L i)).withRes0 (trunc32 i)).completed := by
  have hv : u.tabInfo[slotOf slot].valid = true := by rw [hs.1]; rfl
  rw [exec_hufDecode h hv]
  exact runCommand_checkedRead_ok hi (decodeSym_holds (s := u.atStage .none) hs hL hn h0 hb hend)

/-- Settles O35: a complete code builds into a slot that holds its table, from which each used symbol's bits decode; the
other two Kraft sums are the build's errors. -/
theorem hufRoundTrip : Obligations.HufRoundTrip := by
  intro s slot h hn L hL
  refine ⟨fun hK => ?_, fun hK => ?_, fun hK hu hs => ?_⟩
  · have hB : Buildable L := ⟨hL, .inl hK⟩
    refine ⟨_, exec_hufBuild_ok h hn hB, rfl, fun u i htab hinfo _ h0 hi hb hend => ?_⟩
    have hlen : L.length ≤ 4096 := by
      simp only [L, State.codeLengths, List.length_map, List.length_range]; omega
    exact exec_hufDecode_of_slotHolds h ((s.built_slotHolds (slotOf slot) L).congr htab hinfo) hB hlen hi h0 hb hend
  · exact ⟨_, exec_hufBuild_error h hn (buildError_of_overSubscribed hL hK), rfl⟩
  · exact ⟨_, exec_hufBuild_error h hn (buildError_of_underSubscribed hL hu hK hs), rfl⟩

end Sys2Proof.Machine
end

section
/-! The two loops of 42_huffman.md R166 in closed form, and the codes they assign. -/

namespace Sys2Proof.Machine

/-- The code the second loop gives the next symbol of length `v`, once it is past the first `n` symbols. -/
def nextCode (L : List Byte) (n v : Nat) : Nat := if v = 0 then 0 else firstCode L v + rankOf L v n

/-- One pass of the first loop, on the code and the first codes found so far. -/
def firstCodePass (L : List Byte) (r : Nat × List Nat) (len : Nat) : Nat × List Nat :=
  ((r.1 + lengthCount L len) * 2, r.2 ++ [(r.1 + lengthCount L len) * 2])

/-- One pass of the second loop, on `next` and the codes assigned so far. -/
def assignCode (r : List Nat × List Nat) (b : Byte) : List Nat × List Nat :=
  if b.toNat = 0 then (r.1, r.2 ++ [0])
  else (r.1.set b.toNat (r.1.getD b.toNat 0 + 1), r.2 ++ [r.1.getD b.toNat 0])

theorem loopFirstCodes_eq_foldl (L : List Byte) :
    loopFirstCodes L = ((List.range 15).foldl (firstCodePass L) (0, [0])).2 := rfl

theorem loopCodes_eq_foldl (L : List Byte) : loopCodes L = (L.foldl assignCode (loopFirstCodes L, [])).2 := rfl

/-! ### The first loop -/

theorem nextCode_start (L : List Byte) (v : Nat) : nextCode L 0 v = firstCode L v := by
  unfold nextCode
  split
  · subst v; rfl
  · simp [rankOf]

/-- After `n` passes the first loop has the code of length `n` and the first codes up to it. -/
theorem firstLoop_eq (L : List Byte) (n : Nat) :
    (List.range n).foldl (firstCodePass L) (0, [0]) = (firstCode L n, (List.range (n + 1)).map (firstCode L)) := by
  induction n with
  | zero => rfl
  | succ n ih =>
    rw [List.range_succ, List.foldl_append, ih, List.range_succ (n := n + 1), List.map_append]
    rfl

theorem loopFirstCodes_eq (L : List Byte) : loopFirstCodes L = (List.range 16).map (nextCode L 0) := by
  rw [loopFirstCodes_eq_foldl, firstLoop_eq, funext (nextCode_start L)]

/-! ### The second loop -/

theorem rankOf_succ (L : List Byte) (v : Nat) {n : Nat} (h : n < L.length) :
    rankOf L v (n + 1) = rankOf L v n + if L[n].toNat = v then 1 else 0 := by
  unfold rankOf
  rw [List.take_succ_eq_append_getElem h, List.filter_append, List.length_append]
  by_cases hv : L[n].toNat = v <;> simp [hv]

/-- A pass counts up the code of its symbol's length and leaves the others. -/
theorem nextCode_succ (L : List Byte) {n : Nat} (h : n < L.length) (v : Nat) :
    nextCode L (n + 1) v = if v ≠ 0 ∧ L[n].toNat = v then nextCode L n v + 1 else nextCode L n v := by
  unfold nextCode
  rw [rankOf_succ L v h]
  by_cases h0 : v = 0
  · simp [h0]
  · by_cases hv : L[n].toNat = v <;> simp [h0, hv, Nat.add_assoc]

theorem set_nextCode (L : List Byte) {n : Nat} (h : n < L.length) (h0 : L[n].toNat ≠ 0) :
    ((List.range 16).map (nextCode L n)).set L[n].toNat (nextCode L n L[n].toNat + 1) =
      (List.range 16).map (nextCode L (n + 1)) := by
  apply List.ext_getElem
  · simp
  intro v _ hv
  simp only [List.getElem_set, List.getElem_map, List.getElem_range, nextCode_succ L h]
  by_cases hl : L[n].toNat = v
  · subst v; simp [h0]
  · simp [hl]

theorem nextCode_succ_of_unused (L : List Byte) {n : Nat} (h : n < L.length) (h0 : L[n].toNat = 0) :
    nextCode L (n + 1) = nextCode L n := by
  funext v
  rw [nextCode_succ L h, if_neg (by omega)]

theorem getD_map_range (f : Nat → Nat) {n i : Nat} (h : i < n) : ((List.range n).map f).getD i 0 = f i := by
  simp [h]

theorem lengthAt_eq_getElem {L : List Byte} {i : Nat} (h : i < L.length) : lengthAt L i = L[i].toNat := by
  simp [lengthAt, h]

/-- After `n` passes: the codes next in line, and the code each of the first `n` symbols took when its turn came. -/
theorem secondLoop_eq {L : List Byte} (hL : ∀ b ∈ L, b.toNat ≤ 15) {n : Nat} (hn : n ≤ L.length) :
    (L.take n).foldl assignCode (loopFirstCodes L, []) =
      ((List.range 16).map (nextCode L n), (List.range n).map fun i => nextCode L i (lengthAt L i)) := by
  induction n with
  | zero => rw [loopFirstCodes_eq]; rfl
  | succ n ih =>
    have hlt : n < L.length := hn
    have h16 : L[n].toNat < 16 := Nat.lt_succ_of_le (hL _ (List.getElem_mem hlt))
    rw [List.take_succ_eq_append_getElem hlt, List.foldl_append, ih (Nat.le_of_lt hlt), List.range_succ (n := n),
      List.map_append, List.map_singleton, lengthAt_eq_getElem hlt, List.foldl_cons, List.foldl_nil, assignCode]
    by_cases h0 : L[n].toNat = 0
    · rw [if_pos h0, nextCode_succ_of_unused L hlt h0, h0]; rfl
    · rw [if_neg h0, getD_map_range _ h16, set_nextCode L hlt h0]

/-- The loop's codes: each symbol takes the code next in line for its length. -/
theorem loopCodes_eq {L : List Byte} (hL : ∀ b ∈ L, b.toNat ≤ 15) :
    loopCodes L = (List.range L.length).map fun i => nextCode L i (lengthAt L i) := by
  have h := secondLoop_eq hL (Nat.le_refl L.length)
  rw [List.take_length] at h
  rw [loopCodes_eq_foldl, h]

/-- Settles O30: the code next in line for a used symbol's length is the first code plus the symbol's rank. -/
theorem canonicalCodesFollowTheLoop : Obligations.CanonicalCodesFollowTheLoop := by
  intro L hL i hi h0
  rw [loopCodes_eq hL, getD_map_range _ hi, nextCode, if_neg h0, canonicalCode_eq]

end Sys2Proof.Machine
end

section
/-! The color cache's commands: the cache cleared by CC_INIT, the hash of a pixel, one insert and one get
(44_color_cache.md R210 to R216). -/

namespace Sys2Proof.Machine

/-! ### Reads of a memory -/

theorem Memory.read_cleared {w : Nat} (sp : Space) (i : Nat) : (Memory.cleared : Memory w).read sp i = 0 := rfl

/-- What one write leaves at every index. -/
theorem Memory.read_write {w : Nat} (sp : Space) {m : Memory w} (hm : m.wf) (i : Nat) (v : BitVec w) (j : Nat) :
    (m.write i v).read sp j = if j = i then v else m.read sp j := by
  split
  · subst j; exact Memory.read_write_self sp hm i v
  · next h => exact Memory.read_write_ne sp m h v

/-! ### CC_INIT -/

/-- CC_INIT is CacheInit of A0 (R210). -/
theorem exec_ccInit (s : State) : exec .ccInit s = runCommand (cacheInit s.a0.toNat) s := rfl

theorem exec_ccInit_ok {s : State} (h : s.a0.toNat ≤ 11) :
    exec .ccInit s = .next (s.clearCache s.a0.toNat).completed :=
  (exec_ccInit s).trans (runCommand_ok (cacheInit_ok h (s.atStage .none)))

theorem exec_ccInit_error {s : State} (h : 11 < s.a0.toNat) :
    exec .ccInit s = .next (s.failed .invalidCacheBits s.a0.toNat) :=
  (exec_ccInit s).trans (runCommand_error ((cacheInit_apply _ (s.atStage .none)).trans (if_pos h)))

/-- Four bits hold every legal number of cache bits. -/
theorem State.toNat_clearCache_ccBits (s : State) {bits : Nat} (h : bits ≤ 11) :
    (s.clearCache bits).ccBits.toNat = bits := by
  rw [State.clearCache_ccBits, BitVec.toNat_ofNat, Nat.mod_eq_of_lt (by omega)]

/-! ### CC_HASH -/

theorem exec_ccHash (s : State) :
    exec .ccHash s = .next (s.withRes0 (trunc32 (s.cacheHash s.a0))).completed := rfl

theorem cacheHash_disabled {s : State} (h : s.ccBits = 0) (p : Word) : s.cacheHash p = 0 := if_pos h

/-- RES0 holds a whole hash, since CC_BITS is below 32. -/
theorem toNat_trunc32_cacheHash {s : State} (h : s.ccBits ≠ 0) (p : Word) :
    (trunc32 (s.cacheHash p)).toNat = s.cacheHash p := by
  have hb : s.ccBits.toNat < 16 := s.ccBits.isLt
  have hle : 2 ^ s.ccBits.toNat ≤ 2 ^ 32 := Nat.pow_le_pow_right (by decide) (by omega)
  rw [BitVec.toNat_ofNat, Nat.mod_eq_of_lt (Nat.lt_of_lt_of_le (cacheHash_lt h p) hle)]

/-- Settles O40: CC_INIT is CacheInit, and CC_HASH answers CacheHash, whose numbers are the laws of the cache. -/
theorem ccInitAndHash : Obligations.CcInitAndHash := by
  refine fun s => ⟨fun h => ?_, exec_ccInit_error, trunc32 (s.cacheHash s.a0), exec_ccHash s, fun h => ?_, fun h => ?_⟩
  · refine ⟨_, exec_ccInit_ok h, ?_, s.toNat_clearCache_ccBits h, Memory.read_cleared .cache⟩
    rw [← BitVec.ofNat_toNat]
    rfl
  · rw [cacheHash_disabled h]; rfl
  · rw [toNat_trunc32_cacheHash h, ← cacheHash_eq h]
    exact ⟨rfl, cacheHash_lt h s.a0⟩

/-! ### CC_INSERT -/

theorem exec_ccInsert (s : State) : exec .ccInsert s = .next ((s.atStage .none).cacheInsert s.a0).complete := rfl

theorem exec_ccInsert_disabled {s : State} (h : s.ccBits = 0) : exec .ccInsert s = .next s.completed := by
  rw [exec_ccInsert, cacheInsert_disabled (s := s.atStage .none) h]

theorem exec_ccInsert_enabled {s : State} (h : s.ccBits ≠ 0) :
    exec .ccInsert s = .next ({ s with cache := s.cache.write (s.cacheHash s.a0) s.a0 } : State).completed := by
  rw [exec_ccInsert, cacheInsert_enabled (s := s.atStage .none) h]
  rfl

/-! ### CC_GET -/

/-- Everything CC_GET's body can answer (R216). -/
theorem ccGetBody_apply (s : State) :
    ccGetBody s = if s.ccSize ≤ s.a0.toNat then .error ⟨.cacheIndexRange, trunc32 s.a0.toNat⟩ s
      else .ok () (s.withRes0 (s.cache.read .cache s.a0.toNat)) := by
  unfold ccGetBody
  rw [cmd_bind_of_ok (opA0_apply s)]
  by_cases h : s.ccSize ≤ s.a0.toNat
  · rw [if_pos h, cmd_bind_of_error ((cacheGet_apply _ s).trans (if_pos h))]
  · rw [if_neg h, cmd_bind_of_ok ((cacheGet_apply _ s).trans (if_neg h)), setRes0_apply]

theorem exec_ccGet_ok {s : State} (h : s.a0.toNat < s.ccSize) :
    exec .ccGet s = .next (s.withRes0 (s.cache.read .cache s.a0.toNat)).completed :=
  runCommand_ok ((ccGetBody_apply (s.atStage .none)).trans (if_neg (Nat.not_le.mpr h)))

theorem exec_ccGet_error {s : State} (h : s.ccSize ≤ s.a0.toNat) :
    exec .ccGet s = .next (s.failed .cacheIndexRange s.a0.toNat) :=
  runCommand_error ((ccGetBody_apply (s.atStage .none)).trans (if_pos h))

/-- `CC_SIZE` on the register itself (10_state.md R44). -/
theorem State.ccSize_eq (s : State) : s.ccSize = if s.ccBits = 0 then 0 else 2 ^ s.ccBits.toNat := by
  split
  · next h => exact ccSize_zero h
  · next h => exact ccSize_pos h

/-- Settles O41: an insert is one write at the hash, a get is CacheGet, and CC_SIZE bounds it. -/
theorem ccInsertAndGet : Obligations.CcInsertAndGet := by
  intro s size
  rw [show size = s.ccSize from s.ccSize_eq.symm]
  refine ⟨exec_ccInsert_disabled, fun hw h => ⟨_, exec_ccInsert_enabled h, rfl, fun j => ?_⟩, exec_ccGet_ok,
    exec_ccGet_error⟩
  rw [← cacheHash_eq h]
  exact Memory.read_write .cache hw _ _ j

end Sys2Proof.Machine
end


section
/-! The ranges of the prefix codes: each begins where the one before it ends, so that together they cover every value from
1 to 2^20 once (45_lz77.md R231 to R233). -/

namespace Sys2Proof.Machine

/-- The range of a code ends where the next one's begins: an even code and the odd code behind it have the same number of
extra bits, and the pair behind them has one more. -/
theorem prefixBase_succ (c : Nat) : prefixBase (c + 1) = prefixBase c + 2 ^ prefixExtra c := by
  rcases Nat.lt_or_ge c 4 with hc | hc
  · interval_cases c <;> rfl
  rw [prefixBase_of_le (by omega), prefixBase_of_le hc, prefixExtra_of_le hc]
  rcases Nat.mod_two_eq_zero_or_one c with heven | hodd
  · rw [show (c + 1 - 2) / 2 = (c - 2) / 2 by omega, show (c + 1) % 2 = 1 by omega, heven]
    ring
  · rw [show (c + 1 - 2) / 2 = (c - 2) / 2 + 1 by omega, show (c + 1) % 2 = 0 by omega, hodd]
    ring

theorem prefixBase_strictMono : StrictMono prefixBase :=
  strictMono_nat_of_lt_succ fun c => by
    rw [prefixBase_succ]
    exact Nat.lt_add_of_pos_right (Nat.two_pow_pos _)

theorem one_le_prefixBase (c : Nat) : 1 ≤ prefixBase c :=
  prefixBase_strictMono.monotone (Nat.zero_le c)

/-- The value of a code with its extra bits lies below the next code's range. -/
theorem prefixBase_add_lt_succ {c x : Nat} (hx : x < 2 ^ prefixExtra c) : prefixBase c + x < prefixBase (c + 1) := by
  rw [prefixBase_succ]
  exact Nat.add_lt_add_left hx _

theorem prefixBase_add_le {c x : Nat} (hc : c ≤ 39) (hx : x < 2 ^ prefixExtra c) : prefixBase c + x ≤ 2 ^ 20 :=
  Nat.le_of_lt_succ
    (calc prefixBase c + x < prefixBase (c + 1) := prefixBase_add_lt_succ hx
      _ ≤ prefixBase 40 := prefixBase_strictMono.monotone (by omega)
      _ = 2 ^ 20 + 1 := rfl)

/-- Every value from 1 up to where the range of `n` begins has a code below `n`. -/
theorem exists_prefixCode {n v : Nat} (h1 : 1 ≤ v) (hv : v < prefixBase n) :
    ∃ c < n, ∃ x < 2 ^ prefixExtra c, v = prefixBase c + x := by
  induction n with
  | zero => exact absurd h1 (Nat.not_le.mpr hv)
  | succ n ih =>
    rcases Nat.lt_or_ge v (prefixBase n) with hlt | hge
    · obtain ⟨c, hc, hx⟩ := ih hlt
      exact ⟨c, Nat.lt_succ_of_lt hc, hx⟩
    · rw [prefixBase_succ] at hv
      exact ⟨n, Nat.lt_succ_self n, v - prefixBase n, by omega, by omega⟩

/-- Two codes of one value are the same: the range of a smaller one would end before the value. -/
theorem prefixCode_unique {c x c' x' : Nat} (hx : x < 2 ^ prefixExtra c) (hx' : x' < 2 ^ prefixExtra c')
    (h : prefixBase c + x = prefixBase c' + x') : c = c' ∧ x = x' := by
  have hle : ∀ {a y b z : Nat}, z < 2 ^ prefixExtra b → prefixBase a + y = prefixBase b + z → a ≤ b :=
    fun {a y b z} hz heq => Nat.le_of_lt_succ (prefixBase_strictMono.lt_iff_lt.1
      (calc prefixBase a ≤ prefixBase a + y := Nat.le_add_right _ _
        _ = prefixBase b + z := heq
        _ < prefixBase (b + 1) := prefixBase_add_lt_succ hz))
  obtain rfl : c = c' := Nat.le_antisymm (hle hx' h) (hle hx h.symm)
  exact ⟨rfl, Nat.add_left_cancel h⟩

/-- Settles O43: the ranges are contiguous, so every value below the end of the last one lies in exactly one. -/
theorem prefixCodesCoverOnce : Obligations.PrefixCodesCoverOnce := by
  refine ⟨fun v h1 hv => ?_, fun c x hc hx => ⟨?_, prefixBase_add_le hc hx⟩, fun c _ => prefixBase_succ c⟩
  · obtain ⟨c, hc, x, hx, rfl⟩ := exists_prefixCode (n := 40) h1 (Nat.lt_succ_of_le hv)
    exact ⟨c, x, by omega, hx, rfl, fun c' x' _ hx' h => prefixCode_unique hx' hx h.symm⟩
  · exact Nat.le_add_right_of_le (one_le_prefixBase c)

end Sys2Proof.Machine
end

section
/-! LZ_COPY: the copy loop within PIX, behind the image check and the checks of `LzCopy` (45_lz77.md R235 to R237). -/

namespace Sys2Proof.Machine

/-- Behind a passed image check the command is `LzCopy` within PIX, without the cache (R236). -/
theorem lzCopyBody_of_imageOk {s : State} (hi : s.ImageOk) :
    lzCopyBody s = lzCopy .pix s.a0.toNat s.a1.toNat s.a2.toNat s.npix false s :=
  (cmd_bind_of_ok (imageCheck_ok hi)).trans (cmd_bind_of_ok (readState_apply _ _))

theorem exec_lzCopy {s : State} (hi : s.ImageOk) :
    exec .lzCopy s = runCommand (lzCopy .pix s.a0.toNat s.a1.toNat s.a2.toNat s.npix false) s :=
  congrArg finish (lzCopyBody_of_imageOk (hi.atStage .none))

/-- A copy whose checks pass is the loop alone. -/
theorem lzCopy_ok {s : State} {buf : Space} {pos dist len size : Nat} {ins : Bool} (hd1 : 1 ≤ dist)
    (hd : dist ≤ s.params.lzMaxDistance) (hp : dist ≤ pos) (hl1 : 1 ≤ len) (hl : len ≤ 4096) (hsize : pos + len ≤ size) :
    lzCopy buf pos dist len size ins s = .ok () (s.copyRun buf pos dist ins len) := by
  have hl : len ≤ Config.lzMaxLength := hl
  rw [lzCopy_apply, if_neg (by omega), if_neg (by omega), if_neg (by omega), if_neg (by omega)]

/-- Settles O44: behind its checks the command is the copy loop, which leaves the repeating pattern. -/
theorem lzCopy_spec : Obligations.LzCopy := by
  intro s hw hi pos dist len hd1 hd hp hl1 hl hsize
  obtain ⟨m, hrun, -, hcopied, hframe⟩ := copyRun_pix (s := s.atStage .none) hw hd1 hp len
  have hok : lzCopy .pix pos dist len s.npix false (s.atStage .none) = .ok () ((s.atStage .none).withPix m) :=
    (lzCopy_ok (s := s.atStage .none) hd1 hd hp hl1 hl hsize).trans (congrArg (EStateM.Result.ok ()) hrun)
  exact ⟨(s.withPix m).completed, (exec_lzCopy hi).trans (runCommand_ok hok), rfl, hcopied, hframe⟩

end Sys2Proof.Machine
end

section
/-! PRED: the predicted pixel of each mode, channel by channel, and the command that answers it
(46_predictor.md R250 to R257). -/

namespace Sys2Proof.Machine

/-! ### Mode 11 -/

theorem absDiff_eq_natAbs (a b : Byte) : absDiff a b = ((a.toNat : Int) - b.toNat).natAbs := by
  unfold absDiff; omega

/-- The distance of two pixels as the sum over their channels (R254). -/
theorem pixelDistance_eq_sum (p q : Word) :
    pixelDistance p q = ([24, 16, 8, 0].map fun c => ((chan p c : Int) - chan q c).natAbs).sum := by
  unfold pixelDistance
  simp only [absDiff_eq_natAbs, chanA_toNat, chanR_toNat, chanG_toNat, chanB_toNat, List.map_cons, List.map_nil,
    List.sum_cons, List.sum_nil, Nat.add_zero, Nat.add_assoc]

/-! ### Mode 12 -/

/-- The model clamps below by the natural numbers' subtraction, and a value of at most 255 fits the byte (R255). -/
theorem toNat_clampByte (a b c : Byte) :
    ((clampByte a b c).toNat : Int) = min 255 (max 0 ((a.toNat : Int) + b.toNat - c.toNat)) := by
  unfold clampByte
  rw [BitVec.toNat_ofNat, Nat.mod_eq_of_lt (by omega)]
  omega

theorem chan_clampPix (l t tl : Word) : ∀ c ∈ [24, 16, 8, 0],
    (chan (clampPix l t tl) c : Int) = min 255 (max 0 ((chan l c : Int) + chan t c - chan tl c)) := by
  obtain ⟨cA, cR, cG, cB⟩ := chan_mkPix (clampByte (chanA l) (chanA t) (chanA tl))
    (clampByte (chanR l) (chanR t) (chanR tl)) (clampByte (chanG l) (chanG t) (chanG tl))
    (clampByte (chanB l) (chanB t) (chanB tl))
  unfold clampPix
  simp only [List.forall_mem_cons, List.not_mem_nil, false_implies, implies_true, and_true]
  refine ⟨?_, ?_, ?_, ?_⟩
  · rw [cA, toNat_clampByte, chanA_toNat, chanA_toNat, chanA_toNat]
  · rw [cR, toNat_clampByte, chanR_toNat, chanR_toNat, chanR_toNat]
  · rw [cG, toNat_clampByte, chanG_toNat, chanG_toNat, chanG_toNat]
  · rw [cB, toNat_clampByte, chanB_toNat, chanB_toNat, chanB_toNat]

/-! ### The command -/

/-- A mode with a predicted pixel answers it in RES0 (R257). -/
theorem exec_pred_ok {m : Nat} {s : State} {r : Word}
    (h : predictPix s.params.mode0Black m s.a0 s.a1 s.a2 s.a3 = some r) :
    exec (.pred m) s = .next (s.withRes0 r).completed := by
  have hp : predict m s.a0 s.a1 s.a2 s.a3 (s.atStage .none) = .ok r (s.atStage .none) := by
    rw [predict_apply, State.atStage_params, h]
  exact runCommand_ok ((cmd_bind_of_ok (readState_apply _ _)).trans ((cmd_bind_of_ok hp).trans (setRes0_apply _ _)))

theorem exec_pred_error {m : Nat} (hm : 13 < m) (s : State) :
    exec (.pred m) s = .next (s.failed .invalidPredictorMode m) := by
  have hnone : predictPix s.params.mode0Black m s.a0 s.a1 s.a2 s.a3 = none := by
    rw [← Option.not_isSome_iff_eq_none, predictPix_isSome, decide_eq_true_iff]
    exact Nat.not_le.mpr hm
  have hp : predict m s.a0 s.a1 s.a2 s.a3 (s.atStage .none) =
      .error ⟨.invalidPredictorMode, trunc32 m⟩ (s.atStage .none) := by
    rw [predict_apply, State.atStage_params, hnone]
  exact runCommand_error ((cmd_bind_of_ok (readState_apply _ _)).trans (cmd_bind_of_error hp))

/-- Settles O46: the command answers `Predict` of its mode, whose value in each mode is the rule's by the laws above. -/
theorem pred : Obligations.Pred := by
  intro s m dist avg
  refine ⟨fun hm => ?_, fun hm => exec_pred_error hm s, rfl⟩
  obtain ⟨r, hr⟩ : ∃ r, predictPix s.params.mode0Black m s.a0 s.a1 s.a2 s.a3 = some r :=
    Option.isSome_iff_exists.mp ((predictPix_isSome _ _ _ _ _ _).trans (decide_eq_true hm))
  have value : ∀ {n p}, m = n → predictPix s.params.mode0Black n s.a0 s.a1 s.a2 s.a3 = some p → r = p :=
    fun hn hp => Option.some.inj (hr.symm.trans (hn ▸ hp))
  have average : ∀ {n p q}, m = n →
      predictPix s.params.mode0Black n s.a0 s.a1 s.a2 s.a3 = some (avg2 p q) → avg r p q :=
    fun hn hp => value hn hp ▸ chan_avg2 _ _
  refine ⟨r, exec_pred_ok hr, (value · rfl), (value · rfl), (value · rfl), (value · rfl), (value · rfl),
    (average · rfl), (average · rfl), (average · rfl), (average · rfl), (average · rfl), (average · rfl),
    fun h => ?_, fun h => ?_, (average · rfl)⟩
  · rw [value h rfl, selectPix, pixelDistance_eq_sum, pixelDistance_eq_sum]
  · rw [value h rfl]
    exact chan_clampPix _ _ _

end Sys2Proof.Machine
end

section
/-! The commands that undo one transform: XfCheck in its order, then the pass over PIX; and the passes of subtract-green
and color (47_transforms.md R280 to R285, R288). -/

namespace Sys2Proof.Machine

/-! ### The errors of XfCheck, in its order -/

section

variable {s : State} {k : Nat} {ty : XfType}

theorem xfCheck_of_index (hk : 3 < k) : xfCheck k ty s = .error ⟨.argumentRange, trunc32 k⟩ s := by
  rw [xfCheck_apply, if_pos hk]

theorem xfCheck_of_count (hk : k ≤ 3) (hc : 4 < s.xfCount.toNat) :
    xfCheck k ty s = .error ⟨.argumentRange, trunc32 s.xfCount.toNat⟩ s := by
  rw [xfCheck_apply, if_neg (by omega), if_pos hc]

theorem xfCheck_of_unlisted (hk : k ≤ 3) (hc : s.xfCount.toNat ≤ 4)
    (h : s.xfCount.toNat ≤ k ∨ s.xfDesc[descOf k].ty ≠ ty) :
    xfCheck k ty s = .error ⟨.argumentRange, trunc32 k⟩ s := by
  rw [xfCheck_apply, if_neg (by omega), if_neg (by omega)]
  by_cases hl : s.xfCount.toNat ≤ k
  · rw [if_pos hl]
  · rw [if_neg hl, if_pos (h.resolve_left hl)]

/-- Descriptor `k` is in the list and has the command's type: R280 goes on to its payload. -/
def State.Listed (s : State) (k : Nat) (ty : XfType) : Prop :=
  k < s.xfCount.toNat ∧ s.xfCount.toNat ≤ 4 ∧ s.xfDesc[descOf k].ty = ty

/-- What XfCheck still has to check on a listed descriptor (R280). -/
theorem xfCheck_of_listed (h : s.Listed k ty) :
    xfCheck k ty s =
      if ty ≠ .subtractGreen ∧ s.xfDesc[descOf k].payloadValid = false then .error ⟨.missingPayload, trunc32 k⟩ s
      else (do imageCheck; xfGeometry ty s.xfDesc[descOf k]) s := by
  obtain ⟨hk, hc, hty⟩ := h
  rw [xfCheck_apply, if_neg (by omega), if_neg (by omega), if_neg (by omega), if_neg (not_not.mpr hty), cmd_bind_apply]
  cases imageCheck s <;> rfl

theorem xfCheck_of_missingPayload (h : s.Listed k ty) (hty : ty ≠ .subtractGreen)
    (hp : s.xfDesc[descOf k].payloadValid = false) :
    xfCheck k ty s = .error ⟨.missingPayload, trunc32 k⟩ s := by
  rw [xfCheck_of_listed h, if_pos ⟨hty, hp⟩]

/-- With the payload there XfCheck is the image check and the geometry of the type. -/
theorem xfCheck_of_payload (h : s.Listed k ty) (hp : ty = .subtractGreen ∨ s.xfDesc[descOf k].payloadValid = true) :
    xfCheck k ty s = (do imageCheck; xfGeometry ty s.xfDesc[descOf k]) s := by
  rw [xfCheck_of_listed h, if_neg]
  rintro ⟨hty, hv⟩
  rw [hp.resolve_left hty] at hv
  cases hv

theorem xfGeometry_of_blocks (hty : ty = .predictor ∨ ty = .color) (d : XfDesc) : xfGeometry ty d = blockCheck d := by
  rcases hty with rfl | rfl <;> rfl

theorem blockCheck_of_blockBits {d : XfDesc} (h : d.blockBits.toNat < 2 ∨ 9 < d.blockBits.toNat) :
    blockCheck d s = .error ⟨.argumentRange, trunc32 d.blockBits.toNat⟩ s := by
  rw [blockCheck_apply, if_pos h]

theorem blockCheck_of_capacity {d : XfDesc} (h2 : 2 ≤ d.blockBits.toNat) (h9 : d.blockBits.toNat ≤ 9)
    (h : s.params.subCapacity < blockCount s.imgW.toNat s.imgH.toNat d.blockBits.toNat) :
    blockCheck d s =
      .error ⟨.capacityExceeded, trunc32 (blockCount s.imgW.toNat s.imgH.toNat d.blockBits.toNat)⟩ s := by
  rw [blockCheck_apply, if_neg (by omega), if_pos h]

theorem paletteCheck_of_palSize {d : XfDesc} (h : d.palSize = 0 ∨ 256 < d.palSize.toNat) :
    paletteCheck d s = .error ⟨.argumentRange, trunc32 d.palSize.toNat⟩ s := by
  have hsize : d.palSize.toNat = 0 ∨ Config.paletteMax < d.palSize.toNat := h.imp_left (congrArg BitVec.toNat)
  rw [paletteCheck_apply, if_pos hsize]

end

/-! ### A pass behind XfCheck -/

/-- What the five commands share: the check of the descriptor, then the command's own pass. -/
def checkedUndo (k : Nat) (ty : XfType) (pass : Cmd Unit) : Cmd Unit := do
  xfCheck k ty
  pass

section

variable {s t : State} {k : Nat} {ty : XfType} {pass : Cmd Unit} {e : ErrKind} {info : Nat}

theorem runCommand_checkedUndo_ok (h : s.XfOk k ty) (hp : pass (s.atStage .none) = .ok () (t.atStage .none)) :
    runCommand (checkedUndo k ty pass) s = .next t.completed :=
  runCommand_ok ((cmd_bind_of_ok (xfCheck_ok (h.atStage .none))).trans hp)

theorem runCommand_checkedUndo_error (h : s.XfOk k ty)
    (hp : pass (s.atStage .none) = .error ⟨e, trunc32 info⟩ (t.atStage .none)) :
    runCommand (checkedUndo k ty pass) s = .next (t.failed e info) :=
  runCommand_error ((cmd_bind_of_ok (xfCheck_ok (h.atStage .none))).trans hp)

/-- An error of the check ends the command before its pass. -/
theorem runCommand_checkedUndo_of_xfCheck (pass : Cmd Unit)
    (h : xfCheck k ty (s.atStage .none) = .error ⟨e, trunc32 info⟩ (s.atStage .none)) :
    runCommand (checkedUndo k ty pass) s = .next (s.failed e info) :=
  runCommand_error (cmd_bind_of_error h)

/-- A pass that replaces each pixel of the image by a function of its index and itself, as the command's effect. -/
theorem runCommand_checkedUndo_map {g : Nat → Word → Word} (h : s.XfOk k ty)
    (hp : ∃ m : Memory 32, pass (s.atStage .none) = .ok () ((s.atStage .none).withPix m) ∧ m.wf ∧
      ∀ i, m.read .pix i = if i < s.npix then g i (s.pixAt i) else s.pixAt i) :
    ∃ t, runCommand (checkedUndo k ty pass) s = .next t ∧ t = ({ s with pix := t.pix } : State).completed ∧
      (∀ i < s.npix, t.pixAt i = g i (s.pixAt i)) ∧ ∀ i, s.npix ≤ i → t.pixAt i = s.pixAt i := by
  obtain ⟨m, hrun, -, hm⟩ := hp
  exact ⟨(s.withPix m).completed, runCommand_checkedUndo_ok h hrun, rfl, fun i hi => (hm i).trans (if_pos hi),
    fun i hi => (hm i).trans (if_neg (Nat.not_lt.mpr hi))⟩

end

theorem exec_xfPredInv (k : Nat) (s : State) :
    exec (.xfPredInv k) s = runCommand (checkedUndo k .predictor (invPredictor (descOf k))) s := rfl

theorem exec_xfColorInv (k : Nat) (s : State) :
    exec (.xfColorInv k) s = runCommand (checkedUndo k .color (invColor (descOf k))) s := rfl

theorem exec_xfSubgInv (k : Nat) (s : State) :
    exec (.xfSubgInv k) s = runCommand (checkedUndo k .subtractGreen invSubGreen) s := rfl

theorem exec_xfPalApply (k : Nat) (s : State) :
    exec (.xfPalApply k) s = runCommand (checkedUndo k .palette (palApply (descOf k))) s := rfl

theorem exec_xfPalInvert (k : Nat) (s : State) :
    exec (.xfPalInvert k) s = runCommand (checkedUndo k .palette (raise .paletteNotInvertible k)) s := rfl

/-! ### The checks of the five commands -/

/-- The five commands that undo descriptor `k`, each with the type it checks for. -/
def checkedCommands (k : Nat) : List (Instr × XfType) :=
  [(.xfPredInv k, .predictor), (.xfColorInv k, .color), (.xfSubgInv k, .subtractGreen), (.xfPalApply k, .palette),
    (.xfPalInvert k, .palette)]

/-- Each of the five is a pass behind its XfCheck. -/
theorem exec_of_mem_checkedCommands {k : Nat} {i : Instr} {ty : XfType} (h : (i, ty) ∈ checkedCommands k) :
    ∃ pass : Cmd Unit, ∀ s, exec i s = runCommand (checkedUndo k ty pass) s := by
  simp only [checkedCommands, List.mem_cons, List.not_mem_nil, or_false, Prod.mk.injEq] at h
  rcases h with ⟨rfl, rfl⟩ | ⟨rfl, rfl⟩ | ⟨rfl, rfl⟩ | ⟨rfl, rfl⟩ | ⟨rfl, rfl⟩
  · exact ⟨_, exec_xfPredInv k⟩
  · exact ⟨_, exec_xfColorInv k⟩
  · exact ⟨_, exec_xfSubgInv k⟩
  · exact ⟨_, exec_xfPalApply k⟩
  · exact ⟨_, exec_xfPalInvert k⟩

/-- Settles O48: an error of XfCheck is the command's own, and XfCheck raises each where R280 has it. -/
theorem xfChecks : Obligations.XfChecks := by
  intro s k i ty hi d n
  obtain ⟨pass, hexec⟩ := exec_of_mem_checkedCommands hi
  have fails {e info} (h : xfCheck k ty (s.atStage .none) = .error ⟨e, trunc32 info⟩ (s.atStage .none)) :
      exec i s = .next (s.failed e info) :=
    (hexec s).trans (runCommand_checkedUndo_of_xfCheck pass h)
  refine ⟨fun hk => fails (xfCheck_of_index hk), fun hk hc => fails (xfCheck_of_count hk hc),
    fun hk hc h => fails (xfCheck_of_unlisted hk hc h), fun hk hc hty => ?_⟩
  have listed : (s.atStage .none).Listed k ty := ⟨hk, hc, hty⟩
  refine ⟨fun hne hp => fails (xfCheck_of_missingPayload listed hne hp), fun hp => ?_⟩
  have image {e info} (h : imageCheck (s.atStage .none) = .error ⟨e, trunc32 info⟩ (s.atStage .none)) :
      exec i s = .next (s.failed e info) :=
    fails ((xfCheck_of_payload listed hp).trans (cmd_bind_of_error h))
  refine ⟨fun hw => image (imageCheck_of_imgW_zero hw), fun hw hh => image (imageCheck_of_imgH_zero hw hh),
    fun hw hh hcap => image (imageCheck_of_capacity hw hh hcap), fun hok => ?_⟩
  have geometry {e info}
      (h : xfGeometry ty d (s.atStage .none) = .error ⟨e, trunc32 info⟩ (s.atStage .none)) :
      exec i s = .next (s.failed e info) :=
    fails ((xfCheck_of_payload listed hp).trans ((cmd_bind_of_ok (imageCheck_ok (hok.atStage .none))).trans h))
  refine ⟨fun ht hb => geometry ?_, fun ht h2 h9 hcap => geometry ?_, fun ht hs => geometry ?_⟩
  · rw [xfGeometry_of_blocks ht]
    exact blockCheck_of_blockBits hb
  · rw [xfGeometry_of_blocks ht]
    exact blockCheck_of_capacity h2 h9 hcap
  · subst ht
    exact paletteCheck_of_palSize hs

/-- Settles O52: behind a passed XfCheck the command raises its own error, and an XfCheck that fails raises one of its
three kinds. -/
theorem xfPalInvert : Obligations.XfPalInvert := by
  refine fun s k => ⟨fun h => ?_, fun h => ?_⟩
  · exact (exec_xfPalInvert k s).trans (runCommand_checkedUndo_error h (raise_apply _ _ _))
  · obtain ⟨e, he, info, hcheck⟩ := xfCheck_fails (s := s.atStage .none) h
    exact ⟨e, he, info, (exec_xfPalInvert k s).trans (runCommand_checkedUndo_of_xfCheck _ hcheck)⟩

/-! ### Subtract-green -/

/-- Green added back undoes the forward transform, which left `p` as `q` (R283). -/
theorem addGreen_of_forward {p q : Word} (hA : chan q 24 = chan p 24) (hG : chan q 8 = chan p 8)
    (hR : chan q 16 = (chan p 16 + (256 - chan p 8)) % 256) (hB : chan q 0 = (chan p 0 + (256 - chan p 8)) % 256) :
    addGreen q = p := by
  obtain ⟨cA, cG, cR, cB⟩ := chan_addGreen q
  have := chan_lt p 8
  have := chan_lt p 16
  have := chan_lt p 0
  exact pix_ext (cA.trans hA) (by omega) (cG.trans hG) (by omega)

/-- Settles O49: the pass adds green back at every pixel of the image, which undoes the forward transform. -/
theorem xfSubgInv : Obligations.XfSubgInv := by
  intro s k hw h
  obtain ⟨t, hrun, hframe, hpix, hrest⟩ :=
    runCommand_checkedUndo_map (g := fun _ p => addGreen p) h (invSubGreen_ok (s := s.atStage .none) hw)
  refine ⟨t, (exec_xfSubgInv k s).trans hrun, hframe, fun i hi => ?_, hrest, fun i hi p hA hG hR hB => ?_⟩
  · rw [hpix i hi]
    exact chan_addGreen _
  · rw [hpix i hi]
    exact addGreen_of_forward hA hG hR hB

/-! ### Color -/

/-- Settles O50: the pass undoes the color transform at every pixel of the image by the word of its block. -/
theorem xfColorInv : Obligations.XfColorInv := by
  intro s k hw h
  obtain ⟨t, hrun, hframe, hpix, hrest⟩ :=
    runCommand_checkedUndo_map (g := fun i p => invColorPix (s.blockData k i) p) h
      (invColor_ok (s := s.atStage .none) hw (descOf k))
  refine ⟨t, (exec_xfColorInv k s).trans hrun, hframe, fun i hi => ?_, hrest⟩
  rw [hpix i hi]
  exact chan_invColorPix _ _

end Sys2Proof.Machine
end

section
/-! HDR_PARSE: the input check, then the header parser from a reader at its start (48_orchestrator.md R312 to R314, R341). -/

namespace Sys2Proof.Machine

theorem exec_hdrParse (s : State) : exec .hdrParse s = runStaged hdrParseBody s := rfl

theorem hdrParseBody_badInput {s : State} (hi : ¬ s.InputOk) :
    hdrParseBody s = .error ⟨.argumentRange, s.inLen⟩ (s.atStage .header) := by
  have hcheck := inputCheck_error (s := s.atStage .header) hi
  rw [trunc32_toNat] at hcheck
  exact (setStage_bind _ _ s).trans (cmd_bind_of_error hcheck)

/-- The state HDR_PARSE parses the header in. -/
def State.atHeader (s : State) : State := (s.atStage .header).startReader 0

/-- Everything the header parser can answer there, on the bytes of the state HDR_PARSE began in. -/
theorem parseHeader_atHeader (s : State) :
    parseHeader s.atHeader =
      if s.inLen.toNat < 5 then .error ⟨.truncatedHeader, s.inLen⟩ s.atHeader
      else if s.inByte 0 ≠ signature then .error ⟨.badSignature, trunc32 (s.inByte 0)⟩ (s.atHeader.moveTo 8)
      else if s.inByte 4 / 32 ≠ 0 then
        .error ⟨.unsupportedVersion, trunc32 (s.inByte 4 / 32)⟩ (s.atHeader.moveTo 40)
      else if s.params.pixCapacity < s.headerW * s.headerH then
        .error ⟨.capacityExceeded, trunc32 (s.headerW * s.headerH)⟩ s.atHeader.headed
      else .ok ⟨s.headerW, s.headerH, s.headerAlpha⟩ s.atHeader.headed :=
  parseHeader_apply rfl

/-- Behind the input check HDR_PARSE is the header parser. -/
theorem hdrParseBody_of_inputOk {s : State} (hi : s.InputOk) :
    hdrParseBody s = (do let _ ← parseHeader; pure ()) s.atHeader :=
  (setStage_bind _ _ s).trans ((cmd_bind_of_ok (inputCheck_ok (hi.atStage .header))).trans
    (cmd_bind_of_ok (update_apply _ _)))

section

variable {s t : State}

theorem exec_hdrParse_ok {hd : Header} (hi : s.InputOk) (h : parseHeader s.atHeader = .ok hd t) :
    exec .hdrParse s = .next t.complete :=
  (exec_hdrParse s).trans (runStaged_ok ((hdrParseBody_of_inputOk hi).trans (cmd_bind_of_ok h)))

theorem exec_hdrParse_error {e : Trap} (hi : s.InputOk) (h : parseHeader s.atHeader = .error e t) :
    exec .hdrParse s = .next (t.takeError e) :=
  (exec_hdrParse s).trans (runStaged_error ((hdrParseBody_of_inputOk hi).trans (cmd_bind_of_error h)))

end

/-- Settles O54: an error of the input check or of the header parser is the command's own, and the parser raises each where
R313 and R314 have it. -/
theorem hdrParse : Obligations.HdrParse := by
  intro s start
  have parsed := parseHeader_atHeader s
  refine ⟨fun hi h5 h0 h4 hc => ?_, fun hi => ?_, fun hi h5 => ?_, fun hi h5 => ⟨fun h0 => ?_, fun h0 h4 => ?_,
    fun h0 h4 hc => ⟨s.atHeader.headed, ?_, rfl⟩⟩⟩
  · rw [if_neg (Nat.not_lt.mpr h5), if_neg (not_not.mpr h0), if_neg (not_not.mpr h4), if_neg (Nat.not_lt.mpr hc)] at parsed
    exact exec_hdrParse_ok hi parsed
  · exact (exec_hdrParse s).trans (runStaged_error (hdrParseBody_badInput hi))
  · rw [if_pos h5] at parsed
    exact exec_hdrParse_error hi parsed
  · rw [if_neg (Nat.not_lt.mpr h5), if_pos h0] at parsed
    exact exec_hdrParse_error hi parsed
  · rw [if_neg (Nat.not_lt.mpr h5), if_neg (not_not.mpr h0), if_pos h4] at parsed
    exact exec_hdrParse_error hi parsed
  · rw [if_neg (Nat.not_lt.mpr h5), if_neg (not_not.mpr h0), if_neg (not_not.mpr h4), if_pos hc] at parsed
    exact exec_hdrParse_error hi parsed

end Sys2Proof.Machine
end

section
/-! The errors of DECODE, stage by stage: a triple for each stage of 48_orchestrator.md R310 whose errors are the ones R345
lists for it, and the whole decode from them. -/

namespace Sys2Proof.Machine

/-- An error is one R345 lists for the stage of the state it was raised in. -/
def ListedError (e : Trap) (s : State) : Prop := e.kind ∈ decodeErrors s.stage

theorem State.Since.listedError {c s : State} (h : c.Since s) {e : Trap} (he : e.kind ∈ decodeErrors c.stage) :
    ListedError e s := by
  unfold ListedError
  rwa [h.stage]

/-! ### What the list and the size rest on -/

theorem State.ListOk.congr {seen : List XfType} {s u : State} (h : s.ListOk seen) (h1 : u.xfDesc = s.xfDesc)
    (h2 : u.xfCount = s.xfCount) (h3 : u.params = s.params) (h4 : u.imgW = s.imgW) (h5 : u.imgH = s.imgH) :
    u.ListOk seen := by
  refine ⟨by rw [h2]; exact h.count, h.nodup, by rw [h1]; exact h.types, fun k hk => ?_⟩
  rw [h1]
  exact (h.descs k hk).congr h3 h4 h5

theorem State.ImageOk.congr {s u : State} (h : s.ImageOk) (h1 : u.params = s.params) (h2 : u.imgW = s.imgW)
    (h3 : u.imgH = s.imgH) : u.ImageOk := by
  unfold State.ImageOk State.npix at *
  rw [h1, h2, h3]
  exact h

/-! ### The header -/

/-- What the header leaves for the stages after it: the working size in the image registers, within the pixel memory, and an
empty list. -/
structure State.HeaderRead (hd : Header) (s : State) : Prop where
  cursor : s.pos ≤ s.endPos
  mem    : s.MemWf
  list   : s.ListOk []
  image  : s.ImageOk
  imgW   : s.imgW.toNat = hd.w
  imgH   : s.imgH.toNat = hd.h

theorem State.HeaderRead.atStage {s : State} {hd : Header} (h : s.HeaderRead hd) (st : Stage) :
    (s.atStage st).HeaderRead hd :=
  ⟨h.cursor, h.mem, h.list.congr rfl rfl rfl rfl rfl, h.image.atStage st, h.imgW, h.imgH⟩

theorem listOk_nil {s : State} (h : s.xfCount = 0) : s.ListOk [] :=
  ⟨by rw [h]; rfl, List.nodup_nil, rfl, fun k hk => absurd hk (Nat.not_lt_zero k)⟩

theorem toNat_trunc32_of_le {n : Nat} (h : n ≤ 16384) : (trunc32 n).toNat = n := by
  rw [BitVec.toNat_ofNat, Nat.mod_eq_of_lt (by omega)]

theorem trunc32_ne_zero {n : Nat} (h1 : 1 ≤ n) (h : n ≤ 16384) : trunc32 n ≠ 0 := by
  intro h0
  have hn := toNat_trunc32_of_le h
  rw [h0] at hn
  exact absurd hn.symm (Nat.ne_of_gt h1)

theorem State.headerRead_headed {s : State} (hm : s.MemWf) (hx : s.xfCount = 0) (h5 : 5 ≤ s.inLen.toNat)
    (hc : s.headerW * s.headerH ≤ s.params.pixCapacity) :
    s.headed.HeaderRead ⟨s.headerW, s.headerH, s.headerAlpha⟩ := by
  obtain ⟨w1, w2⟩ := s.headerW_le
  obtain ⟨h1, h2⟩ := s.headerH_le
  have hW : s.headed.imgW.toNat = s.headerW := toNat_trunc32_of_le w2
  have hH : s.headed.imgH.toNat = s.headerH := toNat_trunc32_of_le h2
  refine ⟨?_, hm, listOk_nil hx, ⟨trunc32_ne_zero w1 w2, trunc32_ne_zero h1 h2, ?_⟩, hW, hH⟩
  · have hpos : s.headed.pos = 40 := s.pos_moveTo (by decide)
    have hend : s.headed.endPos = s.inLen.toNat * 8 := rfl
    omega
  · unfold State.npix
    rw [hW, hH]
    exact hc

/-- The state DECODE parses the header in. -/
structure State.BeforeHeader (s : State) : Prop where
  stage   : s.stage = .header
  mem     : s.MemWf
  pos     : s.pos = 0
  xfCount : s.xfCount = 0

theorem State.beforeHeader_decodeInit {s : State} (hs : s.stage = .header) (hm : s.MemWf) : s.decodeInit.BeforeHeader :=
  ⟨hs, (closed_memWf [.cursor, .cache, .transforms, .groups, .tableInfo]).init (by decide) (by decide) (by decide)
    (by decide) (by decide) s hm, rfl, rfl⟩

theorem hoare_parseHeader : Hoare State.BeforeHeader parseHeader (fun hd s => s.HeaderRead hd) ListedError := by
  rintro s ⟨hs, hm, hp, hx⟩
  have listed {k : ErrKind} {info : Word} {t : State} (ht : t.stage = s.stage) (hk : k ∈ decodeErrors .header) :
      ListedError ⟨k, info⟩ t := by
    unfold ListedError
    rwa [ht, hs]
  rw [parseHeader_apply hp]
  split_ifs with h5 h0 h4 hc
  · exact listed rfl (by decide)
  · exact listed rfl (by decide)
  · exact listed rfl (by decide)
  · exact listed rfl (by decide)
  · exact State.headerRead_headed hm hx (by omega) (by omega)

theorem hoare_inputCheck_header : Hoare (fun s => s.stage = .header ∧ s.MemWf) inputCheck
    (fun _ s => s.stage = .header ∧ s.MemWf) ListedError := by
  intro s hs
  rw [inputCheck_apply]
  split_ifs
  · show ErrKind.argumentRange ∈ decodeErrors s.stage
    rw [hs.1]
    decide
  · exact hs

/-! ### The stages after the list -/

/-- A state in stage `st` after the list: `c`, the state the list left, but for what the stages since then write. -/
def State.InStage (c : State) (st : Stage) (s : State) : Prop := (c.atStage st).Since s ∧ c.SameList s

section

variable {c s : State} {st : Stage}

theorem State.InStage.next (h : c.InStage st s) (st' : Stage) : c.InStage st' (s.atStage st') :=
  ⟨h.1.atStage st', h.2⟩

theorem State.InStage.lengthsWf (h : c.InStage st s) : s.clmem.wf := by
  obtain ⟨-, -, -, -, hclmem, -⟩ := h.1.mem
  exact hclmem

theorem State.InStage.outWf (h : c.InStage st s) : s.out.wf := by
  obtain ⟨-, hout, -⟩ := h.1.mem
  exact hout

theorem State.InStage.listedError (h : c.InStage st s) {e : Trap} (he : e.kind ∈ decodeErrors st) : ListedError e s :=
  h.1.listedError he

theorem inStage_imageClosed (c : State) (st : Stage) : ImageClosed (c.InStage st) :=
  (since_imageClosed (c.atStage st)).and (sameList_imageClosed c)

/-- A triple of one stage's piece, its errors read off the list of R345 for the stage. -/
theorem Hoare.listed {α : Type} {x : Cmd α} {P : State → Prop} {Q : α → State → Prop}
    (h : Hoare P x Q (fun e s => c.InStage st s ∧ e.kind ∈ decodeErrors st)) : Hoare P x Q ListedError :=
  h.conseq (fun _ hs => hs) (fun _ _ hs => hs) fun _ _ hs => hs.1.listedError hs.2

theorem hoare_setStage (c : State) (st st' : Stage) {E : Trap → State → Prop} :
    Hoare (c.InStage st) (setStage st') (fun _ => c.InStage st') E :=
  hoare_update fun _ hs => hs.next st'

theorem hoare_cacheSizeStage : Hoare (c.InStage .colorCacheSize) readCacheBits
    (fun cb s => c.InStage .colorCacheSize s ∧ cb ≤ Config.cacheMaxBits) ListedError :=
  Hoare.listed (does_readCacheBits (S := decodeErrors .colorCacheSize) (inStage_imageClosed c .colorCacheSize).tree.move
    (by decide) (by decide))

theorem hoare_entropyImageStage (w h : Nat) : Hoare (c.InStage .entropyImage) (readMetaPrefix w h)
    (fun _ => c.InStage .entropyImage) ListedError :=
  (hoare_readMetaPrefix (c := c.atStage .entropyImage) w h).conseq (fun _ hs => hs) (fun _ _ hs => hs.1)
    fun _ _ hs => hs.1.listedError hs.2

/-- The main group, then the groups after it, which leave its tables. -/
theorem hoare_groupsStage {cs : Nat} (hcs : cs ≤ Config.cacheCapacity) (at_ : Bool) (n : Nat) :
    Hoare (c.InStage .huffmanGroups)
      (do readGroup cs at_ true; forRange (fun _ => readGroup cs at_ false) n 1)
      (fun _ s => c.InStage .huffmanGroups s ∧ s.GroupOk cs at_) ListedError := by
  have C := (inStage_imageClosed c .huffmanGroups).tree
  have main := hoare_readGroup_primary (C.mono fun _ _ => trivial) hcs at_
  have others := hoare_otherGroups ((C.mono fun _ _ => trivial).and (groupOk_treeClosed cs at_)) hcs at_ n
  refine Hoare.listed (Hoare.bind (main.conseq (fun _ hs => ⟨hs, hs.lengthsWf⟩) ?_ fun _ _ hs => hs) fun _ =>
    others.conseq (fun _ hs => hs) (fun _ _ hs => ⟨hs.1.1, hs.1.2.1⟩) fun _ _ hs => ⟨hs.1.1, hs.2⟩)
  rintro - s ⟨hs, hw, hg⟩
  exact ⟨⟨hs, hg⟩, hw⟩

theorem hoare_pixelStage {cb n : Nat} (hcb : cb ≤ Config.cacheMaxBits) (at_ : Bool) :
    Hoare (fun s => c.InStage .pixelStream s ∧ s.GroupOk (cacheSize cb) at_)
      (do cacheInit cb; pixelStream .pix n at_) (fun _ => c.InStage .pixelStream) ListedError :=
  Hoare.listed ((hoare_cachedStream (inStage_imageClosed c .pixelStream) (.inl rfl) hcb).conseq (fun _ hs => hs)
    (fun _ _ hs => hs.1) fun _ _ hs => hs)

/-- The checks of the chain pass, since the list and the size are the ones the stages before left. -/
theorem hoare_chainStage {seen : List XfType} (hl : c.ListOk seen) (hi : c.ImageOk) :
    Hoare (c.InStage .inverseTransforms) invChain (fun _ => c.InStage .inverseTransforms) ListedError := by
  refine Hoare.listed (hoare_invChain (P := c.InStage .inverseTransforms) (since_pixClosed (c.atStage _)) ?_)
  rintro s ⟨hs, hdesc, hcount⟩
  have hL : s.ListOk seen := hl.congr hdesc hcount hs.params hs.imgW hs.imgH
  have hI : s.ImageOk := hi.congr hs.params hs.imgW hs.imgH
  refine ⟨?_, fun k hk => hL.xfOk hI hk⟩
  rw [hL.count]
  exact XfType.length_le hL.nodup

theorem hoare_conversionStage {E : Trap → State → Prop} : Hoare (c.InStage st) rgbaConvert (fun _ _ => True) E := by
  intro s hs
  obtain ⟨m, hrun, -⟩ := rgbaConvert_outHoldsPix hs.outWf
  rw [hrun]
  trivial

end

/-! ### The whole decode -/

theorem hoare_afterStream {c : State} {seen : List XfType} (hl : c.ListOk seen) (hi : c.ImageOk) :
    Hoare (c.InStage .pixelStream) afterStream (fun _ _ => True) ListedError :=
  (hoare_setStage c _ .inverseTransforms).bind fun _ => (hoare_chainStage hl hi).bind fun _ =>
    (hoare_setStage c _ .pixelFormatConvert).bind fun _ => hoare_conversionStage.bind fun _ =>
      hoare_update fun _ _ => trivial

/-- What is left of a decode once the transform list is read. -/
def afterList (hd : Header) : Cmd Unit := do
  setStage .colorCacheSize
  let cb ← readCacheBits
  setStage .entropyImage
  let ng ← readMetaPrefix hd.w hd.h
  setStage .huffmanGroups
  let at_ ← readState fun s => s.alphaTree hd.alpha
  readGroup (cacheSize cb) at_ true
  forRange (fun _ => readGroup (cacheSize cb) at_ false) (ng - 1) 1
  setStage .pixelStream
  cacheInit cb
  pixelStream .pix (hd.w * hd.h) at_
  afterStream

/-- A triple of two pieces in a row, and then of what follows them. -/
theorem Hoare.bind_pair {α β γ : Type} {x : Cmd α} {f : α → Cmd β} {g : β → Cmd γ} {P : State → Prop}
    {R : β → State → Prop} {Q : γ → State → Prop} {E : Trap → State → Prop} (h : Hoare P (x >>= f) R E)
    (hg : ∀ b, Hoare (R b) (g b) Q E) : Hoare P (x >>= fun a => f a >>= g) Q E := by
  rw [← bind_assoc]
  exact h.bind hg

theorem hoare_afterList {c : State} {seen : List XfType} (hl : c.ListOk seen) (hi : c.ImageOk) (hd : Header) :
    Hoare (c.InStage .transformList) (afterList hd) (fun _ _ => True) ListedError := by
  refine (hoare_setStage c _ .colorCacheSize).bind fun _ => hoare_cacheSizeStage.bind fun cb => ?_
  rintro s ⟨hs, hcb⟩
  refine Hoare.bind (P := c.InStage .colorCacheSize) (hoare_setStage c _ .entropyImage) (fun _ =>
    (hoare_entropyImageStage hd.w hd.h).bind fun ng => (hoare_setStage c _ .huffmanGroups).bind fun _ =>
      (hoare_readState (Q := fun _ => c.InStage .huffmanGroups) fun _ hs => hs).bind fun at_ =>
        (hoare_groupsStage (Closed.cacheSize_le hcb) at_ (ng - 1)).bind_pair fun _ => ?_) s hs
  exact (hoare_update (Q := fun _ s => c.InStage .pixelStream s ∧ s.GroupOk (cacheSize cb) at_)
    fun _ hs => ⟨hs.1.next .pixelStream, hs.2⟩).bind fun _ =>
      (hoare_pixelStage hcb at_).bind_pair fun _ => hoare_afterStream hl hi

theorem afterHeader_eq (hd : Header) : afterHeader hd = (do transformLoop hd.w hd.h 5 []; afterList hd) := rfl

/-- What a list leaves is where the stages after it begin. -/
theorem State.Since.inStage {c s : State} (h : c.Since s) : s.InStage s.stage s :=
  ⟨State.Since.refl h.high h.mem, rfl, rfl⟩

theorem hoare_afterHeader (hd : Header) :
    Hoare (fun s => s.stage = .transformList ∧ s.HeaderRead hd) (afterHeader hd) (fun _ _ => True) ListedError := by
  rintro c ⟨hst, hc⟩
  rw [afterHeader_eq, ← hc.imgW, ← hc.imgH]
  refine Hoare.bind ((hoare_transformLoop (c := c) 5 []).conseq (fun _ hs => hs) (fun _ _ hs => hs) fun _ _ hs =>
    hs.1.listedError (by rw [hst]; exact hs.2)) (fun _ => ?_) c ⟨State.Since.refl hc.cursor hc.mem, hc.list⟩
  rintro s ⟨hs, seen, hl⟩
  have hi : s.ImageOk := hc.image.congr hs.params hs.imgW hs.imgH
  refine hoare_afterList hl hi hd s ?_
  have begun := hs.inStage
  rwa [hs.stage, hst] at begun

theorem decodeBody_eq : decodeBody = (do
    setStage .header; inputCheck; update State.decodeInit
    let hd ← parseHeader
    setStage .transformList; afterHeader hd) := rfl

theorem hoare_decodeBody : Hoare State.MemWf decodeBody (fun _ _ => True) ListedError := by
  rw [decodeBody_eq]
  refine Hoare.bind (R := fun _ s => s.stage = .header ∧ s.MemWf) (hoare_update fun _ hm => ⟨rfl, hm⟩) fun _ => ?_
  refine hoare_inputCheck_header.bind fun _ => ?_
  refine Hoare.bind (R := fun _ => State.BeforeHeader)
    (hoare_update fun _ hs => State.beforeHeader_decodeInit hs.1 hs.2) fun _ => ?_
  refine hoare_parseHeader.bind fun hd => ?_
  exact Hoare.bind (R := fun _ s => s.stage = .transformList ∧ s.HeaderRead hd)
    (hoare_update fun _ hs => ⟨rfl, hs.atStage .transformList⟩) fun _ => hoare_afterHeader hd

/-- Settles O59: a decode that ends without DONE took an error its body raised, one listed for the stage it had reached. -/
theorem decodeErrorsByStage : Obligations.DecodeErrorsByStage := by
  intro s t hm ht hdone
  rcases hoare_decodeBody.finish hm ht with ⟨u, -, rfl⟩ | ⟨e, u, he, rfl⟩
  · cases hdone
  · exact ⟨e.kind, he, rfl⟩

end Sys2Proof.Machine
end

section
/-! The interrupt output and the error state: every command ends with the interrupt pending, and while ERR = 1 no write of
the host touches the first error (60_exceptions.md R375, R381). -/

namespace Sys2Proof.Machine

/-! ### The interrupt output -/

theorem State.regWord_ctrl_getLsbD_zero (s : State) : (s.regWord 0x10).getLsbD 0 = s.irqEn := by
  show ((BitVec.ofBool s.irqEn).setWidth 32).getLsbD 0 = s.irqEn
  simp

/-- The interrupt output as the host finds it in STATUS and CTRL (60_exceptions.md R375). -/
theorem State.irq_eq_regWord (s : State) : s.irq =
    ((s.regWord 0x10).getLsbD 0 && ((s.regWord 0x04).getLsbD 1 || (s.regWord 0x04).getLsbD 2)) := by
  obtain ⟨-, hdone, herr⟩ := s.statusWord_bits
  show (s.irqEn && (s.done || s.err)) = (_ && (s.statusWord.getLsbD 1 || s.statusWord.getLsbD 2))
  rw [s.regWord_ctrl_getLsbD_zero, hdone, herr]

theorem input_notMem_writtenRegions (i : Instr) : Region.input ∉ writtenRegions i := by
  cases i <;> simp [writtenRegions]

/-- No command writes CTRL: it is in the part of the state that belongs to the host. -/
theorem exec_irqEn {i : Instr} {s t : State} (ht : exec i s = .next t) : t.irqEn = s.irqEn := by
  by_cases hi : i = .softReset
  · subst hi
    cases (exec_softReset s).symm.trans ht
    rfl
  · obtain ⟨-, hirq, -⟩ := (frame_closed s .input _ (input_notMem_writtenRegions i)).exec (agree_stageless s .input)
      (fun _ hu => hu) (fun _ _ hu => hu) i hi (fun _ hr => hr) ⟨rfl, rfl, rfl⟩ ht
    exact hirq

/-- Every command ends with DONE or with an error. -/
theorem exec_done_or_err {i : Instr} {s t : State} (ht : exec i s = .next t) : (t.done || t.err) = true := by
  obtain ⟨u, hu, -, -, hend⟩ := commandOutcome i s
  cases hu.symm.trans ht
  rcases hend with ⟨hdone, -⟩ | ⟨-, herr, -⟩
  · rw [hdone, Bool.true_or]
  · rw [herr, Bool.or_true]

theorem exec_irq {i : Instr} {s t : State} (ht : exec i s = .next t) : t.irq = s.irqEn := by
  rw [State.irq, exec_done_or_err ht, Bool.and_true, exec_irqEn ht]

/-- Settles O12: CTRL is kept and DONE or ERR is set when a command ends; acceptance and the two resets by what they write. -/
theorem interrupt : Obligations.Interrupt := by
  refine ⟨State.irq_eq_regWord, fun _ _ _ ht => exec_irq ht, fun _ => rfl, fun s t ht => ?_, fun s t ht => ?_⟩
  · cases (exec_softReset s).symm.trans ht
    rfl
  · cases ht
    exact ⟨rfl, rfl⟩

/-! ### Host accesses of an idle block -/

theorem hostReadReg_idle {s : State} (hb : s.busy = false) (offset : Nat) : s.hostReadReg offset = s.regWord offset := by
  simp [State.hostReadReg, hb]

theorem hostReadElem_idle {s : State} (hb : s.busy = false) {sp : Space} {i : Nat} (hi : i < s.spaceCount sp) :
    s.hostReadElem sp i = s.elem sp i := by
  simp [State.hostReadElem, hb, hi]

theorem hostStep_writeElem {s : State} (hb : s.busy = false) (sp : Space) (i : Nat) (v : Word) :
    hostStep (.writeElem sp i v) s = .next (s.hostWriteElem sp i v) := by
  simp [hostStep, hb]

theorem hostStep_writeWide {s : State} (hb : s.busy = false) (sp : Space) (j : Nat) (v : Word) :
    hostStep (.writeWide sp j v) s = .next (s.hostWriteWide sp j v) := by
  simp [hostStep, hb]

/-! ### What a write leaves of the first error -/

/-- Two states hold the same error, or both none. -/
def State.SameError (s t : State) : Prop := t.err = s.err ∧ t.errCode = s.errCode ∧ t.errInfo = s.errInfo

theorem State.sameError_refl (s : State) : s.SameError s := ⟨rfl, rfl, rfl⟩

theorem State.sameError_writeReg (s : State) (offset : Nat) (v : Word) : s.SameError (s.writeReg offset v) := by
  unfold State.writeReg; split <;> exact s.sameError_refl

theorem State.SameError.setElem {s t : State} (h : s.SameError t) (sp : Space) (i : Nat) (v : Word) :
    s.SameError (t.setElem sp i v) := by
  cases sp <;> exact h

theorem State.SameError.hostWriteElem {s t : State} (h : s.SameError t) (sp : Space) (i : Nat) (v : Word) :
    s.SameError (t.hostWriteElem sp i v) :=
  hostWriteElem_keeps (fun _ sp i v hu _ _ => hu.setElem sp i v) t sp i v h

/-- A wide write is four writes of one element. -/
theorem State.sameError_hostWriteWide (s : State) (sp : Space) (j : Nat) (v : Word) :
    s.SameError (s.hostWriteWide sp j v) := by
  unfold State.hostWriteWide
  split_ifs
  · exact (((s.sameError_refl.hostWriteElem _ _ _).hostWriteElem _ _ _).hostWriteElem _ _ _).hostWriteElem _ _ _
  · exact s.sameError_refl

/-! ### The error state -/

/-- What the host's write `op` leaves of an idle block in the error state, where it is not the SOFT_RESET word: a command
is ignored, and any other write has its effect (60_exceptions.md R381). -/
def State.afterWriteInError (s : State) : HostOp → State
  | .writeReg offset v => if offset = cmdOffset then s else s.writeReg offset v
  | .writeElem sp i v => s.hostWriteElem sp i v
  | .writeWide sp j v => s.hostWriteWide sp j v
  | .hardReset => s.hardReset

theorem State.afterWriteInError_cmd (s : State) (w : Word) : s.afterWriteInError (.writeReg cmdOffset w) = s := rfl

theorem State.afterWriteInError_writeReg (s : State) {offset : Nat} (h : offset ≠ cmdOffset) (v : Word) :
    s.afterWriteInError (.writeReg offset v) = s.writeReg offset v := if_neg h

theorem hostStep_inError {s : State} (he : s.err = true) (hb : s.busy = false) {op : HostOp}
    (hop : op ≠ .writeReg cmdOffset softResetWord) : hostStep op s = .next (s.afterWriteInError op) := by
  cases op with
  | writeReg offset v =>
    by_cases hc : offset = cmdOffset
    · subst hc
      rw [s.afterWriteInError_cmd]
      exact writeCmd_ignored hb he fun hv => hop (congrArg _ hv)
    · rw [s.afterWriteInError_writeReg hc]
      exact hostStep_writeReg hb hc v
  | writeElem sp i v => exact hostStep_writeElem hb sp i v
  | writeWide sp j v => exact hostStep_writeWide hb sp j v
  | hardReset => rfl

theorem State.sameError_afterWriteInError (s : State) {op : HostOp} (hop : op ≠ .hardReset) :
    s.SameError (s.afterWriteInError op) := by
  cases op with
  | writeReg offset v =>
    by_cases hc : offset = cmdOffset
    · subst hc
      exact s.sameError_refl
    · rw [s.afterWriteInError_writeReg hc]
      exact s.sameError_writeReg offset v
  | writeElem sp i v => exact s.sameError_refl.hostWriteElem sp i v
  | writeWide sp j v => exact s.sameError_hostWriteWide sp j v
  | hardReset => exact absurd rfl hop

/-- Settles O13: the reads of an idle block, then the one state a write leaves and the error it keeps. -/
theorem errorStaysFirst : Obligations.ErrorStaysFirst := by
  refine fun s he hb => ⟨hostReadReg_idle hb, fun _ _ hi => hostReadElem_idle hb hi, fun op hsoft hhard => ?_⟩
  obtain ⟨herr, hcode, hinfo⟩ := s.sameError_afterWriteInError hhard
  refine ⟨s.afterWriteInError op, hostStep_inError he hb hsoft, herr.trans he, hcode, hinfo, ?_, ?_, ?_, ?_⟩
  · rintro w rfl; exact s.afterWriteInError_cmd w
  · rintro offset v hne rfl; exact s.afterWriteInError_writeReg hne v
  · rintro sp i v rfl; rfl
  · rintro sp j v rfl; rfl

end Sys2Proof.Machine
end

section
/-! The hardware reset and NOP (70_reset_and_hazards.md R400, R402). -/

namespace Sys2Proof.Machine

/-! ### The hardware reset -/

theorem hostStep_hardReset (s : State) : hostStep .hardReset s = .next s.hardReset := rfl

/-- The reset state is what a hardware reset leaves whose draw of the memories' contents is number 0 (log 4), so what holds
after every hardware reset holds of it. -/
theorem State.reset_eq_hardReset : State.reset = ({ State.reset with nextDraw := 0 } : State).hardReset := rfl

/-- A hardware reset changes the memories' contents, the parameters and the queue only, none of which a register shows. -/
theorem State.hardReset_regWord (s : State) (offset : Nat) : s.hardReset.regWord offset = 0 :=
  State.reset_regWord offset

theorem vget_replicate {γ : Type} {n : Nat} (x : γ) (i : Fin n) : (Vector.replicate n x)[i] = x :=
  Vector.getElem_replicate i.isLt

/-- The registers, CACHE and CLM are at their reset values, and the contents of every other memory are the reset's draw. -/
theorem State.hardReset_isReset (s : State) : s.hardReset.IsReset := by
  have drawn {w : Nat} : ∃ d, (Memory.unspecified s.nextDraw : Memory w) = .unspecified d := ⟨_, rfl⟩
  exact ⟨fun offset _ => s.hardReset_regWord offset, rfl, rfl, Memory.read_cleared .cache, vget_replicate 0,
    drawn, drawn, drawn, drawn, drawn, fun k => ⟨_, vget_replicate _ k⟩, fun t => ⟨_, vget_replicate _ t⟩⟩

/-- Settles O7: the reset state is a hardware reset's, and every hardware reset leaves the values of R400. -/
theorem hardwareReset : Obligations.HardwareReset := by
  refine ⟨?_, fun s => ⟨s.hardReset, hostStep_hardReset s, s.hardReset_isReset⟩⟩
  rw [State.reset_eq_hardReset]
  exact State.hardReset_isReset _

/-! ### NOP -/

theorem decodeWord_nop : decodeWord 0x00000001#32 = .ok .nop := rfl

/-- NOP has no body: what it leaves is the STAGE of its acceptance and its completion. -/
theorem exec_nop (s : State) : exec .nop s = .next (s.atStage .none).complete := rfl

/-- Settles O24: the state NOP completes in, and its word ignored in the error state as every word but SOFT_RESET's is. -/
theorem nopCompletes : Obligations.NopCompletes := fun s =>
  ⟨exec_nop s, decodeWord_nop, fun hb he =>
    (hostStep_cmd _ s).trans (writeCmd_ignored hb he (by decide))⟩

end Sys2Proof.Machine
end

section
/-! The command words: the encoder and the decoder are inverse, the words the decoder refuses, and the step of a command
word (30_encoding.md R110 to R117, 10_state.md R35). -/

namespace Sys2Proof.Machine

/-! ### The opcode map, row by row -/

/-- A row of R115 names the opcode `k`: its commands have the opcode and the operand of the row's format. -/
def RowNames (k : Nat) : OpcodeRow → Prop
  | .n i => i.imm8 = none ∧ opcodeOf i = k ∧ k ∈ nOpcodes ∧ k ∉ iOpcodes
  | .i mk => (∀ v, (mk v).imm8 = some v ∧ opcodeOf (mk v) = k) ∧ k ∈ iOpcodes ∧ k ∉ nOpcodes

theorem rowNames_of_mem : ∀ p ∈ opcodeMap, RowNames p.1 p.2 := by
  simp [opcodeMap, RowNames, Instr.imm8, opcodeOf, nOpcodes, iOpcodes]

/-- A lookup finds an entry of the list. -/
theorem mem_of_lookup {β : Type} {k : Nat} {r : β} {l : List (Nat × β)} (h : l.lookup k = some r) : (k, r) ∈ l := by
  obtain ⟨l₁, l₂, rfl, -⟩ := List.lookup_eq_some_iff.mp h
  exact List.mem_append_right _ List.mem_cons_self

theorem rowNames_of_lookup {k : Nat} {r : OpcodeRow} (h : opcodeMap.lookup k = some r) : RowNames k r :=
  rowNames_of_mem (k, r) (mem_of_lookup h)

/-- An opcode the map does not have is of neither format. -/
theorem opcode_unlisted {k : Nat} (h : opcodeMap.lookup k = none) : k ∉ nOpcodes ∧ k ∉ iOpcodes := by
  simp [opcodeMap, List.lookup_eq_none_iff] at h
  simp [nOpcodes, iOpcodes]
  omega

/-- The row of each command: its own constructor, waiting for the operand in format I. -/
theorem lookup_opcodeOf (i : Instr) :
    (i.imm8 = none ∧ opcodeMap.lookup (opcodeOf i) = some (.n i)) ∨
      ∃ v mk, i.imm8 = some v ∧ mk v = i ∧ opcodeMap.lookup (opcodeOf i) = some (.i mk) := by
  cases i
  case nop | softReset | brInit | brHasdata | brTell | clRead | ccInit | ccHash | ccInsert | ccGet | lzCopy | xfChainInv |
      hdrParse | decode | rgbaConvert => exact .inl ⟨rfl, rfl⟩
  case brRead | hufBuild | hufDecode | lzPrefix | pred | xfPredInv | xfColorInv | xfSubgInv | xfPalApply | xfPalInvert =>
    exact .inr ⟨_, _, rfl, rfl, rfl⟩

/-! ### The decoder -/

theorem decodeWord_formatN {w : Word} {i : Instr} (h : opcodeMap.lookup (w.toNat % 256) = some (.n i)) :
    decodeWord w = if w.toNat / 2 ^ 8 = 0 then .ok i else .error .reservedN := by
  simp [decodeWord, h]

theorem decodeWord_formatI {w : Word} {mk : Nat → Instr} (h : opcodeMap.lookup (w.toNat % 256) = some (.i mk)) :
    decodeWord w =
      if w.toNat / 2 ^ 16 = 0 then .ok (mk (w.toNat / 2 ^ 8 % 256)) else .error .reservedI := by
  simp [decodeWord, h]

theorem decodeWord_unlisted {w : Word} (h : opcodeMap.lookup (w.toNat % 256) = none) :
    decodeWord w = .error .opcode := by
  simp [decodeWord, h]

/-- The bytes of a well-formed command's word, for every command at once. -/
theorem encode_bytes {i : Instr} (hi : i.WellFormed) :
    (encode i).toNat % 256 = opcodeOf i ∧ (encode i).toNat / 256 = i.imm8.getD 0 := by
  cases h : i.imm8 with
  | none => simpa [h] using Laws.EncodedOpcode.of_none h hi
  | some v => simpa [h] using Laws.EncodedOpcode.of_imm8 h hi

/-- Settles O4: the word's low byte finds the command's row, and the rest of the word is its operand. -/
theorem decodeEncode : Obligations.DecodeEncode := by
  intro i hi
  obtain ⟨hop, himm⟩ := encode_bytes hi
  rcases lookup_opcodeOf i with ⟨hnone, hrow⟩ | ⟨v, mk, hsome, rfl, hrow⟩
  · rw [hnone, Option.getD_none] at himm
    rw [decodeWord_formatN (hop ▸ hrow)]
    exact if_pos himm
  · have hv : v ≤ 255 := by simpa [Instr.WellFormed, hsome] using hi
    rw [hsome, Option.getD_some] at himm
    rw [decodeWord_formatI (hop ▸ hrow), if_pos (by omega)]
    congr 2
    omega

/-- Settles O5: the row that a word's opcode finds gives back its operand and its opcode, the word's two parts. -/
theorem encodeDecode : Obligations.EncodeDecode := by
  intro w i h
  have hw : ∀ {n}, n = w.toNat → BitVec.ofNat 32 n = w := by rintro _ rfl; exact trunc32_toNat w
  cases hrow : opcodeMap.lookup (w.toNat % 256) with
  | none => rw [decodeWord_unlisted hrow] at h; cases h
  | some row =>
    cases row with
    | n j =>
      obtain ⟨himm, hop, -⟩ := rowNames_of_lookup hrow
      rw [decodeWord_formatN hrow] at h
      split_ifs at h with h0
      cases h
      refine ⟨by simp [Instr.WellFormed, himm], ?_⟩
      simp only [encode, himm]
      exact hw (by omega)
    | i mk =>
      obtain ⟨hmk, -⟩ := rowNames_of_lookup hrow
      rw [decodeWord_formatI hrow] at h
      split_ifs at h with h0
      cases h
      obtain ⟨himm, hop⟩ := hmk (w.toNat / 2 ^ 8 % 256)
      refine ⟨?_, ?_⟩
      · rw [Instr.WellFormed, himm]
        simp only [Option.all_some, decide_eq_true_eq]
        omega
      simp only [encode, himm]
      exact hw (by omega)

/-! ### Illegal words -/

/-- A word is refused exactly in the three cases of R113: by its opcode's row, or for want of one. -/
theorem illegalWord_iff (w : Word) : IllegalWord w ↔ ∃ e, decodeWord w = .error e := by
  unfold IllegalWord
  cases hrow : opcodeMap.lookup (w.toNat % 256) with
  | none => simp [decodeWord_unlisted hrow, opcode_unlisted hrow]
  | some row =>
    cases row with
    | n j =>
      obtain ⟨-, -, hn, hi⟩ := rowNames_of_lookup hrow
      rw [decodeWord_formatN hrow]
      split_ifs <;> simp [hn, hi] <;> omega
    | i mk =>
      obtain ⟨-, hi, hn⟩ := rowNames_of_lookup hrow
      rw [decodeWord_formatI hrow]
      split_ifs <;> simp [hn, hi] <;> omega

/-- Settles O3: the cases of R113 are the decoder's, and the error of an accepted illegal word is all it leaves. -/
theorem illegalWords : Obligations.IllegalWords := by
  refine ⟨illegalWord_iff, .inl (by decide), fun s w hb he hw => ?_⟩
  obtain ⟨e, hdec⟩ := (illegalWord_iff w).mp hw
  have hrun := (writeCmd_accepted (w := w) hb (.inl he)).trans (runWord_error hdec s.accept)
  have hstate : s.accept.takeError ⟨.illegalCommand, w⟩ =
      { s with done := false, err := true, errCode := 0x60, errInfo := w } := by
    cases s
    cases hb
    rfl
  rw [← hstate]
  exact hrun

/-! ### A step of a command word -/

/-- Settles O6: each word is one row of the opcode map with its operand. -/
theorem decodedWords : Obligations.DecodedWords := by
  unfold Obligations.DecodedWords
  decide

theorem step_cons {s : State} {op : HostOp} {rest : List HostOp} (h : s.hostOps = op :: rest) :
    step s = hostStep op { s with hostOps := rest } := by
  simp [step, nextEvent, h]

theorem softResetWord_of_decode {w : Word} (h : decodeWord w = .ok .softReset) : w = softResetWord :=
  (encodeDecode w .softReset h).2.symm

/-- The oldest outstanding write is accepted and runs the command it decodes to. -/
theorem step_command {s : State} {w : Word} {rest : List HostOp} {i : Instr} (hop : s.hostOps = .writeReg 0x00 w :: rest)
    (hb : s.busy = false) (he : s.err = false ∨ i = .softReset) (hd : decodeWord w = .ok i) :
    step s = exec i { s with hostOps := rest, busy := true, done := false } := by
  have haccept : s.err = false ∨ w = softResetWord :=
    he.imp_right fun hi => softResetWord_of_decode (hd.trans (congrArg _ hi))
  calc step s = writeCmd w { s with hostOps := rest } := step_cons hop
    _ = runWord w _ := writeCmd_accepted hb haccept
    _ = exec i _ := runWord_ok hd _

/-- A table word that decodes is the command word of its low 32 bits. -/
theorem decodeWord_of_decodeTableWord {nbits w : Nat} {i : Instr} (h : decodeTableWord nbits w = some i) :
    decodeWord (trunc32 (w % 2 ^ nbits)) = .ok i := by
  unfold decodeTableWord at h
  split_ifs at h
  cases hd : decodeWord (BitVec.ofNat 32 (w % 2 ^ nbits)) with
  | error e => rw [hd] at h; cases h
  | ok j => rw [hd] at h; cases h; rfl

/-- Settles O1: the write at the head of the queue is a command word, written by the host or placed there by
`withFetchWord`. -/
theorem stepRunsDecodedCommand : Obligations.StepRunsDecodedCommand := by
  refine ⟨fun s w rest i hop hb he hd => step_command hop hb he hd, fun s nbits w i hb he hd => ?_⟩
  exact step_command (s := s.withFetchWord nbits w) rfl hb he (decodeWord_of_decodeTableWord hd)

end Sys2Proof.Machine
end

section
/-! What every step keeps: the canonical form of the memories, the flags, the legal registers and the bounds of the spaces
(10_state.md R35, R36, R44, 20_memory.md R80, R82, 41_bit_reader.md R140). -/

namespace Sys2Proof.Machine

/-! ### Vectors of memories -/

/-- A property of every memory of a vector after one of them is replaced. -/
theorem forall_vget_set {γ : Type} {n : Nat} {p : γ → Prop} {v : Vector γ n} {x : γ} (hv : ∀ k : Fin n, p v[k]) (hx : p x)
    (i : Fin n) : ∀ k : Fin n, p (v.set i x)[k] := by
  intro k
  by_cases hk : k = i
  · subst hk
    rwa [vget_set_self]
  · rw [vget_set_ne _ hk]
    exact hv k

theorem forall_vget_replicate {γ : Type} {n : Nat} {p : γ → Prop} {x : γ} (hx : p x) :
    ∀ k : Fin n, p (Vector.replicate n x)[k] := fun k => by
  rwa [vget_replicate]

/-! ### The canonical form -/

theorem State.MemWf.setElem {s : State} (h : s.MemWf) (sp : Space) (i : Nat) (v : Word) : (s.setElem sp i v).MemWf := by
  obtain ⟨hinp, hout, hpix, hent, hclmem, hcache, hsub, htab⟩ := h
  cases sp with
  | inp => exact ⟨Memory.write_wf hinp _ _, hout, hpix, hent, hclmem, hcache, hsub, htab⟩
  | out => exact ⟨hinp, Memory.write_wf hout _ _, hpix, hent, hclmem, hcache, hsub, htab⟩
  | pix => exact ⟨hinp, hout, Memory.write_wf hpix _ _, hent, hclmem, hcache, hsub, htab⟩
  | sub k => exact ⟨hinp, hout, hpix, hent, hclmem, hcache, forall_vget_set hsub (Memory.write_wf (hsub k) _ _) k, htab⟩
  | ent => exact ⟨hinp, hout, hpix, Memory.write_wf hent _ _, hclmem, hcache, hsub, htab⟩
  | clmem => exact ⟨hinp, hout, hpix, hent, Memory.write_wf hclmem _ _, hcache, hsub, htab⟩
  | tab t => exact ⟨hinp, hout, hpix, hent, hclmem, hcache, hsub, forall_vget_set htab (Memory.write_wf (htab t) _ _) t⟩
  | cache => exact ⟨hinp, hout, hpix, hent, hclmem, Memory.write_wf hcache _ _, hsub, htab⟩

theorem State.MemWf.writeReg {s : State} (h : s.MemWf) (offset : Nat) (v : Word) : (s.writeReg offset v).MemWf := by
  unfold State.writeReg
  split <;> exact h

theorem State.MemWf.softReset {s : State} (h : s.MemWf) : s.softReset.MemWf := by
  obtain ⟨hinp, hout, hpix, hent, hclmem, -, hsub, htab⟩ := h
  exact ⟨hinp, hout, hpix, hent, hclmem, Memory.cleared_wf, hsub, htab⟩

theorem State.hardReset_memWf (s : State) : s.hardReset.MemWf :=
  ⟨Memory.unspecified_wf _, Memory.unspecified_wf _, Memory.unspecified_wf _, Memory.unspecified_wf _,
    Memory.unspecified_wf _, Memory.cleared_wf, forall_vget_replicate (Memory.unspecified_wf _),
    forall_vget_replicate (Memory.unspecified_wf _)⟩

/-- A property of the state that no change of a STATUS bit, of the error registers or of the queue touches. -/
structure StatusBlind (P : State → Prop) : Prop where
  stage     : Stageless P
  accept    : ∀ s, P s → P s.accept
  complete  : ∀ s, P s → P s.complete
  takeError : ∀ s e, P s → P (s.takeError e)
  hostOps   : ∀ s r, P s → P { s with hostOps := r }

/-- A property that the primitive changes of every command keep, and SOFT_RESET, is kept by every command. -/
theorem StatusBlind.exec {P : State → Prop} (B : StatusBlind P) (C : ∀ W, Closed W P) (hreset : ∀ s, P s → P s.softReset)
    {i : Instr} {s t : State} (hs : P s) (ht : exec i s = .next t) : P t := by
  by_cases hi : i = .softReset
  · subst hi
    cases (exec_softReset s).symm.trans ht
    exact B.complete _ (hreset _ (B.stage _ _ hs))
  · exact (C (writtenRegions i)).exec B.stage B.complete B.takeError i hi (fun _ hr => hr) hs ht

/-- Such a property that also the host's writes and the resets keep is kept by every step. -/
theorem StatusBlind.step {P : State → Prop} (B : StatusBlind P) (C : ∀ W, Closed W P) (hreset : ∀ s, P s → P s.softReset)
    (hreg : ∀ s o v, P s → P (s.writeReg o v))
    (helem : ∀ s sp i v, P s → hostWritable sp = true → i < s.spaceCount sp → P (s.setElem sp i v))
    (hhard : ∀ s, P s → P s.hardReset) : ∀ s t, P s → step s = .next t → P t :=
  step_keeps B.hostOps B.accept hreg (hostWriteElem_keeps helem) hhard (fun s e hs _ => B.takeError s e hs)
    fun _ _ _ hs _ ht => B.exec C hreset hs ht

theorem memWf_statusBlind : StatusBlind State.MemWf :=
  ⟨fun _ _ h => h, fun _ h => h, fun _ h => h, fun _ _ h => h, fun _ _ h => h⟩

theorem State.MemWf.exec {i : Instr} {s t : State} (hs : s.MemWf) (ht : exec i s = .next t) : t.MemWf :=
  memWf_statusBlind.exec closed_memWf (fun _ h => h.softReset) hs ht

/-- Settles O15: commands keep the canonical form by their primitive changes, and so do the host's writes and the resets. -/
theorem stepKeepsMemWf : Obligations.StepKeepsMemWf :=
  memWf_statusBlind.step closed_memWf (fun _ h => h.softReset) (fun _ _ _ h => h.writeReg _ _)
    (fun _ _ _ _ h _ _ => h.setElem _ _ _) fun s _ => s.hardReset_memWf

/-! ### Legal registers -/

theorem regsLegal_statusBlind : StatusBlind State.RegsLegal :=
  ⟨fun _ _ h => h, fun _ h => h, fun _ h => h, fun _ _ h => h, fun _ _ h => h⟩

theorem State.RegsLegal.congr {s t : State} (h : s.RegsLegal) (hcc : t.ccBits = s.ccBits) (hstart : t.brStart = s.brStart)
    (hpos : t.pos = s.pos) : t.RegsLegal := by
  unfold State.RegsLegal
  rw [hcc, hstart, hpos]
  exact h

theorem State.RegsLegal.writeReg {s : State} (h : s.RegsLegal) (offset : Nat) (v : Word) :
    (s.writeReg offset v).RegsLegal := by
  unfold State.writeReg
  split <;> exact h

theorem State.RegsLegal.setElem {s : State} (h : s.RegsLegal) (sp : Space) (i : Nat) (v : Word) :
    (s.setElem sp i v).RegsLegal := by
  cases sp <;> exact h

/-- At reset the cache is disabled and the reader stands at byte 0. -/
theorem regsLegal_of_zero {s : State} (hcc : s.ccBits = 0) (hstart : s.brStart = 0) : s.RegsLegal := by
  simp [State.RegsLegal, hcc, hstart]

/-- Settles O17: commands keep the registers legal by their primitive changes, no other write of the host reaches them, and
the resets clear them. -/
theorem stepKeepsRegsLegal : Obligations.StepKeepsRegsLegal :=
  regsLegal_statusBlind.step closed_regs (fun _ _ => regsLegal_of_zero rfl rfl) (fun _ _ _ h => h.writeReg _ _)
    (fun _ _ _ _ h _ _ => h.setElem _ _ _) fun _ _ => regsLegal_of_zero rfl rfl

/-! ### Bounds of the spaces -/

theorem below_empty {w : Nat} (bg : Background) (n : Nat) : (⟨bg, []⟩ : Memory w).Below n := fun _ hc => nomatch hc

theorem State.InBounds.setElem {s : State} (h : s.InBounds) {sp : Space} {i : Nat} (hi : i < s.spaceCount sp) (v : Word) :
    (s.setElem sp i v).InBounds := by
  obtain ⟨hcc, hinp, hout, hpix, hent, hclmem, hcache, hsub, htab⟩ := h
  cases sp with
  | inp => exact ⟨hcc, below_write hinp hi _, hout, hpix, hent, hclmem, hcache, hsub, htab⟩
  | out => exact ⟨hcc, hinp, below_write hout hi _, hpix, hent, hclmem, hcache, hsub, htab⟩
  | pix => exact ⟨hcc, hinp, hout, below_write hpix hi _, hent, hclmem, hcache, hsub, htab⟩
  | sub k =>
    exact ⟨hcc, hinp, hout, hpix, hent, hclmem, hcache,
      forall_vget_set (p := fun m => Memory.Below m s.params.subCapacity) hsub (below_write (hsub k) hi _) k, htab⟩
  | ent => exact ⟨hcc, hinp, hout, hpix, below_write hent hi _, hclmem, hcache, hsub, htab⟩
  | clmem => exact ⟨hcc, hinp, hout, hpix, hent, below_write hclmem hi _, hcache, hsub, htab⟩
  | tab t =>
    exact ⟨hcc, hinp, hout, hpix, hent, hclmem, hcache, hsub,
      forall_vget_set (p := fun m => Memory.Below m Config.tableEntries) htab (below_write (htab t) hi _) t⟩
  | cache => exact ⟨hcc, hinp, hout, hpix, hent, hclmem, below_write hcache hi _, hsub, htab⟩

theorem inBounds_statusBlind : StatusBlind State.InBounds :=
  ⟨fun _ _ h => h, fun _ h => h, fun _ h => h, fun _ _ h => h, fun _ _ h => h⟩

theorem State.InBounds.writeReg {s : State} (h : s.InBounds) (offset : Nat) (v : Word) :
    (s.writeReg offset v).InBounds := by
  unfold State.writeReg
  split <;> exact h

theorem State.InBounds.softReset {s : State} (h : s.InBounds) : s.softReset.InBounds := by
  obtain ⟨-, hinp, hout, hpix, hent, hclmem, -, hsub, htab⟩ := h
  exact ⟨Nat.zero_le _, hinp, hout, hpix, hent, hclmem, below_empty _ _, hsub, htab⟩

theorem State.hardReset_inBounds (s : State) : s.hardReset.InBounds :=
  ⟨Nat.zero_le _, below_empty _ _, below_empty _ _, below_empty _ _, below_empty _ _, below_empty _ _, below_empty _ _,
    forall_vget_replicate (p := fun m => Memory.Below m s.params.subCapacity) (below_empty _ _),
    forall_vget_replicate (p := fun m => Memory.Below m Config.tableEntries) (below_empty _ _)⟩

/-- Settles O18: commands write inside the spaces by their primitive changes, and the host's writes outside are ignored. -/
theorem stepKeepsInBounds : Obligations.StepKeepsInBounds :=
  inBounds_statusBlind.step closed_inBounds (fun _ h => h.softReset) (fun _ _ _ h => h.writeReg _ _)
    (fun _ _ _ _ h _ hi => h.setElem hi _) fun s _ => s.hardReset_inBounds

/-! ### The flags -/

/-- Between acceptance and the end of a command: DONE cleared, and the error registers in agreement. -/
def State.Accepted (s : State) : Prop :=
  s.done = false ∧ (s.err = false → s.errCode = 0 ∧ s.errInfo = 0) ∧ (s.err = true → ∃ k : ErrKind, s.errCode = k.code)

theorem State.FlagsAgree.accept {s : State} (h : s.FlagsAgree) : s.accept.Accepted := by
  obtain ⟨-, -, hclean, herr⟩ := h
  exact ⟨rfl, hclean, herr⟩

theorem State.flagsAgree_takeError (s : State) (e : Trap) : (s.takeError e).FlagsAgree :=
  ⟨rfl, fun _ => rfl, fun h => absurd h Bool.noConfusion, fun _ => ⟨e.kind, rfl⟩⟩

/-- Every command ends with the flags in agreement, by its two endings (R36); with ERR = 1 only SOFT_RESET runs (R35). -/
theorem State.Accepted.exec {i : Instr} {s t : State} (hs : s.Accepted) (hi : s.err = true → i = .softReset)
    (ht : exec i s = .next t) : t.FlagsAgree := by
  obtain ⟨-, hclean, -⟩ := hs
  obtain ⟨t', ht', hbusy, hzero, hend⟩ := commandOutcome i s
  cases ht'.symm.trans ht
  have herr : t.done = true → t.err = false := by
    intro hdone
    rcases hend with ⟨-, hplain, hreset⟩ | ⟨hnot, -⟩
    · by_cases hsr : i = .softReset
      · exact (hreset hsr).1
      · rw [(hplain hsr).1]
        exact Bool.eq_false_iff.mpr fun h => hsr (hi h)
    · rw [hnot] at hdone
      cases hdone
  refine ⟨hbusy, fun he => ?_, hzero hclean, fun he => ?_⟩
  · by_contra hdone
    rw [herr (Bool.not_eq_false _ ▸ hdone)] at he
    cases he
  · rcases hend with ⟨hdone, -⟩ | ⟨-, -, hcode⟩
    · rw [herr hdone] at he
      cases he
    · exact hcode

theorem State.FlagsAgree.writeReg {s : State} (h : s.FlagsAgree) (offset : Nat) (v : Word) :
    (s.writeReg offset v).FlagsAgree := by
  unfold State.writeReg
  split <;> exact h

theorem State.FlagsAgree.setElem {s : State} (h : s.FlagsAgree) (sp : Space) (i : Nat) (v : Word) :
    (s.setElem sp i v).FlagsAgree := by
  cases sp <;> exact h

theorem State.hardReset_flagsAgree (s : State) : s.hardReset.FlagsAgree :=
  ⟨rfl, fun _ => rfl, fun _ => ⟨rfl, rfl⟩, fun h => nomatch h⟩

/-- Settles O16: acceptance, the two endings of a command and the resets set the flags together; no other write of the host
touches them. -/
theorem stepKeepsFlagsAgree : Obligations.StepKeepsFlagsAgree :=
  step_keeps (A := State.Accepted) (fun _ _ h => h) (fun _ h => h.accept) (fun _ _ _ h => h.writeReg _ _)
    (hostWriteElem_keeps fun _ _ _ _ h _ _ => h.setElem _ _ _) (fun s _ => s.hardReset_flagsAgree)
    (fun s e _ _ => s.flagsAgree_takeError e) fun _ _ _ hs hi ht => hs.exec hi ht

/-! ### A step always answers -/

theorem writeCmd_next (w : Word) (s : State) : ∃ t, writeCmd w s = .next t := by
  unfold writeCmd
  split_ifs
  · exact ⟨_, rfl⟩
  · exact ⟨_, rfl⟩
  · cases hd : decodeWord w with
    | ok i =>
      obtain ⟨t, ht, -⟩ := commandOutcome i s.accept
      exact ⟨t, (runWord_ok hd _).trans ht⟩
    | error e => exact ⟨_, runWord_error hd _⟩

theorem hostStep_next (op : HostOp) (s : State) : ∃ t, hostStep op s = .next t := by
  cases op with
  | writeReg offset v =>
    by_cases h : offset = cmdOffset
    · subst h
      exact writeCmd_next v s
    · exact ⟨_, if_neg h⟩
  | writeElem sp i v => exact ⟨_, rfl⟩
  | writeWide sp j v => exact ⟨_, rfl⟩
  | hardReset => exact ⟨_, rfl⟩

theorem step_idle {s : State} (hb : s.busy = false) (hops : s.hostOps = []) : step s = .next s := by
  simp [step, nextEvent, hops, hb]

/-- Settles O20: every write of the host answers a next state, and an idle block with none outstanding keeps its state. -/
theorem stepNeverStops : Obligations.StepNeverStops := by
  intro s hb
  cases hops : s.hostOps with
  | nil => exact ⟨s, step_idle hb hops⟩
  | cons op rest => exact step_cons hops ▸ hostStep_next op _

/-! ### A busy and an idle block -/

theorem hostStep_busy {s : State} (hb : s.busy = true) {op : HostOp} (hop : op ≠ .hardReset) : hostStep op s = .next s := by
  cases op with
  | writeReg offset v => simp [hostStep, writeCmd, hb]
  | writeElem sp i v => simp [hostStep, hb]
  | writeWide sp j v => simp [hostStep, hb]
  | hardReset => exact absurd rfl hop

/-- Settles O11: every write of the host tests BUSY first, STATUS is read whatever BUSY is, and a step without a write is
none. -/
theorem busyAndIdle : Obligations.BusyAndIdle := by
  refine ⟨fun op s hb hop => ⟨hostStep_busy hb hop, ?_, ?_⟩, fun s hb hops => step_idle hb hops⟩
  · simp [State.hostReadReg]
  · have hbit : s.statusWord.getLsbD 0 = s.busy := s.statusWord_bits.1
    simpa [State.hostReadReg, State.regWord, hb] using hbit

end Sys2Proof.Machine
end

section
/-! The errors R363 calls unreachable: each command's body raises none of them over complete tables, so no step records one
(42_huffman.md R174, 43_code_lengths.md R194, 60_exceptions.md R363). -/

namespace Sys2Proof.Machine

/-- The errors a command can end in: the kinds of R360 but the four of R363. -/
def reachableErrors : List ErrKind :=
  [.badSignature, .unsupportedVersion, .truncatedHeader, .codeLengthTooLong, .emptyAlphabet, .overSubscribed,
    .underSubscribed, .oversizedMetaAlphabet, .repeatOverflow, .tableNotBuilt, .invalidBitCount, .readPastEnd,
    .lzDistanceRange, .lzLengthRange, .lzHistory, .lzBounds, .invalidPrefixCode, .cacheIndexRange, .invalidCacheBits,
    .missingPayload, .paletteIndexRange, .paletteNotInvertible, .invalidPredictorMode, .transformRepeated,
    .illegalCommand, .argumentRange, .capacityExceeded]

/-- The part of `NoImpossibleError` that speaks of ERR_CODE. -/
def PossibleCode (c : BitVec 8) : Prop :=
  c ≠ ErrKind.badDimensions.code ∧ c ≠ ErrKind.invalidCode.code ∧ c ≠ ErrKind.invalidCodeLengthSymbol.code ∧
    c ≠ ErrKind.tooManyColors.code

theorem possibleCode_of_reachable : ∀ k ∈ reachableErrors, PossibleCode k.code := by
  unfold PossibleCode
  decide

theorem possibleCode_zero : PossibleCode 0 := by
  unfold PossibleCode
  decide

theorem noImpossibleError_iff (s : State) : s.NoImpossibleError ↔ TablesComplete s ∧ PossibleCode s.errCode := Iff.rfl

/-! ### The shared checks and passes -/

section

variable {P : State → Prop}

/-- A piece of a command that, from `P`, raises reachable errors only. -/
def Reaches {α : Type} (P : State → Prop) (x : Cmd α) : Prop :=
  Hoare P x (fun _ _ => True) fun e _ => e.kind ∈ reachableErrors

theorem Does.reaches {α : Type} {x : Cmd α} {Q : α → Prop} {S : List ErrKind} (h : Does P x Q S)
    (hS : ∀ k ∈ S, k ∈ reachableErrors) : Reaches P x :=
  h.conseq (fun _ hs => hs) (fun _ _ _ => trivial) fun e _ he => hS e.kind he.2

theorem does_inputCheck : Does P inputCheck (fun _ => True) reachableErrors := by
  intro s hs
  rw [inputCheck_apply]
  split_ifs
  · exact ⟨hs, by simp [reachableErrors]⟩
  · exact ⟨hs, trivial⟩

theorem does_imageCheck : Does P imageCheck (fun _ => True) reachableErrors := by
  intro s hs
  rw [imageCheck_apply]
  split_ifs
  · exact ⟨hs, by simp [reachableErrors]⟩
  · exact ⟨hs, by simp [reachableErrors]⟩
  · exact ⟨hs, by simp [reachableErrors]⟩
  · exact ⟨hs, trivial⟩

theorem does_xfCheck (k : Nat) (ty : XfType) : Does P (xfCheck k ty) (fun _ => True) reachableErrors := by
  intro s hs
  by_cases hok : s.XfOk k ty
  · rw [xfCheck_ok hok]
    exact ⟨hs, trivial⟩
  · obtain ⟨e, he, info, hrun⟩ := xfCheck_fails hok
    have hsub : ∀ e ∈ [ErrKind.argumentRange, .missingPayload, .capacityExceeded], e ∈ reachableErrors := by decide
    rw [hrun]
    exact ⟨hs, hsub e he⟩

theorem pixClosed_true : PixClosed fun _ => True := fun _ _ _ _ => trivial

theorem chainErrors_reachable : chainErrors ⊆ reachableErrors := by decide

theorem does_chainCheck (k : Nat) : Does P (chainCheck k) (fun _ => True) reachableErrors :=
  Does.bind (does_readState (Q := fun _ => True) fun _ _ => trivial) fun ty _ => does_xfCheck k ty

theorem does_invChain (C : PixClosed P) : Does P invChain (fun _ => True) reachableErrors :=
  Does.bind (does_readState (Q := fun _ => True) fun _ _ => trivial) fun count _ =>
    Does.bind (does_raiseIf (by decide)) fun _ _ =>
      Does.bind (does_forRange count 0 fun k _ _ => does_chainCheck k) fun _ _ =>
        (does_undoTransforms C count).mono (fun _ h => h) chainErrors_reachable

/-- A pass that changes the state pixel by pixel raises nothing. -/
theorem does_pass (f : Nat → State → State) :
    Does (fun _ => True) (do let n ← readState State.npix; forRange (fun i => update (f i)) n 0) (fun _ => True)
      reachableErrors :=
  Does.bind (does_readState (Q := fun _ => True) fun _ _ => trivial) fun n _ =>
    does_forRange n 0 fun _ _ _ => does_update fun _ _ => trivial

/-- A pass behind XfCheck (47_transforms.md R280). -/
theorem reaches_checkedUndo (k : Nat) (ty : XfType) {pass : Cmd Unit} {Q : Unit → Prop} {S : List ErrKind}
    (h : Does (fun _ => True) pass Q S) (hS : S ⊆ reachableErrors) : Reaches (fun _ => True) (checkedUndo k ty pass) :=
  (Does.bind (does_xfCheck k ty) fun _ _ => h.mono (Q' := Q) (fun _ hq => hq) hS).reaches fun _ hk => hk

/-- A read behind the input check, its value in RES0. -/
theorem reaches_checkedRead {x : Cmd Nat} (h : Reaches P x) : Reaches P (checkedRead x) :=
  Hoare.bind (does_inputCheck (P := P) |>.conseq (fun _ hs => hs) (fun _ _ hs => hs.1) fun _ _ he => he.2) fun _ =>
    h.bind fun _ => hoare_update fun _ _ => trivial

theorem reaches_readBits (n : Nat) : Reaches P (readBits n) := by
  intro s _
  rw [readBits_apply]
  split_ifs
  · simp [reachableErrors]
  · simp [reachableErrors]
  · trivial

end

/-! ### The commands -/

theorem treeClosed_true (T : Fin 7 → Prop) : TreeClosed T fun _ => True :=
  ⟨fun _ _ _ _ _ => trivial, fun _ _ _ _ => trivial, fun _ _ => trivial, fun _ _ _ _ => trivial,
    fun _ _ _ _ => trivial, fun _ _ _ _ => trivial, fun _ _ _ _ _ _ => trivial⟩

theorem reaches_brInitBody : Reaches (fun _ => True) brInitBody :=
  (Does.bind does_inputCheck fun _ _ => Does.bind (does_readState (Q := fun _ => True) fun _ _ => trivial) fun _ _ =>
    Does.bind (does_readState (Q := fun _ => True) fun _ _ => trivial) fun _ _ =>
      Does.bind (does_raiseIf (by decide)) fun _ _ => does_update fun _ _ => trivial).reaches fun _ hk => hk

theorem reaches_build (t : Fin 7) (L : List Byte) : Reaches (fun _ => True) (build t L) := by
  refine hoare_build t L (fun _ _ _ => trivial) fun e info he _ _ => ?_
  rcases buildError_kind he with ⟨rfl, -⟩ | rfl | rfl | rfl <;> simp [reachableErrors]

theorem reaches_hufBuildBody (slot : Nat) : Reaches (fun _ => True) (hufBuildBody slot) :=
  hoare_raiseIf (Q := fun _ _ => True) (fun _ _ _ => by simp [reachableErrors]) (fun _ _ _ => trivial)
    |>.bind fun _ => Hoare.bind (R := fun _ _ => True) (hoare_readState fun _ _ => trivial) fun _ =>
      (hoare_raiseIf (Q := fun _ _ => True) (fun _ _ _ => by simp [reachableErrors]) fun _ _ _ => trivial).bind
        fun _ => Hoare.bind (R := fun _ _ => True) (hoare_readState fun _ _ => trivial) fun L => reaches_build _ L

/-- A decode from a complete table finds a symbol or meets the end of the input (42_huffman.md R174). -/
theorem reaches_decodeSym (t : Fin 7) : Reaches (fun s => s.TableComplete t) (decodeSym t) := by
  intro s hs
  rcases decodeSym_complete hs with ⟨j, k, -, -, -, hrun⟩ | hrun
  · rw [hrun]
    trivial
  · rw [hrun]
    simp [reachableErrors]

theorem reaches_hufDecodeBody (slot : Nat) : Reaches TablesComplete (hufDecodeBody slot) := by
  intro s hs
  by_cases h : slot ≤ 6
  · rw [hufDecodeBody_apply h]
    split_ifs with hv
    · exact reaches_checkedRead (reaches_decodeSym (slotOf slot)) s (hs _ hv)
    · simp [reachableErrors]
  · have hrun : hufDecodeBody slot s = .error ⟨.argumentRange, trunc32 slot⟩ s :=
      cmd_bind_of_error (raiseIf_of (by omega) _ _ s)
    rw [hrun]
    simp [reachableErrors]

theorem reaches_clReadBody : Reaches State.MemWf clReadBody := by
  have lengths (n : Nat) : Reaches State.MemWf (readCodeLengths n) :=
    (hoare_readCodeLengths (treeClosed_true fun _ => True) trivial n).conseq
      (fun s hm => ⟨trivial, hm.2.2.2.2.1⟩) (fun _ _ _ => trivial)
      fun e _ he => (by decide : treeErrors ⊆ reachableErrors) he.2
  refine Hoare.bind (R := fun _ => State.MemWf) (hoare_readState fun _ hm => hm) fun n => ?_
  refine Hoare.bind (R := fun _ => State.MemWf)
    (hoare_raiseIf (fun _ _ _ => by simp [reachableErrors]) fun _ hm _ => hm) fun _ => ?_
  exact Hoare.bind (R := fun _ => State.MemWf)
    (does_inputCheck.conseq (fun _ hs => hs) (fun _ _ hs => hs.1) fun _ _ he => he.2) fun _ => lengths n

theorem reaches_cacheInit (bits : Nat) : Reaches (fun _ => True) (cacheInit bits) :=
  (Does.bind (does_raiseIf (by decide)) fun _ _ => does_update fun _ _ => trivial).reaches fun _ hk => hk

theorem reaches_ccGetBody : Reaches (fun _ => True) ccGetBody := by
  intro s _
  rw [ccGetBody_apply]
  split_ifs
  · simp [reachableErrors]
  · trivial

theorem reaches_lzPrefixBody (c : Nat) : Reaches (fun _ => True) (lzPrefixBody c) := by
  by_cases hc : 39 < c
  · intro s _
    have hrun : lzPrefixBody c s = .error ⟨.invalidPrefixCode, trunc32 c⟩ s := cmd_bind_of_error (raiseIf_of hc _ _ s)
    rw [hrun]
    simp [reachableErrors]
  · have hread := reaches_checkedRead
      ((does_prefixValue (P := fun _ => True) (c := c) (fun _ _ _ _ _ => trivial) (by omega)).reaches
        (by decide : ∀ k ∈ streamErrors, k ∈ reachableErrors))
    intro s _
    rw [show lzPrefixBody c s = checkedRead (prefixValue c) s from cmd_bind_of_ok (raiseIf_of_not hc _ _ s)]
    exact hread s trivial

theorem reaches_lzCopyBody : Reaches (fun _ => True) lzCopyBody := by
  have copy (s : State) (buf : Space) (pos dist len size : Nat) (ins : Bool) :
      Reaches (fun _ => True) (lzCopy buf pos dist len size ins) := by
    intro s _
    rw [lzCopy_apply]
    split_ifs
    · simp [reachableErrors]
    · simp [reachableErrors]
    · simp [reachableErrors]
    · simp [reachableErrors]
    · trivial
  refine Hoare.bind (R := fun _ _ => True)
    (does_imageCheck.conseq (fun _ hs => hs) (fun _ _ _ => trivial) fun _ _ he => he.2) fun _ => ?_
  exact Hoare.bind (R := fun _ _ => True) (hoare_readState fun _ _ => trivial) fun s => copy s _ _ _ _ _ _

theorem reaches_predBody (mode : Nat) : Reaches (fun _ => True) (predBody mode) := by
  refine Hoare.bind (R := fun _ _ => True) (hoare_readState fun _ _ => trivial) fun s => ?_
  refine Hoare.bind (R := fun _ _ => True) ?_ fun p => hoare_update fun _ _ => trivial
  intro u _
  rw [predict_apply]
  cases predictPix u.params.mode0Black mode s.a0 s.a1 s.a2 s.a3 with
  | some p => trivial
  | none => simp [reachableErrors]

theorem reaches_hdrParseBody : Reaches (fun _ => True) hdrParseBody := by
  intro s _
  by_cases hi : s.InputOk
  · rw [hdrParseBody_of_inputOk hi, cmd_bind_apply, parseHeader_atHeader]
    split_ifs
    · simp [reachableErrors]
    · simp [reachableErrors]
    · simp [reachableErrors]
    · simp [reachableErrors]
    · trivial
  · rw [hdrParseBody_badInput hi]
    simp [reachableErrors]

theorem decodeErrors_reachable (st : Stage) : ∀ k ∈ decodeErrors st, k ∈ reachableErrors := by
  cases st <;> decide

theorem reaches_decodeBody : Reaches State.MemWf decodeBody :=
  hoare_decodeBody.conseq (fun _ hs => hs) (fun _ _ _ => trivial) fun e s he => decodeErrors_reachable s.stage e.kind he

theorem reaches_rgbaConvertBody : Reaches (fun _ => True) rgbaConvertBody :=
  (Does.bind does_imageCheck fun _ _ => does_pass fun i s => s.convertPixel i).reaches fun _ hk => hk

/-- An ending of a command: DONE, or an error R363 does not rule out. -/
def EndsReachably (t : State) : Prop := t.done = true ∨ PossibleCode t.errCode

theorem Reaches.finish {P : State → Prop} {body : Cmd Unit} (h : Reaches P body) {s t : State} (hs : P s)
    (ht : Machine.finish (body s) = .next t) : EndsReachably t := by
  rcases Hoare.finish h hs ht with ⟨u, -, rfl⟩ | ⟨e, u, he, rfl⟩
  · exact .inl rfl
  · exact .inr (possibleCode_of_reachable _ he)

/-- Over memories in canonical form and complete tables every command ends reachably. -/
theorem exec_endsReachably {i : Instr} {s t : State} (hm : s.MemWf) (htab : TablesComplete s) (ht : exec i s = .next t) :
    EndsReachably t := by
  have plain {body : Cmd Unit} (h : Reaches (fun _ => True) body) (hrun : runCommand body s = .next t) :
      EndsReachably t := h.finish trivial hrun
  have completes {i : Instr} {u : State} (hu : exec i s = .next u.complete) (ht : exec i s = .next t) :
      EndsReachably t := by
    cases hu.symm.trans ht
    exact .inl rfl
  cases i with
  | nop => exact completes (exec_nop s) ht
  | softReset => exact completes (exec_softReset s) ht
  | brInit => exact plain reaches_brInitBody ht
  | brRead n => exact plain (reaches_checkedRead (reaches_readBits n)) ht
  | brHasdata => exact completes (exec_brHasdata s) ht
  | brTell => exact completes (exec_brTell s) ht
  | hufBuild slot => exact plain (reaches_hufBuildBody slot) ht
  | hufDecode slot => exact (reaches_hufDecodeBody slot).finish (s := s.atStage .none) htab ht
  | clRead => exact reaches_clReadBody.finish (s := s.atStage .none) hm ht
  | ccInit => exact plain (reaches_cacheInit s.a0.toNat) ht
  | ccHash => exact completes (exec_ccHash s) ht
  | ccInsert => exact completes (exec_ccInsert s) ht
  | ccGet => exact plain reaches_ccGetBody ht
  | lzPrefix c => exact plain (reaches_lzPrefixBody c) ht
  | lzCopy => exact plain reaches_lzCopyBody ht
  | pred m => exact plain (reaches_predBody m) ht
  | xfPredInv k =>
    exact plain (reaches_checkedUndo k _ (does_invPredictor pixClosed_true _) chainErrors_reachable) ht
  | xfColorInv k => exact plain (reaches_checkedUndo k _ (does_pass fun i s => s.invColorAt (descOf k) i) fun _ h => h) ht
  | xfSubgInv k => exact plain (reaches_checkedUndo k _ (does_pass fun i s => s.setPix i (addGreen (s.pixAt i))) fun _ h => h) ht
  | xfPalApply k => exact plain (reaches_checkedUndo k _ (does_palApply pixClosed_true _) chainErrors_reachable) ht
  | xfPalInvert k =>
    exact plain (reaches_checkedUndo k _ (does_raise (Q := fun _ => True) (by decide)) fun _ h => h) ht
  | xfChainInv => exact plain ((Does.bind does_imageCheck fun _ _ => does_invChain pixClosed_true).reaches fun _ h => h) ht
  | hdrParse => exact reaches_hdrParseBody.finish trivial ht
  | decode => exact reaches_decodeBody.finish hm ht
  | rgbaConvert => exact plain reaches_rgbaConvertBody ht

/-! ### The step -/

theorem tablesComplete_statusBlind : StatusBlind TablesComplete :=
  ⟨fun _ _ h => h, fun _ h => h, fun _ h => h, fun _ _ h => h, fun _ _ h => h⟩

/-- With no slot valid there is no table to be complete. -/
theorem tablesComplete_of_zero {s : State} (h : s.tabInfo = .replicate 7 .zero) : TablesComplete s := fun t ht => by
  rw [h, vget_replicate] at ht
  cases ht

theorem TablesComplete.exec {i : Instr} {s t : State} (hs : TablesComplete s) (ht : exec i s = .next t) :
    TablesComplete t :=
  tablesComplete_statusBlind.exec closed_tables (fun _ _ => tablesComplete_of_zero rfl) hs ht

/-- The host's writes do not reach a slot or ERR_CODE. -/
theorem State.NoImpossibleError.writeReg {s : State} (h : s.NoImpossibleError) (offset : Nat) (v : Word) :
    (s.writeReg offset v).NoImpossibleError := by
  unfold State.writeReg
  split <;> exact h

theorem State.NoImpossibleError.setElem {s : State} (h : s.NoImpossibleError) {sp : Space} (hsp : hostWritable sp = true)
    (i : Nat) (v : Word) : (s.setElem sp i v).NoImpossibleError := by
  cases sp with
  | inp | pix | sub | clmem => exact h
  | out | ent | tab | cache => cases hsp

/-- A command that completes keeps ERR_CODE or clears it, and one that fails records an error of the list. -/
theorem State.NoImpossibleError.exec {i : Instr} {s t : State} (hm : s.MemWf) (h : s.NoImpossibleError)
    (ht : exec i s = .next t) : t.NoImpossibleError := by
  obtain ⟨htab, hcode⟩ := (noImpossibleError_iff s).mp h
  refine (noImpossibleError_iff t).mpr ⟨htab.exec ht, ?_⟩
  rcases exec_endsReachably hm htab ht with hdone | hpossible
  · obtain ⟨t', ht', -, -, hend⟩ := commandOutcome i s
    cases ht'.symm.trans ht
    rcases hend with ⟨-, hplain, hreset⟩ | ⟨hnot, -⟩
    · by_cases hi : i = .softReset
      · rw [(hreset hi).2.1]
        exact possibleCode_zero
      · rw [(hplain hi).2.1]
        exact hcode
    · rw [hnot] at hdone
      cases hdone
  · exact hpossible

/-- A state with canonical memories in which nothing unreachable is recorded. -/
def State.Sound (s : State) : Prop := s.MemWf ∧ s.NoImpossibleError

theorem State.Sound.exec {i : Instr} {s t : State} (h : s.Sound) (ht : exec i s = .next t) : t.Sound :=
  ⟨h.1.exec ht, h.2.exec h.1 ht⟩

/-- The resets leave no valid slot and ERR_CODE 0. -/
theorem noImpossibleError_of_zero {s : State} (htab : s.tabInfo = .replicate 7 .zero) (hcode : s.errCode = 0) :
    s.NoImpossibleError :=
  (noImpossibleError_iff s).mpr ⟨tablesComplete_of_zero htab, hcode ▸ possibleCode_zero⟩

/-- Settles O19: commands keep valid tables complete and record reachable errors only, ILLEGAL_COMMAND is one of those, and
the host reaches neither a slot nor ERR_CODE. -/
theorem stepKeepsNoImpossibleError : Obligations.StepKeepsNoImpossibleError := by
  intro s t hm h ht
  have key := step_keeps (P := State.Sound) (A := State.Sound) (fun _ _ h => h) (fun _ h => h)
    (fun _ _ _ h => ⟨h.1.writeReg _ _, h.2.writeReg _ _⟩)
    (hostWriteElem_keeps fun _ _ _ _ h hsp _ => ⟨h.1.setElem _ _ _, h.2.setElem hsp _ _⟩)
    (fun s _ => ⟨s.hardReset_memWf, noImpossibleError_of_zero rfl rfl⟩)
    (fun s e h he => ⟨h.1, (noImpossibleError_iff _).mpr ⟨h.2.1, ?_⟩⟩) fun _ _ _ h _ ht => h.exec ht
  · exact (key s t ⟨hm, h⟩ ht).2
  · show PossibleCode e.kind.code
    rw [he]
    exact possibleCode_of_reachable _ (by decide)

/-- Settles O14: the reset state is a hardware reset's, which meets each invariant. -/
theorem resetMeetsInvariants : Obligations.ResetMeetsInvariants := by
  unfold Obligations.ResetMeetsInvariants
  rw [State.reset_eq_hardReset]
  exact ⟨State.hardReset_memWf _, State.hardReset_flagsAgree _, regsLegal_of_zero rfl rfl, State.hardReset_inBounds _,
    noImpossibleError_of_zero rfl rfl⟩

end Sys2Proof.Machine
end

section
/-! The memory port: element and 32-bit accesses of an idle block (20_memory.md R80, R82, R86, R92). -/

namespace Sys2Proof.Machine

/-! ### Registers the map does not have -/

theorem regWord_unmapped (s : State) {offset : Nat} (h : ¬ Mapped offset) : s.regWord offset = 0 := by
  unfold State.regWord
  split
  case h_32 => rfl
  all_goals exact absurd (by unfold Mapped; decide) h

theorem writableOffsets_mapped : ∀ offset ∈ writableOffsets, Mapped offset := by
  unfold Mapped
  decide

theorem writeReg_unmapped (s : State) {offset : Nat} (h : ¬ Mapped offset) (v : Word) : s.writeReg offset v = s :=
  s.writeReg_of_readOnly (fun hw => h (writableOffsets_mapped offset hw)) v

/-! ### One element -/

/-- A host write of an element is the block's write of it, or ignored (R82, R92). -/
theorem hostWriteElem_eq (s : State) (sp : Space) (i : Nat) (v : Word) :
    s.hostWriteElem sp i v = if hostWritable sp = true ∧ i < s.spaceCount sp then s.setElem sp i v else s := by
  simp [State.hostWriteElem]

theorem hostWriteElem_inside {s : State} {sp : Space} {i : Nat} (hw : hostWritable sp = true) (hi : i < s.spaceCount sp)
    (v : Word) : s.hostWriteElem sp i v = s.setElem sp i v := by
  rw [hostWriteElem_eq, if_pos ⟨hw, hi⟩]

theorem hostWriteElem_ignored {s : State} {sp : Space} {i : Nat} (h : hostWritable sp = false ∨ s.spaceCount sp ≤ i)
    (v : Word) : s.hostWriteElem sp i v = s := by
  rw [hostWriteElem_eq, if_neg]
  rintro ⟨hw, hi⟩
  rcases h with h | h
  · rw [hw] at h
    cases h
  · omega

/-- A block between commands with its memories in canonical form: every access of the host is served. -/
structure State.Served (s : State) : Prop where
  idle : s.busy = false
  mem  : s.MemWf

theorem State.Served.setElem {s : State} (h : s.Served) (sp : Space) (i : Nat) (v : Word) : (s.setElem sp i v).Served :=
  ⟨(s.setElem_busy sp i v).trans h.idle, h.mem.setElem sp i v⟩

theorem State.Served.hostWriteElem {s : State} (h : s.Served) (sp : Space) (i : Nat) (v : Word) :
    (s.hostWriteElem sp i v).Served := by
  rw [hostWriteElem_eq]
  split_ifs
  · exact h.setElem sp i v
  · exact h

theorem hostWriteElem_spaceCount (s : State) (sp : Space) (i : Nat) (v : Word) (sp' : Space) :
    (s.hostWriteElem sp i v).spaceCount sp' = s.spaceCount sp' := by
  rw [hostWriteElem_eq]
  split_ifs
  · exact State.spaceCount_congr (s.setElem_params sp i v) sp'
  · rfl

theorem hostReadElem_served {s : State} (h : s.Served) (sp : Space) (i : Nat) :
    s.hostReadElem sp i = if i < s.spaceCount sp then s.elem sp i else 0 := by
  simp [State.hostReadElem, h.idle]

theorem hostReadElem_outside {s : State} (h : s.Served) {sp : Space} {i : Nat} (hi : s.spaceCount sp ≤ i) :
    s.hostReadElem sp i = 0 := by
  rw [hostReadElem_served h, if_neg (Nat.not_lt.mpr hi)]

/-- A write leaves every other element as the host reads it. -/
theorem hostReadElem_hostWriteElem_ne {s : State} (h : s.Served) {sp sp' : Space} {i j : Nat} (hne : ¬ (sp' = sp ∧ j = i))
    (v : Word) : (s.hostWriteElem sp i v).hostReadElem sp' j = s.hostReadElem sp' j := by
  rw [hostReadElem_served (h.hostWriteElem sp i v), hostReadElem_served h, hostWriteElem_spaceCount, hostWriteElem_eq]
  split_ifs
  · exact s.elem_setElem_ne hne v
  · rfl
  · rfl

/-- A write inside the space reads back as the space holds it. -/
theorem hostReadElem_hostWriteElem_self {s : State} (h : s.Served) {sp : Space} {i : Nat} (hw : hostWritable sp = true)
    (hi : i < s.spaceCount sp) (v : Word) :
    (s.hostWriteElem sp i v).hostReadElem sp i = (s.setElem sp i v).elem sp i := by
  rw [hostReadElem_served (h.hostWriteElem sp i v), hostWriteElem_spaceCount, if_pos hi, hostWriteElem_inside hw hi]

/-- The spaces the host may write hold bytes or words: what a write leaves of its word. -/
theorem elem_setElem_byte {s : State} (hm : s.MemWf) {sp : Space} (hsp : sp ∈ [Space.inp, .clmem]) (i : Nat) (v : Word) :
    (s.setElem sp i v).elem sp i = v &&& 0xFF#32 := by
  obtain ⟨hinp, -, -, -, hclmem, -⟩ := hm
  simp only [List.mem_cons, List.not_mem_nil, or_false] at hsp
  rcases hsp with rfl | rfl
  · rw [State.elem_setElem_inp hinp, setWidth_byte]
  · rw [State.elem_setElem_clmem hclmem, setWidth_byte]

theorem elem_setElem_word {s : State} (hm : s.MemWf) {sp : Space}
    (hsp : sp ∈ [Space.pix, .sub 0, .sub 1, .sub 2, .sub 3]) (i : Nat) (v : Word) : (s.setElem sp i v).elem sp i = v := by
  obtain ⟨-, -, hpix, -, -, -, hsub, -⟩ := hm
  simp only [List.mem_cons, List.not_mem_nil, or_false] at hsp
  rcases hsp with rfl | rfl | rfl | rfl | rfl
  · exact State.elem_setElem_pix hpix i v
  · exact State.elem_setElem_sub (hsub 0) i v
  · exact State.elem_setElem_sub (hsub 1) i v
  · exact State.elem_setElem_sub (hsub 2) i v
  · exact State.elem_setElem_sub (hsub 3) i v

theorem hostWritable_iff (sp : Space) :
    hostWritable sp = true ↔ sp ∈ [Space.inp, .clmem, .pix, .sub 0, .sub 1, .sub 2, .sub 3] := by
  cases sp with
  | sub k => revert k; decide
  | inp | out | pix | ent | clmem | cache => decide
  | tab t => revert t; decide

theorem hostWriteElem_regWord (s : State) (sp : Space) (i : Nat) (v : Word) (offset : Nat) :
    (s.hostWriteElem sp i v).regWord offset = s.regWord offset := by
  rw [hostWriteElem_eq]
  split_ifs
  · exact s.setElem_regWord sp i v offset
  · rfl

/-- Settles O9: a write inside a writable space is the block's write of the element, and any other is ignored. -/
theorem memoryPort : Obligations.MemoryPort := by
  intro s sp i v hb hm
  have h : s.Served := ⟨hb, hm⟩
  have bytes : ∀ sp ∈ [Space.inp, .clmem], hostWritable sp = true := by decide
  have words : ∀ sp ∈ [Space.pix, .sub 0, .sub 1, .sub 2, .sub 3], hostWritable sp = true := by decide
  refine ⟨hostStep_writeElem hb sp i v, fun hsp hi => ?_, fun hsp hi => ?_,
    fun sp' j hne => hostReadElem_hostWriteElem_ne h hne v, hostWriteElem_regWord s sp i v,
    fun hi => ⟨hostReadElem_outside h hi, hostWriteElem_ignored (.inr hi) v⟩, fun hsp => ?_,
    fun offset ho => ⟨regWord_unmapped s ho, writeReg_unmapped s ho v⟩⟩
  · exact (hostReadElem_hostWriteElem_self h (bytes sp hsp) hi v).trans (elem_setElem_byte hm hsp i v)
  · exact (hostReadElem_hostWriteElem_self h (words sp hsp) hi v).trans (elem_setElem_word hm hsp i v)
  · refine hostWriteElem_ignored (.inl ?_) v
    rw [← Bool.not_eq_true, hostWritable_iff]
    exact hsp

/-! ### A 32-bit access -/

/-- The block's read of a byte space is a byte. -/
theorem elem_and_byte {sp : Space} (hsp : sp ∈ [Space.inp, .out, .clmem]) (s : State) (i : Nat) :
    s.elem sp i &&& 0xFF#32 = s.elem sp i := by
  have byte (b : Byte) : b.setWidth 32 &&& 0xFF#32 = b.setWidth 32 := by
    rw [← setWidth_byte]
    congr 1
    simp
  simp only [List.mem_cons, List.not_mem_nil, or_false] at hsp
  rcases hsp with rfl | rfl | rfl
  · exact byte _
  · exact byte _
  · exact byte _

theorem hostReadElem_and_byte {s : State} (h : s.Served) {sp : Space} (hsp : sp ∈ [Space.inp, .out, .clmem]) (i : Nat) :
    s.hostReadElem sp i &&& 0xFF#32 = s.hostReadElem sp i := by
  rw [hostReadElem_served h]
  split_ifs
  · exact elem_and_byte hsp s i
  · rfl

/-- The state after the bytes `0..n-1` of a 32-bit write. -/
def State.bytesWritten (s : State) (sp : Space) (j : Nat) (v : Word) : Nat → State
  | 0 => s
  | n + 1 => (s.bytesWritten sp j v n).hostWriteElem sp (4 * j + n) (v >>> (8 * n))

theorem hostWriteWide_eq {sp : Space} (hsp : byteSpace sp = true) (s : State) (j : Nat) (v : Word) :
    s.hostWriteWide sp j v = s.bytesWritten sp j v 4 := if_pos hsp

theorem State.Served.bytesWritten {s : State} (h : s.Served) (sp : Space) (j : Nat) (v : Word) (n : Nat) :
    (s.bytesWritten sp j v n).Served := by
  induction n with
  | zero => exact h
  | succ n ih => exact ih.hostWriteElem sp _ _

theorem bytesWritten_spaceCount (s : State) (sp : Space) (j : Nat) (v : Word) (n : Nat) (sp' : Space) :
    (s.bytesWritten sp j v n).spaceCount sp' = s.spaceCount sp' := by
  induction n with
  | zero => rfl
  | succ n ih => exact (hostWriteElem_spaceCount _ sp _ _ sp').trans ih

theorem hostReadElem_bytesWritten_ne {s : State} (h : s.Served) {sp sp' : Space} {j i : Nat} (v : Word) {n : Nat}
    (hne : ¬ (sp' = sp ∧ 4 * j ≤ i ∧ i < 4 * j + n)) :
    (s.bytesWritten sp j v n).hostReadElem sp' i = s.hostReadElem sp' i := by
  induction n with
  | zero => rfl
  | succ n ih =>
    exact (hostReadElem_hostWriteElem_ne (h.bytesWritten sp j v n)
      (fun ⟨hs, hi⟩ => hne ⟨hs, by omega, by omega⟩) _).trans (ih fun ⟨hs, hi⟩ => hne ⟨hs, by omega, by omega⟩)

/-- Each byte inside the space reads back from the bits of the word that hold it. -/
theorem hostReadElem_bytesWritten {s : State} (h : s.Served) {sp : Space} (hsp : sp ∈ [Space.inp, .clmem]) {j : Nat}
    (v : Word) {m n : Nat} (hn : n < m) (hi : 4 * j + n < s.spaceCount sp) :
    (s.bytesWritten sp j v m).hostReadElem sp (4 * j + n) = (v >>> (8 * n)) &&& 0xFF#32 := by
  have hw : hostWritable sp = true := (by decide : ∀ sp ∈ [Space.inp, .clmem], hostWritable sp = true) sp hsp
  induction m with
  | zero => omega
  | succ m ih =>
    have hS := h.bytesWritten sp j v m
    by_cases hm : n = m
    · subst hm
      rw [← elem_setElem_byte hS.mem hsp]
      exact hostReadElem_hostWriteElem_self hS hw (by rw [bytesWritten_spaceCount]; exact hi) _
    · exact (hostReadElem_hostWriteElem_ne hS (by omega) _).trans (ih (by omega))

/-- Settles O10: a 32-bit read is made of the bytes the host reads, and a 32-bit write is the four writes of its bytes. -/
theorem widePort : Obligations.WidePort := by
  intro s j v hb hm
  have h : s.Served := ⟨hb, hm⟩
  refine ⟨fun sp hsp n hn => ?_, fun sp hsp => ⟨hostStep_writeWide hb sp j v, ?_⟩⟩
  · rw [State.hostReadWide_byte s sp j hn, hostReadElem_and_byte h hsp]
  · rw [hostWriteWide_eq ((by decide : ∀ sp ∈ [Space.inp, .clmem], byteSpace sp = true) sp hsp)]
    exact ⟨fun n hn hi => hostReadElem_bytesWritten h hsp v hn hi,
      fun sp' i hne => hostReadElem_bytesWritten_ne h v hne⟩

end Sys2Proof.Machine
end

section
/-! The frame of every command, STAGE after it, and SOFT_RESET (10_state.md R32, R37, 20_memory.md R90,
70_reset_and_hazards.md R401). -/

namespace Sys2Proof.Machine

/-! ### The frame -/

theorem State.agree_refl (s : State) (r : Region) : s.agree s r := by
  cases r <;> simp [State.agree]

/-- SOFT_RESET leaves every part its rule does not name. -/
theorem agree_softReset (s : State) {r : Region} (h : r ∉ writtenRegions .softReset) :
    s.agree (s.atStage .none).softReset.complete r := by
  cases r with
  | operands | result | cursor | image | cache | transforms | groups | tableInfo | metaLengths => exact absurd (by decide) h
  | input | model => exact ⟨rfl, by trivial⟩
  | tables | lengths | out | pix | sub | ent => exact rfl

theorem exec_agree {i : Instr} {s t : State} (ht : exec i s = .next t) {r : Region} (hr : r ∉ writtenRegions i) :
    s.agree t r := by
  by_cases hi : i = .softReset
  · subst hi
    cases (exec_softReset s).symm.trans ht
    exact agree_softReset s hr
  · refine (frame_closed s r (writtenRegions i) hr).exec (agree_stageless s r) (fun u hu => ?_) (fun u e hu => ?_) i hi
      (fun _ hr' => hr') (s.agree_refl r) ht
    · cases r <;> exact hu
    · cases r <;> exact hu

/-! ### RES0 of a command that fails -/

/-- The end of a command that leaves RES0 at `v` when it fails. -/
def FailKeepsRes0 (v : Word) (t : State) : Prop := t.done = false → t.res0 = v

/-- A read that keeps RES0 writes it only at its end, behind every error (10_state.md R32). -/
theorem finish_checkedRead_res0 {x : Cmd Nat} {v : Word} (hx : Keeps (fun u => u.res0 = v) x) {s t : State}
    (hs : s.res0 = v) (ht : finish (checkedRead x s) = .next t) : FailKeepsRes0 v t := by
  have body : Hoare (fun u => u.res0 = v) (checkedRead x) (fun _ _ => True) (fun _ u => u.res0 = v) :=
    Hoare.bind keeps_inputCheck.hoare fun _ => Hoare.bind hx.hoare fun _ => hoare_update fun _ _ => trivial
  rcases body.finish hs ht with ⟨u, -, rfl⟩ | ⟨e, u, hu, rfl⟩
  · exact fun h => nomatch h
  · exact fun _ => hu

/-- A command that is a checked read, from a state with STAGE cleared. -/
theorem runCommand_checkedRead_res0 {x : Cmd Nat} {s t : State} (hx : Keeps (fun u => u.res0 = s.res0) x)
    (ht : runCommand (checkedRead x) s = .next t) : FailKeepsRes0 s.res0 t :=
  finish_checkedRead_res0 hx (s := s.atStage .none) rfl ht

theorem failKeepsRes0_completed (v : Word) (s : State) : FailKeepsRes0 v s.completed := fun h => nomatch h

theorem failKeepsRes0_failed (s : State) (e : ErrKind) (info : Nat) : FailKeepsRes0 s.res0 (s.failed e info) :=
  fun _ => rfl

/-- A command that fails leaves RES0: most never write it, and the five that answer a value write it last. -/
theorem exec_failKeepsRes0 {i : Instr} {s t : State} (ht : exec i s = .next t) : FailKeepsRes0 s.res0 t := by
  have move : ∀ (u : State) (q : Nat), u.res0 = s.res0 → q ≤ u.endPos → u.pos ≤ q → (u.moveTo q).res0 = s.res0 :=
    fun _ _ h _ _ => h
  have silent (h : Region.result ∉ writtenRegions i) : FailKeepsRes0 s.res0 t := fun _ => exec_agree ht h
  have ends {u : State} (hu : exec i s = .next u) (h : FailKeepsRes0 s.res0 u) : FailKeepsRes0 s.res0 t := by
    cases hu.symm.trans ht
    exact h
  cases i with
  | softReset => exact ends (exec_softReset s) (failKeepsRes0_completed _ (s.atStage .none).softReset)
  | brHasdata => exact ends (exec_brHasdata s) (failKeepsRes0_completed _ _)
  | brTell => exact ends (exec_brTell s) (failKeepsRes0_completed _ _)
  | ccHash => exact ends (exec_ccHash s) (failKeepsRes0_completed _ _)
  | brRead n => exact runCommand_checkedRead_res0 (keeps_readBits move n) ht
  | hufDecode slot =>
    by_cases hslot : slot ≤ 6
    · by_cases hv : s.tabInfo[slotOf slot].valid = true
      · exact runCommand_checkedRead_res0 (keeps_decodeSym move _) ((exec_hufDecode hslot hv).symm.trans ht)
      · exact ends (exec_hufDecode_notBuilt hslot (Bool.eq_false_iff.mpr hv)) (failKeepsRes0_failed s _ _)
    · exact ends (exec_hufDecode_badSlot (by omega) s) (failKeepsRes0_failed s _ _)
  | lzPrefix c =>
    by_cases hc : c ≤ 39
    · exact runCommand_checkedRead_res0 ((keeps_readExtra move _).bind fun _ => keeps_pure _)
        ((exec_lzPrefix hc s).symm.trans ht)
    · exact ends (exec_lzPrefix_invalid (by omega) s) (failKeepsRes0_failed s _ _)
  | pred m =>
    cases hp : predictPix s.params.mode0Black m s.a0 s.a1 s.a2 s.a3 with
    | some p => exact ends (exec_pred_ok hp) (failKeepsRes0_completed _ _)
    | none =>
      have hm : 13 < m := by
        have := predictPix_isSome s.params.mode0Black m s.a0 s.a1 s.a2 s.a3
        simpa [hp] using this
      exact ends (exec_pred_error hm s) (failKeepsRes0_failed s _ _)
  | ccGet =>
    by_cases h : s.a0.toNat < s.ccSize
    · exact ends (exec_ccGet_ok h) (failKeepsRes0_completed _ _)
    · exact ends (exec_ccGet_error (by omega)) (failKeepsRes0_failed s _ _)
  | nop | brInit | hufBuild | clRead | ccInit | ccInsert | lzCopy | xfPredInv | xfColorInv | xfSubgInv | xfPalApply
  | xfPalInvert | xfChainInv | hdrParse | decode | rgbaConvert => exact silent (by simp [writtenRegions])

/-- Settles O22: the frame is a property every primitive change outside the written parts keeps, and RES0 is written last. -/
theorem commandFrame : Obligations.CommandFrame :=
  fun _ _ _ ht => ⟨fun _ hr => exec_agree ht hr, exec_failKeepsRes0 ht⟩

/-! ### STAGE -/

/-- The property of standing in a stage. -/
def InStageOf (st : Stage) (s : State) : Prop := s.stage = st

/-- The stages a DECODE can fail in (10_state.md R37). -/
def WorkStage (st : Stage) : Prop := 1 ≤ st.code.toNat ∧ st.code.toNat ≤ 7

/-- A command that STAGE does not follow leaves it 0: it is cleared at acceptance, and no piece of the body writes it. -/
theorem exec_stage_none {i : Instr} {s t : State} (hd : i ≠ .decode) (hh : i ≠ .hdrParse) (ht : exec i s = .next t) :
    t.stage = .none := by
  by_cases hi : i = .softReset
  · subst hi
    cases (exec_softReset s).symm.trans ht
    rfl
  · rcases (closed_stage .none (writtenRegions i)).endsPlain i (by simp [hi, hd, hh]) (fun _ hr => hr)
      (s := s) rfl with ⟨u, hu, hend⟩ | ⟨e, u, hu, hend⟩
    · cases hend.symm.trans ht
      exact hu
    · cases hend.symm.trans ht
      exact hu

theorem exec_hdrParse_stage {s t : State} (ht : exec .hdrParse s = .next t) : t.stage = .header := by
  by_cases hi : s.InputOk
  · cases hp : parseHeader s.atHeader with
    | ok hd u =>
      cases (exec_hdrParse_ok hi hp).symm.trans ht
      rw [parseHeader_atHeader] at hp
      split_ifs at hp
      cases hp
      rfl
    | error e u =>
      cases (exec_hdrParse_error hi hp).symm.trans ht
      rw [parseHeader_atHeader] at hp
      split_ifs at hp <;> cases hp <;> rfl
  · cases (runStaged_error (hdrParseBody_badInput hi)).symm.trans ht
    rfl

/-- The stage `st` with the parameters and the working size fixed. -/
def AtWork (st : Stage) (p : Params) (w h : Word) : State → Prop := Fixed (InStageOf st) p w h

section

variable {α : Type} {x : Cmd α} {st : Stage} {p : Params} {w h : Word}

/-- Any error of a piece that keeps its stage is taken in that stage. -/
theorem Keeps.atWork (hx : Keeps (AtWork st p w h) x) (hst : WorkStage st) :
    Hoare (AtWork st p w h) x (fun _ => AtWork st p w h) (fun _ s => WorkStage s.stage) :=
  hx.hoare.conseq (fun _ hs => hs) (fun _ _ hs => hs) fun _ s hs => by
    rw [show s.stage = st from hs.1]
    exact hst

theorem hoare_setStage_atWork (st' : Stage) {E : Trap → State → Prop} :
    Hoare (AtWork st p w h) (setStage st') (fun _ => AtWork st' p w h) E :=
  hoare_update fun _ hs => ⟨rfl, hs.2⟩

/-- The property of a stage is kept by every primitive change a DECODE makes. -/
theorem closed_decodeStage (st : Stage) : Closed (writtenRegions .decode) (InStageOf st) := closed_stage st _

/-- The conversion raises nothing. -/
theorem hoare_rgbaConvert_atWork {E : Trap → State → Prop} :
    Hoare (AtWork st p w h) rgbaConvert (fun _ => AtWork st p w h) E := by
  have pass : Does (AtWork st p w h) rgbaConvert (fun _ => True) [] :=
    Does.bind (does_readState (Q := fun _ => True) fun _ _ => trivial) fun n _ =>
      does_forRange n 0 fun _ _ _ => does_update fun _ hs => hs
  exact pass.conseq (fun _ hs => hs) (fun _ _ hs => hs.1) fun _ _ he => nomatch he.2

end

/-- The stages of a DECODE behind the header, each kept by its own pieces (48_orchestrator.md R310). -/
theorem hoare_afterHeader_stage {p : Params} {hd : Header} (hc : hd.w * hd.h ≤ p.pixCapacity) (hw : hd.w ≤ 16384)
    (hh : hd.h ≤ 16384) :
    Hoare (AtWork .transformList p (trunc32 hd.w) (trunc32 hd.h)) (afterHeader hd)
      (fun _ s => s.stage = .done) (fun _ s => WorkStage s.stage) := by
  have hsize := Closed.size_le hw hh hc
  rw [afterHeader_eq]
  refine (((closed_decodeStage _).transformLoop (by decide) (by decide) (by decide) (by decide) (by decide) (by decide)
    (by decide) (by decide) _ _ _ _).atWork (by unfold WorkStage; decide)).bind fun _ => ?_
  refine (hoare_setStage_atWork .colorCacheSize).bind fun _ => ?_
  refine Hoare.bind (((closed_decodeStage _).readCacheBits (by decide)).conseq (fun _ hs => hs) (fun _ _ hs => hs)
    fun _ s hs => by rw [show s.stage = _ from hs.1]; unfold WorkStage; decide) fun cb s hs => ?_
  have hcs := Closed.cacheSize_le hs.2
  refine Hoare.bind (hoare_setStage_atWork .entropyImage) (fun _ => ?_) s hs.1
  refine (((closed_decodeStage _).readMetaPrefix (by decide) (by decide) (by decide) (by decide) (by decide) (by decide)
    (by decide) (by decide) _ _).atWork (by unfold WorkStage; decide)).bind fun ng => ?_
  refine (hoare_setStage_atWork .huffmanGroups).bind fun _ => ?_
  refine Hoare.bind ((keeps_readState _).atWork (by unfold WorkStage; decide)) fun at_ => ?_
  have group (primary : Bool) := (closed_decodeStage .huffmanGroups).readGroup (p := p) (w := trunc32 hd.w)
    (h := trunc32 hd.h) (by decide) (by decide) (by decide) (by decide) (by decide) hcs at_ primary
  refine ((group true).atWork (by unfold WorkStage; decide)).bind fun _ => ?_
  refine ((keeps_forRange (fun _ => group false) (ng - 1) 1).atWork (by unfold WorkStage; decide)).bind fun _ => ?_
  refine (hoare_setStage_atWork .pixelStream).bind fun _ => ?_
  refine (((closed_decodeStage _).cacheInit (by decide) cb).atWork (by unfold WorkStage; decide)).bind fun _ => ?_
  refine (((closed_decodeStage _).pixelLoop (by decide) (by decide) (.inl ⟨rfl, by decide, hc⟩) at_ (hd.w * hd.h)
    0).atWork (by unfold WorkStage; decide)).bind fun _ => ?_
  refine (hoare_setStage_atWork .inverseTransforms).bind fun _ => ?_
  refine (((closed_decodeStage _).invChain (by decide) hsize).atWork (by unfold WorkStage; decide)).bind fun _ => ?_
  refine (hoare_setStage_atWork .pixelFormatConvert).bind fun _ => ?_
  exact hoare_rgbaConvert_atWork.bind fun _ => hoare_update fun _ _ => rfl

/-- A DECODE ends at `done`, or in the error of a stage 1 to 7. -/
theorem hoare_decodeBody_stage :
    Hoare (fun _ => True) decodeBody (fun _ s => s.stage = .done) (fun _ s => WorkStage s.stage) := by
  rw [decodeBody_eq]
  refine Hoare.bind (R := fun _ => InStageOf .header) (hoare_update fun _ _ => rfl) fun _ s hs => ?_
  have header : ∀ s, InStageOf .header s → WorkStage s.stage := fun s hs => by
    rw [show s.stage = _ from hs]
    unfold WorkStage
    decide
  refine Hoare.bind (P := fun u => InStageOf .header u ∧ u.params = s.params)
    (R := fun _ u => InStageOf .header u ∧ u.params = s.params)
    (keeps_inputCheck.hoare.conseq (fun _ h => h) (fun _ _ h => h) fun _ u h => header u h.1) (fun _ => ?_) s ⟨hs, rfl⟩
  refine Hoare.bind (R := fun _ u => InStageOf .header u ∧ u.params = s.params) (hoare_update fun _ h => h) fun _ => ?_
  refine Hoare.bind (((closed_decodeStage _).parseHeader (by decide) (by decide)).conseq (fun _ h => h)
    (fun _ _ h => h) fun _ u h => header u h.1) fun hd u hu => ?_
  obtain ⟨hfixed, hc, hw, hh⟩ := hu
  exact Hoare.bind (hoare_setStage_atWork .transformList) (fun _ => hoare_afterHeader_stage hc hw hh) u hfixed

/-- Settles O23: STAGE is cleared or set by the command's first write of it, and DECODE moves it from stage to stage. -/
theorem stageAfterCommand : Obligations.StageAfterCommand := by
  intro i s t ht
  refine ⟨fun hd hh => ?_, ?_, ?_, ?_⟩
  · rw [exec_stage_none hd hh ht]
    rfl
  · rintro rfl
    rw [exec_hdrParse_stage ht]
    rfl
  · rintro rfl hdone
    rcases hoare_decodeBody_stage.finish trivial ht with ⟨u, hu, rfl⟩ | ⟨e, u, -, rfl⟩
    · rw [State.complete_stage, hu]
      rfl
    · cases hdone
  · rintro rfl hdone
    rcases hoare_decodeBody_stage.finish trivial ht with ⟨u, -, rfl⟩ | ⟨e, u, hu, rfl⟩
    · cases hdone
    · exact hu

/-! ### SOFT_RESET -/

/-- After SOFT_RESET every register but STATUS, CTRL and IN_LEN shows its reset value. -/
theorem softReset_regWord (s : State) {offset : Nat} (h4 : offset ≠ 0x04) (h10 : offset ≠ 0x10) (h28 : offset ≠ 0x28) :
    s.softReset.complete.regWord offset = State.reset.regWord offset := by
  unfold State.regWord
  split
  case h_1 => exact absurd rfl h4
  case h_4 => exact absurd rfl h10
  case h_10 => exact absurd rfl h28
  all_goals rfl

theorem softReset_statusWord (s : State) : s.softReset.complete.statusWord = 0x00000002#32 := by
  show 0#24 ++ (Stage.none.code ++ (0#1 ++ (BitVec.ofBool false ++ (BitVec.ofBool true ++ BitVec.ofBool false)))) = _
  decide

theorem decodeWord_softReset : decodeWord 0x00000002#32 = .ok .softReset := decodeWord_of_softReset rfl

/-- Settles O25: the word is accepted whatever ERR is, and its one effect is the reset of R401. -/
theorem softResetCompletes : Obligations.SoftResetCompletes := by
  intro s
  refine ⟨fun hb => writeCmd_busy hb _, fun hb => ?_, _, exec_softReset s, softReset_statusWord _,
    fun offset h4 h10 h28 => softReset_regWord _ h4 h10 h28, rfl, rfl, Memory.read_cleared .cache, vget_replicate 0, rfl,
    rfl, rfl, rfl, rfl, rfl, rfl⟩
  exact (writeCmd_accepted hb (.inr rfl)).trans (runWord_ok decodeWord_softReset s.accept)

end Sys2Proof.Machine
end

section
/-! HUF_BUILD: its checks in their order, the table of a complete code and of the single symbol (42_huffman.md R160 to
R170). -/

namespace Sys2Proof.Machine

/-! ### The checks -/

theorem length_codeLengths (s : State) (n : Nat) : (s.codeLengths n).length = n := by
  simp [State.codeLengths]

theorem lengthAt_codeLengths (s : State) {n j : Nat} (h : j < n) :
    lengthAt (s.codeLengths n) j = (s.clmem.read .clmem j).toNat := by
  rw [lengthAt_eq_getElem (by rw [length_codeLengths]; exact h)]
  simp [State.codeLengths]

theorem exec_hufBuild_badSlot {slot : Nat} (h : 6 < slot) (s : State) :
    exec (.hufBuild slot) s = .next (s.failed .argumentRange slot) :=
  runCommand_error (cmd_bind_of_error (raiseIf_of h _ _ _))

theorem exec_hufBuild_badLength {s : State} {slot : Nat} (h : slot ≤ 6) (hn : 2328 < s.a0.toNat) :
    exec (.hufBuild slot) s = .next (s.failed .argumentRange s.a0.toNat) :=
  runCommand_error ((cmd_bind_of_ok (raiseIf_of_not (Nat.not_lt.mpr h) _ _ _)).trans
    ((cmd_bind_of_ok (opA0_apply _)).trans (cmd_bind_of_error (raiseIf_of hn _ _ _))))

theorem buildError_of_empty {L : List Byte} (h : L.length = 0) : buildError L = some (.emptyAlphabet, 0) := if_pos h

/-- The first length above 15 is the one Build reports. -/
theorem buildError_of_long {L : List Byte} {i : Nat} (hi : i < L.length) (hlong : 15 < lengthAt L i)
    (hfirst : ∀ j < i, lengthAt L j ≤ 15) : buildError L = some (.codeLengthTooLong, i * 2 ^ 8 + lengthAt L i) := by
  have hidx : L.findIdx (fun b => Config.maxCodeLength < b.toNat) = i := by
    refine (List.findIdx_eq hi).mpr ⟨?_, fun j hj => ?_⟩
    · rw [lengthAt_eq_getElem hi] at hlong
      exact decide_eq_true hlong
    · have hle := hfirst j hj
      rw [lengthAt_eq_getElem (hj.trans hi)] at hle
      exact decide_eq_false (Nat.not_lt.mpr hle)
  unfold buildError
  rw [if_neg (by omega), hidx, if_pos hi]

theorem buildError_of_unused {L : List Byte} (h0 : L.length ≠ 0) (hL : ∀ b ∈ L, b.toNat ≤ 15) (hz : ∀ b ∈ L, b = 0) :
    buildError L = some (.emptyAlphabet, L.length) := by
  have hused : usedCount L = 0 := usedCount_eq_zero.mpr fun b hb => by rw [hz b hb]; rfl
  have hshort : ¬ L.findIdx (fun b => Config.maxCodeLength < b.toNat) < L.length := by
    rw [findIdx_long]
    rintro ⟨b, hb, hlong⟩
    exact absurd (hL b hb) (by omega)
  unfold buildError
  rw [if_neg h0, if_neg hshort, if_pos hused]

theorem isSingle_eq_false {L : List Byte} (h : ¬ (usedCount L = 1 ∧ ∃ b ∈ L, b = 1)) : isSingle L = false := by
  rw [← Bool.not_eq_true, isSingle_iff]
  rintro ⟨hused, hmax⟩
  rcases maxLength_mem L with h0 | ⟨b, hb, hlen⟩
  · omega
  · exact h ⟨hused, b, hb, BitVec.eq_of_toNat_eq (hlen.trans hmax)⟩

theorem shiftLeft_or_length (i : Nat) (L : List Byte) : (i <<< 8) ||| lengthAt L i = i * 2 ^ 8 + lengthAt L i := by
  rw [← Nat.shiftLeft_add_eq_or_of_lt (show lengthAt L i < 2 ^ 8 from (L.getD i 0).isLt), Nat.shiftLeft_eq]

/-- Settles O31: the operand checks, then Build's checks in the order of `buildError`, whose errors leave the slot invalid
and its entries forgotten. -/
theorem hufBuildErrors : Obligations.HufBuildErrors := by
  intro s slot
  refine ⟨fun h => exec_hufBuild_badSlot h s, fun h hn => exec_hufBuild_badLength h hn, fun h hn => ?_⟩
  intro L fails
  have hlen : L.length = s.a0.toNat := length_codeLengths s _
  have failing {e : ErrKind} {info : Nat} (he : buildError L = some (e, info)) : fails e info :=
    ⟨_, exec_hufBuild_error h hn he, rfl, fun u hu => vget_set_ne _ hu _⟩
  refine ⟨fun h0 => failing (buildError_of_empty (by rw [hlen, h0]; rfl)), fun i hi hlong hfirst => ?_,
    fun hL h0 hz => ?_, fun hL hK => failing (buildError_of_overSubscribed hL hK),
    fun hL hused hK hs => failing (buildError_of_underSubscribed hL hused hK (isSingle_eq_false hs))⟩
  · rw [shiftLeft_or_length]
    exact failing (buildError_of_long hi hlong hfirst)
  · rw [← hlen]
    refine failing (buildError_of_unused (fun hz0 => h0 ?_) hL hz)
    exact BitVec.eq_of_toNat_eq (hlen.symm.trans hz0)

/-! ### A build that passes -/

/-- What a build that passes leaves, as the statements write it: the slot's table and TAB_INFO, and nothing else. -/
theorem built_eq (s : State) (t : Fin 7) (L : List Byte) :
    (s.built t L).completed =
      ({ s with tab := s.tab.set t (s.built t L).completed.tab[t], tabInfo := s.tabInfo.set t (builtInfo L) } :
        State).completed := by
  have htab : (s.built t L).completed.tab[t] = builtTable L s.tab[t] := vget_set_self _ _ _
  rw [htab]
  rfl

theorem built_tab_self (s : State) (t : Fin 7) (L : List Byte) :
    (s.built t L).completed.tab[t] = builtTable L s.tab[t] := vget_set_self _ _ _

/-- Settles O32: behind its checks the build fills the table, whose entries are the codes' by the laws of the fill. -/
theorem hufBuildComplete : Obligations.HufBuildComplete := by
  intro s slot h hn L hL hK
  have hbuild : Buildable L := ⟨hL, .inl hK⟩
  have hinfo : builtInfo L = ⟨BitVec.ofNat 4 (maxLength L), BitVec.ofNat 12 (usedCount L), false, true⟩ := by
    rw [builtInfo, isSingle_of_complete hK]
  have hmax : ∃ i < L.length, lengthAt L i = maxLength L := by
    rcases maxLength_mem L with h0 | ⟨b, hb, hlen⟩
    · have := maxLength_pos (L := L) (by omega)
      omega
    · obtain ⟨i, hi, hlen'⟩ := lengthAt_mem hb
      exact ⟨i, hi, hlen'.trans hlen⟩
  refine ⟨_, maxLength L, exec_hufBuild_ok h hn hbuild, fun i hi => lengthAt_le (le_maxLength L) hi, hmax, ?_,
    fun j hj => ?_, fun j hj => ?_⟩
  · rw [← hinfo]
    exact built_eq s _ L
  · obtain ⟨i, hi, hm⟩ := exists_match hL hK (le_maxLength L) (maxLength_le hL) j
    refine ⟨i, hi, hm.1, hm.2, ?_, fun i' hi' h0 hcode => match_unique hL hK.le hi' hi ⟨h0, hcode⟩ hm⟩
    rw [built_tab_self]
    exact (builtTable_complete _ hL hK _ j).1 i hi hj hm
  · rw [built_tab_self]
    exact (builtTable_complete _ hL hK _ j).2 hj

/-! ### The single symbol -/

/-- One symbol of length 1 and no other: the single-symbol case, with that symbol. -/
theorem isSingle_of_one {L : List Byte} {i : Nat} (hi : i < L.length)
    (hL : ∀ j < L.length, lengthAt L j = if j = i then 1 else 0) : isSingle L = true ∧ firstUsed L = i := by
  have hlist : L = (List.range L.length).map fun j => if j = i then 1 else 0 := by
    refine List.ext_getElem (by simp) fun j hj hj' => ?_
    have hlen := hL j hj
    rw [lengthAt_eq_getElem hj] at hlen
    rw [List.getElem_map, List.getElem_range]
    refine BitVec.eq_of_toNat_eq (hlen.trans ?_)
    split_ifs <;> rfl
  have hused : usedCount L = 1 := by
    have hone : ((List.range L.length).filter fun j => j = i).length = 1 := by
      rw [← List.countP_eq_length_filter]
      exact List.count_eq_one_of_mem List.nodup_range (List.mem_range.mpr hi)
    rw [← hone]
    unfold usedCount
    conv_lhs => rw [hlist]
    rw [List.filter_map, List.length_map]
    congr 2
    funext j
    by_cases hj : j = i <;> simp [hj]
  have hmax : maxLength L = 1 := by
    have hle : maxLength L ≤ 1 := maxLength_le fun b hb => by
      obtain ⟨j, hj, hlen⟩ := lengthAt_mem hb
      rw [← hlen, hL j hj]
      split_ifs <;> omega
    have hge := lengthAt_le (le_maxLength L) hi
    rw [hL i hi, if_pos rfl] at hge
    omega
  have hs : isSingle L = true := isSingle_iff.mpr ⟨hused, hmax⟩
  obtain ⟨-, -, honly⟩ := isSingle_used hs
  refine ⟨hs, (honly i hi ?_).symm⟩
  rw [hL i hi, if_pos rfl]
  exact one_ne_zero

theorem builtInfo_of_single {L : List Byte} (h : isSingle L = true) : builtInfo L = ⟨1, 1, true, true⟩ := by
  obtain ⟨hused, hmax⟩ := isSingle_iff.mp h
  rw [builtInfo, hused, hmax, h]
  rfl

/-- Any one bit finds the symbol of a slot that holds the one-bit table. -/
theorem exec_hufDecode_of_oneBit {u : State} {slot i : Nat} (h : slot ≤ 6) (hi : i < 4096)
    (hinfo : u.tabInfo[slotOf slot] = ⟨1, 1, true, true⟩)
    (htab : ∀ j < 2, u.tab[slotOf slot].read (.tab (slotOf slot)) j = mkEntry 1 i) (hin : u.InputOk)
    (hend : u.pos + 1 ≤ u.endPos) :
    exec (.hufDecode slot) u = .next ({ u.moveTo (u.pos + 1) with res0 := trunc32 i } : State).completed := by
  obtain ⟨-, -, -, hrun⟩ := hufDecode u slot
  have hentry : u.tab[slotOf slot].read (.tab (slotOf slot)) (u.field u.pos 1) = mkEntry 1 i :=
    htab _ (u.field_lt u.pos 1)
  have hvalid : u.tabInfo[slotOf slot].valid = true := by rw [hinfo]
  have hone : 1 ≤ u.tabInfo[slotOf slot].maxLen.toNat := by rw [hinfo]; decide
  have key := (hrun h hvalid hin).1 1 le_rfl hone hend
    (by simp only [hentry]; exact ⟨entryFilled_mkEntry 1 i, entryLen_mkEntry (by decide) i⟩)
    fun k' hk1 hk' => absurd hk' (by omega)
  simp only [hentry, entrySym_mkEntry 1 hi] at key
  exact key

/-- Settles O33: the lengths are the single-symbol case, whose table has the symbol at both entries. -/
theorem hufSingleSymbol : Obligations.HufSingleSymbol := by
  intro s slot i h hn hi hlens
  obtain ⟨hsingle, hfirst⟩ := isSingle_of_one (L := s.codeLengths s.a0.toNat) (by rwa [length_codeLengths])
    fun j hj => by
      rw [length_codeLengths] at hj
      rw [lengthAt_codeLengths s hj, hlens j hj]
      split_ifs <;> rfl
  have hinfo := builtInfo_of_single hsingle
  have hshort : ∀ b ∈ s.codeLengths s.a0.toNat, b.toNat ≤ 15 := fun b hb =>
    (le_maxLength _ b hb).trans ((isSingle_iff.mp hsingle).2.le.trans (by decide))
  have hread (j : Nat) : (s.built (slotOf slot) (s.codeLengths s.a0.toNat)).completed.tab[slotOf slot].read
      (.tab (slotOf slot)) j = if j < 2 then mkEntry 1 i else s.tab[slotOf slot].read (.tab (slotOf slot)) j := by
    rw [built_tab_self, builtTable_single _ hsingle, hfirst]
  refine ⟨_, exec_hufBuild_ok h hn ⟨hshort, .inr hsingle⟩, ?_, hread, fun hin hend => ?_⟩
  · rw [← hinfo]
    exact built_eq s _ _
  · exact exec_hufDecode_of_oneBit h (by omega) ((vget_set_self _ _ _).trans hinfo)
      (fun j hj => (hread j).trans (if_pos hj)) hin hend

end Sys2Proof.Machine
end

section
/-! CL_READ: its checks, the two forms of the code lengths, and the input that ends inside them (43_code_lengths.md R190 to
R202). -/

namespace Sys2Proof.Machine

/-! ### The command behind its checks -/

theorem exec_clRead (s : State) : exec .clRead s = runCommand clReadBody s := rfl

theorem clReadBody_badCount {s : State} (h : s.a0 = 0 ∨ 2328 < s.a0.toNat) :
    clReadBody s = .error ⟨.argumentRange, trunc32 s.a0.toNat⟩ s := by
  have hbad : (decide (s.a0.toNat = 0) || decide (Config.maxAlphabet < s.a0.toNat)) = true := by
    rcases h with h0 | hlarge
    · simp [h0]
    · rw [decide_eq_true (show Config.maxAlphabet < s.a0.toNat from hlarge), Bool.or_true]
  unfold clReadBody
  rw [cmd_bind_of_ok (opA0_apply s), hbad, cmd_bind_of_error (raiseIf_true _ _ _)]

/-- The count that passes its check. -/
def State.CountOk (s : State) : Prop := 1 ≤ s.a0.toNat ∧ s.a0.toNat ≤ 2328

theorem clReadBody_of_count {s : State} (h : s.CountOk) :
    clReadBody s = (do inputCheck; readCodeLengths s.a0.toNat) s := by
  have hgood : (decide (s.a0.toNat = 0) || decide (Config.maxAlphabet < s.a0.toNat)) = false := by
    rw [decide_eq_false (by have := h.1; omega), decide_eq_false (Nat.not_lt.mpr h.2), Bool.or_false]
  unfold clReadBody
  rw [cmd_bind_of_ok (opA0_apply s), hgood, cmd_bind_of_ok (raiseIf_false _ _ _)]

theorem exec_clRead_of_count {s : State} (h : s.CountOk) (hi : s.InputOk) :
    exec .clRead s = runCommand (readCodeLengths s.a0.toNat) s :=
  congrArg finish ((clReadBody_of_count (s := s.atStage .none) h).trans (cmd_bind_of_ok (inputCheck_ok (hi.atStage .none))))

/-! ### The literal form -/

/-- Settles O36: behind the checks CL_READ is ReadCodeLengths, in its literal form. -/
theorem clReadLiteral : Obligations.ClReadLiteral := by
  intro s cnt hw hi h1 hn hflag hcnt hc hend
  obtain ⟨c, hrun, -, hread⟩ := readCodeLengths_literal (s := s.atStage .none) hw hflag hcnt hc hend
  exact ⟨_, (exec_clRead_of_count ⟨h1, hn⟩ hi).trans (runCommand_ok hrun), rfl, hread⟩

/-! ### The coded form -/

/-- What a list of lengths written from the first on leaves in CLMEM. -/
theorem read_writeList_lengths {c : Memory 8} (hw : c.wf) (lens : List Nat) (j : Nat) :
    (c.writeList 0 (lens.map (BitVec.ofNat 8))).read .clmem j =
      if h : j < lens.length then BitVec.ofNat 8 lens[j] else c.read .clmem j := by
  rw [Memory.read_writeList _ hw]
  simp

/-- Settles O37: behind the checks CL_READ is ReadCodeLengths, in its coded form. -/
theorem clReadCoded : Obligations.ClReadCoded := by
  intro s ms ts hw ha hi h1 hn hm M bits hM hk hlen hb hend
  obtain ⟨cl, hcl, hrun⟩ := readCodeLengths_coded (s := s.atStage .none) ha hm hM hk hlen hb hend
  refine ⟨_, (exec_clRead_of_count ⟨h1, hn⟩ hi).trans (runCommand_ok hrun), ?_, hcl, read_writeList_lengths hw _⟩
  rw [show M = cl.toList from hcl.symm]
  rfl

/-! ### Input that ends before the lengths -/

theorem readCodeLengths_noFlag {s : State} (n : Nat) (h : s.endPos < s.pos + 1) :
    readCodeLengths n s = .error ⟨.readPastEnd, trunc32 1⟩ s :=
  cmd_bind_of_error (readBits_readPastEnd (by decide) (by decide) h)

theorem readCodeLengths_noCount {s : State} (n : Nat) (h : s.pos + 1 ≤ s.endPos) (hend : s.endPos < s.pos + 5) :
    readCodeLengths n s = .error ⟨.readPastEnd, trunc32 4⟩ (s.moveTo (s.pos + 1)) := by
  have hp : (s.moveTo (s.pos + 1)).pos = s.pos + 1 := s.pos_moveTo_of_le_endPos h
  refine (cmd_bind_of_ok (readBits_ok (by decide) (by decide) h)).trans
    (cmd_bind_of_error (readBits_readPastEnd (by decide) (by decide) ?_))
  rw [hp, State.moveTo_endPos]
  omega

theorem readCodeLengths_oversized {s : State} {n : Nat} (h : s.pos + 5 ≤ s.endPos) (hf : s.field s.pos 1 = 0)
    (hn : n < 4 + s.field (s.pos + 1) 4) :
    readCodeLengths n s =
      .error ⟨.oversizedMetaAlphabet, trunc32 (4 + s.field (s.pos + 1) 4)⟩ (s.moveTo (s.pos + 5)) := by
  rw [readCodeLengths_apply n h, if_pos hf]
  exact cmd_bind_of_error (raiseIf_of hn _ _ _)

/-! ### Input that ends inside the lengths -/

/-- A read of three bits fails in the state that has used up the input. -/
theorem readBits_three_readPastEnd {s : State} {q : Nat} (hp : s.pos = q) (hend : s.endPos < q + 3) :
    readBits 3 s = .error ⟨.readPastEnd, trunc32 3⟩ s :=
  readBits_readPastEnd (by decide) (by decide) (hp ▸ hend)

/-- Literal length `m` does not fit the input: those before it are in CLMEM. -/
theorem literalLengths_short {s : State} {n cnt m : Nat} (hw : s.clmem.wf) (hc : cnt ≤ n) (hm : m < cnt)
    (hin : s.pos + 3 * m ≤ s.endPos) (hend : s.endPos < s.pos + 3 * m + 3) :
    ∃ c : Memory 8, literalLengths n cnt s = .error ⟨.readPastEnd, trunc32 3⟩ (s.lensAt (s.pos + 3 * m) c) ∧
      ∀ j, c.read .clmem j =
        if j < m then BitVec.ofNat 8 (s.field (s.pos + 3 * j) 3) else s.clmem.read .clmem j := by
  obtain ⟨c, hrun, -, hread⟩ := literalLoop_ok hw hin
  refine ⟨c, (cmd_bind_of_ok (raiseIf_of_not (Nat.not_lt.mpr hc) _ _ _)).trans (cmd_bind_of_error ?_), hread⟩
  exact forRange_error hm hrun (cmd_bind_of_error (readBits_three_readPastEnd (s.pos_lensAt hin c) hend))

/-- The fields of the input, as the values whose bits it has. -/
theorem State.hasBits_fields (s : State) (q n : Nat) : s.HasBits q (lsbBits (s.field q n) n) := by
  intro j hj
  have hj' : j < n := by simpa [length_lsbBits] using hj
  have hbit : s.field q n / 2 ^ j % 2 = s.inBit (q + j) := by
    obtain ⟨d, rfl⟩ : ∃ d, n = j + (1 + d) := ⟨n - j - 1, by omega⟩
    have hone := s.inBit_lt (q + j)
    rw [State.field_add, State.field_add, Nat.add_mul_div_left _ _ (by positivity),
      Nat.div_eq_of_lt (s.field_lt q j), State.field_succ, State.field_zero]
    omega
  simp only [lsbBits, List.getElem_map, List.getElem_range]
  exact hbit.symm

/-- The values of the first `m` fields of three bits from bit `q` on. -/
def State.threeBitFields (s : State) (q m : Nat) : List Nat := (List.range m).map fun j => s.field (q + 3 * j) 3

theorem State.hasBits_threeBitFields (s : State) (q m : Nat) :
    s.HasBits q ((s.threeBitFields q m).flatMap fun v => lsbBits v 3) := by
  unfold State.threeBitFields
  induction m with
  | zero => intro j hj; simp at hj
  | succ m ih =>
    rw [List.range_succ, List.map_append, List.flatMap_append, State.hasBits_append, length_flatMap_three]
    refine ⟨ih, ?_⟩
    simpa using s.hasBits_fields (q + 3 * m) 3

/-- Meta length `m` does not fit the input: those before it are in CLM. -/
theorem metaLengths_short {s : State} {cnt m : Nat} (ha : s.params.Admissible) (hm : m < cnt) (hcnt : cnt ≤ 19)
    (hin : s.pos + 3 * m ≤ s.endPos) (hend : s.endPos < s.pos + 3 * m + 3) :
    ∃ cl : Vector Byte 19,
      metaLengths cnt s = .error ⟨.readPastEnd, trunc32 3⟩ ({ s.moveTo (s.pos + 3 * m) with clm := cl } : State) ∧
      cl.toList = metaCode s.params.clCodeOrder (s.threeBitFields s.pos m) := by
  have hlen : (s.threeBitFields s.pos m).length = m := by simp [State.threeBitFields]
  obtain ⟨cl, hrun, hcl⟩ := metaLengths_ok (ms := s.threeBitFields s.pos m) ha (by omega)
    (fun v hv => by
      obtain ⟨j, -, rfl⟩ := List.mem_map.mp hv
      exact s.field_lt _ 3)
    (s.hasBits_threeBitFields s.pos m) (by rw [hlen]; exact hin)
  rw [hlen] at hrun
  have hpos : State.pos { s.moveTo (s.pos + 3 * m) with clm := cl } = s.pos + 3 * m := s.pos_moveTo_of_le_endPos hin
  refine ⟨cl, (cmd_bind_of_ok (update_apply _ _)).trans (forRange_error hm hrun ?_), hcl⟩
  exact (cmd_bind_of_ok (readState_apply _ _)).trans (cmd_bind_of_error (readBits_three_readPastEnd hpos hend))

/-- Settles O38: the checks in their order, and the walk over the lengths up to the one that does not fit the input. -/
theorem clReadErrors : Obligations.ClReadErrors := by
  intro s
  refine ⟨fun h => runCommand_error (clReadBody_badCount (s := s.atStage .none) h), fun h1 hn hi => ?_,
    fun h1 hn hi => ?_⟩
  · exact runCommand_error ((clReadBody_of_count (s := s.atStage .none) ⟨h1, hn⟩).trans
      (cmd_bind_of_error (inputCheck_error (s := s.atStage .none) hi)))
  have hexec := exec_clRead_of_count ⟨h1, hn⟩ hi
  refine ⟨fun hend => hexec.trans (runCommand_error (readCodeLengths_noFlag (s := s.atStage .none) _ hend)),
    fun hin hend => hexec.trans (runCommand_error (readCodeLengths_noCount (s := s.atStage .none) _ hin hend)),
    fun hin hf hlt => hexec.trans (runCommand_error (readCodeLengths_oversized (s := s.atStage .none) hin hf hlt)),
    fun m hm hin hend => ?_⟩
  have h5 : s.pos + 5 ≤ s.endPos := by omega
  have hfield := s.field_lt (s.pos + 1) 4
  set u : State := (s.atStage .none).moveTo (s.pos + 5) with hu
  have hp : u.pos = s.pos + 5 := (s.atStage .none).pos_moveTo_of_le_endPos h5
  have happly := readCodeLengths_apply (s := s.atStage .none) s.a0.toNat h5
  refine ⟨fun hf hle hw => ?_, fun hf ha => ?_⟩
  · obtain ⟨c, hrun, hread⟩ := literalLengths_short (s := u) hw hle hm (hp ▸ hin) (hp ▸ hend)
    rw [hp] at hrun hread
    exact ⟨_, hexec.trans (runCommand_error (happly.trans ((if_pos hf).trans hrun))), rfl, hread⟩
  · obtain ⟨cl, hrun, hcl⟩ := metaLengths_short (s := u) ha hm (by omega) (hp ▸ hin) (hp ▸ hend)
    rw [hp] at hrun hcl
    have hne : ¬ (s.atStage .none).field s.pos 1 = 0 := by
      rw [State.atStage_field, hf]
      decide
    exact ⟨_, hexec.trans (runCommand_error (happly.trans ((if_neg hne).trans (cmd_bind_of_error hrun)))), rfl, hcl⟩

/-! ### The coded form stopped by its meta code -/

theorem metaCode_le {o ms : List Nat} (h : ∀ v ∈ ms, v < 8) : ∀ b ∈ metaCode o ms, b.toNat ≤ 15 := by
  intro b hb
  obtain ⟨m, -, rfl⟩ := List.mem_map.mp hb
  have hv : ms.getD (o.idxOf m) 0 < 8 := by
    rw [List.getD_eq_getElem?_getD]
    cases hget : ms[o.idxOf m]? with
    | none => decide
    | some v => exact h v (List.mem_of_getElem? hget)
  rw [BitVec.toNat_ofNat]
  omega

/-- Build's error for lengths it accepts one by one, as the three cases of R161 after the length check. -/
theorem buildError_of_short {L : List Byte} {e : ErrKind} {info : Nat} (hL : ∀ b ∈ L, b.toNat ≤ 15) (hlen : L.length ≠ 0)
    (h : (usedCount L = 0 ∧ e = .emptyAlphabet ∧ info = L.length) ∨
      (2 ^ 15 < kraftSum L ∧ e = .overSubscribed ∧ info = kraftSum L) ∨
      (0 < usedCount L ∧ kraftSum L < 2 ^ 15 ∧ isSingle L = false ∧ e = .underSubscribed ∧ info = kraftSum L)) :
    buildError L = some (e, info) := by
  rcases h with ⟨hused, rfl, rfl⟩ | ⟨hK, rfl, rfl⟩ | ⟨hused, hK, hs, rfl, rfl⟩
  · exact buildError_of_unused hlen hL fun b hb => BitVec.eq_of_toNat_eq (usedCount_eq_zero.mp hused b hb)
  · exact buildError_of_overSubscribed hL hK
  · rw [buildError_of_used hL (Nat.pos_iff_ne_zero.mp hused), if_neg (by omega), if_pos ⟨hK, hs⟩]

theorem exec_clRead_metaError {s : State} {ms : List Nat} (ha : s.params.Admissible) (hi : s.InputOk) (hc : s.CountOk)
    (hm : MetaOk ms) (hb : s.HasBits s.pos (metaBits ms)) (hend : s.pos + (metaBits ms).length ≤ s.endPos)
    {e : ErrKind} {info : Nat} (he : buildError (metaCode s.params.clCodeOrder ms) = some (e, info)) :
    ∃ cl : Vector Byte 19, cl.toList = metaCode s.params.clCodeOrder ms ∧ exec .clRead s = .next
      (((({ s.moveTo (s.pos + (metaBits ms).length) with clm := cl } : State).invalidate metaSlot).forgetTab metaSlot).failed
        e info) := by
  obtain ⟨cl, hcl, hrun⟩ := readCodeLengths_meta (s := s.atStage .none) (n := s.a0.toNat) ha hm hb hend
  refine ⟨cl, hcl, (exec_clRead_of_count hc hi).trans (runCommand_error (hrun.trans (cmd_bind_of_error ?_)))⟩
  rw [build_apply, hcl, State.atStage_params, he]
  rfl

/-! ### The coded form stopped inside a token -/

/-- One pass of the loop of R195 after the bound check: a symbol and its token. -/
def tokenStep (n i prev : Nat) : Cmd (Nat × Nat) := do
  let sym ← decodeSym metaSlot
  lengthToken n i prev sym

/-- A pass that fails ends the loop. -/
theorem lengthLoop_error {n fuel i prev : Nat} (hi : i < n) (hf : n ≤ i + fuel) {s t : State} {e : Trap}
    (h : tokenStep n i prev s = .error e t) : lengthLoop n fuel i prev s = .error e t := by
  obtain ⟨fuel, rfl⟩ : ∃ f, fuel = f + 1 := ⟨fuel - 1, by omega⟩
  have hstep : lengthLoop n (fuel + 1) i prev =
      (tokenStep n i prev >>= fun next => lengthLoop n fuel next.1 next.2) := by
    rw [lengthLoop, if_pos hi, tokenStep, bind_assoc]
  rw [hstep, cmd_bind_of_error h]

/-- The extra bits of a token are read first, so input that ends inside them is its only effect. -/
theorem lengthToken_short {s : State} {k : LenToken} (n i prev : Nat) (hp : s.pos ≤ s.endPos)
    (hend : s.endPos < s.pos + k.extraBits.length) :
    lengthToken n i prev k.symbol s = .error ⟨.readPastEnd, trunc32 k.extraBits.length⟩ s := by
  cases k with
  | literal v =>
    rw [show (LenToken.literal v).extraBits.length = 0 from rfl] at hend
    omega
  | repeatPrev x =>
    rw [show (LenToken.repeatPrev x).extraBits.length = 2 from length_lsbBits x 2] at hend ⊢
    exact (congrFun (lengthToken_16 n i prev) s).trans (cmd_bind_of_error (readBits_readPastEnd (by decide) (by decide) hend))
  | shortZeros x =>
    rw [show (LenToken.shortZeros x).extraBits.length = 3 from length_lsbBits x 3] at hend ⊢
    exact (congrFun (lengthToken_17 n i prev) s).trans (cmd_bind_of_error (readBits_readPastEnd (by decide) (by decide) hend))
  | longZeros x =>
    rw [show (LenToken.longZeros x).extraBits.length = 7 from length_lsbBits x 7] at hend ⊢
    exact (congrFun (lengthToken_18 n i prev) s).trans (cmd_bind_of_error (readBits_readPastEnd (by decide) (by decide) hend))

/-- A read of `b` bits and then a run past the end of the array. -/
theorem repeat_overflow {s : State} {n i v base x b : Nat} (h1 : 1 ≤ b) (h16 : b ≤ 16) (hx : x < 2 ^ b)
    (hb : s.HasBits s.pos (lsbBits x b)) (hend : s.pos + b ≤ s.endPos) (hn : n < i + (base + x))
    (f : Nat → Cmd (Nat × Nat)) :
    (do
      let y ← readBits b
      let j ← repeatLength n i v (base + y)
      f j : Cmd (Nat × Nat)) s = .error ⟨.repeatOverflow, trunc32 (i + (base + x))⟩ (s.moveTo (s.pos + b)) := by
  rw [cmd_bind_of_ok (readBits_ok h1 h16 hend), State.field_of_lsbBits hb hx, cmd_bind_of_error (repeatLength_error hn)]

/-- A token whose run passes the end of the array writes nothing of it (43_code_lengths.md R195). -/
theorem lengthToken_overflow {s : State} {n i prev : Nat} {k : LenToken} (hk : k.Legal) (hb : s.HasBits s.pos k.extraBits)
    (hend : s.pos + k.extraBits.length ≤ s.endPos) (hi : i < n) (hn : n < i + (k.lengths prev).length) :
    lengthToken n i prev k.symbol s = .error ⟨.repeatOverflow, trunc32 (i + (k.lengths prev).length)⟩
      (s.moveTo (s.pos + k.extraBits.length)) := by
  cases k with
  | literal v =>
    rw [show ((LenToken.literal v).lengths prev).length = 1 from rfl] at hn
    omega
  | repeatPrev x =>
    simp only [LenToken.extraBits, length_lsbBits, LenToken.lengths, List.length_replicate] at *
    exact (congrFun (lengthToken_16 n i prev) s).trans (repeat_overflow (by decide) (by decide) hk hb hend hn _)
  | shortZeros x =>
    simp only [LenToken.extraBits, length_lsbBits, LenToken.lengths, List.length_replicate] at *
    exact (congrFun (lengthToken_17 n i prev) s).trans (repeat_overflow (by decide) (by decide) hk hb hend hn _)
  | longZeros x =>
    simp only [LenToken.extraBits, length_lsbBits, LenToken.lengths, List.length_replicate] at *
    exact (congrFun (lengthToken_18 n i prev) s).trans (repeat_overflow (by decide) (by decide) hk hb hend hn _)

section

variable {u : State} {M : List Byte} {k : LenToken}

/-- The symbol of a token whose code the input has. -/
theorem decodeSym_token (hold : u.SlotHolds metaSlot M) (hM : Buildable M) (hlen : M.length = 19)
    (hused : lengthAt M k.symbol ≠ 0) (hcode : u.HasBits u.pos (codeBits M k.symbol))
    (hend : u.pos + lengthAt M k.symbol ≤ u.endPos) :
    decodeSym metaSlot u = .ok k.symbol (u.moveTo (u.pos + lengthAt M k.symbol)) ∧
      (u.moveTo (u.pos + lengthAt M k.symbol)).pos = u.pos + lengthAt M k.symbol :=
  ⟨decodeSym_holds hold hM (by omega) hused hcode hend, u.pos_moveTo_of_le_endPos hend⟩

theorem tokenStep_overflow (hold : u.SlotHolds metaSlot M) (hM : Buildable M) (hlen : M.length = 19) (hk : k.Legal)
    (hused : lengthAt M k.symbol ≠ 0) (hb : u.HasBits u.pos (codeBits M k.symbol ++ k.extraBits))
    (hend : u.pos + (codeBits M k.symbol ++ k.extraBits).length ≤ u.endPos) {n i prev : Nat} (hi : i < n)
    (hn : n < i + (k.lengths prev).length) :
    tokenStep n i prev u = .error ⟨.repeatOverflow, trunc32 (i + (k.lengths prev).length)⟩
      (u.moveTo (u.pos + lengthAt M k.symbol + k.extraBits.length)) := by
  rw [State.hasBits_append, length_codeBits] at hb
  rw [List.length_append, length_codeBits] at hend
  obtain ⟨hcode, hextra⟩ := hb
  obtain ⟨hsym, hp⟩ := decodeSym_token hold hM hlen hused hcode (by omega)
  have htok := lengthToken_overflow (s := u.moveTo (u.pos + lengthAt M k.symbol)) hk (by rw [hp]; exact hextra)
    (by rw [hp, State.moveTo_endPos]; omega) hi hn
  rw [hp] at htok
  exact (cmd_bind_of_ok hsym).trans htok

theorem tokenStep_shortExtra (hold : u.SlotHolds metaSlot M) (hM : Buildable M) (hlen : M.length = 19)
    (hused : lengthAt M k.symbol ≠ 0) (hcode : u.HasBits u.pos (codeBits M k.symbol))
    (hin : u.pos + lengthAt M k.symbol ≤ u.endPos)
    (hend : u.endPos < u.pos + lengthAt M k.symbol + k.extraBits.length) (n i prev : Nat) :
    tokenStep n i prev u =
      .error ⟨.readPastEnd, trunc32 k.extraBits.length⟩ (u.moveTo (u.pos + lengthAt M k.symbol)) := by
  obtain ⟨hsym, hp⟩ := decodeSym_token hold hM hlen hused hcode hin
  exact (cmd_bind_of_ok hsym).trans
    (lengthToken_short n i prev (by rw [hp]; exact hin) (by rw [hp]; exact hend))

end

/-- The state after the meta code and `q` bits of tokens that stand for `lens`. -/
def State.tokensRead (s : State) (ms : List Nat) (cl : Vector Byte 19) (q : Nat) (lens : List Nat) : State :=
  (s.metaBuilt (s.pos + (metaBits ms).length) cl).lensAt q (s.clmem.writeList 0 (lens.map (BitVec.ofNat 8)))

/-- An error in the token after a run of tokens is CL_READ's own. -/
theorem exec_clRead_tokenError {s : State} {ms : List Nat} {ts : List LenToken} {M : List Byte} (ha : s.params.Admissible)
    (hi : s.InputOk) (hc : s.CountOk) (hm : MetaOk ms) (hms : metaCode s.params.clCodeOrder ms = M) (hM : Buildable M)
    (hk : ∀ k ∈ ts, k.Legal ∧ lengthAt M k.symbol ≠ 0) (hn : (expandTokens 8 ts).length < s.a0.toNat)
    (hb : s.HasBits s.pos (metaBits ms ++ tokenBits M ts))
    (hend : s.pos + (metaBits ms ++ tokenBits M ts).length ≤ s.endPos) :
    ∃ (cl : Vector Byte 19) (u : State),
      u = (s.atStage .none).tokensRead ms cl (s.pos + (metaBits ms ++ tokenBits M ts).length) (expandTokens 8 ts) ∧
      cl.toList = M ∧ u.pos = s.pos + (metaBits ms ++ tokenBits M ts).length ∧ u.SlotHolds metaSlot M ∧
      ∀ (e : Trap) (t : State),
        tokenStep s.a0.toNat (expandTokens 8 ts).length (prevAfter 8 ts) u = .error e t →
        exec .clRead s = .next (t.takeError e) := by
  subst hms
  obtain ⟨cl, fuel, hcl, hfuel, hrun⟩ :=
    readCodeLengths_tokens (s := s.atStage .none) ha hm hM hk (Nat.le_of_lt hn) hb hend
  refine ⟨cl, _, rfl, hcl, State.pos_lensAt ((s.atStage .none).metaBuilt _ cl) hend _, ?_, fun e t h => ?_⟩
  · rw [← show cl.toList = metaCode s.params.clCodeOrder ms from hcl]
    exact State.built_slotHolds
      ({ (s.atStage .none).moveTo (s.pos + (metaBits ms).length) with clm := cl } : State) metaSlot cl.toList
  · exact (exec_clRead_of_count hc hi).trans (runCommand_error (hrun.trans (lengthLoop_error hn hfuel h)))

theorem tokenBits_snoc (M : List Byte) (ts : List LenToken) (k : LenToken) :
    tokenBits M (ts ++ [k]) = tokenBits M ts ++ (codeBits M k.symbol ++ k.extraBits) := by
  simp [tokenBits]

/-- Settles O39: the errors of the meta code's build, and of the token after a run of tokens. -/
theorem clReadCodedErrors : Obligations.ClReadCodedErrors := by
  intro s ms hw ha hi h1 hn hm
  generalize hms : metaCode s.params.clCodeOrder ms = M
  have hlen : M.length = 19 := hms ▸ length_metaCode _ _
  refine ⟨fun e info hb hend hcase => ?_, fun ts k hM hk hlt hover hb hend => ?_, ?_⟩
  · have he : buildError M = some (e, info) :=
      buildError_of_short (hms ▸ metaCode_le hm.2.2) (by omega) (by rw [hlen]; exact hcase)
    obtain ⟨cl, hcl, hrun⟩ := exec_clRead_metaError ha hi ⟨h1, hn⟩ hm hb hend (hms ▸ he)
    exact ⟨_, hrun, rfl, rfl, rfl, hms ▸ hcl, congrArg TabInfo.valid (vget_set_self s.tabInfo metaSlot _)⟩
  · rw [tokenBits_snoc, ← List.append_assoc] at hb hend
    rw [List.length_append (bs := codeBits M k.symbol ++ k.extraBits), ← Nat.add_assoc] at hend
    obtain ⟨hbits, hlast⟩ := State.hasBits_append.mp hb
    obtain ⟨hlegal, hused⟩ := hk k List.mem_cons_self
    obtain ⟨cl, u, hu, hcl, hp, hold, herr⟩ := exec_clRead_tokenError ha hi ⟨h1, hn⟩ hm hms hM
      (fun k' h => hk k' (List.mem_cons_of_mem _ h)) hlt hbits (by omega)
    have hinp : u.inp = s.inp := by rw [hu]; rfl
    have hep : u.endPos = s.endPos := by rw [hu]; rfl
    have hclmem : u.clmem = s.clmem.writeList 0 ((expandTokens 8 ts).map (BitVec.ofNat 8)) := by rw [hu]; rfl
    have hstep := tokenStep_overflow hold hM hlen hlegal hused (by rw [hp]; exact State.hasBits_congr hinp hlast)
      (by rw [hp, hep]; exact hend) hlt hover
    refine ⟨_, herr _ _ hstep, rfl, rfl, fun j => ?_⟩
    rw [← read_writeList_lengths hw, ← hclmem]
    rfl
  · intro ts k q info hM hk hlt bits p hb hend hcase
    obtain ⟨hlegal, hused⟩ := hk k List.mem_cons_self
    obtain ⟨cl, u, hu, hcl, hp, hold, herr⟩ := exec_clRead_tokenError ha hi ⟨h1, hn⟩ hm hms hM
      (fun k' h => hk k' (List.mem_cons_of_mem _ h)) hlt hb hend
    have hinp : u.inp = s.inp := by rw [hu]; rfl
    have hep : u.endPos = s.endPos := by rw [hu]; rfl
    have hstep : tokenStep s.a0.toNat (expandTokens 8 ts).length (prevAfter 8 ts) u =
        .error ⟨.readPastEnd, trunc32 info⟩ (u.moveTo q) := by
      rcases hcase with ⟨hshort, htake, rfl, rfl⟩ | ⟨hcode, rfl, hq, hshort, rfl⟩
      · have hsym := decodeSym_short hold hM hused (by rw [hp, hep]; exact hend) (by rw [hp, hep]; exact hshort)
          (by rw [hp, hep]; exact State.hasBits_congr hinp htake)
        rw [hep] at hsym
        exact cmd_bind_of_error hsym
      · have hextra := tokenStep_shortExtra hold hM hlen hused (by rw [hp]; exact State.hasBits_congr hinp hcode)
          (by rw [hp, hep]; exact hq) (by rw [hp, hep]; exact hshort) s.a0.toNat (expandTokens 8 ts).length (prevAfter 8 ts)
        rw [hp] at hextra
        exact hextra
    have hrun := herr _ _ hstep
    rw [hu] at hrun
    refine ⟨_, hrun, ?_, hcl, read_writeList_lengths hw _⟩
    rw [← hcl]
    rfl

end Sys2Proof.Machine
end

section
/-! The pixel commands: the checks of LZ_COPY, XF_PRED_INV, XF_PAL_APPLY, and XF_CHAIN_INV as a run of single commands
(45_lz77.md R235, 46_predictor.md R258 to R261, 47_transforms.md R286 to R290). -/

namespace Sys2Proof.Machine

/-! ### LZ_COPY -/

/-- An error of the image check is LZ_COPY's own. -/
theorem exec_lzCopy_of_imageCheck {s : State} {e : Trap}
    (h : imageCheck (s.atStage .none) = .error e (s.atStage .none)) :
    exec .lzCopy s = .next ((s.atStage .none).takeError e) :=
  runCommand_error (cmd_bind_of_error h)

/-- Settles O45: the image check's errors, then those of `LzCopy` in the order of its answers. -/
theorem lzCopyErrors : Obligations.LzCopyErrors := by
  intro s pos dist len
  refine ⟨fun hw => exec_lzCopy_of_imageCheck (imageCheck_of_imgW_zero hw),
    fun hw hh => exec_lzCopy_of_imageCheck (imageCheck_of_imgH_zero hw hh),
    fun hw hh hc => exec_lzCopy_of_imageCheck (imageCheck_of_capacity hw hh hc), fun hi => ?_⟩
  have fails {e : ErrKind} {info : Nat}
      (h : lzCopy .pix pos dist len s.npix false (s.atStage .none) = .error ⟨e, trunc32 info⟩ (s.atStage .none)) :
      exec .lzCopy s = .next (s.failed e info) :=
    (exec_lzCopy hi).trans (runCommand_error h)
  have happly := lzCopy_apply .pix pos dist len s.npix false (s.atStage .none)
  refine ⟨fun hd => fails (happly.trans (if_pos hd)), fun hd1 hd => ?_⟩
  have hdist : ¬ (dist = 0 ∨ (s.atStage .none).params.lzMaxDistance < dist) := not_or.mpr ⟨by omega, Nat.not_lt.mpr hd⟩
  rw [if_neg hdist] at happly
  refine ⟨fun hp => fails (happly.trans (if_pos hp)), fun hp hl => ?_, fun hp hl1 hl hb => ?_⟩
  · rw [if_neg (Nat.not_lt.mpr hp)] at happly
    exact fails (happly.trans (if_pos hl))
  · have hlen : ¬ (len = 0 ∨ Config.lzMaxLength < len) := not_or.mpr ⟨by omega, Nat.not_lt.mpr hl⟩
    rw [if_neg (Nat.not_lt.mpr hp), if_neg hlen] at happly
    exact fails (happly.trans (if_pos hb))

/-! ### XF_PRED_INV -/

/-- A rebuilt pixel as the statement writes it: its neighbours of the new image, 0 beyond the edge, and the sum channel by
channel. -/
theorem State.Rebuilt.channels {s t : State} {k i : Nat} (h : s.Rebuilt t (descOf k) i) :
    ∃ p, predictPix s.params.mode0Black ((s.blockData k i).toNat / 2 ^ 8 % 16)
        (if 0 < i % s.imgW.toNat then t.pixAt (i - 1) else 0)
        (if 0 < i / s.imgW.toNat then t.pixAt (i - s.imgW.toNat) else 0)
        (if 0 < i % s.imgW.toNat ∧ 0 < i / s.imgW.toNat then t.pixAt (i - s.imgW.toNat - 1) else 0)
        (if 0 < i / s.imgW.toNat ∧ i % s.imgW.toNat < s.imgW.toNat - 1 then t.pixAt (i - s.imgW.toNat + 1) else 0) =
          some p ∧
      ∀ c ∈ [24, 16, 8, 0], chan (t.pixAt i) c = (chan (s.pixAt i) c + chan p c) % 256 := by
  obtain ⟨p, hp, hsum⟩ := h
  refine ⟨p, ?_, fun c hc => ?_⟩
  · simp only [Nat.lt_sub_iff_add_lt]
    exact hp
  · rw [hsum]
    exact chan_addPix _ _ c hc

theorem State.XfOk.imgW_pos {s : State} {k : Nat} {ty : XfType} (h : s.XfOk k ty) : 0 < s.imgW.toNat := by
  obtain ⟨-, -, -, -, -, ⟨hw, -, -⟩, -⟩ := h
  exact Nat.pos_of_ne_zero fun h0 => hw (BitVec.eq_of_toNat_eq h0)

/-- Settles O47: the walk of the inverse predictor behind XfCheck, as far as its blocks have legal modes. -/
theorem xfPredInv : Obligations.XfPredInv := by
  intro s k hw h w mode rebuilt
  have hW := h.imgW_pos
  refine ⟨fun hmode => ?_, fun n hn hbad hmode => ?_⟩
  · obtain ⟨m, hrun, -, hreb, hrest⟩ := invPredictor_ok (s := s.atStage .none) hw hW (descOf k) hmode
    exact ⟨(s.withPix m).completed, (exec_xfPredInv k s).trans (runCommand_checkedUndo_ok h hrun), rfl,
      fun i hi => State.Rebuilt.channels (t := s.withPix m) (hreb i hi), hrest⟩
  · obtain ⟨m, hrun, -, hreb, hrest⟩ := invPredictor_error (s := s.atStage .none) hw hW hn hmode hbad
    exact ⟨(s.withPix m).failed .invalidPredictorMode (mode n),
      (exec_xfPredInv k s).trans (runCommand_checkedUndo_error h hrun), rfl,
      fun i hi => State.Rebuilt.channels (t := s.withPix m) (hreb i hi), hrest⟩

/-! ### XF_PAL_APPLY -/

/-- Settles O51: the walk of the palette behind XfCheck, as far as the indices are in the palette. -/
theorem xfPalApply : Obligations.XfPalApply := by
  intro s k hw h index size
  have low (i : Nat) : (chanB (s.pixAt i)).toNat = index i := chanB_toNat _
  refine ⟨fun hidx => ?_, fun n hn hbad hidx => ?_⟩
  · obtain ⟨m, hrun, -, hread⟩ := palApply_ok (s := s.atStage .none) hw (descOf k)
      fun i hi => (low i).trans_lt (hidx i hi)
    refine ⟨(s.withPix m).completed, (exec_xfPalApply k s).trans (runCommand_checkedUndo_ok h hrun), rfl,
      fun i hi => ?_, fun i hi => (hread i).trans (if_neg (Nat.not_lt.mpr hi))⟩
    rw [← low i]
    exact (hread i).trans (if_pos hi)
  · obtain ⟨m, hrun, -, hread⟩ := palApply_error (s := s.atStage .none) hw hn (fun i hi => (low i).trans_lt (hidx i hi))
      (hbad.trans_eq (low n).symm)
    refine ⟨(s.withPix m).failed .paletteIndexRange (index n), ?_, rfl, fun i hi => ?_,
      fun i hi => (hread i).trans (if_neg (Nat.not_lt.mpr hi))⟩
    · rw [← low n]
      exact (exec_xfPalApply k s).trans (runCommand_checkedUndo_error h hrun)
    · rw [← low i]
      exact (hread i).trans (if_pos hi)

/-! ### The checks of the chain -/

theorem exec_xfChainInv (s : State) : exec .xfChainInv s = runCommand xfChainInvBody s := rfl

theorem exec_xfChainInv_of_imageCheck {s : State} {e : Trap}
    (h : imageCheck (s.atStage .none) = .error e (s.atStage .none)) :
    exec .xfChainInv s = .next ((s.atStage .none).takeError e) :=
  runCommand_error (cmd_bind_of_error h)

theorem exec_xfChainInv_of_imageOk {s : State} (h : s.ImageOk) : exec .xfChainInv s = runCommand invChain s :=
  congrArg finish (cmd_bind_of_ok (imageCheck_ok (h.atStage .none)))

theorem invChain_badCount {s : State} (h : 4 < s.xfCount.toNat) :
    invChain s = .error ⟨.argumentRange, trunc32 s.xfCount.toNat⟩ s :=
  (cmd_bind_of_ok (readState_apply _ _)).trans (cmd_bind_of_error (raiseIf_of h _ _ _))

/-- The first `n` descriptors pass the check of their own type. -/
theorem chainChecks_ok {s : State} {n : Nat} (h : ∀ k < n, s.XfOk k s.xfDesc[descOf k].ty) :
    forRange chainCheck n 0 s = .ok () s := by
  obtain ⟨t, ht, rfl⟩ := forRange_ok (lo := 0) (s := s) (f := chainCheck) (P := fun _ t => t = s) n
    (by
      rintro k t - hk rfl
      exact ⟨t, chainCheck_ok (h k (by omega)), rfl⟩)
    rfl
  exact ht

theorem invChain_of_checks {s : State} (h4 : s.xfCount.toNat ≤ 4)
    (h : ∀ k < s.xfCount.toNat, s.XfOk k s.xfDesc[descOf k].ty) : invChain s = undoTransforms s.xfCount.toNat s :=
  (cmd_bind_of_ok (readState_apply _ _)).trans ((cmd_bind_of_ok (raiseIf_of_not (Nat.not_lt.mpr h4) _ _ _)).trans
    (cmd_bind_of_ok (chainChecks_ok h)))

/-- The first descriptor that fails its check stops the chain there. -/
theorem invChain_of_badCheck {s : State} (h4 : s.xfCount.toNat ≤ 4) {n : Nat} (hn : n < s.xfCount.toNat)
    (h : ∀ k < n, s.XfOk k s.xfDesc[descOf k].ty) {e : Trap} (he : xfCheck n s.xfDesc[descOf n].ty s = .error e s) :
    invChain s = .error e s := by
  have hcheck : chainCheck n s = .error e s := (cmd_bind_of_ok (readState_apply _ _)).trans he
  exact (cmd_bind_of_ok (readState_apply _ _)).trans ((cmd_bind_of_ok (raiseIf_of_not (Nat.not_lt.mpr h4) _ _ _)).trans
    (cmd_bind_of_error (forRange_error hn (chainChecks_ok h) (by rw [Nat.zero_add]; exact hcheck))))

/-! ### The chain as a run of commands -/

/-- The pass that undoes a descriptor of each type. -/
def undoPass (k : Nat) : XfType → Cmd Unit
  | .predictor => invPredictor (descOf k)
  | .color => invColor (descOf k)
  | .subtractGreen => invSubGreen
  | .palette => palApply (descOf k)

theorem undoTransform_apply (k : Nat) (s : State) : undoTransform k s = undoPass k s.xfDesc[descOf k].ty s :=
  (cmd_bind_of_ok (readState_apply _ _)).trans rfl

/-- A single command of the chain is the check and the inverse of its descriptor. -/
theorem exec_undoCommand (s : State) (k : Nat) :
    exec (s.undoCommand k) s = runCommand (checkedUndo k s.xfDesc[descOf k].ty (undoTransform k)) s := by
  have hbody : checkedUndo k s.xfDesc[descOf k].ty (undoTransform k) (s.atStage .none) =
      checkedUndo k s.xfDesc[descOf k].ty (undoPass k s.xfDesc[descOf k].ty) (s.atStage .none) := by
    unfold checkedUndo
    cases hx : xfCheck k s.xfDesc[descOf k].ty (s.atStage .none) with
    | error e t => rw [cmd_bind_of_error hx, cmd_bind_of_error hx]
    | ok a t =>
      obtain ⟨rfl, -⟩ := xfCheck_cases hx
      rw [cmd_bind_of_ok hx, cmd_bind_of_ok hx]
      exact undoTransform_apply k (s.atStage .none)
  refine Eq.trans ?_ (congrArg finish hbody.symm)
  unfold State.undoCommand
  cases s.xfDesc[descOf k].ty with
  | predictor => exact exec_xfPredInv k s
  | color => exact exec_xfColorInv k s
  | subtractGreen => exact exec_xfSubgInv k s
  | palette => exact exec_xfPalApply k s

theorem exec_undoCommand_of_xfOk {s : State} {k : Nat} (h : s.XfOk k s.xfDesc[descOf k].ty) :
    exec (s.undoCommand k) s = finish (undoTransform k (s.atStage .none)) :=
  (exec_undoCommand s k).trans (congrArg finish (cmd_bind_of_ok (xfCheck_ok (h.atStage .none))))

/-- `t` is `s` with other pixels. -/
def State.OnlyPix (s t : State) : Prop := ∃ m : Memory 32, t = s.withPix m

theorem onlyPix_pixClosed (s : State) : PixClosed s.OnlyPix := by
  rintro _ i p ⟨m, rfl⟩
  exact ⟨_, rfl⟩

/-- The inverse of one descriptor changes nothing but pixels. -/
theorem does_undoTransform {P : State → Prop} (C : PixClosed P) (k : Nat) :
    Does P (undoTransform k) (fun _ => True) chainErrors := by
  have walk (g : Nat → State → State) (hg : ∀ i s, P s → P (g i s)) : Does P (do
      let n ← readState State.npix
      forRange (fun i => update fun s => g i s) n 0) (fun _ => True) chainErrors :=
    (does_readState (Q := fun _ => True) fun _ _ => trivial).bind fun n _ =>
      does_forRange n 0 fun i _ _ => does_update fun s hs => hg i s hs
  refine (does_readState (Q := fun _ => True) fun _ _ => trivial).bind fun ty _ => ?_
  cases ty with
  | predictor => exact does_invPredictor C _
  | color => exact walk (fun i s => s.invColorAt (descOf k) i) fun i s hs => C s i _ hs
  | subtractGreen => exact walk (fun i s => s.setPix i (addGreen (s.pixAt i))) fun i s hs => C s i _ hs
  | palette => exact does_palApply C _

/-- The way a command ends does not depend on the DONE and BUSY it ran with. -/
theorem finish_retagResult (st : Stage) (d b d' b' : Bool) (r : EStateM.Result Trap State Unit) :
    finish (retagResult st d b r) = finish (retagResult st d' b' r) := by
  cases r <;> rfl

/-- The inverses after the first command of the chain: STATUS plays no part in them. -/
theorem finish_undoTransforms_complete {t : State} (h : t.stage = .none) (n : Nat) :
    finish (undoTransforms n (t.complete.atStage .none)) = finish (undoTransforms n t) := by
  have hsame : t = t.retag .none t.done t.busy := by
    rw [← h]
    rfl
  calc finish (undoTransforms n (t.complete.atStage .none))
      = finish (undoTransforms n (t.retag .none true false)) := rfl
    _ = finish (retagResult .none true false (undoTransforms n t)) := by rw [statusFree_undoTransforms]
    _ = finish (retagResult .none t.done t.busy (undoTransforms n t)) := finish_retagResult _ _ _ _ _ _
    _ = finish (undoTransforms n t) := by rw [← statusFree_undoTransforms, ← hsame]

/-- The commands of the list in reverse order do what the chain's own loop does. -/
theorem undoRun_eq (n : Nat) {s : State} (herr : s.err = false) (h : ∀ k < n, s.XfOk k s.xfDesc[descOf k].ty) :
    undoRun n s = finish (undoTransforms n (s.atStage .none)) := by
  induction n generalizing s with
  | zero => rfl
  | succ n ih =>
    have hexec := exec_undoCommand_of_xfOk (h n (Nat.lt_succ_self n))
    have hframe := does_undoTransform (onlyPix_pixClosed (s.atStage .none)) n (s.atStage .none) ⟨s.pix, rfl⟩
    unfold undoRun
    rw [hexec]
    cases hrun : undoTransform n (s.atStage .none) with
    | error e t =>
      have hwhole : undoTransforms (n + 1) (s.atStage .none) = .error e t := cmd_bind_of_error hrun
      rw [hwhole]
      rfl
    | ok a t =>
      have hwhole : undoTransforms (n + 1) (s.atStage .none) = undoTransforms n t := cmd_bind_of_ok hrun
      rw [hrun] at hframe
      obtain ⟨⟨m, rfl⟩, -⟩ := hframe
      have hnext := ih (s := ((s.atStage .none).withPix m).complete) herr fun k hk => h k (Nat.lt_succ_of_lt hk)
      rw [hwhole, ← finish_undoTransforms_complete (t := (s.atStage .none).withPix m) rfl, ← hnext]
      exact if_neg (by rw [show (((s.atStage .none).withPix m).complete).err = s.err from rfl, herr]; decide)

/-! ### A chain that completes -/

/-- `t` is `s` with other pixels in the image. -/
def State.OnlyImage (s t : State) : Prop :=
  ∃ m : Memory 32, t = s.withPix m ∧ ∀ i, s.npix ≤ i → m.read .pix i = s.pixAt i

/-- A walk over the image that writes each pixel completes. -/
theorem forRange_onlyImage {f : Nat → Cmd Unit} {s t : State} (ht : s.OnlyImage t)
    (hf : ∀ i < s.npix, ∀ u, s.OnlyImage u → ∃ p, f i u = .ok () (u.setPix i p)) :
    ∃ u, forRange f s.npix 0 t = .ok () u ∧ s.OnlyImage u := by
  refine forRange_ok (lo := 0) (P := fun _ u => s.OnlyImage u) s.npix (fun i u _ hi hu => ?_) ht
  obtain ⟨p, hp⟩ := hf i (by omega) u hu
  obtain ⟨m, rfl, hm⟩ := hu
  refine ⟨_, hp, m.write i p, rfl, fun j hj => ?_⟩
  rw [Memory.read_write_ne _ _ (by omega)]
  exact hm j hj

/-- A palette of 256 entries holds every index, and a predictor whose modes are at most 13 has a value at every pixel. -/
def State.Undoable (s : State) (k : Nat) : Prop :=
  (s.xfDesc[descOf k].ty = .palette → s.xfDesc[descOf k].palSize.toNat = 256) ∧
  (s.xfDesc[descOf k].ty = .predictor → ∀ i < s.npix, (s.blockData k i).toNat / 2 ^ 8 % 16 ≤ 13)

theorem undoTransform_completes {s t : State} {k : Nat} (h : s.Undoable k) (ht : s.OnlyImage t) :
    ∃ u, undoTransform k t = .ok () u ∧ s.OnlyImage u := by
  obtain ⟨hpal, hpred⟩ := h
  have hsame : t.npix = s.npix ∧ t.xfDesc = s.xfDesc := by
    obtain ⟨m, rfl, -⟩ := ht
    exact ⟨rfl, rfl⟩
  have walk (f : Nat → Cmd Unit) (hf : ∀ i < s.npix, ∀ u, s.OnlyImage u → ∃ p, f i u = .ok () (u.setPix i p)) :
      ∃ u, (do
        let n ← readState State.npix
        forRange f n 0) t = .ok () u ∧ s.OnlyImage u := by
    rw [cmd_bind_of_ok (readState_apply _ _), hsame.1]
    exact forRange_onlyImage ht hf
  rw [undoTransform_apply, hsame.2]
  cases hk : s.xfDesc[descOf k].ty with
  | predictor =>
    refine walk (invPredictPixel (descOf k)) fun i hi u hu => ?_
    obtain ⟨m, rfl, -⟩ := hu
    obtain ⟨p, hp⟩ := Option.isSome_iff_exists.mp ((predictPix_isSome _ _ _ _ _ _).trans (decide_eq_true (hpred hk i hi)))
    exact ⟨_, invPredictPixel_ok (s := s.withPix m) hp⟩
  | color => exact walk _ fun i _ u _ => ⟨_, rfl⟩
  | subtractGreen => exact walk _ fun i _ u _ => ⟨_, rfl⟩
  | palette =>
    refine walk (palApplyPixel (descOf k)) fun i _ u hu => ?_
    obtain ⟨m, rfl, -⟩ := hu
    refine ⟨_, palApplyPixel_ok (s := s.withPix m) ?_⟩
    rw [show (s.withPix m).xfDesc[descOf k].palSize.toNat = 256 from hpal hk]
    exact BitVec.isLt _

theorem undoTransforms_completes {s : State} (n : Nat) (h : ∀ k < n, s.Undoable k) {t : State} (ht : s.OnlyImage t) :
    ∃ u, undoTransforms n t = .ok () u ∧ s.OnlyImage u := by
  induction n generalizing t with
  | zero => exact ⟨t, rfl, ht⟩
  | succ n ih =>
    obtain ⟨u, hrun, hu⟩ := undoTransform_completes (h n (Nat.lt_succ_self n)) ht
    obtain ⟨v, hrest, hv⟩ := ih (fun k hk => h k (Nat.lt_succ_of_lt hk)) hu
    exact ⟨v, (cmd_bind_of_ok hrun).trans hrest, hv⟩

/-- Settles O53: the checks in their order, the first that fails stopping the chain as it stops its own command; then the
loop as the run of the commands, and its completion. -/
theorem xfChainInv : Obligations.XfChainInv := by
  intro s
  refine ⟨fun hw => exec_xfChainInv_of_imageCheck (imageCheck_of_imgW_zero hw),
    fun hw hh => exec_xfChainInv_of_imageCheck (imageCheck_of_imgH_zero hw hh),
    fun hw hh hc => exec_xfChainInv_of_imageCheck (imageCheck_of_capacity hw hh hc), fun hi => ?_⟩
  have hexec := exec_xfChainInv_of_imageOk hi
  refine ⟨fun h4 => hexec.trans (runCommand_error (invChain_badCount (s := s.atStage .none) h4)), fun h4 => ?_⟩
  refine ⟨fun n hn hbefore hbad => ?_, fun herr hok => ?_⟩
  · obtain ⟨e, he, info, hcheck⟩ := xfCheck_fails (s := s.atStage .none) hbad
    have hchain : exec .xfChainInv s = .next (s.failed e info) :=
      hexec.trans (runCommand_error (invChain_of_badCheck (s := s.atStage .none) h4 hn hbefore hcheck))
    have hsingle : exec (s.undoCommand n) s = .next (s.failed e info) :=
      (exec_undoCommand s n).trans (runCommand_checkedUndo_of_xfCheck _ hcheck)
    exact ⟨hchain.trans hsingle.symm, e, he, info, hchain⟩
  · have hchain : exec .xfChainInv s = finish (undoTransforms s.xfCount.toNat (s.atStage .none)) :=
      hexec.trans (congrArg finish (invChain_of_checks (s := s.atStage .none) h4 hok))
    refine ⟨hchain.trans (undoRun_eq _ herr hok).symm, fun hundo => ?_⟩
    obtain ⟨t, hrun, m, rfl, hrest⟩ := undoTransforms_completes (s := s.atStage .none) s.xfCount.toNat hundo
      ⟨s.pix, rfl, fun _ _ => rfl⟩
    exact ⟨(s.withPix m).completed, hchain.trans (congrArg finish hrun), rfl, rfl, hrest⟩

end Sys2Proof.Machine
end

section
/-! DECODE of a stream as an encoder writes it: the state that holds the stream, then XF_CHAIN_INV and the conversion
(48_orchestrator.md R310 to R336). -/

namespace Sys2Proof.Machine

theorem exec_decode (s : State) : exec .decode s = runStaged decodeBody s := rfl

/-- The chain answers the same in every stage, but for the stage. -/
theorem invChain_atStage (s : State) (st : Stage) :
    invChain (s.atStage st) = retagResult st s.done s.busy (invChain (s.atStage .none)) :=
  statusFree_invChain st s.done s.busy (s.atStage .none)

/-- After a chain that completes the conversion writes OUT, and the decode is done. -/
theorem finish_afterStream_ok {u w : State} (hout : u.out.wf) (h : invChain (u.atStage .none) = .ok () w) :
    ∃ m : Memory 8, finish (afterStream u) = .next { w.complete with stage := .done, out := m } ∧ (w.withOut m).OutHoldsPix := by
  have hframe := does_invChain (onlyPix_pixClosed (u.atStage .none)) (u.atStage .none) ⟨u.pix, rfl⟩
  rw [h] at hframe
  obtain ⟨⟨p, rfl⟩, -⟩ := hframe
  have hchain : invChain (u.atStage .inverseTransforms) = .ok () ((u.atStage .inverseTransforms).withPix p) := by
    rw [invChain_atStage, h]
    rfl
  obtain ⟨m, hrun, -, hpix⟩ :=
    rgbaConvert_outHoldsPix (s := ((u.atStage .inverseTransforms).withPix p).atStage .pixelFormatConvert) hout
  refine ⟨m, ?_, hpix⟩
  unfold afterStream
  rw [setStage_bind, cmd_bind_of_ok hchain, setStage_bind, cmd_bind_of_ok hrun]
  rfl

/-- An error of the chain is the decode's own. -/
theorem finish_afterStream_error {u w : State} {e : Trap} (h : invChain (u.atStage .none) = .error e w) :
    finish (afterStream u) = .next { w.takeError e with stage := .inverseTransforms } := by
  have hchain : invChain (u.atStage .inverseTransforms) = .error e (w.retag .inverseTransforms u.done u.busy) := by
    rw [invChain_atStage, h]
    rfl
  unfold afterStream
  rw [setStage_bind, cmd_bind_of_error hchain]
  rfl

/-- Settles O55: a decode of a stream's bits reaches a state that holds the stream, and its chain is XF_CHAIN_INV's. -/
theorem decodeStreams : Obligations.DecodeStreams := by
  intro s d hm hi ha hd hb hend
  obtain ⟨u, hu, hparams, hinp, hlen, herr, hmem, himage, hrun⟩ := decodeBody_runs hm hi ha hd hb hend
  have hdecode : exec .decode s = finish (afterStream u) := congrArg finish hrun
  have hchain : exec .xfChainInv u = finish (invChain (u.atStage .none)) := exec_xfChainInv_of_imageOk himage
  cases h : invChain (u.atStage .none) with
  | ok a w =>
    rw [h] at hchain
    refine ⟨u, w.complete, hu, hparams, hinp, hlen, herr, hchain, fun _ => ?_, fun hdone => ?_⟩
    · obtain ⟨-, hout, -⟩ := hmem
      obtain ⟨m, hfinish, hpix⟩ := finish_afterStream_ok hout h
      exact ⟨_, hdecode.trans hfinish, rfl, hpix⟩
    · exact absurd (show true = false from hdone) (by decide)
  | error e w =>
    rw [h] at hchain
    refine ⟨u, w.takeError e, hu, hparams, hinp, hlen, herr, hchain, fun hdone => ?_,
      fun _ => hdecode.trans (finish_afterStream_error h)⟩
    exact absurd (show false = true from hdone) (by decide)

end Sys2Proof.Machine
end

section
/-! What a DECODE that completes leaves, stage by stage: the header's fields, the list, the groups, the tables and the
output bytes (48_orchestrator.md R311 to R340). -/

namespace Sys2Proof.Machine

/-! ### The header -/

/-- The state DECODE parses the header in. -/
def State.decodeStart (s : State) : State := (s.atStage .header).decodeInit

/-- Behind its input check DECODE is the header parser and what follows it. -/
theorem decodeBody_of_inputOk {s : State} (hi : s.InputOk) : decodeBody s = (do
    let hd ← parseHeader
    setStage .transformList
    afterHeader hd) s.decodeStart :=
  (setStage_bind _ _ s).trans ((cmd_bind_of_ok (inputCheck_ok (hi.atStage .header))).trans
    (cmd_bind_of_ok (update_apply _ _)))

theorem decodeBody_badInput {s : State} (hi : ¬ s.InputOk) :
    decodeBody s = .error ⟨.argumentRange, trunc32 s.inLen.toNat⟩ (s.atStage .header) :=
  (setStage_bind _ _ s).trans (cmd_bind_of_error (inputCheck_error (s := s.atStage .header) hi))

/-- The header parser on the bytes of the state DECODE began in. -/
theorem parseHeader_decodeStart (s : State) :
    parseHeader s.decodeStart =
      if s.inLen.toNat < 5 then .error ⟨.truncatedHeader, s.inLen⟩ s.decodeStart
      else if s.inByte 0 ≠ signature then .error ⟨.badSignature, trunc32 (s.inByte 0)⟩ (s.decodeStart.moveTo 8)
      else if s.inByte 4 / 32 ≠ 0 then
        .error ⟨.unsupportedVersion, trunc32 (s.inByte 4 / 32)⟩ (s.decodeStart.moveTo 40)
      else if s.params.pixCapacity < s.headerW * s.headerH then
        .error ⟨.capacityExceeded, trunc32 (s.headerW * s.headerH)⟩ s.decodeStart.headed
      else .ok ⟨s.headerW, s.headerH, s.headerAlpha⟩ s.decodeStart.headed :=
  parseHeader_apply rfl

/-- The header's fields, as its parser answers them. -/
def State.header (s : State) : Header := ⟨s.headerW, s.headerH, s.headerAlpha⟩

/-- The state a decode is in behind a sound header. -/
def State.afterDecodeHeader (s : State) : State := s.decodeStart.headed.atStage .transformList

/-- The bytes of the header pass the checks of R312 to R314. -/
structure State.HeaderSound (s : State) : Prop where
  input     : s.InputOk
  length    : 5 ≤ s.inLen.toNat
  signature : s.inByte 0 = 0x2F
  version   : s.inByte 4 / 32 = 0
  capacity  : s.headerW * s.headerH ≤ s.params.pixCapacity

/-- A decode that completes had a sound header, and the rest of it completed. -/
theorem afterHeader_of_decodeBody_ok {s t : State} (h : decodeBody s = .ok () t) :
    s.HeaderSound ∧ afterHeader s.header s.afterDecodeHeader = .ok () t := by
  by_cases hi : s.InputOk
  · rw [decodeBody_of_inputOk hi, cmd_bind_apply, parseHeader_decodeStart] at h
    split_ifs at h with h5 h0 h4 hc
    exact ⟨⟨hi, by omega, not_not.mp h0, not_not.mp h4, by omega⟩, h⟩
  · rw [decodeBody_badInput hi] at h
    cases h

theorem State.HeaderSound.headerRead {s : State} (h : s.HeaderSound) (hm : s.MemWf) :
    s.afterDecodeHeader.HeaderRead s.header := by
  have hbefore := State.beforeHeader_decodeInit (s := s.atStage .header) rfl hm
  exact (State.headerRead_headed (s := s.decodeStart) hbefore.mem rfl h.length h.capacity).atStage .transformList

theorem State.afterDecodeHeader_pos (s : State) : s.afterDecodeHeader.pos = 40 := s.decodeStart.pos_moveTo (by decide)

theorem State.afterDecodeHeader_err (s : State) : s.afterDecodeHeader.err = s.err := rfl
theorem State.afterDecodeHeader_brStart (s : State) : s.afterDecodeHeader.brStart = 0 := rfl
theorem State.afterDecodeHeader_imgAlpha (s : State) : s.afterDecodeHeader.imgAlpha = s.headerAlpha := rfl
theorem State.afterDecodeHeader_imgVersion (s : State) : s.afterDecodeHeader.imgVersion = 0 := rfl
theorem State.afterDecodeHeader_params (s : State) : s.afterDecodeHeader.params = s.params := rfl

/-! ### Behind the declaration of the groups -/

/-- A state in stage `st` after the groups were declared in `g`: the list, the groups and the image registers stay. -/
def State.Carries (g : State) (st : Stage) (s : State) : Prop := g.InStage st s ∧ g.SameGroups s

theorem State.Carries.next {g s : State} {st : Stage} (h : g.Carries st s) (st' : Stage) : g.Carries st' (s.atStage st') :=
  ⟨h.1.next st', h.2⟩

theorem carries_imageClosed (g : State) (st : Stage) : ImageClosed (g.Carries st) :=
  (inStage_imageClosed g st).and (sameGroups_imageClosed g)

/-- A legal color cache, and the tables of the main group valid: the alpha tree's exactly where the stream has one. -/
structure State.Drawn (at_ : Bool) (s : State) : Prop where
  ccBits : s.ccBits.toNat ≤ 11
  main   : ∀ u ∈ [(0 : Fin 7), 1, 2, 4], s.tabInfo[u].valid = true
  alpha  : s.tabInfo[(3 : Fin 7)].valid = true ↔ at_ = true

theorem State.Drawn.congr {s u : State} {at_ : Bool} (h : s.Drawn at_) (hcc : u.ccBits = s.ccBits)
    (hinfo : u.tabInfo = s.tabInfo) : u.Drawn at_ := by
  refine ⟨?_, ?_, ?_⟩
  · rw [hcc]
    exact h.ccBits
  · rw [hinfo]
    exact h.main
  · rw [hinfo]
    exact h.alpha

theorem drawn_streamClosed (at_ : Bool) : StreamClosed .pix (State.Drawn at_) :=
  ⟨fun _ _ hs _ _ => hs.congr rfl rfl, fun _ _ _ hs => hs.congr rfl rfl,
    fun s v hs => hs.congr (cacheInsert_ccBits s v) (cacheInsert_tabInfo s v)⟩

theorem State.GroupOk.drawn {s : State} {cs : Nat} {at_ : Bool} (h : s.GroupOk cs at_)
    (h3 : at_ = false → s.tabInfo[(3 : Fin 7)].valid = false) {cb : Nat} (hcb : cb ≤ Config.cacheMaxBits) :
    (s.clearCache cb).Drawn at_ := by
  obtain ⟨⟨h0, -⟩, ⟨h1, -⟩, ⟨h2, -⟩, halpha, ⟨h4, -⟩⟩ := h
  refine ⟨?_, ?_, ?_⟩
  · show (BitVec.ofNat 4 cb).toNat ≤ 11
    have hcb : cb ≤ 11 := hcb
    rw [BitVec.toNat_ofNat]
    omega
  · simp only [List.mem_cons, List.not_mem_nil, or_false]
    rintro u (rfl | rfl | rfl | rfl)
    · exact h0
    · exact h1
    · exact h2
    · exact h4
  · cases at_ with
    | true => exact iff_of_true (halpha rfl).1 rfl
    | false => exact iff_of_false (by rw [show (s.clearCache cb).tabInfo = s.tabInfo from rfl, h3 rfl]; decide) (by decide)

section

variable {g : State}

/-- The main group, then the groups after it, which leave its tables. -/
theorem hoare_groups_carries {cs : Nat} (hcs : cs ≤ Config.cacheCapacity) (at_ : Bool) (n : Nat) :
    Hoare (g.Carries .huffmanGroups)
      (do readGroup cs at_ true; forRange (fun _ => readGroup cs at_ false) n 1)
      (fun _ s => g.Carries .huffmanGroups s ∧ s.GroupOk cs at_ ∧ (at_ = false → s.tabInfo[(3 : Fin 7)].valid = false))
      (fun _ _ => True) := by
  have C := (carries_imageClosed g .huffmanGroups).tree
  have main := hoare_readGroup_primary (C.mono fun _ _ => trivial) hcs at_
  have others := hoare_otherGroups ((C.mono fun _ _ => trivial).and (groupOk_treeClosed cs at_)) hcs at_ n
  refine Hoare.bind (main.conseq (fun _ hs => ⟨hs, hs.1.lengthsWf⟩) ?_ fun _ _ _ => trivial) fun _ =>
    others.conseq (fun _ hs => hs) (fun _ _ hs => hs.1) fun _ _ _ => trivial
  rintro - s ⟨hs, hw, hg, h3⟩
  exact ⟨⟨hs, hg, h3⟩, hw⟩

theorem hoare_pixels_carries {cb n : Nat} (hcb : cb ≤ Config.cacheMaxBits) (at_ : Bool) :
    Hoare (fun s => g.Carries .pixelStream s ∧ s.GroupOk (cacheSize cb) at_ ∧
        (at_ = false → s.tabInfo[(3 : Fin 7)].valid = false))
      (do cacheInit cb; pixelStream .pix n at_) (fun _ s => g.Carries .pixelStream s ∧ s.Drawn at_) (fun _ _ => True) := by
  rintro s ⟨hs, hg, h3⟩
  have C := ((carries_imageClosed g .pixelStream).stream .pix (.inl rfl)).and (drawn_streamClosed at_)
  have stream := does_pixelStream (C.and (group_streamClosed (.inl rfl) (cacheSize cb) (cacheSize cb) at_))
    (fun _ hs => hs.2) n
  rw [cmd_bind_of_ok (cacheInit_ok hcb s)]
  exact stream.conseq (fun _ hs => hs) (fun _ _ hs => hs.1.1) (fun _ _ _ => trivial) _
    ⟨⟨(carries_imageClosed g .pixelStream).clearCache s cb hs hcb, hg.drawn h3 hcb⟩, hg.congr rfl rfl, clearCache_ccSize hcb s⟩

/-- What the end of the decode keeps of the pixels' stage. -/
def State.CarriesDrawn (g : State) (st : Stage) (at_ : Bool) (s : State) : Prop := g.Carries st s ∧ s.Drawn at_

theorem carriesDrawn_pixClosed (g : State) (st : Stage) (at_ : Bool) : PixClosed (g.CarriesDrawn st at_) := by
  intro s i p h
  have C := ((carries_imageClosed g st).stream .pix (.inl rfl)).and (drawn_streamClosed at_)
  exact C.setElem s i p h

theorem State.CarriesDrawn.withOut {st : Stage} {at_ : Bool} {s : State} (h : g.CarriesDrawn st at_ s) {m : Memory 8}
    (hm : m.wf) : g.CarriesDrawn st at_ (s.withOut m) := by
  obtain ⟨⟨⟨hsince, hlist⟩, hgroups⟩, hdrawn⟩ := h
  exact ⟨⟨⟨hsince.withOut hm, hlist⟩, hgroups⟩, hdrawn.congr rfl rfl⟩

theorem hoare_setStage_carriesDrawn (st st' : Stage) (at_ : Bool) {E : Trap → State → Prop} :
    Hoare (g.CarriesDrawn st at_) (setStage st') (fun _ => g.CarriesDrawn st' at_) E :=
  hoare_update fun _ hs => ⟨hs.1.next st', hs.2.congr rfl rfl⟩

theorem hoare_chain_carriesDrawn {seen : List XfType} (hl : g.ListOk seen) (hi : g.ImageOk) (at_ : Bool) :
    Hoare (g.CarriesDrawn .inverseTransforms at_) invChain (fun _ => g.CarriesDrawn .inverseTransforms at_)
      (fun _ _ => True) := by
  refine (hoare_invChain (carriesDrawn_pixClosed g .inverseTransforms at_) ?_).conseq (fun _ hs => hs) (fun _ _ hs => hs)
    fun _ _ _ => trivial
  rintro s ⟨⟨⟨hs, hdesc, hcount⟩, -⟩, -⟩
  have hL : s.ListOk seen := hl.congr hdesc hcount hs.params hs.imgW hs.imgH
  have hI : s.ImageOk := hi.congr hs.params hs.imgW hs.imgH
  refine ⟨?_, fun k hk => hL.xfOk hI hk⟩
  rw [hL.count]
  exact XfType.length_le hL.nodup

theorem hoare_conversion_carriesDrawn (st : Stage) (at_ : Bool) :
    Hoare (g.CarriesDrawn st at_) rgbaConvert (fun _ s => g.CarriesDrawn st at_ s ∧ s.OutHoldsPix) (fun _ _ => True) := by
  intro s hs
  obtain ⟨m, hrun, hm, hpix⟩ := rgbaConvert_outHoldsPix hs.1.1.outWf
  rw [hrun]
  exact ⟨hs.withOut hm, hpix⟩

theorem hoare_afterStream_results {seen : List XfType} (hl : g.ListOk seen) (hi : g.ImageOk) (at_ : Bool) :
    Hoare (g.CarriesDrawn .pixelStream at_) afterStream (fun _ s => g.CarriesDrawn .done at_ s ∧ s.OutHoldsPix)
      (fun _ _ => True) :=
  (hoare_setStage_carriesDrawn _ .inverseTransforms at_).bind fun _ => (hoare_chain_carriesDrawn hl hi at_).bind fun _ =>
    (hoare_setStage_carriesDrawn _ .pixelFormatConvert at_).bind fun _ =>
      (hoare_conversion_carriesDrawn .pixelFormatConvert at_).bind fun _ =>
        hoare_update fun _ hs => ⟨⟨hs.1.1.next .done, hs.1.2.congr rfl rfl⟩, hs.2⟩

end

/-! ### The whole decode -/

/-- What is left of a decode once the groups are declared. -/
def afterGroups (hd : Header) (cb ng : Nat) : Cmd Unit := do
  setStage .huffmanGroups
  let at_ ← readState fun s => s.alphaTree hd.alpha
  readGroup (cacheSize cb) at_ true
  forRange (fun _ => readGroup (cacheSize cb) at_ false) (ng - 1) 1
  setStage .pixelStream
  cacheInit cb
  pixelStream .pix (hd.w * hd.h) at_
  afterStream

theorem afterList_eq (hd : Header) : afterList hd = (do
    setStage .colorCacheSize
    let cb ← readCacheBits
    setStage .entropyImage
    let ng ← readMetaPrefix hd.w hd.h
    afterGroups hd cb ng) := rfl

theorem State.alphaTree_congr {s u : State} (h : u.params = s.params) (alpha : Bool) :
    u.alphaTree alpha = s.alphaTree alpha := by
  unfold State.alphaTree
  rw [h]

theorem State.alphaTree_iff (s : State) (alpha : Bool) :
    s.alphaTree alpha = true ↔ s.params.alphaTreePolicy = .always ∨ alpha = true := by
  unfold State.alphaTree
  cases s.params.alphaTreePolicy with
  | always => simp
  | ifAlphaFlag => simp

theorem hoare_afterGroups {g : State} {seen : List XfType} (hl : g.ListOk seen) (hi : g.ImageOk) (hd : Header) {cb : Nat}
    (hcb : cb ≤ Config.cacheMaxBits) (ng : Nat) :
    Hoare (g.Carries .entropyImage) (afterGroups hd cb ng)
      (fun _ s => g.CarriesDrawn .done (g.alphaTree hd.alpha) s ∧ s.OutHoldsPix) (fun _ _ => True) := by
  refine Hoare.bind (R := fun _ => g.Carries .huffmanGroups) (hoare_update fun _ hs => hs.next .huffmanGroups) fun _ => ?_
  refine Hoare.bind (R := fun at_ s => g.Carries .huffmanGroups s ∧ at_ = g.alphaTree hd.alpha)
    (hoare_readState fun s hs => ⟨hs, State.alphaTree_congr hs.1.1.params hd.alpha⟩) fun at_ => ?_
  rintro s ⟨hs, rfl⟩
  refine Hoare.bind_pair (hoare_groups_carries (Closed.cacheSize_le hcb) _ (ng - 1)) (fun _ => ?_) s hs
  refine Hoare.bind (R := fun _ s => g.Carries .pixelStream s ∧ s.GroupOk (cacheSize cb) (g.alphaTree hd.alpha) ∧
      (g.alphaTree hd.alpha = false → s.tabInfo[(3 : Fin 7)].valid = false))
    (hoare_update fun _ hs => ⟨hs.1.next .pixelStream, hs.2⟩) fun _ => ?_
  exact (hoare_pixels_carries hcb _).bind_pair fun _ => hoare_afterStream_results hl hi _

/-- What a decode behind the header `hd`, read in the state `c`, leaves when it completes: `g` is the state that declared the
groups. -/
structure State.Results (c : State) (hd : Header) (g : State) (seen : List XfType) (ng : Nat) (t : State) : Prop where
  since  : (c.atStage .entropyImage).Since g
  list   : g.ListOk seen
  image  : g.ImageOk
  groups : g.GroupsDeclared ng
  drawn  : g.CarriesDrawn .done (g.alphaTree hd.alpha) t
  out    : t.OutHoldsPix

theorem hoare_afterHeader_results {c : State} {hd : Header} (hc : c.HeaderRead hd) (hst : c.stage = .transformList) :
    Hoare (fun s => s = c) (afterHeader hd) (fun _ t => ∃ g seen ng, c.Results hd g seen ng t) (fun _ _ => True) := by
  intro s hs
  rw [hs, afterHeader_eq, ← hc.imgW, ← hc.imgH]
  refine Hoare.bind ((hoare_transformLoop (c := c) 5 []).conseq (fun _ hs => hs) (fun _ _ hs => hs) fun _ _ _ => trivial)
    (fun _ => ?_) c ⟨State.Since.refl hc.cursor hc.mem, hc.list⟩
  rintro l ⟨hs, seen, hl⟩
  rw [afterList_eq]
  have begun : l.InStage .transformList l := by
    have h := hs.inStage
    rwa [hs.stage, hst] at h
  refine Hoare.bind (hoare_setStage l _ .colorCacheSize) (fun _ => Hoare.bind
    (hoare_cacheSizeStage.conseq (fun _ hs => hs) (fun _ _ hs => hs) fun _ _ _ => trivial) fun cb => ?_) l begun
  rintro s ⟨hcs, hcb⟩
  refine Hoare.bind (hoare_setStage l _ .entropyImage) (fun _ => Hoare.bind
    ((hoare_readMetaPrefix (c := l.atStage .entropyImage) hd.w hd.h).conseq (fun _ hs => hs) (fun _ _ hs => hs)
      fun _ _ _ => trivial) fun ng => ?_) s hcs
  rintro g ⟨⟨hsince, hdesc, hcount⟩, hgroups⟩
  have hL : g.ListOk seen := hl.congr hdesc hcount hsince.params hsince.imgW hsince.imgH
  have hI : g.ImageOk := (hc.image.congr hs.params hs.imgW hs.imgH).congr hsince.params hsince.imgW hsince.imgH
  have hcg : (c.atStage .entropyImage).Since g := (hs.atStage .entropyImage).trans hsince
  have hgs : g.Carries .entropyImage g := by
    have h := hsince.inStage
    rw [hsince.stage] at h
    exact ⟨h, rfl, rfl, rfl⟩
  exact (hoare_afterGroups hL hI hd hcb ng).conseq (fun _ hs => hs)
    (fun _ t ht => ⟨g, seen, ng, hcg, hL, hI, hgroups, ht.1, ht.2⟩) (fun _ _ hs => hs) g hgs

/-- Settles O58: the triples of the stages, read at the state a completed decode ends in. -/
theorem decodeResults : Obligations.DecodeResults := by
  intro s t hm ht hdone
  rcases finish_cases ht with ⟨u, hu, rfl⟩ | ⟨e, u, -, rfl⟩
  · obtain ⟨hsound, hrun⟩ := afterHeader_of_decodeBody_ok hu
    have hc := hsound.headerRead hm
    obtain ⟨g, seen, ng, hres⟩ := (hoare_afterHeader_results hc rfl).ok rfl hrun
    obtain ⟨⟨⟨⟨hsince, hdesc, hcount⟩, hng, hep, heb⟩, hcc, hmain, htree⟩, hout⟩ := And.intro hres.drawn hres.out
    have hL : u.ListOk seen := hres.list.congr hdesc hcount hsince.params hsince.imgW hsince.imgH
    have hI : u.ImageOk := hres.image.congr hsince.params hsince.imgW hsince.imgH
    have hcu : (s.afterDecodeHeader.atStage .done).Since u := (hres.since.atStage .done).trans hsince
    have hlow := hcu.low
    rw [State.atStage_pos, State.afterDecodeHeader_pos] at hlow
    have herr : u.complete.err = s.err := hcu.err.trans s.afterDecodeHeader_err
    have hstart : u.complete.brStart = 0 := hcu.brStart.trans s.afterDecodeHeader_brStart
    have halpha : u.complete.imgAlpha = s.headerAlpha := hcu.imgAlpha.trans s.afterDecodeHeader_imgAlpha
    have hversion : u.complete.imgVersion = 0 := hcu.imgVersion.trans s.afterDecodeHeader_imgVersion
    have hW : u.complete.imgW.toNat = s.headerW := (congrArg BitVec.toNat hcu.imgW).trans hc.imgW
    have hH : u.complete.imgH.toNat = s.headerH := (congrArg BitVec.toNat hcu.imgH).trans hc.imgH
    refine ⟨hcu.stage, herr, hstart, hlow, hcu.high, hsound.signature, hsound.version, hW, hH, halpha,
      hversion, hI, hL.count.trans_le (XfType.length_le hL.nodup), fun k hk => hL.xfOk hI hk,
      fun k hk k' hk' h => hL.distinct hk hk' h, ?_, ?_, fun h => ?_, fun h => ?_, hcc, hmain, ?_, hout⟩
    · rw [show u.complete.nGroups = g.nGroups from hng, hres.groups.count]
      exact hres.groups.low
    · rw [show u.complete.nGroups = g.nGroups from hng, hres.groups.count]
      exact hres.groups.high
    · obtain ⟨hone, hbits⟩ := hres.groups.absent (hep.symm.trans h)
      exact ⟨hng.trans (BitVec.eq_of_toNat_eq (hres.groups.count.trans hone)), heb.trans hbits⟩
    · rw [show u.complete.entBits = g.entBits from heb]
      exact hres.groups.present (hep.symm.trans h)
    · have hparams : g.params = s.params := hres.since.params.trans s.afterDecodeHeader_params
      rw [halpha, ← hparams]
      exact htree.trans (g.alphaTree_iff _)
  · cases hdone

end Sys2Proof.Machine
end

section
/-! DECODE of the literal streams: sixteen symbols of length 4 in every tree, literal pixels, and no transform but at most
one subtract-green (48_orchestrator.md R310). -/

namespace Sys2Proof.Machine

/-! ### The tree of sixteen symbols -/

/-- Sixteen symbols of length 4 in the literal form. -/
def sixteen : TreeCode := .literal (List.replicate 16 4)

theorem sixteen_bits (order : List Nat) : sixteen.bits order = sixteenTree := rfl

theorem length_sixteenTree : sixteenTree.length = 53 := by
  simp [sixteenTree, length_lsbBits]

theorem sixteen_lengths (n : Nat) : sixteen.lengths n = List.replicate 16 4#8 ++ List.replicate (n - 16) 0#8 := by
  simp [sixteen, TreeCode.lengths]

theorem lengthAt_sixteen {n v : Nat} (hv : v < 16) : lengthAt (sixteen.lengths n) v = 4 := by
  rw [sixteen_lengths, lengthAt, List.getD_append _ _ _ _ (by simpa using hv), List.getD_replicate _ hv]
  rfl

theorem kraftSum_sixteen (n : Nat) : kraftSum (sixteen.lengths n) = 2 ^ 15 := by
  rw [sixteen_lengths, kraftSum, List.map_append, List.sum_append, List.map_replicate, List.map_replicate,
    List.sum_replicate, List.sum_replicate]
  simp

theorem lengthCount_sixteen {n len : Nat} (h : len < 4) : lengthCount (sixteen.lengths n) len = 0 := by
  unfold lengthCount
  split_ifs with h0
  · rfl
  · rw [sixteen_lengths, List.filter_append, List.filter_replicate, List.filter_replicate,
      if_neg (by simp; omega), if_neg (by simp; omega)]
    rfl

/-- The codes of the sixteen symbols are their indices. -/
theorem canonicalCode_sixteen {n v : Nat} (hv : v < 16) : canonicalCode (sixteen.lengths n) v = v := by
  have hfirst : firstCode (sixteen.lengths n) 4 = 0 := by
    simp only [firstCode, lengthCount_sixteen (show 0 < 4 by decide), lengthCount_sixteen (show 1 < 4 by decide),
      lengthCount_sixteen (show 2 < 4 by decide), lengthCount_sixteen (show 3 < 4 by decide)]
  have htake : (sixteen.lengths n).take v = List.replicate v 4#8 := by
    rw [sixteen_lengths, List.take_append_of_le_length (by simp; omega), List.take_replicate, Nat.min_eq_left hv.le]
  rw [canonicalCode, lengthAt_sixteen hv, hfirst, htake, List.filter_replicate, if_pos (by decide), List.length_replicate,
    Nat.zero_add]

theorem codeBits_sixteen {n v : Nat} (hv : v < 16) : codeBits (sixteen.lengths n) v = msbBits v 4 := by
  rw [codeBits, canonicalCode_sixteen hv, lengthAt_sixteen hv]

theorem sixteen_buildable (n : Nat) : Buildable (sixteen.lengths n) := by
  refine ⟨fun b hb => ?_, .inl (kraftSum_sixteen n)⟩
  rw [sixteen_lengths, List.mem_append, List.mem_replicate, List.mem_replicate] at hb
  rcases hb with ⟨-, rfl⟩ | ⟨-, rfl⟩ <;> decide

theorem sixteen_ok (order : List Nat) {n : Nat} (hn : 16 ≤ n) : sixteen.Ok order n :=
  ⟨sixteen_buildable n, by decide, by decide, hn, fun v hv => by rw [List.eq_of_mem_replicate hv]; decide⟩

/-! ### Reading such trees -/

/-- The lengths of the tree, read from its bits in the literal form. -/
theorem readCodeLengths_sixteen {s : State} {n : Nat} (hn : 16 ≤ n) (hw : s.clmem.wf) (hb : s.HasBits s.pos sixteenTree)
    (hend : s.pos + 53 ≤ s.endPos) :
    ∃ t, readCodeLengths n s = .ok () t ∧ t.pos = s.pos + 53 ∧ t.codeLengths n = sixteen.lengths n := by
  have hlen : (sixteen.lengths n).length = n := TreeCode.length_lengths (sixteen_ok [] hn)
  rw [sixteenTree, State.hasBits_append, State.hasBits_append] at hb
  obtain ⟨⟨hflag, hcount⟩, hlens⟩ := hb
  have h0 : s.field s.pos 1 = 0 := State.field_of_lsbBits (x := 0) hflag (by decide)
  have h12 : s.field (s.pos + 1) 4 = 12 := State.field_of_lsbBits hcount (by decide)
  obtain ⟨c, hrun, -, hread⟩ := readCodeLengths_literal (s := s) (n := n) (cnt := 16) hw h0 (by omega) hn (by omega)
  have hfield (j : Nat) (hj : j < 16) : s.field (s.pos + 5 + 3 * j) 3 = 4 := by
    have h := State.field_of_threeBits (vs := List.replicate 16 4) (fun v hv => by rw [List.eq_of_mem_replicate hv]; decide)
      hlens j (by simpa using hj)
    rw [List.getElem_replicate] at h
    exact h
  refine ⟨_, hrun, State.pos_lensAt _ hend _, ?_⟩
  conv_lhs => rw [← hlen]
  refine State.codeLengths_eq fun j hj => ?_
  rw [State.lensAt_clmem, hread j]
  simp only [sixteen_lengths]
  by_cases hj16 : j < 16
  · rw [if_pos hj16, hfield j hj16, List.getElem_append_left (by simpa using hj16), List.getElem_replicate]
  · rw [if_neg hj16, if_pos (by omega), List.getElem_append_right (by simpa using hj16), List.getElem_replicate]
    rfl

theorem readTree_sixteen {s : State} {u : Fin 7} {n : Nat} (hm : s.MemWf) (h16 : 16 ≤ n) (hn : n ≤ 4096)
    (hb : s.HasBits s.pos sixteenTree) (hend : s.pos + 53 ≤ s.endPos) :
    ∃ t, readTree u n s = .ok () t ∧ t.pos = s.pos + 53 ∧ t.SlotHolds u (sixteen.lengths n) ∧
      ∀ P : State → Prop, TreeClosed (fun v => v = metaSlot ∨ v = u) P → P s → P t := by
  obtain ⟨-, -, -, -, hw, -⟩ := hm
  obtain ⟨t, hrun, hp, hlens⟩ := readCodeLengths_sixteen h16 hw hb hend
  have htree : readTree u n s = .ok () (t.built u (sixteen.lengths n)) := by
    unfold readTree
    rw [cmd_bind_of_ok hrun, cmd_bind_of_ok (readState_apply _ _), hlens, build_ok (sixteen_buildable n)]
  refine ⟨_, htree, hp, State.built_slotHolds _ _ _, fun P C hs => ?_⟩
  have hkept := hoare_readTree C (.inl rfl) (.inr rfl) hn s ⟨hs, hw⟩
  rw [htree] at hkept
  exact hkept.1.1

/-- The trees of the main group, one after another. -/
theorem readTrees_sixteen (l : List (Fin 7 × Nat)) {s : State} (hm : s.MemWf)
    (hl : ∀ x ∈ l, 16 ≤ x.2 ∧ x.2 ≤ 4096 ∧ x.1 ≠ metaSlot) (hd : (l.map Prod.fst).Nodup)
    (hb : s.HasBits s.pos (List.replicate l.length sixteenTree).flatten) (hend : s.pos + 53 * l.length ≤ s.endPos) :
    ∃ t, readTrees true l s = .ok () t ∧ t.pos = s.pos + 53 * l.length ∧
      (∀ x ∈ l, t.SlotHolds x.1 (sixteen.lengths x.2)) ∧
      ∀ P : State → Prop, TreeClosed (fun v => v = metaSlot ∨ v ∈ l.map Prod.fst) P → P s → P t := by
  induction l generalizing s with
  | nil => exact ⟨s, rfl, rfl, fun x hx => absurd hx List.not_mem_nil, fun _ _ hs => hs⟩
  | cons x l ih =>
    obtain ⟨h16, hn, hmeta⟩ := hl x List.mem_cons_self
    rw [List.length_cons, List.replicate_succ, List.flatten_cons, State.hasBits_append, length_sixteenTree] at hb
    rw [List.length_cons] at hend ⊢
    rw [List.map_cons, List.nodup_cons] at hd
    obtain ⟨hfirst, hrest⟩ := hb
    obtain ⟨hnew, hdistinct⟩ := hd
    obtain ⟨t, htree, hp, hold, hkeep⟩ := readTree_sixteen (u := x.1) hm h16 hn hfirst (by omega)
    have hS : s.Since t := hkeep _ ((since_imageClosed s).tree.mono fun _ _ => trivial) (State.Since.refl (by omega) hm)
    obtain ⟨w, htrees, hq, holds, hkeeps⟩ := ih (s := t) hS.mem (fun y hy => hl y (List.mem_cons_of_mem _ hy)) hdistinct
      (by rw [hp]; exact State.hasBits_congr hS.inp hrest) (by rw [hp, hS.endPos]; omega)
    refine ⟨w, (cmd_bind_of_ok htree).trans htrees, by omega, fun y hy => ?_, fun P C hs => ?_⟩
    · rcases List.mem_cons.mp hy with rfl | hy
      · exact hkeeps _ (slotHolds_treeClosed (fun h => h.elim hmeta hnew) _) hold
      · exact holds y hy
    · refine hkeeps P (C.mono fun v hv => hv.imp_right (List.mem_cons_of_mem _)) (hkeep P (C.mono fun v hv => ?_) hs)
      rcases hv with hv | rfl
      · exact .inl hv
      · exact .inr List.mem_cons_self

/-- The group whose trees are all the tree of sixteen symbols. -/
def sixteenGroup : GroupCode := ⟨sixteen, sixteen, sixteen, sixteen, sixteen⟩

theorem sixteenGroup_trees (at_ : Bool) :
    sixteenGroup.trees 0 at_ = (groupTrees 0 at_).map fun x => (x.1, sixteen, x.2) := by
  cases at_ <;> rfl

theorem sixteenGroup_ok (order : List Nat) (at_ : Bool) : sixteenGroup.Ok order 0 at_ := by
  intro x hx
  rcases GroupCode.mem_trees.mp hx with rfl | rfl | rfl | ⟨-, rfl⟩ | rfl <;> exact sixteen_ok order (by decide)

/-- The number of trees in a group. -/
theorem length_groupTrees (at_ : Bool) : (groupTrees 0 at_).length = if at_ then 5 else 4 := by
  cases at_ <;> rfl

/-- The main group of a literal stream, read from its bits (48_orchestrator.md R326). -/
theorem readGroup_sixteen {s : State} (at_ : Bool) (hm : s.MemWf)
    (hb : s.HasBits s.pos (List.replicate (if at_ then 5 else 4) sixteenTree).flatten)
    (hend : s.pos + 53 * (if at_ then 5 else 4) ≤ s.endPos) :
    ∃ t, readGroup 0 at_ true s = .ok () t ∧ t.pos = s.pos + 53 * (if at_ then 5 else 4) ∧
      t.TablesHold sixteenGroup 0 at_ ∧ ∀ P : State → Prop, TreeClosed (fun _ => True) P → P s → P t := by
  rw [← length_groupTrees] at hb hend ⊢
  have hslots : ∀ x ∈ groupTrees 0 at_, 16 ≤ x.2 ∧ x.2 ≤ 4096 ∧ x.1 ≠ metaSlot := by cases at_ <;> decide
  have hnodup : ((groupTrees 0 at_).map Prod.fst).Nodup := by cases at_ <;> decide
  obtain ⟨t, hrun, hp, hold, hkeep⟩ := readTrees_sixteen (groupTrees 0 at_) hm hslots hnodup hb hend
  have htables : t.TablesHold sixteenGroup 0 at_ := by
    intro x hx
    rw [sixteenGroup_trees] at hx
    obtain ⟨y, hy, rfl⟩ := List.mem_map.mp hx
    exact hold y hy
  unfold readGroup
  rw [cmd_bind_of_ok hrun]
  cases at_ with
  | true => exact ⟨t, rfl, hp, htables, fun P C hs => hkeep P (C.mono fun _ _ => trivial) hs⟩
  | false =>
    refine ⟨t.invalidate 3, rfl, hp, fun x hx => ?_, fun P C hs =>
      C.invalidate t 3 trivial (hkeep P (C.mono fun _ _ => trivial) hs)⟩
    have hne : x.1 ≠ 3 := by
      rcases GroupCode.mem_trees.mp hx with rfl | rfl | rfl | ⟨hf, -⟩ | rfl
      · decide
      · decide
      · decide
      · cases hf
      · decide
    exact (slotHolds_treeClosed (T := fun v => v = (3 : Fin 7)) hne _).invalidate t 3 rfl (htables x hx)

/-! ### The transform list -/

/-- The bits of the list: one subtract-green or none. -/
def greenListBits (subGreen : Bool) : List Nat := if subGreen then [1] ++ lsbBits 2 2 ++ [0] else [0]

/-- The list holds one subtract-green or nothing. -/
structure State.GreenList (s : State) (subGreen : Bool) : Prop where
  count : s.xfCount.toNat = subGreen.toNat
  desc  : ∀ k < subGreen.toNat, s.xfDesc[descOf k] = ⟨.subtractGreen, 0, 0, true⟩

theorem readTransform_subtractGreen {s : State} {w h : Nat} (hc : s.xfCount.toNat = 0)
    (hb : s.HasBits s.pos (lsbBits 2 2)) (hend : s.pos + 2 ≤ s.endPos) :
    readTransform w h [] s = .ok [.subtractGreen]
      (((s.moveTo (s.pos + 2)).setDesc (descOf 0) ⟨.subtractGreen, 0, 0, false⟩).countDesc 0) := by
  have hcount : (s.moveTo (s.pos + 2)).xfCount.toNat = 0 := hc
  unfold readTransform
  rw [cmd_bind_of_ok (readField_runs (by decide) (by decide) (by decide) hb hend)]
  dsimp only
  rw [cmd_bind_of_ok (raiseIf_of_not List.not_mem_nil _ _ _), cmd_bind_of_ok (readState_apply _ _), hcount]
  rfl

theorem transformLoop_green {s : State} {w h : Nat} {subGreen : Bool} (hm : s.MemWf) (hl : s.ListHolds [])
    (hb : s.HasBits s.pos (greenListBits subGreen)) (hend : s.pos + (greenListBits subGreen).length ≤ s.endPos) :
    ∃ u, transformLoop w h 5 [] s = .ok () u ∧ u.pos = s.pos + (greenListBits subGreen).length ∧ s.Since u ∧
      u.GreenList subGreen := by
  cases subGreen with
  | false =>
    have hend : s.pos + 1 ≤ s.endPos := hend
    refine ⟨s.moveTo (s.pos + 1), ?_, s.pos_moveTo_of_le_endPos hend, State.Since.step hm (by omega) hend, hl.count,
      fun k hk => absurd hk (Nat.not_lt_zero k)⟩
    rw [transformLoop, cmd_bind_of_ok (readBit_runs hb hend)]
    rfl
  | true =>
    have hend : s.pos + 4 ≤ s.endPos := hend
    obtain ⟨⟨hmore, hty⟩, hlast⟩ : (s.HasBits s.pos [1] ∧ s.HasBits (s.pos + 1) (lsbBits 2 2)) ∧ s.HasBits (s.pos + 3) [0] := by
      rw [show greenListBits true = [1] ++ lsbBits 2 2 ++ [0] from rfl, State.hasBits_append, State.hasBits_append] at hb
      exact hb
    have hp1 : (s.moveTo (s.pos + 1)).pos = s.pos + 1 := s.pos_moveTo_of_le_endPos (by omega)
    have hread := readTransform_subtractGreen (s := s.moveTo (s.pos + 1)) (w := w) (h := h) hl.count (by rw [hp1]; exact hty)
      (by rw [hp1, State.moveTo_endPos]; omega)
    rw [hp1, State.moveTo_moveTo] at hread
    set v := ((s.moveTo (s.pos + 1 + 2)).setDesc (descOf 0) ⟨.subtractGreen, 0, 0, false⟩).countDesc 0
    have hv : s.Since v := ((State.Since.step hm (by omega) (by omega)).setDesc _ _).countDesc 0
    have hvp : v.pos = s.pos + 3 := s.pos_moveTo_of_le_endPos (q := s.pos + 3) (by omega)
    have hpush := hl.push (v := (s.moveTo (s.pos + 1 + 2)).setDesc (descOf 0) ⟨.subtractGreen, 0, 0, false⟩)
      (t := .subtractGreen) (by decide) rfl rfl (fun k hk => absurd hk (Nat.not_lt_zero k))
      fun i hi => absurd hi (Nat.not_lt_zero i)
    have hend4 : v.pos + 1 ≤ v.endPos := by
      rw [hvp, hv.endPos]
      exact hend
    refine ⟨v.moveTo (v.pos + 1), ?_, ?_, hv.trans (State.Since.step hv.mem (by omega) hend4), rfl, fun k hk => ?_⟩
    · rw [transformLoop, cmd_bind_of_ok (readBit_runs hmore (by omega)), if_pos rfl, cmd_bind_of_ok hread,
        transformLoop, cmd_bind_of_ok (readBit_runs (by rw [hvp]; exact State.hasBits_congr hv.inp hlast) hend4)]
      rfl
    · rw [v.pos_moveTo_of_le_endPos hend4, hvp]
      rfl
    · obtain rfl : k = 0 := Nat.lt_one_iff.mp hk
      exact hpush.desc 0 (by decide)

/-! ### The pixels -/

/-- The pixel a literal stands for: without an alpha tree its alpha is 0xFF. -/
def codedPixel (alpha : Bool) (p : Word) : Word := if alpha then p else mkPix 0xFF (chanR p) (chanG p) (chanB p)

theorem chan_codedPixel (alpha : Bool) (p : Word) :
    chan (codedPixel alpha p) 24 = (if alpha then chan p 24 else 255) ∧ chan (codedPixel alpha p) 16 = chan p 16 ∧
      chan (codedPixel alpha p) 8 = chan p 8 ∧ chan (codedPixel alpha p) 0 = chan p 0 := by
  cases alpha with
  | true => exact ⟨rfl, rfl, rfl, rfl⟩
  | false =>
    obtain ⟨hA, hR, hG, hB⟩ := chan_mkPix 0xFF (chanR p) (chanG p) (chanB p)
    exact ⟨hA, hR.trans (chanR_toNat p), hG.trans (chanG_toNat p), hB.trans (chanB_toNat p)⟩

/-- The channels a literal codes are below 16. -/
def Literal16 (alpha : Bool) (p : Word) : Prop :=
  chan p 16 < 16 ∧ chan p 8 < 16 ∧ chan p 0 < 16 ∧ (alpha = true → chan p 24 < 16)

theorem literal_bits {alpha : Bool} {p : Word} (h : Literal16 alpha p) :
    PixelToken.bits sixteenGroup 0 alpha (.literal (codedPixel alpha p)) = pixelBits alpha p := by
  obtain ⟨hr, hg, hb, ha⟩ := h
  obtain ⟨cA, cR, cG, cB⟩ := chan_codedPixel alpha p
  simp only [PixelToken.bits, sixteenGroup, cA, cR, cG, cB, codeBits_sixteen hr, codeBits_sixteen hg, codeBits_sixteen hb]
  cases alpha with
  | true => simp only [pixelBits, if_true, codeBits_sixteen (ha rfl)]
  | false => rfl

theorem literal_legal {alpha : Bool} {p : Word} (h : Literal16 alpha p) (maxDist n pos : Nat) :
    PixelToken.Legal sixteenGroup 0 alpha maxDist n pos (.literal (codedPixel alpha p)) := by
  obtain ⟨hr, hg, hb, ha⟩ := h
  obtain ⟨cA, cR, cG, cB⟩ := chan_codedPixel alpha p
  simp only [PixelToken.Legal, sixteenGroup, cA, cR, cG, cB, lengthAt_sixteen hr, lengthAt_sixteen hg, lengthAt_sixteen hb]
  cases alpha with
  | true => simp [lengthAt_sixteen (ha rfl)]
  | false => simp

/-- The tokens of a list of literal pixels. -/
def literalTokens (alpha : Bool) (ps : List Word) : List PixelToken := ps.map fun p => .literal (codedPixel alpha p)

theorem literalTokens_ok {alpha : Bool} {ps : List Word} (h : ∀ p ∈ ps, Literal16 alpha p) (maxDist : Nat) {n pos : Nat}
    (hn : pos + ps.length = n) : TokensOk sixteenGroup 0 alpha maxDist n pos (literalTokens alpha ps) := by
  induction ps generalizing pos with
  | nil => exact hn
  | cons p ps ih =>
    rw [List.length_cons] at hn
    exact ⟨by omega, literal_legal (h p List.mem_cons_self) _ _ _,
      ih (fun q hq => h q (List.mem_cons_of_mem _ hq)) (pos := pos + 1) (by omega)⟩

theorem literalTokens_bits {alpha : Bool} {ps : List Word} (h : ∀ p ∈ ps, Literal16 alpha p) :
    (literalTokens alpha ps).flatMap (PixelToken.bits sixteenGroup 0 alpha) = ps.flatMap (pixelBits alpha) := by
  rw [literalTokens, List.flatMap_map]
  exact List.flatMap_congr fun p hp => literal_bits (h p hp)

theorem literalTokens_px (alpha : Bool) (ps : List Word) :
    (drawTokens 0 (literalTokens alpha ps)).px = ps.map (codedPixel alpha) := by
  have step (ps : List Word) (c : Canvas) :
      ((literalTokens alpha ps).foldl (Canvas.token 0) c).px = c.px ++ ps.map (codedPixel alpha) := by
    induction ps generalizing c with
    | nil => simp [literalTokens]
    | cons p ps ih =>
      have h := ih (c.put 0 (codedPixel alpha p))
      simpa [literalTokens, Canvas.token, Canvas.put] using h
  exact (step ps .empty).trans (List.nil_append _)

end Sys2Proof.Machine
end

section
/-! DECODE of the literal streams, from the header to the output bytes (48_orchestrator.md R310 to R340). -/

namespace Sys2Proof.Machine

/-! ### Behind the list -/

/-- No entropy image: one group (48_orchestrator.md R324). -/
theorem readMetaPrefix_none {s : State} (w h : Nat) (hb : s.HasBits s.pos [0]) (hend : s.pos + 1 ≤ s.endPos) :
    readMetaPrefix w h s = .ok 1 ((s.moveTo (s.pos + 1)).setGroups false 0 1) :=
  (cmd_bind_of_ok (readBit_runs hb hend)).trans rfl

/-- A state carries itself. -/
theorem State.carries_refl {g : State} (hp : g.pos ≤ g.endPos) (hm : g.MemWf) : g.Carries g.stage g :=
  ⟨(State.Since.refl hp hm).inStage, rfl, rfl, rfl⟩

/-- The bits of the trees and the pixels. -/
def literalBody (alpha : Bool) (ps : List Word) : List Nat :=
  (List.replicate (if alpha then 5 else 4) sixteenTree).flatten ++ ps.flatMap (pixelBits alpha)

theorem length_sixteenTrees (n : Nat) : (List.replicate n sixteenTree).flatten.length = 53 * n := by
  rw [List.length_flatten, List.map_replicate, List.sum_replicate, length_sixteenTree, smul_eq_mul, Nat.mul_comm]

/-- The trees and the pixels, read from their bits: what is left of the decode begins from a state that holds the pixels. -/
theorem afterGroups_literal {g : State} {w h : Nat} {alpha : Bool} {ps : List Word} (hst : g.stage = .entropyImage)
    (hm : g.MemWf) (hpolicy : g.params.alphaTreePolicy = .ifAlphaFlag) (hlen : ps.length = w * h)
    (hps : ∀ p ∈ ps, Literal16 alpha p) (hb : g.HasBits g.pos (literalBody alpha ps))
    (hend : g.pos + (literalBody alpha ps).length ≤ g.endPos) :
    ∃ u, afterGroups ⟨w, h, alpha⟩ 0 1 g = afterStream u ∧ u.pos = g.pos + (literalBody alpha ps).length ∧
      g.Carries .pixelStream u ∧ u.ccBits = 0 ∧ u.SpaceHolds .pix (ps.map (codedPixel alpha)) := by
  rw [literalBody, List.length_append, length_sixteenTrees] at hend ⊢
  rw [literalBody, State.hasBits_append, length_sixteenTrees, ← literalTokens_bits hps] at hb
  rw [← literalTokens_bits hps] at hend ⊢
  obtain ⟨htrees, hpixels⟩ := hb
  have halpha : g.alphaTree alpha = alpha := by
    unfold State.alphaTree
    rw [hpolicy]
  have begun : g.Carries .entropyImage g := hst ▸ State.carries_refl (by omega) hm
  obtain ⟨t, hgroup, hp, htables, hkeep⟩ := readGroup_sixteen (s := g.atStage .huffmanGroups) alpha hm htrees
    (by show g.pos + _ ≤ g.endPos; omega)
  have ht : g.Carries .pixelStream (t.atStage .pixelStream) :=
    (hkeep _ (carries_imageClosed g .huffmanGroups).tree (begun.next .huffmanGroups)).next .pixelStream
  have hp : (t.atStage .pixelStream).pos = g.pos + 53 * (if alpha then 5 else 4) := hp
  have htables : (t.atStage .pixelStream).TablesHold sixteenGroup 0 alpha := htables
  set v := t.atStage .pixelStream
  have hve : v.endPos = g.endPos := ht.1.1.endPos
  obtain ⟨u, hinit, hstream, hq, hdraw, hstays⟩ := cachedStream_runs (buf := .pix) (bits := 0) (n := w * h) (.inl rfl)
    (by decide) (literalTokens alpha ps) ht.1.1.mem htables (sixteenGroup_ok _ alpha)
    (literalTokens_ok hps _ ((Nat.zero_add _).trans hlen))
    (by rw [hp]; exact State.hasBits_congr ht.1.1.inp hpixels)
    (by rw [hp, hve]; exact (Nat.add_assoc _ _ _).trans_le hend)
  refine ⟨u, ?_, (hq.trans (by rw [hp]; exact Nat.add_assoc _ _ _)), hstays _
    ((carries_imageClosed g .pixelStream).stream .pix (.inl rfl))
    ((carries_imageClosed g .pixelStream).clearCache v 0 ht (by decide)), BitVec.eq_of_toNat_eq hdraw.ccBits, ?_⟩
  · unfold afterGroups
    rw [setStage_bind, cmd_bind_of_ok (readState_apply _ _)]
    dsimp only
    rw [State.alphaTree_congr (show (g.atStage .huffmanGroups).params = g.params from rfl), halpha]
    exact (cmd_bind_of_ok hgroup).trans ((cmd_bind_of_ok rfl).trans ((setStage_bind _ _ t).trans
      ((cmd_bind_of_ok hinit).trans (cmd_bind_of_ok hstream))))
  · rw [← literalTokens_px]
    exact hdraw.px

/-- The bits of a literal stream behind its header. -/
def literalSections (alpha subGreen : Bool) (ps : List Word) : List Nat :=
  greenListBits subGreen ++ ([0] ++ ([0] ++ literalBody alpha ps))

/-- What the state before the inverse transforms holds of a literal stream read from the state `c`; `g` is the state that
declared the groups. -/
structure State.LiteralRead (c g u : State) (alpha subGreen : Bool) (ps : List Word) : Prop where
  since      : (c.atStage .entropyImage).Since g
  list       : g.GreenList subGreen
  nGroups    : g.nGroups = 1
  entPresent : g.entPresent = false
  carries    : g.Carries .pixelStream u
  pos        : u.pos = c.pos + (literalSections alpha subGreen ps).length
  ccBits     : u.ccBits = 0
  px         : u.SpaceHolds .pix (ps.map (codedPixel alpha))

theorem afterHeader_literal {c : State} {w h : Nat} {alpha subGreen : Bool} {ps : List Word} (hm : c.MemWf)
    (hl : c.ListHolds []) (hpolicy : c.params.alphaTreePolicy = .ifAlphaFlag) (hlen : ps.length = w * h)
    (hps : ∀ p ∈ ps, Literal16 alpha p) (hb : c.HasBits c.pos (literalSections alpha subGreen ps))
    (hend : c.pos + (literalSections alpha subGreen ps).length ≤ c.endPos) :
    ∃ g u, afterHeader ⟨w, h, alpha⟩ c = afterStream u ∧ c.LiteralRead g u alpha subGreen ps := by
  have hsplit : (literalSections alpha subGreen ps).length =
      (greenListBits subGreen).length + (1 + (1 + (literalBody alpha ps).length)) := by
    simp only [literalSections, List.length_append, List.length_singleton]
  rw [literalSections, State.hasBits_append, State.hasBits_append, State.hasBits_append] at hb
  obtain ⟨hlist, hcache, hentropy, hbody⟩ := hb
  -- the list
  obtain ⟨v, hloop, hvp, hv, hgreen⟩ := transformLoop_green (w := w) (h := h) hm hl hlist (by omega)
  -- no color cache
  have hv1 : (v.atStage .colorCacheSize).pos = v.pos := rfl
  have hcb := readCacheBits_runs (s := v.atStage .colorCacheSize) (cache := none) (by decide)
    (by rw [hv1, hvp]; exact State.hasBits_congr hv.inp hcache)
    (by show v.pos + 1 ≤ v.endPos; rw [hvp, hv.endPos]; omega)
  set v2 := ((v.atStage .colorCacheSize).moveTo (v.pos + 1)).atStage .entropyImage with hv2
  have hv2p : v2.pos = c.pos + (greenListBits subGreen).length + 1 :=
    (v.pos_moveTo_of_le_endPos (q := v.pos + 1) (by rw [hvp, hv.endPos]; omega)).trans (congrArg (· + 1) hvp)
  have hS2 : (c.atStage .entropyImage).Since v2 :=
    (hv.trans (State.Since.step hv.mem (by omega) (by rw [hvp, hv.endPos]; omega))).atStage .entropyImage
  have hv2e : v2.endPos = c.endPos := hS2.endPos
  -- no entropy image
  have hmeta := readMetaPrefix_none (s := v2) w h (by rw [hv2p]; exact State.hasBits_congr hS2.inp hentropy)
    (by rw [hv2p, hv2e]; omega)
  set g := (v2.moveTo (v2.pos + 1)).setGroups false 0 1 with hg
  have hgp : g.pos = c.pos + (greenListBits subGreen).length + 1 + 1 :=
    (v2.pos_moveTo_of_le_endPos (q := v2.pos + 1) (by rw [hv2p, hv2e]; omega)).trans (congrArg (· + 1) hv2p)
  have hgs : (c.atStage .entropyImage).Since g :=
    (hS2.trans (State.Since.step hS2.mem (by omega) (by rw [hv2p, hv2e]; omega))).setGroups _ _ _
  have hge : g.endPos = c.endPos := hgs.endPos
  -- the trees and the pixels
  obtain ⟨u, hrun, hup, hcarries, hcc, hpx⟩ := afterGroups_literal (g := g) (w := w) (h := h) hgs.stage hgs.mem
    (by rw [hgs.params]; exact hpolicy) hlen hps
    (by rw [hgp]; exact State.hasBits_congr hgs.inp hbody) (by rw [hgp, hge]; omega)
  refine ⟨g, u, ?_, hgs, ⟨hgreen.count, hgreen.desc⟩, rfl, rfl, hcarries, by omega, hcc, hpx⟩
  rw [afterHeader_eq, cmd_bind_of_ok hloop, afterList_eq, setStage_bind]
  exact (cmd_bind_of_ok hcb).trans ((setStage_bind _ _ _).trans ((cmd_bind_of_ok hmeta).trans hrun))

/-! ### The end of the decode -/

/-- The chain of at most one subtract-green adds green back, or changes nothing. -/
theorem invChain_green {s : State} {subGreen : Bool} (hm : s.pix.wf) (hi : s.ImageOk) (hl : s.GreenList subGreen) :
    ∃ m : Memory 32, invChain s = .ok () (s.withPix m) ∧
      ∀ i < s.npix, m.read .pix i = if subGreen then addGreen (s.pixAt i) else s.pixAt i := by
  obtain ⟨hcount, hdesc⟩ := hl
  have hchecks : ∀ k < s.xfCount.toNat, s.XfOk k s.xfDesc[descOf k].ty := by
    intro k hk
    have hk' : k < subGreen.toNat := hcount ▸ hk
    have h1 := subGreen.toNat_le
    rw [hdesc k hk']
    exact ⟨by omega, by omega, hk, by rw [hdesc k hk'], .inl rfl, hi, trivial⟩
  have h4 : s.xfCount.toNat ≤ 4 := by
    have h1 := subGreen.toNat_le
    omega
  rw [invChain_of_checks h4 hchecks, hcount]
  cases subGreen with
  | false => exact ⟨s.pix, rfl, fun i _ => rfl⟩
  | true =>
    obtain ⟨m, hrun, -, hread⟩ := invSubGreen_ok hm
    have hundo : undoTransform 0 s = .ok () (s.withPix m) := by
      rw [undoTransform_apply, hdesc 0 (by decide)]
      exact hrun
    exact ⟨m, cmd_bind_of_ok hundo, fun i hi => (hread i).trans (if_pos hi)⟩

/-- The stream as its header and its sections. -/
theorem literalStream_eq (w h : Nat) (alpha subGreen : Bool) (px : Nat → Word) :
    literalStream w h alpha subGreen px =
      StreamCode.header ⟨w, h, alpha, [], none, none, sixteenGroup, [], []⟩ ++
        literalSections alpha subGreen ((List.range (w * h)).map px) := by
  have hpixels : ((List.range (w * h)).map px).flatMap (pixelBits alpha) =
      (List.range (w * h)).flatMap fun i => pixelBits alpha (px i) := List.flatMap_map ..
  simp only [literalStream, literalSections, literalBody, StreamCode.header, greenListBits, hpixels, List.append_assoc]

/-- The channels of a pixel at the end: green added back to red and blue where the stream has a subtract-green. -/
theorem chan_literalPixel {alpha : Bool} {p : Word} (h : Literal16 alpha p) (subGreen : Bool) (q : Word)
    (hq : q = if subGreen then addGreen (codedPixel alpha p) else codedPixel alpha p) :
    chan q 24 = (if alpha then chan p 24 else 255) ∧ chan q 8 = chan p 8 ∧
      chan q 16 = chan p 16 + (if subGreen then chan p 8 else 0) ∧
      chan q 0 = chan p 0 + (if subGreen then chan p 8 else 0) := by
  obtain ⟨hr, hg, hb, -⟩ := h
  obtain ⟨cA, cR, cG, cB⟩ := chan_codedPixel alpha p
  subst hq
  cases subGreen with
  | false => exact ⟨cA, cG, cR, cB⟩
  | true =>
    obtain ⟨aA, aG, aR, aB⟩ := chan_addGreen (codedPixel alpha p)
    rw [cR, cG, Nat.mod_eq_of_lt (by omega)] at aR
    rw [cB, cG, Nat.mod_eq_of_lt (by omega)] at aB
    exact ⟨aA.trans cA, aG.trans cG, aR, aB⟩

/-- Settles O57: the header, the sections of a literal stream, the chain of at most one subtract-green and the conversion. -/
theorem decodeLiteralImages : Obligations.DecodeLiteralImages := by
  intro s w h alpha subGreen px hm hi hpolicy hw1 hw hh1 hh hcap hpx hb hend
  set ps := (List.range (w * h)).map px with hps
  have hlen : ps.length = w * h := by simp [hps]
  have hlit (i : Nat) (hi : i < w * h) : Literal16 alpha (px i) := hpx i hi
  have hall : ∀ p ∈ ps, Literal16 alpha p := by
    intro p hp
    obtain ⟨i, hi, rfl⟩ := List.mem_map.mp hp
    exact hlit i (List.mem_range.mp hi)
  rw [literalStream_eq, State.hasBits_append, StreamCode.length_header] at hb
  rw [literalStream_eq, List.length_append, StreamCode.length_header] at hend ⊢
  obtain ⟨c, hc, hheader⟩ := decodeBody_header (d := ⟨w, h, alpha, [], none, none, sixteenGroup, [], []⟩) hm hi hw1 hw
    hh1 hh hcap hb.1 (by omega)
  obtain ⟨g, u, hrest, hread⟩ := afterHeader_literal (w := w) (h := h) hc.mem hc.list
    (by rw [hc.params]; exact hpolicy) hlen hall
    (by rw [hc.pos]; exact State.hasBits_congr hc.inp hb.2) (by rw [hc.pos, hc.endPos]; exact hend)
  obtain ⟨⟨hgu, hdesc, hcount⟩, hng, hep, heb⟩ := hread.carries
  have hcu := (hread.since.atStage .pixelStream).trans hgu
  have hW : u.imgW.toNat = w := (congrArg BitVec.toNat hcu.imgW).trans hc.imgW
  have hH : u.imgH.toNat = h := (congrArg BitVec.toNat hcu.imgH).trans hc.imgH
  have hparams : u.params = s.params := hcu.params.trans hc.params
  have hnpix : u.npix = w * h := by rw [State.npix, hW, hH]
  have himage : u.ImageOk := by
    refine ⟨fun h0 => ?_, fun h0 => ?_, by rw [hnpix, hparams]; exact hcap⟩
    · rw [h0] at hW
      exact absurd hW.symm (Nat.ne_of_gt hw1)
    · rw [h0] at hH
      exact absurd hH.symm (Nat.ne_of_gt hh1)
  have hgreen : u.GreenList subGreen := by
    refine ⟨by rw [hcount]; exact hread.list.count, fun k hk => ?_⟩
    rw [hdesc]
    exact hread.list.desc k hk
  obtain ⟨-, hout, hpix, -⟩ := hcu.mem
  obtain ⟨m, hchain, hm⟩ := invChain_green (s := u.atStage .none) hpix himage ⟨hgreen.count, hgreen.desc⟩
  obtain ⟨o, hfinish, hconv⟩ := finish_afterStream_ok hout hchain
  have hexec : exec .decode s = .next { ((u.atStage .none).withPix m).complete with stage := .done, out := o } :=
    (congrArg finish (hheader.trans hrest)).trans hfinish
  refine ⟨_, hexec, rfl, rfl, hcu.err.trans hc.err, hW, hH, hcu.imgAlpha.trans hc.imgAlpha,
    hcu.imgVersion.trans hc.imgVersion, hcu.brStart.trans hc.brStart, hread.pos.trans (by rw [hc.pos]),
    hng.trans hread.nGroups, hep.trans hread.entPresent, hread.ccBits, hgreen.count, hconv, fun i hi => ?_⟩
  refine chan_literalPixel (hlit i hi) subGreen _ ((hm i (by rw [State.atStage_npix, hnpix]; exact hi)).trans ?_)
  have hi' : i < (ps.map (codedPixel alpha)).length := by rw [List.length_map, hlen]; exact hi
  have hcoded : u.pixAt i = codedPixel alpha (px i) := by
    have h := hread.px i hi'
    rw [List.getElem_map, List.getElem_map, List.getElem_range] at h
    exact h
  rw [State.atStage_pixAt, hcoded]

end Sys2Proof.Machine
end

section
/-! Two runs side by side: what two states that read the same input have in common, and the rules by which a piece of a
command takes two such states to two such states (48_orchestrator.md R339). -/

namespace Sys2Proof.Machine

/-! ### Two runs of one piece -/

/-- Two results of one piece: values and states that `S` relates, or one and the same error in the same stage. -/
def SameEnd {α : Type} (S : α → State → State → Prop) :
    EStateM.Result Trap State α → EStateM.Result Trap State α → Prop
  | .ok a t, .ok a' t' => a = a' ∧ S a t t'
  | .error e t, .error e' t' => e = e' ∧ t.stage = t'.stage
  | _, _ => False

/-- From states that `R` relates, a piece ends alike. -/
def Alike {α : Type} (R : State → State → Prop) (x : Cmd α) (S : α → State → State → Prop) : Prop :=
  ∀ s s', R s s' → SameEnd S (x s) (x s')

section

variable {α β : Type} {R : State → State → Prop} {S : α → State → State → Prop}

theorem SameEnd.mono {S' : α → State → State → Prop} {r r' : EStateM.Result Trap State α} (h : SameEnd S r r')
    (hS : ∀ a t t', S a t t' → S' a t t') : SameEnd S' r r' := by
  cases r <;> cases r'
  · exact ⟨h.1, hS _ _ _ h.2⟩
  · exact h
  · exact h
  · exact h

theorem Alike.conseq {R' : State → State → Prop} {S' : α → State → State → Prop} {x : Cmd α} (h : Alike R x S)
    (hR : ∀ s s', R' s s' → R s s') (hS : ∀ a t t', S a t t' → S' a t t') : Alike R' x S' :=
  fun s s' hs => (h s s' (hR s s' hs)).mono hS

theorem alike_pure {a : α} (h : ∀ s s', R s s' → S a s s') : Alike R (pure a) S := fun s s' hs => ⟨rfl, h s s' hs⟩

theorem alike_readState {f : State → α} (hf : ∀ s s', R s s' → f s = f s') (h : ∀ s s', R s s' → S (f s) s s') :
    Alike R (readState f) S := fun s s' hs => ⟨hf s s' hs, h s s' hs⟩

theorem alike_update {f : State → State} {S : Unit → State → State → Prop} (h : ∀ s s', R s s' → S () (f s) (f s')) :
    Alike R (update f) S := fun s s' hs => ⟨rfl, h s s' hs⟩

theorem alike_raiseIf {c : Bool} {e : ErrKind} {info : Nat} {S : Unit → State → State → Prop}
    (hst : ∀ s s', R s s' → s.stage = s'.stage) (h : c = false → ∀ s s', R s s' → S () s s') :
    Alike R (raiseIf c e info) S := by
  intro s s' hs
  cases c
  · exact ⟨rfl, h rfl s s' hs⟩
  · exact ⟨rfl, hst s s' hs⟩

theorem Alike.bind {x : Cmd α} {f : α → Cmd β} {U : β → State → State → Prop} (hx : Alike R x S)
    (hf : ∀ a, Alike (S a) (f a) U) : Alike R (x >>= f) U := by
  intro s s' hs
  have h := hx s s' hs
  rw [cmd_bind_apply, cmd_bind_apply]
  cases hxs : x s <;> cases hxs' : x s' <;> rw [hxs, hxs'] at h
  · obtain ⟨rfl, h⟩ := h
    exact hf _ _ _ h
  · exact h.elim
  · exact h.elim
  · exact h

/-- A piece in two parts, and then what follows it. -/
theorem Alike.bind_pair {γ : Type} {x : Cmd α} {f : α → Cmd β} {g : β → Cmd γ} {S : β → State → State → Prop}
    {U : γ → State → State → Prop} (h : Alike R (x >>= f) S) (hg : ∀ b, Alike (S b) (g b) U) :
    Alike R (x >>= fun a => f a >>= g) U := by
  rw [← bind_assoc]
  exact h.bind hg

theorem Alike.ite {c : Prop} [Decidable c] {x y : Cmd α} (hx : c → Alike R x S) (hy : ¬ c → Alike R y S) :
    Alike R (if c then x else y) S := by
  by_cases h : c
  · rw [if_pos h]
    exact hx h
  · rw [if_neg h]
    exact hy h

/-- A fact known before a piece may be used for it. -/
theorem alike_of_fact {F : Prop} {x : Cmd α} (hF : ∀ s s', R s s' → F) (h : F → Alike R x S) : Alike R x S :=
  fun s s' hs => h (hF s s' hs) s s' hs

theorem alike_forRange {f : Nat → Cmd Unit} {I : Nat → State → State → Prop} (n : Nat) {lo : Nat}
    (hf : ∀ i, lo ≤ i → i < lo + n → Alike (I i) (f i) fun _ => I (i + 1)) :
    Alike (I lo) (forRange f n lo) fun _ => I (lo + n) := by
  induction n generalizing lo with
  | zero => exact alike_pure fun _ _ hs => hs
  | succ n ih =>
    rw [forRange_succ]
    refine (hf lo le_rfl (by omega)).bind fun _ => ?_
    rw [show lo + (n + 1) = lo + 1 + n by omega]
    exact ih fun i hlo hi => hf i (by omega) (by omega)

/-- What the first run is known to leave joins what both leave. -/
theorem Alike.withFirst {x : Cmd α} {P : State → Prop} {Q : α → State → Prop} {E : Trap → State → Prop} (h : Alike R x S)
    (hx : Hoare P x Q E) : Alike (fun s s' => R s s' ∧ P s) x fun a s s' => S a s s' ∧ Q a s := by
  rintro s s' ⟨hs, hP⟩
  have h1 := h s s' hs
  have h2 := hx s hP
  cases hxs : x s <;> cases hxs' : x s' <;> rw [hxs, hxs'] at h1 <;> rw [hxs] at h2
  · exact ⟨h1.1, h1.2, h2⟩
  · exact h1
  · exact h1
  · exact h1

end

/-! ### What two runs have in common -/

/-- `r` with the registers of a decode's progress as in `s`. -/
def State.follow (r s : State) : State :=
  { r with
    stage := s.stage, inLen := s.inLen, brStart := s.brStart, brBytePos := s.brBytePos, brBitPos := s.brBitPos
    imgW := s.imgW, imgH := s.imgH, imgAlpha := s.imgAlpha, imgVersion := s.imgVersion, ccBits := s.ccBits
    cache := s.cache, xfCount := s.xfCount, xfDesc := s.xfDesc, nGroups := s.nGroups, entPresent := s.entPresent
    entBits := s.entBits, params := s.params }

/-- Slot `t` decodes alike: its TAB_INFO and the entries DecodeSym can read are the same. -/
def State.SlotAgrees (s s' : State) (t : Fin 7) : Prop :=
  s.tabInfo[t] = s'.tabInfo[t] ∧
    ∀ j < 2 ^ s.tabInfo[t].maxLen.toNat, s.tab[t].read (.tab t) j = s'.tab[t].read (.tab t) j

/-- Two states of one decode on the same input: the same progress, the same input bytes, and the same valid tables. -/
structure State.Twin (s s' : State) : Prop where
  same   : s' = s'.follow s
  input  : ∀ i < s.inLen.toNat, s.inByte i = s'.inByte i
  tables : ∀ t, s.tabInfo[t].valid = true → s.SlotAgrees s' t
  mem    : s.MemWf
  mem'   : s'.MemWf

/-- A change that depends on the progress alone keeps it the same. -/
theorem follow_map {f : State → State} (hf : ∀ a b : State, f (a.follow b) = (f a).follow (f b)) {s s' : State}
    (h : s' = s'.follow s) : f s' = (f s').follow (f s) :=
  (congrArg f h).trans (hf s' s)

namespace State.Twin

variable {s s' : State}

theorem stage (h : s.Twin s') : s.stage = s'.stage := (congrArg State.stage h.same).symm
theorem pos (h : s.Twin s') : s.pos = s'.pos := (congrArg State.pos h.same).symm
theorem endPos (h : s.Twin s') : s.endPos = s'.endPos := (congrArg State.endPos h.same).symm
theorem params (h : s.Twin s') : s.params = s'.params := (congrArg State.params h.same).symm
theorem imgW (h : s.Twin s') : s.imgW = s'.imgW := (congrArg State.imgW h.same).symm
theorem imgH (h : s.Twin s') : s.imgH = s'.imgH := (congrArg State.imgH h.same).symm
theorem npix (h : s.Twin s') : s.npix = s'.npix := (congrArg State.npix h.same).symm
theorem ccSize (h : s.Twin s') : s.ccSize = s'.ccSize := (congrArg State.ccSize h.same).symm
theorem cache (h : s.Twin s') : s.cache = s'.cache := (congrArg State.cache h.same).symm
theorem xfCount (h : s.Twin s') : s.xfCount = s'.xfCount := (congrArg State.xfCount h.same).symm
theorem xfDesc (h : s.Twin s') : s.xfDesc = s'.xfDesc := (congrArg State.xfDesc h.same).symm

/-- A change of the progress alone, the same in both states. -/
theorem map (h : s.Twin s') {f : State → State} (hf : ∀ a b : State, f (a.follow b) = (f a).follow (f b))
    (hlen : (f s).inLen = s.inLen) (hinp : ∀ a : State, (f a).inp = a.inp) (htab : ∀ a : State, (f a).tab = a.tab)
    (hinfo : ∀ a : State, (f a).tabInfo = a.tabInfo) (hmem : ∀ a : State, a.MemWf → (f a).MemWf) : (f s).Twin (f s') := by
  refine ⟨follow_map hf h.same, fun i hi => ?_, fun t ht => ?_, hmem s h.mem, hmem s' h.mem'⟩
  · unfold State.inByte
    rw [hinp, hinp]
    exact h.input i (hlen ▸ hi)
  · rw [hinfo] at ht
    unfold State.SlotAgrees
    rw [hinfo, hinfo, htab, htab]
    exact h.tables t ht

theorem moveTo (h : s.Twin s') (q : Nat) : (s.moveTo q).Twin (s'.moveTo q) :=
  h.map (f := fun s => s.moveTo q) (fun _ _ => rfl) rfl (fun _ => rfl) (fun _ => rfl) (fun _ => rfl) fun _ ha => ha

theorem atStage (h : s.Twin s') (st : Stage) : (s.atStage st).Twin (s'.atStage st) :=
  h.map (f := fun s => s.atStage st) (fun _ _ => rfl) rfl (fun _ => rfl) (fun _ => rfl) (fun _ => rfl) fun _ ha => ha

theorem setDesc (h : s.Twin s') (k : Fin 4) (d : XfDesc) : (s.setDesc k d).Twin (s'.setDesc k d) :=
  h.map (f := fun s => s.setDesc k d) (fun _ _ => rfl) rfl (fun _ => rfl) (fun _ => rfl) (fun _ => rfl) fun _ ha => ha

theorem countDesc (h : s.Twin s') (k : Nat) : (s.countDesc k).Twin (s'.countDesc k) :=
  h.map (f := fun s => s.countDesc k) (fun _ _ => rfl) rfl (fun _ => rfl) (fun _ => rfl) (fun _ => rfl) fun _ ha => ha

theorem setGroups (h : s.Twin s') (e : Bool) (b g : Nat) : (s.setGroups e b g).Twin (s'.setGroups e b g) :=
  h.map (f := fun s => s.setGroups e b g) (fun _ _ => rfl) rfl (fun _ => rfl) (fun _ => rfl) (fun _ => rfl) fun _ ha => ha

theorem setCodeLengths (h : s.Twin s') (i : Nat) (vs : List Byte) :
    (s.setCodeLengths i vs).Twin (s'.setCodeLengths i vs) :=
  h.map (f := fun s => s.setCodeLengths i vs) (fun _ _ => rfl) rfl (fun _ => rfl) (fun _ => rfl) (fun _ => rfl)
    fun a ha => memWf_imageClosed.tree.lengths a i vs ha

theorem clearClm (h : s.Twin s') :
    ({ s with clm := .replicate 19 0 } : State).Twin ({ s' with clm := .replicate 19 0 } : State) :=
  h.map (f := fun s => { s with clm := .replicate 19 0 }) (fun _ _ => rfl) rfl (fun _ => rfl) (fun _ => rfl) (fun _ => rfl)
    fun _ ha => ha

theorem setClm (h : s.Twin s') (m v : Nat) : (s.setClm m v).Twin (s'.setClm m v) :=
  h.map (f := fun s => s.setClm m v) (fun _ _ => rfl) rfl (fun _ => rfl) (fun _ => rfl) (fun _ => rfl) fun _ ha => ha

theorem clearCache (h : s.Twin s') {b : Nat} (hb : b ≤ Config.cacheMaxBits) :
    (s.clearCache b).Twin (s'.clearCache b) :=
  h.map (f := fun s => s.clearCache b) (fun _ _ => rfl) rfl (fun _ => rfl) (fun _ => rfl) (fun _ => rfl)
    fun a ha => memWf_imageClosed.clearCache a b ha hb

theorem follow_cacheInsert (a b : State) (p : Word) :
    (a.follow b).cacheInsert p = (a.cacheInsert p).follow (b.cacheInsert p) := by
  by_cases h : b.ccBits = 0
  · rw [cacheInsert_disabled (s := a.follow b) h, cacheInsert_disabled h, cacheInsert_frame a]
    rfl
  · rw [cacheInsert_enabled (s := a.follow b) h, cacheInsert_enabled h, cacheInsert_frame a]
    rfl

theorem cacheInsert (h : s.Twin s') (p : Word) : (s.cacheInsert p).Twin (s'.cacheInsert p) :=
  h.map (f := fun s => s.cacheInsert p) (fun a b => follow_cacheInsert a b p) (cacheInsert_inLen s p)
    (fun a => cacheInsert_inp a p) (fun a => cacheInsert_tab a p) (fun a => cacheInsert_tabInfo a p)
    fun a ha => (memWf_imageClosed.stream .pix (.inl rfl)).cacheInsert a p ha

theorem setElem (h : s.Twin s') {buf : Space} (hb : IsTarget buf) (i : Nat) (v : Word) :
    (s.setElem buf i v).Twin (s'.setElem buf i v) := by
  have hmem (a : State) (ha : a.MemWf) : (a.setElem buf i v).MemWf := (memWf_imageClosed.stream buf hb).setElem a i v ha
  rcases hb with rfl | ⟨k, rfl⟩ | rfl
  · exact h.map (f := fun s => s.setElem .pix i v) (fun _ _ => rfl) rfl (fun _ => rfl) (fun _ => rfl) (fun _ => rfl) hmem
  · exact h.map (f := fun s => s.setElem (.sub k) i v) (fun _ _ => rfl) rfl (fun _ => rfl) (fun _ => rfl) (fun _ => rfl) hmem
  · exact h.map (f := fun s => s.setElem .ent i v) (fun _ _ => rfl) rfl (fun _ => rfl) (fun _ => rfl) (fun _ => rfl) hmem

theorem invalidate (h : s.Twin s') (t : Fin 7) : (s.invalidate t).Twin (s'.invalidate t) := by
  refine ⟨follow_map (f := fun s => s.invalidate t) (fun _ _ => rfl) h.same, h.input, fun u hu => ?_,
    memWf_imageClosed.tree.invalidate s t trivial h.mem, memWf_imageClosed.tree.invalidate s' t trivial h.mem'⟩
  have hne : u ≠ t := by
    rintro rfl
    rw [show (s.invalidate u).tabInfo[u] = { s.tabInfo[u] with valid := false } from vget_set_self _ _ _] at hu
    cases hu
  have hinfo (a : State) : (a.invalidate t).tabInfo[u] = a.tabInfo[u] := vget_set_ne _ hne _
  rw [hinfo] at hu
  unfold State.SlotAgrees
  rw [hinfo, hinfo]
  exact h.tables u hu

end State.Twin

/-- The entries of a built table that DecodeSym can read do not depend on the table before. -/
theorem builtTable_agree {L : List Byte} (hL : Buildable L) (sp : Space) (tab tab' : Memory 17) {j : Nat}
    (hj : j < 2 ^ maxLength L) : (builtTable L tab).read sp j = (builtTable L tab').read sp j := by
  obtain ⟨h15, hK | hs⟩ := hL
  · obtain ⟨i, hi, hm⟩ := exists_match h15 hK (le_maxLength L) (maxLength_le h15) j
    rw [(builtTable_complete sp h15 hK tab j).1 i hi hj hm, (builtTable_complete sp h15 hK tab' j).1 i hi hj hm]
  · rw [(isSingle_iff.mp hs).2] at hj
    have hj : j < 2 := hj
    rw [builtTable_single sp hs, builtTable_single sp hs, if_pos hj, if_pos hj]

theorem State.Twin.built {s s' : State} (h : s.Twin s') (t : Fin 7) {L : List Byte} (hL : Buildable L) :
    (s.built t L).Twin (s'.built t L) := by
  refine ⟨follow_map (f := fun s => s.built t L) (fun _ _ => rfl) h.same, h.input, fun u hu => ?_,
    memWf_imageClosed.tree.built s t L trivial h.mem hL, memWf_imageClosed.tree.built s' t L trivial h.mem' hL⟩
  by_cases hut : u = t
  · subst hut
    have hinfo (a : State) : (a.built u L).tabInfo[u] = builtInfo L := vget_set_self _ _ _
    have htab (a : State) : (a.built u L).tab[u] = builtTable L a.tab[u] := vget_set_self _ _ _
    unfold State.SlotAgrees
    rw [hinfo, hinfo, htab, htab, maxLen_builtInfo hL.1]
    exact ⟨rfl, fun j hj => builtTable_agree hL _ _ _ hj⟩
  · have hinfo (a : State) : (a.built t L).tabInfo[u] = a.tabInfo[u] := vget_set_ne _ hut _
    have htab (a : State) : (a.built t L).tab[u] = a.tab[u] := vget_set_ne _ hut _
    rw [hinfo] at hu
    unfold State.SlotAgrees
    rw [hinfo, hinfo, htab, htab]
    exact h.tables u hu

/-! ### Relations that the pieces of a decode keep -/

/-- A relation between twins that a move of the cursor on to a place of the input keeps. -/
structure MovesTwin (R : State → State → Prop) : Prop where
  twin : ∀ s s', R s s' → s.Twin s'
  move : ∀ s s' q, R s s' → q ≤ s.endPos → s.pos ≤ q → R (s.moveTo q) (s'.moveTo q)

/-- A relation that the primitive changes of reading trees keep, made in both states. -/
structure TreeTwin (R : State → State → Prop) : Prop extends MovesTwin R where
  lengths    : ∀ s s' i vs, R s s' → R (s.setCodeLengths i vs) (s'.setCodeLengths i vs)
  clmClear   : ∀ s s', R s s' → R { s with clm := .replicate 19 0 } { s' with clm := .replicate 19 0 }
  clmSet     : ∀ s s' m v, R s s' → R (s.setClm m v) (s'.setClm m v)
  invalidate : ∀ s s' t, R s s' → R (s.invalidate t) (s'.invalidate t)
  built      : ∀ s s' t L, R s s' → Buildable L → R (s.built t L) (s'.built t L)

/-- A relation that the primitive changes of a pixel stream into `buf` keep. -/
structure StreamTwin (buf : Space) (R : State → State → Prop) : Prop extends MovesTwin R where
  setElem     : ∀ s s' i v, R s s' → R (s.setElem buf i v) (s'.setElem buf i v)
  cacheInsert : ∀ s s' v, R s s' → R (s.cacheInsert v) (s'.cacheInsert v)

/-- A relation that reading a sub-image into `buf`, or the pixels, keeps. -/
structure ImageTwin (buf : Space) (R : State → State → Prop) : Prop extends TreeTwin R, StreamTwin buf R where
  clearCache : ∀ s s' b, R s s' → b ≤ Config.cacheMaxBits → R (s.clearCache b) (s'.clearCache b)

end Sys2Proof.Machine
end

section
/-! Two runs of the bit reader, of DecodeSym and of the code lengths and tables of a group: what they read and leave is
the same (48_orchestrator.md R339). -/

namespace Sys2Proof.Machine

/-! ### The reader -/

namespace State.Twin

variable {s s' : State}

theorem inBit (h : s.Twin s') {q : Nat} (hq : q < s.endPos) : s.inBit q = s'.inBit q :=
  congrArg (· / 2 ^ (q % 8) % 2) (h.input (q / 8) (Nat.div_lt_of_lt_mul (Nat.mul_comm _ _ ▸ hq)))

theorem field (h : s.Twin s') {q n : Nat} (hq : q + n ≤ s.endPos) : s.field q n = s'.field q n := by
  unfold State.field
  refine congrArg List.sum (List.map_congr_left fun j hj => ?_)
  rw [h.inBit (show q + j < s.endPos by have := List.mem_range.mp hj; omega)]

end State.Twin

section

variable {R : State → State → Prop}

theorem MovesTwin.and (M : MovesTwin R) {P : State → State → Prop}
    (hP : ∀ s s' q, P s s' → P (s.moveTo q) (s'.moveTo q)) : MovesTwin fun s s' => R s s' ∧ P s s' where
  twin s s' h := M.twin s s' h.1
  move s s' q h hq hp := ⟨M.move s s' q h.1 hq hp, hP s s' q h.2⟩

theorem MovesTwin.sameStage (M : MovesTwin R) : ∀ s s', R s s' → s.stage = s'.stage :=
  fun s s' h => (M.twin s s' h).stage

theorem alike_raise {α : Type} {e : ErrKind} {info : Nat} {S : α → State → State → Prop}
    (hst : ∀ s s', R s s' → s.stage = s'.stage) : Alike R (raise e info) S := fun s s' hs => ⟨rfl, hst s s' hs⟩

theorem alike_readBits (M : MovesTwin R) (n : Nat) : Alike R (readBits n) fun v s s' => R s s' ∧ v < 2 ^ n := by
  intro s s' hs
  have h := M.twin s s' hs
  rw [readBits_apply, readBits_apply, ← h.pos, ← h.endPos]
  by_cases hn : n < 1 ∨ 16 < n
  · rw [if_pos hn, if_pos hn]
    exact ⟨rfl, h.stage⟩
  · rw [if_neg hn, if_neg hn]
    by_cases he : s.endPos < s.pos + n
    · rw [if_pos he, if_pos he]
      exact ⟨rfl, h.stage⟩
    · rw [if_neg he, if_neg he]
      exact ⟨h.field (by omega), M.move s s' _ hs (by omega) (by omega), s.field_lt _ _⟩

/-- A read whose value needs no bound. -/
theorem alike_readBits_keeps (M : MovesTwin R) (n : Nat) : Alike R (readBits n) fun _ => R :=
  (alike_readBits M n).conseq (fun _ _ h => h) fun _ _ _ h => h.1

theorem alike_readExtra (M : MovesTwin R) (n : Nat) : Alike R (readExtra n) fun _ => R := by
  unfold readExtra
  refine .ite (fun _ => alike_pure fun _ _ h => h) fun _ => .ite (fun _ => alike_readBits_keeps M n) fun _ => ?_
  exact (alike_readBits_keeps M 16).bind fun _ => (alike_readBits_keeps M (n - 16)).bind fun _ => alike_pure fun _ _ h => h

theorem alike_prefixValue (M : MovesTwin R) (c : Nat) : Alike R (prefixValue c) fun _ => R :=
  (alike_readExtra M _).bind fun _ => alike_pure fun _ _ h => h

/-! ### DecodeSym -/

theorem alike_decodeLoop (M : MovesTwin R) {t : Fin 7} {maxLen : Nat}
    (ht : ∀ s s', R s s' → s.tabInfo[t].valid = true ∧ s.tabInfo[t].maxLen.toNat = maxLen) (n : Nat) {k p : Nat}
    (hp : p < 2 ^ k) (hk : k + n = maxLen) : Alike R (decodeLoop t maxLen n (k + 1) p) fun _ => R := by
  induction n generalizing k p with
  | zero => exact alike_raise M.sameStage
  | succ n ih =>
    rw [decodeLoop_succ]
    refine (alike_readBits M 1).bind fun b => alike_of_fact (fun _ _ h => h.2) fun hb => ?_
    have hq : p + b * 2 ^ (k + 1 - 1) < 2 ^ (k + 1) := by
      have hb : b ≤ 1 := by omega
      have := Nat.mul_le_mul_right (2 ^ k) hb
      rw [Nat.add_sub_cancel, pow_succ]
      omega
    have hle : 2 ^ (k + 1) ≤ 2 ^ maxLen := Nat.pow_le_pow_right (by decide) (by omega)
    refine (alike_readState (S := fun _ => R) (fun s s' h => ?_) fun _ _ h => h.1).bind fun e => ?_
    · obtain ⟨hv, hm⟩ := ht s s' h.1
      exact ((M.twin s s' h.1).tables t hv).2 _ (hm ▸ lt_of_lt_of_le hq hle)
    · exact .ite (fun _ => alike_pure fun _ _ h => h) fun _ => ih hq (by omega)

theorem alike_decodeSym (M : MovesTwin R) {t : Fin 7} (ht : ∀ s s', R s s' → s.tabInfo[t].valid = true) :
    Alike R (decodeSym t) fun _ => R := by
  unfold decodeSym
  refine (alike_readState (S := fun m s s' => R s s' ∧ s.tabInfo[t].maxLen.toNat = m) (fun s s' h => ?_)
    fun _ _ h => ⟨h, rfl⟩).bind fun m => ?_
  · exact congrArg (fun i : TabInfo => i.maxLen.toNat) ((M.twin s s' h).tables t (ht s s' h)).1
  · exact (alike_decodeLoop (M.and fun _ _ _ h => h) (fun s s' h => ⟨ht s s' h.1, h.2⟩) m (k := 0) (p := 0) (by decide)
      (by omega)).conseq (fun _ _ h => h) fun _ _ _ h => h.1

end

/-! ### Code lengths -/

/-- The code lengths below `i` are the same. -/
def State.LensAgree (i : Nat) (s s' : State) : Prop := ∀ j < i, s.clmem.read .clmem j = s'.clmem.read .clmem j

theorem State.MemWf.out {s : State} (h : s.MemWf) : s.out.wf := by
  obtain ⟨-, hout, -⟩ := h
  exact hout

theorem State.MemWf.clmem {s : State} (h : s.MemWf) : s.clmem.wf := by
  obtain ⟨-, -, -, -, hclmem, -⟩ := h
  exact hclmem

theorem lensAgree_zero (s s' : State) : s.LensAgree 0 s' := fun _ h => absurd h (Nat.not_lt_zero _)

theorem State.Twin.lensAgree_write {s s' : State} (h : s.Twin s') {i : Nat} (hl : State.LensAgree i s s')
    (vs : List Byte) : State.LensAgree (i + vs.length) (s.setCodeLengths i vs) (s'.setCodeLengths i vs) := by
  intro j hj
  unfold State.setCodeLengths
  rw [Memory.read_writeList _ (State.MemWf.clmem h.mem), Memory.read_writeList _ (State.MemWf.clmem h.mem')]
  by_cases hb : i ≤ j ∧ j - i < vs.length
  · rw [dif_pos hb, dif_pos hb]
  · rw [dif_neg hb, dif_neg hb]
    exact hl j (by omega)

theorem State.LensAgree.codeLengths {n : Nat} {s s' : State} (h : State.LensAgree n s s') :
    s.codeLengths n = s'.codeLengths n := List.map_congr_left fun j hj => h j (List.mem_range.mp hj)

section

variable {R : State → State → Prop}

/-- A relation that the reader and writes of code lengths keep. -/
structure LensTwin (R : State → State → Prop) : Prop extends MovesTwin R where
  lengths : ∀ s s' i vs, R s s' → R (s.setCodeLengths i vs) (s'.setCodeLengths i vs)

theorem LensTwin.agree (C : LensTwin R) (i : Nat) : MovesTwin fun s s' => R s s' ∧ s.LensAgree i s' :=
  C.toMovesTwin.and fun _ _ _ h => h

theorem alike_setCodeLengths (C : LensTwin R) (i : Nat) (vs : List Byte) :
    Alike (fun s s' => R s s' ∧ s.LensAgree i s') (update fun s => s.setCodeLengths i vs)
      fun _ s s' => R s s' ∧ s.LensAgree (i + vs.length) s' :=
  alike_update fun s s' h => ⟨C.lengths s s' i vs h.1, (C.twin s s' h.1).lensAgree_write h.2 vs⟩

theorem alike_literalLengths (C : LensTwin R) (n cnt : Nat) :
    Alike R (literalLengths n cnt) fun _ s s' => R s s' ∧ s.LensAgree n s' := by
  unfold literalLengths
  refine (alike_raiseIf (S := fun _ s s' => (R s s' ∧ s.LensAgree 0 s') ∧ cnt ≤ n) C.sameStage fun hc s s' h =>
    ⟨⟨h, lensAgree_zero s s'⟩, Nat.le_of_not_lt (of_decide_eq_false hc)⟩).bind fun _ =>
    alike_of_fact (fun _ _ h => h.2) fun hc => ?_
  have loop := alike_forRange (I := fun i s s' => R s s' ∧ s.LensAgree i s') cnt (lo := 0) fun i _ _ =>
    (alike_readBits_keeps (C.agree i) 3).bind fun v => alike_setCodeLengths C i [BitVec.ofNat 8 v]
  rw [Nat.zero_add] at loop
  refine ((loop.bind fun _ => alike_setCodeLengths C cnt _).conseq (fun _ _ h => h.1) fun _ s s' h => ?_)
  rwa [List.length_replicate, show cnt + (n - cnt) = n by omega] at h

theorem alike_repeatLength (C : LensTwin R) (n i v r : Nat) :
    Alike (fun s s' => R s s' ∧ s.LensAgree i s') (repeatLength n i v r)
      fun j s s' => (R s s' ∧ s.LensAgree j s') ∧ j = i + r := by
  unfold repeatLength
  refine (alike_raiseIf (C.agree i).sameStage fun _ _ _ h => h).bind fun _ =>
    (alike_setCodeLengths C i _).bind fun _ => alike_pure fun s s' h => ?_
  rw [List.length_replicate] at h
  exact ⟨h, rfl⟩

/-- A repeat of `r + x` lengths, with `x` a field of `k` bits. -/
theorem alike_repeatToken (C : LensTwin R) (n i prev v k : Nat) {r : Nat} (hr : 1 ≤ r) :
    Alike (fun s s' => R s s' ∧ s.LensAgree i s')
      (do let x ← readBits k; let j ← repeatLength n i v (r + x); pure (j, prev))
      fun p s s' => (R s s' ∧ s.LensAgree p.1 s') ∧ i < p.1 :=
  (alike_readBits_keeps (C.agree i) k).bind fun x => (alike_repeatLength C n i v (r + x)).bind fun _ =>
    alike_pure fun _ _ h => ⟨h.1, by have := h.2; show i < _; omega⟩

theorem alike_lengthToken (C : LensTwin R) (n i prev sym : Nat) :
    Alike (fun s s' => R s s' ∧ s.LensAgree i s') (lengthToken n i prev sym)
      fun p s s' => (R s s' ∧ s.LensAgree p.1 s') ∧ i < p.1 := by
  unfold lengthToken
  refine .ite (fun _ => ?_) fun _ => .ite (fun _ => alike_repeatToken C n i prev prev 2 (by decide)) fun _ =>
    .ite (fun _ => alike_repeatToken C n i prev 0 3 (by decide)) fun _ =>
    .ite (fun _ => alike_repeatToken C n i prev 0 7 (by decide)) fun _ => alike_raise (C.agree i).sameStage
  exact (alike_setCodeLengths C i [BitVec.ofNat 8 sym]).bind fun _ => alike_pure fun _ _ h => ⟨h, Nat.lt_succ_self i⟩

theorem alike_lengthLoop (C : LensTwin R) (h5 : ∀ s s', R s s' → s.tabInfo[metaSlot].valid = true) {n : Nat} (fuel : Nat)
    {i prev : Nat} (hf : n ≤ i + fuel) :
    Alike (fun s s' => R s s' ∧ s.LensAgree i s') (lengthLoop n fuel i prev) fun _ s s' => R s s' ∧ s.LensAgree n s' := by
  induction fuel generalizing i prev with
  | zero => exact alike_pure fun _ _ h => ⟨h.1, fun j hj => h.2 j (by omega)⟩
  | succ fuel ih =>
    unfold lengthLoop
    refine .ite (fun _ => ?_) fun hi => alike_pure fun _ _ h => ⟨h.1, fun j hj => h.2 j (by omega)⟩
    refine (alike_decodeSym (C.agree i) fun s s' h => h5 s s' h.1).bind fun sym =>
      (alike_lengthToken C n i prev sym).bind fun p => alike_of_fact (fun _ _ h => h.2) fun hlt => ?_
    exact (ih (by omega)).conseq (fun _ _ h => h.1) fun _ _ _ h => h

theorem TreeTwin.lens (C : TreeTwin R) : LensTwin R := ⟨C.toMovesTwin, C.lengths⟩

theorem alike_metaLengths (C : TreeTwin R) (cnt : Nat) :
    Alike R (metaLengths cnt) fun _ s s' => R s s' ∧ s.clm = s'.clm := by
  refine (alike_update (S := fun _ s s' => R s s' ∧ s.clm = s'.clm) fun s s' h => ⟨C.clmClear s s' h, rfl⟩).bind fun _ => ?_
  refine alike_forRange (I := fun _ s s' => R s s' ∧ s.clm = s'.clm) cnt fun i _ _ => ?_
  refine (alike_readState (S := fun _ s s' => R s s' ∧ s.clm = s'.clm) (fun s s' h => ?_) fun _ _ h => h).bind fun m =>
    (alike_readBits_keeps (C.toMovesTwin.and fun _ _ _ h => h) 3).bind fun v => alike_update fun s s' h =>
      ⟨C.clmSet s s' m v h.1, congrArg (fun c : Vector Byte 19 => c.setIfInBounds m (BitVec.ofNat 8 v)) h.2⟩
  rw [(C.twin s s' h.1).params]

theorem alike_build (C : TreeTwin R) (t : Fin 7) (L : List Byte) :
    Alike R (build t L) fun _ s s' => R s s' ∧ s.tabInfo[t].valid = true := by
  intro s s' hs
  have hst : (s.invalidate t).stage = (s'.invalidate t).stage := (C.twin s s' hs).stage
  rw [build_apply, build_apply]
  cases he : buildError L with
  | some e => exact ⟨rfl, hst⟩
  | none => exact ⟨rfl, C.built s s' t L hs (buildError_eq_none.mp he), congrArg TabInfo.valid (vget_set_self _ _ _)⟩

theorem alike_codedLengths (C : TreeTwin R) (n cnt : Nat) :
    Alike R (codedLengths n cnt) fun _ s s' => R s s' ∧ s.LensAgree n s' := by
  refine (alike_metaLengths C cnt).bind fun _ =>
    (alike_readState (S := fun _ => R) (fun s s' h => congrArg Vector.toList h.2) fun _ _ h => h.1).bind fun L =>
      (alike_build C metaSlot L).bind fun _ => ?_
  have C5 : LensTwin fun s s' => R s s' ∧ s.tabInfo[metaSlot].valid = true :=
    ⟨C.toMovesTwin.and fun _ _ _ h => h, fun s s' i vs h => ⟨C.lengths s s' i vs h.1, h.2⟩⟩
  exact (alike_lengthLoop C5 (fun _ _ h => h.2) n (Nat.le_add_left n 0)).conseq
    (fun s s' h => ⟨h, lensAgree_zero s s'⟩) fun _ _ _ h => ⟨h.1.1, h.2⟩

theorem alike_readCodeLengths (C : TreeTwin R) (n : Nat) :
    Alike R (readCodeLengths n) fun _ s s' => R s s' ∧ s.LensAgree n s' :=
  (alike_readBits_keeps C.toMovesTwin 1).bind fun _ => (alike_readBits_keeps C.toMovesTwin 4).bind fun c =>
    .ite (fun _ => alike_literalLengths C.lens n (4 + c)) fun _ => alike_codedLengths C n (4 + c)

/-! ### Trees and groups -/

theorem alike_readTree (C : TreeTwin R) (t : Fin 7) (n : Nat) : Alike R (readTree t n) fun _ => R :=
  (alike_readCodeLengths C n).bind fun _ =>
    (alike_readState (S := fun _ => R) (fun _ _ h => h.2.codeLengths) fun _ _ h => h.1).bind fun L =>
      (alike_build C t L).conseq (fun _ _ h => h) fun _ _ _ h => h.1

theorem alike_readTrees (C : TreeTwin R) (primary : Bool) (l : List (Fin 7 × Nat)) :
    Alike R (readTrees primary l) fun _ => R := by
  induction l with
  | nil => exact alike_pure fun _ _ h => h
  | cons tn l ih => exact (alike_readTree C _ tn.2).bind fun _ => ih

theorem alike_readGroup (C : TreeTwin R) (cs : Nat) (at_ primary : Bool) :
    Alike R (readGroup cs at_ primary) fun _ => R :=
  (alike_readTrees C primary _).bind fun _ =>
    .ite (fun _ => alike_update fun s s' h => C.invalidate s s' 3 h) fun _ => alike_pure fun _ _ h => h

end

end Sys2Proof.Machine
end

section
/-! Two runs of the pixel stream and of a sub-image: the pixels drawn are the same (48_orchestrator.md R339). -/

namespace Sys2Proof.Machine

/-! ### The pixels drawn so far -/

/-- The first `n` elements of `buf` are the same. -/
def State.AgreeOn (buf : Space) (n : Nat) (s s' : State) : Prop := ∀ i < n, s.elem buf i = s'.elem buf i

theorem agreeOn_zero (buf : Space) (s s' : State) : State.AgreeOn buf 0 s s' := fun _ h => absurd h (Nat.not_lt_zero _)

theorem State.AgreeOn.mono {buf : Space} {m n : Nat} {s s' : State} (h : State.AgreeOn buf n s s') (hmn : m ≤ n) :
    State.AgreeOn buf m s s' := fun i hi => h i (lt_of_lt_of_le hi hmn)

section

variable {buf : Space} {s s' : State}

/-- One and the same pixel written to both. -/
theorem State.Twin.agreeOn_setElem (h : s.Twin s') (hb : IsTarget buf) {pos n : Nat}
    (ha : ∀ i < n, i ≠ pos → s.elem buf i = s'.elem buf i) (v : Word) :
    State.AgreeOn buf n (s.setElem buf pos v) (s'.setElem buf pos v) := by
  intro i hi
  by_cases hip : i = pos
  · rw [hip, elem_setElem_target hb h.mem, elem_setElem_target hb h.mem']
  · rw [State.elem_setElem_ne _ (fun e => hip e.2), State.elem_setElem_ne _ (fun e => hip e.2)]
    exact ha i hi hip

theorem State.AgreeOn.cacheInsert (hb : IsTarget buf) {n : Nat} (ha : State.AgreeOn buf n s s') (p : Word) :
    State.AgreeOn buf n (s.cacheInsert p) (s'.cacheInsert p) := by
  intro i hi
  rw [elem_cacheInsert hb, elem_cacheInsert hb]
  exact ha i hi

end

section

variable {R : State → State → Prop} {buf : Space} {at_ : Bool} {n : Nat}

theorem StreamTwin.agree (C : StreamTwin buf R) (n : Nat) : MovesTwin fun s s' => R s s' ∧ s.AgreeOn buf n s' :=
  C.toMovesTwin.and fun _ _ _ h => h

theorem StreamTwin.emitPixel (C : StreamTwin buf R) (hb : IsTarget buf) {pos : Nat} (p : Word) {s s' : State}
    (h : R s s' ∧ s.AgreeOn buf pos s') :
    R (s.emitPixel buf pos p) (s'.emitPixel buf pos p) ∧
      (s.emitPixel buf pos p).AgreeOn buf (pos + 1) (s'.emitPixel buf pos p) :=
  ⟨C.cacheInsert _ _ p (C.setElem s s' pos p h.1),
    ((C.twin s s' h.1).agreeOn_setElem hb (fun i hi hne => h.2 i (by omega)) p).cacheInsert hb p⟩

/-- A copied pixel is one drawn before. -/
theorem StreamTwin.copyRun (C : StreamTwin buf R) (hb : IsTarget buf) {dist : Nat} (hd : 1 ≤ dist) (len : Nat) {pos : Nat}
    (hp : dist ≤ pos) {s s' : State} (h : R s s' ∧ s.AgreeOn buf pos s') :
    R (s.copyRun buf pos dist true len) (s'.copyRun buf pos dist true len) ∧
      (s.copyRun buf pos dist true len).AgreeOn buf (pos + len) (s'.copyRun buf pos dist true len) := by
  induction len generalizing pos s s' with
  | zero => exact h
  | succ len ih =>
    have hcopy (a : State) : a.copyPixel buf pos dist true = a.emitPixel buf pos (a.elem buf (pos - dist)) := rfl
    unfold State.copyRun
    rw [hcopy, hcopy, ← h.2 (pos - dist) (by omega), show pos + (len + 1) = pos + 1 + len by omega]
    exact ih (by omega) (C.emitPixel hb _ h)

/-! ### Tokens -/

theorem alike_emit (C : StreamTwin buf R) (hb : IsTarget buf) (pos : Nat) (p : Word) :
    Alike (fun s s' => R s s' ∧ s.AgreeOn buf pos s')
      (do update fun s => s.emitPixel buf pos p; pure (pos + 1))
      fun q s s' => (R s s' ∧ s.AgreeOn buf q s') ∧ pos < q :=
  (alike_update fun _ _ h => C.emitPixel hb p h).bind fun _ => alike_pure fun _ _ h => ⟨h, Nat.lt_succ_self pos⟩

theorem alike_lzCopy (C : StreamTwin buf R) (hb : IsTarget buf) (pos dist len n : Nat) :
    Alike (fun s s' => R s s' ∧ s.AgreeOn buf pos s') (lzCopy buf pos dist len n true)
      fun _ s s' => (R s s' ∧ s.AgreeOn buf (pos + len) s') ∧ 1 ≤ len := by
  intro s s' h
  have hT := C.twin s s' h.1
  rw [lzCopy_apply, lzCopy_apply, ← hT.params]
  split_ifs with hdist hpos hlen hsize
  · exact ⟨rfl, hT.stage⟩
  · exact ⟨rfl, hT.stage⟩
  · exact ⟨rfl, hT.stage⟩
  · exact ⟨rfl, hT.stage⟩
  · exact ⟨rfl, C.copyRun hb (by omega) len (by omega) h, by omega⟩

theorem alike_cacheGet (M : MovesTwin R) (j : Nat) : Alike R (cacheGet j) fun _ => R := by
  intro s s' h
  have hT := M.twin s s' h
  rw [cacheGet_apply, cacheGet_apply, ← hT.ccSize, ← hT.cache]
  split_ifs
  · exact ⟨rfl, hT.stage⟩
  · exact ⟨rfl, h⟩

theorem State.GroupOk.valid {s : State} {cs : Nat} (h : s.GroupOk cs at_) {t : Fin 7}
    (ht : t = 0 ∨ t = 1 ∨ t = 2 ∨ (t = 3 ∧ at_ = true) ∨ t = 4) : s.tabInfo[t].valid = true := by
  obtain ⟨h0, h1, h2, h3, h4⟩ := h
  rcases ht with rfl | rfl | rfl | ⟨rfl, ha⟩ | rfl
  · exact h0.1
  · exact h1.1
  · exact h2.1
  · exact (h3 ha).1
  · exact h4.1

variable {cs : Nat}

theorem alike_literalToken (C : StreamTwin buf R) (hb : IsTarget buf) (hG : ∀ s s', R s s' → s.GroupOk cs at_)
    (pos g : Nat) : Alike (fun s s' => R s s' ∧ s.AgreeOn buf pos s') (literalToken buf at_ pos g)
      fun q s s' => (R s s' ∧ s.AgreeOn buf q s') ∧ pos < q := by
  refine (alike_decodeSym (C.agree pos) fun s s' h => (hG s s' h.1).valid (by simp)).bind fun r =>
    (alike_decodeSym (C.agree pos) fun s s' h => (hG s s' h.1).valid (by simp)).bind fun b =>
      Alike.bind (S := fun _ s s' => R s s' ∧ s.AgreeOn buf pos s') ?_ fun a => alike_emit C hb pos _
  exact .ite (fun ha => alike_decodeSym (C.agree pos) fun s s' h => (hG s s' h.1).valid (by simp [ha])) fun _ =>
    alike_pure fun _ _ h => h

theorem alike_backRefToken (C : StreamTwin buf R) (hb : IsTarget buf) (hG : ∀ s s', R s s' → s.GroupOk cs at_)
    (pos c : Nat) : Alike (fun s s' => R s s' ∧ s.AgreeOn buf pos s') (backRefToken buf n pos c)
      fun q s s' => (R s s' ∧ s.AgreeOn buf q s') ∧ pos < q :=
  (alike_prefixValue (C.agree pos) c).bind fun len =>
    (alike_decodeSym (C.agree pos) fun s s' h => (hG s s' h.1).valid (by simp)).bind fun d =>
      (alike_prefixValue (C.agree pos) d).bind fun dist => (alike_lzCopy C hb pos dist len n).bind fun _ =>
        alike_pure fun _ _ h => ⟨h.1, Nat.lt_add_of_pos_right h.2⟩

theorem alike_pixelToken (C : StreamTwin buf R) (hb : IsTarget buf) (hG : ∀ s s', R s s' → s.GroupOk cs at_)
    (pos : Nat) : Alike (fun s s' => R s s' ∧ s.AgreeOn buf pos s') (pixelToken buf n at_ pos)
      fun q s s' => (R s s' ∧ s.AgreeOn buf q s') ∧ pos < q :=
  (alike_decodeSym (C.agree pos) fun s s' h => (hG s s' h.1).valid (by simp)).bind fun g =>
    .ite (fun _ => alike_literalToken C hb hG pos g) fun _ => .ite (fun _ => alike_backRefToken C hb hG pos _) fun _ =>
      (alike_cacheGet (C.agree pos) _).bind fun p => alike_emit C hb pos p

theorem alike_pixelLoop (C : StreamTwin buf R) (hb : IsTarget buf) (hG : ∀ s s', R s s' → s.GroupOk cs at_)
    (fuel : Nat) {pos : Nat} (hf : n ≤ pos + fuel) :
    Alike (fun s s' => R s s' ∧ s.AgreeOn buf pos s') (pixelLoop buf n at_ fuel pos)
      fun _ s s' => R s s' ∧ s.AgreeOn buf n s' := by
  induction fuel generalizing pos with
  | zero => exact alike_pure fun _ _ h => ⟨h.1, h.2.mono hf⟩
  | succ fuel ih =>
    unfold pixelLoop
    refine .ite (fun _ => ?_) fun hp => alike_pure fun _ _ h => ⟨h.1, h.2.mono (Nat.le_of_not_lt hp)⟩
    refine (alike_pixelToken C hb hG pos).bind fun q => alike_of_fact (fun _ _ h => h.2) fun hq => ?_
    exact (ih (by omega)).conseq (fun _ _ h => h.1) fun _ _ _ h => h

/-! ### A sub-image -/

theorem ImageTwin.withGroup (C : ImageTwin buf R) (hb : IsTarget buf) (cs : Nat) (at_ : Bool) :
    StreamTwin buf fun s s' => R s s' ∧ s.GroupOk cs at_ where
  toMovesTwin := C.toMovesTwin.and fun _ _ _ h => h
  setElem s s' i v h := by
    obtain ⟨htab, hinfo, -⟩ := setElem_tab hb s i v
    exact ⟨C.setElem s s' i v h.1, h.2.congr htab hinfo⟩
  cacheInsert s s' v h := ⟨C.cacheInsert s s' v h.1, h.2.congr (cacheInsert_tab s v) (cacheInsert_tabInfo s v)⟩

/-- A cleared cache, and the pixels drawn with it. -/
theorem alike_cachedStream (C : ImageTwin buf R) (hb : IsTarget buf) (cb n : Nat) :
    Alike (fun s s' => R s s' ∧ s.GroupOk cs at_) (do cacheInit cb; pixelStream buf n at_)
      fun _ s s' => R s s' ∧ s.AgreeOn buf n s' := by
  unfold cacheInit
  rw [bind_assoc]
  refine (alike_raiseIf (S := fun _ s s' => (R s s' ∧ s.GroupOk cs at_) ∧ cb ≤ Config.cacheMaxBits)
    (fun s s' h => (C.twin s s' h.1).stage) fun hc _ _ h => ⟨h, Nat.le_of_not_lt (of_decide_eq_false hc)⟩).bind fun _ => ?_
  refine (alike_update (S := fun _ s s' => (R s s' ∧ s.GroupOk cs at_) ∧ s.AgreeOn buf 0 s') fun s s' h =>
    ⟨⟨C.clearCache s s' cb h.1.1 h.2, h.1.2.congr rfl rfl⟩, agreeOn_zero buf _ _⟩).bind fun _ => ?_
  exact (alike_pixelLoop (C.withGroup hb cs at_) hb (fun _ _ h => h.2) n (Nat.le_add_left n 0)).conseq (fun _ _ h => h)
    fun _ _ _ h => ⟨h.1.1, h.2⟩

theorem alike_readCacheBits (M : MovesTwin R) :
    Alike R readCacheBits fun cb s s' => R s s' ∧ cb ≤ Config.cacheMaxBits := by
  refine (alike_readBits_keeps M 1).bind fun _ => .ite (fun _ => alike_pure fun _ _ h => ⟨h, Nat.zero_le _⟩) fun _ => ?_
  exact (alike_readBits_keeps M 4).bind fun cb => (alike_raiseIf M.sameStage fun hc _ _ h =>
    (⟨h, Nat.le_of_not_lt (of_decide_eq_false hc)⟩ : _ ∧ cb ≤ Config.cacheMaxBits)).bind fun _ => alike_pure fun _ _ h => h

/-- The main group leaves its tables valid. -/
theorem alike_readGroup_primary (C : TreeTwin R) {cs : Nat} (hcs : cs ≤ Config.cacheCapacity) (at_ : Bool) :
    Alike R (readGroup cs at_ true) fun _ s s' => R s s' ∧ s.GroupOk cs at_ :=
  ((alike_readGroup C cs at_ true).withFirst
    (hoare_readGroup_primary (memWf_imageClosed.tree.mono fun _ _ => trivial) hcs at_)).conseq
      (fun s s' h => ⟨h, (C.twin s s' h).mem, State.MemWf.clmem (C.twin s s' h).mem⟩) fun _ _ _ h => ⟨h.1, h.2.2.2.1⟩

theorem alike_entropyImage (C : ImageTwin buf R) (hb : IsTarget buf) (w h : Nat) :
    Alike R (entropyImage w h buf) fun _ s s' => R s s' ∧ s.AgreeOn buf (w * h) s' := by
  unfold entropyImage
  refine (alike_readState (S := fun _ => R) (fun s s' hs => ?_) fun _ _ hs => hs).bind fun cap =>
    (alike_raiseIf (S := fun _ => R) C.toTreeTwin.sameStage fun _ _ _ hs => hs).bind fun _ =>
      (alike_readCacheBits C.toMovesTwin).bind fun cb => alike_of_fact (fun _ _ hs => hs.2) fun hcb => ?_
  · rw [(C.twin s s' hs).params]
  · exact ((alike_readGroup_primary C.toTreeTwin (Closed.cacheSize_le hcb) true).conseq (fun _ _ hs => hs.1)
      fun _ _ _ hs => hs).bind fun _ => alike_cachedStream C hb cb (w * h)

end

end Sys2Proof.Machine
end

section
/-! Two runs of the transform list: the descriptors and the payloads they read are the same (48_orchestrator.md R315 to
R323, R339). -/

namespace Sys2Proof.Machine

/-! ### Payloads -/

/-- The number of elements of the payload of a descriptor (10_state.md R53, R54). -/
def State.payloadSize (s : State) (d : XfDesc) : Nat :=
  match d.ty with
  | .predictor => blockCount s.imgW.toNat s.imgH.toNat d.blockBits.toNat
  | .color => blockCount s.imgW.toNat s.imgH.toNat d.blockBits.toNat
  | .subtractGreen => 0
  | .palette => d.palSize.toNat

theorem State.payloadSize_block (s : State) {d : XfDesc} (h : d.ty = .predictor ∨ d.ty = .color) :
    s.payloadSize d = blockCount s.imgW.toNat s.imgH.toNat d.blockBits.toNat := by
  unfold State.payloadSize
  rcases h with h | h
  · rw [h]
  · rw [h]

theorem State.payloadSize_subtractGreen (s : State) {d : XfDesc} (h : d.ty = .subtractGreen) : s.payloadSize d = 0 := by
  unfold State.payloadSize
  rw [h]

theorem State.payloadSize_palette (s : State) {d : XfDesc} (h : d.ty = .palette) :
    s.payloadSize d = d.palSize.toNat := by
  unfold State.payloadSize
  rw [h]

/-- The payloads of the first `n` descriptors are the same. -/
def State.PayloadsAgree (n : Nat) (s s' : State) : Prop :=
  ∀ k < n, State.AgreeOn (.sub (descOf k)) (s.payloadSize s.xfDesc[descOf k]) s s'

theorem State.payloadSize_congr {s u : State} (hw : u.imgW = s.imgW) (hh : u.imgH = s.imgH) (d : XfDesc) :
    u.payloadSize d = s.payloadSize d := by
  unfold State.payloadSize
  rw [hw, hh]

theorem payloadsAgree_zero (s s' : State) : State.PayloadsAgree 0 s s' := fun _ h => absurd h (Nat.not_lt_zero _)

theorem State.PayloadsAgree.congr {n : Nat} {s s' u u' : State} (h : State.PayloadsAgree n s s')
    (hd : u.xfDesc = s.xfDesc) (hw : u.imgW = s.imgW) (hh : u.imgH = s.imgH)
    (hs : ∀ k < n, ∀ i, u.elem (.sub (descOf k)) i = s.elem (.sub (descOf k)) i)
    (hs' : ∀ k < n, ∀ i, u'.elem (.sub (descOf k)) i = s'.elem (.sub (descOf k)) i) : State.PayloadsAgree n u u' := by
  intro k hk i hi
  rw [hs k hk, hs' k hk]
  rw [State.payloadSize_congr hw hh, hd] at hi
  exact h k hk i hi

/-- Twins with the same first `n` payloads. -/
def State.ListTwin (n : Nat) (s s' : State) : Prop := s.Twin s' ∧ s.PayloadsAgree n s'

section

variable {buf : Space} {n : Nat}

/-- Pieces that write another space keep the payloads. -/
theorem listTwin_imageTwin (hb : IsTarget buf) (hne : ∀ k < n, Space.sub (descOf k) ≠ buf) :
    ImageTwin buf (State.ListTwin n) where
  twin _ _ h := h.1
  move _ _ q h _ _ := ⟨h.1.moveTo q, h.2⟩
  lengths _ _ i vs h := ⟨h.1.setCodeLengths i vs, h.2⟩
  clmClear _ _ h := ⟨h.1.clearClm, h.2⟩
  clmSet _ _ m v h := ⟨h.1.setClm m v, h.2⟩
  invalidate _ _ t h := ⟨h.1.invalidate t, h.2⟩
  built _ _ t _ h hL := ⟨h.1.built t hL, h.2⟩
  clearCache _ _ _ h hb := ⟨h.1.clearCache hb, h.2⟩
  setElem s s' i v h := by
    have hframe : (s.setElem buf i v).xfDesc = s.xfDesc ∧ (s.setElem buf i v).imgW = s.imgW ∧
        (s.setElem buf i v).imgH = s.imgH := by
      rcases hb with rfl | ⟨k, rfl⟩ | rfl
      · exact ⟨rfl, rfl, rfl⟩
      · exact ⟨rfl, rfl, rfl⟩
      · exact ⟨rfl, rfl, rfl⟩
    obtain ⟨hd, hw, hh⟩ := hframe
    exact ⟨h.1.setElem hb i v, h.2.congr hd hw hh (fun k hk j => State.elem_setElem_ne _ (fun e => hne k hk e.1) v)
      fun k hk j => State.elem_setElem_ne _ (fun e => hne k hk e.1) v⟩
  cacheInsert s s' v h := by
    refine ⟨h.1.cacheInsert v, h.2.congr ?_ (cacheInsert_imgW s v) (cacheInsert_imgH s v)
      (fun k _ j => elem_cacheInsert (.inr (.inl ⟨_, rfl⟩)) s v j) fun k _ j => elem_cacheInsert (.inr (.inl ⟨_, rfl⟩)) s' v j⟩
    rw [cacheInsert_frame]

/-- What pieces keep of the first run may be asked for as well. -/
theorem ImageTwin.andFirst {R : State → State → Prop} {P : State → Prop} (C : ImageTwin buf R) (hb : IsTarget buf)
    (CP : ImageClosed P) : ImageTwin buf fun s s' => R s s' ∧ P s where
  twin s s' h := C.twin s s' h.1
  move s s' q h hq hp := ⟨C.move s s' q h.1 hq hp, CP.tree.move s q h.2 hq hp⟩
  lengths s s' i vs h := ⟨C.lengths s s' i vs h.1, CP.tree.lengths s i vs h.2⟩
  clmClear s s' h := ⟨C.clmClear s s' h.1, CP.tree.clmClear s h.2⟩
  clmSet s s' m v h := ⟨C.clmSet s s' m v h.1, CP.tree.clmSet s m v h.2⟩
  invalidate s s' t h := ⟨C.invalidate s s' t h.1, CP.tree.invalidate s t trivial h.2⟩
  built s s' t L h hL := ⟨C.built s s' t L h.1 hL, CP.tree.built s t L trivial h.2 hL⟩
  clearCache s s' b h hb := ⟨C.clearCache s s' b h.1 hb, CP.clearCache s b h.2 hb⟩
  setElem s s' i v h := ⟨C.setElem s s' i v h.1, (CP.stream buf hb).setElem s i v h.2⟩
  cacheInsert s s' v h := ⟨C.cacheInsert s s' v h.1, (CP.stream buf hb).cacheInsert s v h.2⟩

end

/-! ### One more descriptor -/

section

variable {s s' : State} {k : Nat}

theorem setDesc_self (s : State) (k : Fin 4) (d : XfDesc) : (s.setDesc k d).xfDesc[k] = d := vget_set_self _ _ _

theorem setDesc_ne (s : State) {j k : Nat} (hk : k < 4) (hj : j < k) (d : XfDesc) :
    (s.setDesc (descOf k) d).xfDesc[descOf j] = s.xfDesc[descOf j] :=
  vget_set_ne _ (descOf_ne (by omega) hk (by omega)) _

/-- A change of the next descriptor keeps the payloads before it. -/
theorem State.PayloadsAgree.setDesc (h : s.PayloadsAgree k s') (hk : k < 4) (d d' : XfDesc) :
    State.PayloadsAgree k (s.setDesc (descOf k) d) (s'.setDesc (descOf k) d') := by
  intro j hj i hi
  rw [setDesc_ne s hk hj] at hi
  exact h j hj i hi

theorem State.PayloadsAgree.succ (h : s.PayloadsAgree k s')
    (hd : s.AgreeOn (.sub (descOf k)) (s.payloadSize s.xfDesc[descOf k]) s') : State.PayloadsAgree (k + 1) s s' := by
  intro j hj
  rcases Nat.lt_succ_iff_lt_or_eq.mp hj with hj | rfl
  · exact h j hj
  · exact hd

/-- The next descriptor written over a payload of its size. -/
theorem State.ListTwin.payload (h : s.ListTwin k s') (hk : k < 4) {d : XfDesc}
    (hd : s.AgreeOn (.sub (descOf k)) (s.payloadSize d) s') :
    State.ListTwin (k + 1) (s.setDesc (descOf k) d) (s'.setDesc (descOf k) d) := by
  refine ⟨h.1.setDesc _ d, (h.2.setDesc hk d d).succ ?_⟩
  rw [setDesc_self]
  exact hd

theorem State.ListTwin.countDesc (h : s.ListTwin (k + 1) s') (hk : k < 4) :
    State.ListTwin (k + 1) (s.countDesc k) (s'.countDesc k) := by
  have hbefore : s.PayloadsAgree k s' := fun j hj => h.2 j (by omega)
  refine ⟨h.1.countDesc k, State.PayloadsAgree.succ (s := s.countDesc k) (s' := s'.countDesc k)
    (hbefore.setDesc hk { s.xfDesc[descOf k] with payloadValid := true }
      { s'.xfDesc[descOf k] with payloadValid := true }) ?_⟩
  rw [show (s.countDesc k).xfDesc[descOf k] = { s.xfDesc[descOf k] with payloadValid := true } from setDesc_self _ _ _]
  exact h.2 k (Nat.lt_succ_self k)

end

/-! ### Payloads of each type -/

/-- Two runs in the transform list at descriptor `k`, the first run going on from `c`. -/
def State.AtDesc (c : State) (k : Nat) (s s' : State) : Prop := State.ListTwin k s s' ∧ c.Since s ∧ c.SameList s

section

variable {c : State} {k : Nat}

theorem isTarget_sub (k : Fin 4) : IsTarget (.sub k) := .inr (.inl ⟨k, rfl⟩)

theorem atDesc_imageTwin (c : State) (hk : k < 4) : ImageTwin (.sub (descOf k)) (c.AtDesc k) :=
  (listTwin_imageTwin (isTarget_sub _) fun _ hj e => descOf_ne (by omega) hk (by omega) (Space.sub.inj e)).andFirst
    (isTarget_sub _) ((since_imageClosed c).and (sameList_imageClosed c))

/-- The sub-image of a block payload has one element for each block. -/
theorem payloadSize_blockRead (hty : c.xfDesc[descOf k].ty = .predictor ∨ c.xfDesc[descOf k].ty = .color) {s : State}
    (hs : c.Since s ∧ c.SameList s) {b : Nat} (hb : b < 2 ^ 3) :
    s.payloadSize { s.xfDesc[descOf k] with blockBits := BitVec.ofNat 4 (b + 2) } =
      ceilDiv c.imgW.toNat (2 ^ (b + 2)) * ceilDiv c.imgH.toNat (2 ^ (b + 2)) := by
  obtain ⟨hsince, hdesc, -⟩ := hs
  have hbb : (BitVec.ofNat 4 (b + 2)).toNat = b + 2 := by rw [BitVec.toNat_ofNat]; omega
  rw [← hdesc] at hty
  rw [State.payloadSize_block (d := { s.xfDesc[descOf k] with blockBits := BitVec.ofNat 4 (b + 2) }) s hty, hsince.imgW,
    hsince.imgH, hbb]
  rfl

theorem alike_readBlockPayload (hk : k < 4)
    (hty : c.xfDesc[descOf k].ty = .predictor ∨ c.xfDesc[descOf k].ty = .color) :
    Alike (c.AtDesc k) (readBlockPayload (descOf k) c.imgW.toNat c.imgH.toNat) fun _ => State.ListTwin (k + 1) := by
  have C := atDesc_imageTwin c hk
  refine (alike_readBits C.toMovesTwin 3).bind fun b => alike_of_fact (fun _ _ h => h.2) fun hb => ?_
  refine ((alike_entropyImage C (isTarget_sub _) _ _).conseq (fun _ _ h => h.1) fun _ _ _ h => h).bind fun _ =>
    alike_update fun s s' h => ?_
  obtain ⟨⟨hlist, hs⟩, hpx⟩ := h
  rw [← hlist.1.xfDesc]
  refine hlist.payload hk ?_
  rw [payloadSize_blockRead hty hs hb]
  exact hpx

/-- One step of the delta decoding, on palettes that are the same. -/
theorem alike_deltaEntry (hk : k < 4) {n i : Nat} (hi : i < n) :
    Alike (fun s s' => c.AtDesc k s s' ∧ s.AgreeOn (.sub (descOf k)) n s') (update fun s => s.deltaEntry (descOf k) i)
      fun _ s s' => c.AtDesc k s s' ∧ s.AgreeOn (.sub (descOf k)) n s' := by
  refine alike_update fun s s' h => ?_
  obtain ⟨hD, hpx⟩ := h
  unfold State.deltaEntry
  rw [← hpx i hi, ← hpx (i - 1) (by omega)]
  have C := atDesc_imageTwin c hk
  exact ⟨C.setElem s s' i _ hD, (C.twin s s' hD).agreeOn_setElem (isTarget_sub _) (fun j hj _ => hpx j hj) _⟩

theorem alike_readPalette (hk : k < 4) (hty : c.xfDesc[descOf k].ty = .palette) :
    Alike (c.AtDesc k) (readPalette (descOf k)) fun _ => State.ListTwin (k + 1) := by
  have C := atDesc_imageTwin c hk
  refine (alike_readBits C.toMovesTwin 8).bind fun b => alike_of_fact (fun _ _ h => h.2) fun hb => ?_
  refine ((alike_entropyImage C (isTarget_sub _) (b + 1) 1).conseq (fun _ _ h => h.1) fun _ _ _ h => h).bind fun _ => ?_
  refine (alike_forRange (I := fun _ s s' => c.AtDesc k s s' ∧ s.AgreeOn (.sub (descOf k)) ((b + 1) * 1) s') b
    fun i _ hi => alike_deltaEntry hk (by omega)).bind fun _ => alike_update fun s s' h => ?_
  obtain ⟨⟨hlist, -, hdesc, -⟩, hpx⟩ := h
  have hbb : (BitVec.ofNat 9 (b + 1)).toNat = (b + 1) * 1 := by rw [BitVec.toNat_ofNat]; omega
  rw [← hdesc] at hty
  rw [← hlist.1.xfDesc]
  refine hlist.payload hk ?_
  rw [State.payloadSize_palette (d := { s.xfDesc[descOf k] with palSize := BitVec.ofNat 9 (b + 1) }) s hty, hbb]
  exact hpx

theorem alike_noPayload (hty : c.xfDesc[descOf k].ty = .subtractGreen) :
    Alike (c.AtDesc k) (pure ()) fun _ => State.ListTwin (k + 1) := by
  refine alike_pure fun s s' h => ?_
  obtain ⟨hlist, -, hdesc, -⟩ := h
  refine ⟨hlist.1, hlist.2.succ ?_⟩
  rw [hdesc, State.payloadSize_subtractGreen s hty]
  exact agreeOn_zero _ s s'

end

/-! ### The list -/

/-- Two runs between the transforms of a list: what the payloads and the first run's list are. -/
def State.Listing (c : State) (seen : List XfType) (s s' : State) : Prop :=
  State.ListTwin seen.length s s' ∧ c.Since s ∧ s.ListOk seen

theorem listing_moves (c : State) (seen : List XfType) : MovesTwin (c.Listing seen) where
  twin _ _ h := h.1.1
  move s _ q h hq hp :=
    ⟨⟨h.1.1.moveTo q, h.1.2⟩, (since_imageClosed c).tree.move s q h.2.1 hq hp, listOk_moves seen s q h.2.2 hq hp⟩

/-- The payload of a transform of type `ty`. -/
def readPayload (k : Fin 4) (w h : Nat) : XfType → Cmd Unit
  | .predictor => readBlockPayload k w h
  | .color => readBlockPayload k w h
  | .subtractGreen => pure ()
  | .palette => readPalette k

theorem readTransform_eq (w h : Nat) (seen : List XfType) : readTransform w h seen = (do
    let c ← readBits 2
    raiseIf (XfType.ofCode c ∈ seen) .transformRepeated c
    let k ← readState fun s => s.xfCount.toNat
    update fun s => s.setDesc (descOf k) ⟨XfType.ofCode c, 0, 0, false⟩
    readPayload (descOf k) w h (XfType.ofCode c)
    update fun s => s.countDesc k
    pure (XfType.ofCode c :: seen)) := by
  refine bind_congr fun v => ?_
  generalize XfType.ofCode v = ty
  cases ty <;> rfl

theorem alike_readPayload {c : State} {k : Nat} (hk : k < 4) {ty : XfType} (hty : c.xfDesc[descOf k].ty = ty) :
    Alike (c.AtDesc k) (readPayload (descOf k) c.imgW.toNat c.imgH.toNat ty) fun _ => State.ListTwin (k + 1) := by
  cases ty with
  | predictor => exact alike_readBlockPayload hk (.inl hty)
  | color => exact alike_readBlockPayload hk (.inr hty)
  | subtractGreen => exact alike_noPayload hty
  | palette => exact alike_readPalette hk hty

/-- A transform of a type not read before. -/
theorem alike_newTransform {c : State} {seen : List XfType} {ty : XfType} (hn : ty ∉ seen) :
    Alike (c.Listing seen) (do
      let k ← readState fun s => s.xfCount.toNat
      update fun s => s.setDesc (descOf k) ⟨ty, 0, 0, false⟩
      readPayload (descOf k) c.imgW.toNat c.imgH.toNat ty
      update fun s => s.countDesc k
      pure (ty :: seen)) fun seen' => State.ListTwin seen'.length := by
  intro s s' h
  obtain ⟨hlist, hsince, hok⟩ := h
  have hk : seen.length < 4 := XfType.length_le (List.nodup_cons.2 ⟨hn, hok.nodup⟩)
  have hcount : s'.xfCount.toNat = seen.length := by rw [← hlist.1.xfCount, hok.count]
  rw [cmd_bind_of_ok (readState_apply _ s), cmd_bind_of_ok (readState_apply _ s'), hok.count, hcount,
    cmd_bind_of_ok (update_apply _ s), cmd_bind_of_ok (update_apply _ s')]
  have hstart := hsince.setDesc (descOf seen.length) ⟨ty, 0, 0, false⟩
  have hw : c.imgW = (s.setDesc (descOf seen.length) ⟨ty, 0, 0, false⟩).imgW := hstart.imgW.symm
  have hh : c.imgH = (s.setDesc (descOf seen.length) ⟨ty, 0, 0, false⟩).imgH := hstart.imgH.symm
  rw [hw, hh]
  have counted : Alike (State.ListTwin (seen.length + 1))
      (do update fun s => s.countDesc seen.length; pure (ty :: seen)) fun seen' => State.ListTwin seen'.length :=
    (alike_update fun _ _ h => State.ListTwin.countDesc h hk).bind fun _ => alike_pure fun _ _ h => h
  exact ((alike_readPayload hk (congrArg XfDesc.ty (setDesc_self s (descOf seen.length) ⟨ty, 0, 0, false⟩))).bind
    fun _ => counted) _ _
      ⟨⟨hlist.1.setDesc _ _, hlist.2.setDesc hk _ _⟩, State.Since.refl hstart.high hstart.mem, rfl, rfl⟩

theorem alike_readTransform (c : State) (seen : List XfType) :
    Alike (c.Listing seen) (readTransform c.imgW.toNat c.imgH.toNat seen) c.Listing := by
  have step : Alike (c.Listing seen) (readTransform c.imgW.toNat c.imgH.toNat seen)
      fun seen' => State.ListTwin seen'.length := by
    rw [readTransform_eq]
    refine (alike_readBits_keeps (listing_moves c seen) 2).bind fun v => (alike_raiseIf
      (S := fun _ s s' => c.Listing seen s s' ∧ XfType.ofCode v ∉ seen) (listing_moves c seen).sameStage
      fun hc _ _ h => ⟨h, of_decide_eq_false hc⟩).bind fun _ => alike_of_fact (fun _ _ h => h.2) fun hn =>
        (alike_newTransform hn).conseq (fun _ _ h => h.1) fun _ _ _ h => h
  exact (step.withFirst (hoare_readTransform seen)).conseq (fun _ _ h => ⟨h, h.2⟩) fun _ _ _ h => h

theorem alike_transformLoop (c : State) (fuel : Nat) (seen : List XfType) :
    Alike (c.Listing seen) (transformLoop c.imgW.toNat c.imgH.toNat fuel seen)
      fun _ s s' => ∃ seen', c.Listing seen' s s' := by
  induction fuel generalizing seen with
  | zero => exact alike_pure fun _ _ h => ⟨seen, h⟩
  | succ fuel ih =>
    exact (alike_readBits_keeps (listing_moves c seen) 1).bind fun more =>
      .ite (fun _ => (alike_readTransform c seen).bind fun seen' => ih seen') fun _ => alike_pure fun _ _ h => ⟨seen, h⟩

end Sys2Proof.Machine
end

section
/-! Two runs of the chain of inverse transforms: the pixels they leave are the same (47_transforms.md R289, 48_orchestrator.md
R339). -/

namespace Sys2Proof.Machine

/-! ### Blocks -/

theorem div_lt_ceilDiv {x w b : Nat} (hb : 0 < b) (hx : x < w) : x / b < ceilDiv w b := by
  have hstep : x / b + 1 = (x + b) / b := (Nat.add_div_right x hb).symm
  have hle : (x + b) / b ≤ (w + b - 1) / b := Nat.div_le_div_right (by omega)
  unfold ceilDiv
  omega

/-- The block that holds a pixel of the image is one of the grid. -/
theorem blockIndex_lt {w h i : Nat} (b : Nat) (hi : i < w * h) :
    i / w / 2 ^ b * ceilDiv w (2 ^ b) + i % w / 2 ^ b < blockCount w h b := by
  have hw : 0 < w := Nat.pos_of_ne_zero fun h0 => by simp [h0] at hi
  have hcol := div_lt_ceilDiv (Nat.two_pow_pos b) (Nat.mod_lt i hw)
  have hrow := div_lt_ceilDiv (Nat.two_pow_pos b) (Nat.div_lt_of_lt_mul hi)
  unfold blockCount
  calc i / w / 2 ^ b * ceilDiv w (2 ^ b) + i % w / 2 ^ b
      < i / w / 2 ^ b * ceilDiv w (2 ^ b) + ceilDiv w (2 ^ b) := Nat.add_lt_add_left hcol _
    _ = (i / w / 2 ^ b + 1) * ceilDiv w (2 ^ b) := (Nat.succ_mul _ _).symm
    _ ≤ ceilDiv h (2 ^ b) * ceilDiv w (2 ^ b) := Nat.mul_le_mul_right _ hrow
    _ = ceilDiv w (2 ^ b) * ceilDiv h (2 ^ b) := Nat.mul_comm _ _

/-! ### Pixels on the way through the chain -/

/-- Two runs with the same first `n` payloads and the same pixels, `m` of them, the first run changed in its pixels alone
since `c`. -/
structure State.Undoing (c : State) (n m : Nat) (s s' : State) : Prop where
  list   : State.ListTwin n s s'
  pixels : State.AgreeOn .pix m s s'
  first  : c.OnlyPix s

section

variable {c : State} {n : Nat}

theorem State.Undoing.setPix {m : Nat} {s s' : State} (h : c.Undoing n m s s') (i : Nat) (p : Word) :
    c.Undoing n m (s.setPix i p) (s'.setPix i p) where
  list := (listTwin_imageTwin (.inl rfl) fun _ _ e => Space.noConfusion e).setElem s s' i p h.list
  pixels := h.list.1.agreeOn_setElem (.inl rfl) (fun j hj _ => h.pixels j hj) p
  first := onlyPix_pixClosed c s i p h.first

theorem State.Undoing.npix {m : Nat} {s s' : State} (h : c.Undoing n m s s') : s.npix = c.npix := by
  obtain ⟨p, rfl⟩ := h.first
  rfl

theorem State.Undoing.xfDesc {m : Nat} {s s' : State} (h : c.Undoing n m s s') : s.xfDesc = c.xfDesc := by
  obtain ⟨p, rfl⟩ := h.first
  rfl

theorem State.Undoing.blockWord {m k i : Nat} {s s' : State} (h : c.Undoing n m s s') (hk : k < n)
    (hty : c.xfDesc[descOf k].ty = .predictor ∨ c.xfDesc[descOf k].ty = .color) (hi : i < c.npix) :
    s.blockWord (descOf k) (i % s.imgW.toNat) (i / s.imgW.toNat) =
      s'.blockWord (descOf k) (i % s'.imgW.toNat) (i / s'.imgW.toNat) := by
  rw [← h.npix] at hi
  rw [← h.xfDesc] at hty
  unfold State.blockWord
  rw [← h.list.1.imgW, ← h.list.1.xfDesc]
  refine h.list.2 k hk _ ?_
  rw [State.payloadSize_block s hty]
  exact blockIndex_lt _ hi

theorem State.Undoing.sameStage {m : Nat} : ∀ s s', c.Undoing n m s s' → s.stage = s'.stage := fun _ _ h => h.list.1.stage

/-- A walk over the image. -/
theorem alike_walk {f : Nat → Cmd Unit}
    (hf : ∀ i < c.npix, Alike (c.Undoing n c.npix) (f i) fun _ => c.Undoing n c.npix) :
    Alike (c.Undoing n c.npix) (do let m ← readState State.npix; forRange f m 0) fun _ => c.Undoing n c.npix := by
  intro s s' h
  rw [cmd_bind_of_ok (readState_apply _ s), cmd_bind_of_ok (readState_apply _ s'), ← h.list.1.npix, h.npix]
  exact alike_forRange (I := fun _ => c.Undoing n c.npix) c.npix (fun i _ hi => hf i (by omega)) s s' h

/-- One and the same pixel computed in both runs. -/
theorem alike_setPix {i : Nat} {p : State → Word} (hp : ∀ s s', c.Undoing n c.npix s s' → p s = p s') :
    Alike (c.Undoing n c.npix) (update fun s => s.setPix i (p s)) fun _ => c.Undoing n c.npix := by
  refine alike_update fun s s' h => ?_
  rw [← hp s s' h]
  exact h.setPix i (p s)

theorem alike_invPredictPixel {k i : Nat} (hk : k < n) (hty : c.xfDesc[descOf k].ty = .predictor) (hi : i < c.npix) :
    Alike (c.Undoing n c.npix) (invPredictPixel (descOf k) i) fun _ => c.Undoing n c.npix := by
  intro s s' h
  have hW : 0 < s.imgW.toNat := Nat.pos_of_ne_zero fun h0 => by
    rw [← h.npix] at hi
    unfold State.npix at hi
    rw [h0, Nat.zero_mul] at hi
    omega
  have hmode : s.modeAt (descOf k) (i % s.imgW.toNat) (i / s.imgW.toNat) =
      s'.modeAt (descOf k) (i % s'.imgW.toNat) (i / s'.imgW.toNat) :=
    congrArg (fun e : Word => e.toNat / 2 ^ 8 % 2 ^ 4) (h.blockWord hk (.inl hty) hi)
  have hpx : ∀ j < c.npix, s.pixAt j = s'.pixAt j := h.pixels
  obtain ⟨hl, ht, htl, htr⟩ := neighbours_congr hW fun j (hj : j < i) => hpx j (hj.trans hi)
  rw [invPredictPixel_apply, invPredictPixel_apply, ← hmode, ← h.list.1.imgW, ← h.list.1.params, ← hl, ← ht, ← htl, ← htr,
    ← hpx i hi]
  generalize predictPix _ _ _ _ _ _ = r
  cases r with
  | some p => exact ⟨rfl, h.setPix i _⟩
  | none => exact ⟨rfl, h.list.1.stage⟩

theorem alike_palApplyPixel {k i : Nat} (hk : k < n) (hty : c.xfDesc[descOf k].ty = .palette) (hi : i < c.npix) :
    Alike (c.Undoing n c.npix) (palApplyPixel (descOf k) i) fun _ => c.Undoing n c.npix := by
  intro s s' h
  have hpx : s.pixAt i = s'.pixAt i := h.pixels i hi
  have hdesc := h.list.1.xfDesc
  rcases Nat.lt_or_ge (chanB (s.pixAt i)).toNat s.xfDesc[descOf k].palSize.toNat with hlt | hge
  · have hlt' := hlt
    rw [hpx, hdesc] at hlt'
    rw [palApplyPixel_ok hlt, palApplyPixel_ok hlt', ← hpx]
    rw [← h.xfDesc] at hty
    rw [← h.list.2 k hk _ (by rwa [State.payloadSize_palette s hty])]
    exact ⟨rfl, h.setPix i _⟩
  · have hge' := hge
    rw [hpx, hdesc] at hge'
    rw [palApplyPixel_error hge, palApplyPixel_error hge', ← hpx]
    exact ⟨rfl, h.list.1.stage⟩

/-- The inverse of one descriptor. -/
theorem alike_undoPass {k : Nat} (hk : k < n) {ty : XfType} (hty : c.xfDesc[descOf k].ty = ty) :
    Alike (c.Undoing n c.npix) (undoPass k ty) fun _ => c.Undoing n c.npix := by
  cases ty with
  | predictor => exact alike_walk fun i hi => alike_invPredictPixel hk hty hi
  | color =>
    refine alike_walk fun i hi => alike_setPix fun s s' h => ?_
    rw [h.blockWord hk (.inr hty) hi, show s.pixAt i = s'.pixAt i from h.pixels i hi]
  | subtractGreen => exact alike_walk fun i hi => alike_setPix fun s s' h => congrArg addGreen (h.pixels i hi)
  | palette => exact alike_walk fun i hi => alike_palApplyPixel hk hty hi

theorem alike_undoTransforms (k : Nat) (hk : k ≤ n) :
    Alike (c.Undoing n c.npix) (undoTransforms k) fun _ => c.Undoing n c.npix := by
  induction k with
  | zero => exact alike_pure fun _ _ h => h
  | succ k ih =>
    refine Alike.bind (S := fun _ => c.Undoing n c.npix) (fun s s' h => ?_) fun _ => ih (by omega)
    rw [undoTransform_apply, undoTransform_apply, ← h.list.1.xfDesc, h.xfDesc]
    exact alike_undoPass (by omega) rfl s s' h

/-- The chain, over a list that passes its checks. -/
theorem alike_invChain {seen : List XfType} (hl : c.ListOk seen) (hi : c.ImageOk) :
    Alike (c.Undoing seen.length c.npix) invChain fun _ => c.Undoing seen.length c.npix := by
  intro s s' h
  have checked (u : State) (hL : u.ListOk seen) (hI : u.ImageOk) : invChain u = undoTransforms seen.length u := by
    have h4 : u.xfCount.toNat ≤ 4 := hL.count.trans_le (XfType.length_le hL.nodup)
    rw [invChain_of_checks h4 fun k hk => hL.xfOk hI hk, hL.count]
  have hT := h.list.1
  have hs : s.ListOk seen ∧ s.ImageOk := by
    obtain ⟨p, rfl⟩ := h.first
    exact ⟨hl.congr rfl rfl rfl rfl rfl, hi⟩
  have hs' : s'.ListOk seen ∧ s'.ImageOk :=
    ⟨hs.1.congr hT.xfDesc.symm hT.xfCount.symm hT.params.symm hT.imgW.symm hT.imgH.symm,
      hs.2.congr hT.params.symm hT.imgW.symm hT.imgH.symm⟩
  rw [checked s hs.1 hs.2, checked s' hs'.1 hs'.2]
  exact alike_undoTransforms seen.length le_rfl s s' h

end

end Sys2Proof.Machine
end

section
/-! Two decodes of the same input: the stages after the list, the header, and the whole (48_orchestrator.md R339). -/

namespace Sys2Proof.Machine

/-! ### The stages after the list -/

/-- Two runs in stage `st` after a list of `n` descriptors, the first run going on from `c`. -/
def State.AfterList (c : State) (n : Nat) (st : Stage) (s s' : State) : Prop := State.ListTwin n s s' ∧ c.InStage st s

section

variable {c : State} {n : Nat} {st : Stage}

theorem afterList_imageTwin {buf : Space} (hb : buf = .pix ∨ buf = .ent) : ImageTwin buf (c.AfterList n st) := by
  have htarget : IsTarget buf := hb.imp_right .inr
  refine (listTwin_imageTwin htarget fun k _ e => ?_).andFirst htarget (inStage_imageClosed c st)
  rcases hb with rfl | rfl
  · cases e
  · cases e

theorem State.AfterList.next {s s' : State} (h : c.AfterList n st s s') (st' : Stage) :
    c.AfterList n st' (s.atStage st') (s'.atStage st') := ⟨⟨h.1.1.atStage st', h.1.2⟩, h.2.next st'⟩

theorem alike_setStage (st st' : Stage) :
    Alike (c.AfterList n st) (setStage st') fun _ => c.AfterList n st' := alike_update fun _ _ h => h.next st'

theorem alike_setGroups (e : Bool) (b g : Nat) :
    Alike (c.AfterList n st) (update fun s => s.setGroups e b g) fun _ => c.AfterList n st :=
  alike_update fun _ _ h => ⟨⟨h.1.1.setGroups e b g, h.1.2⟩, h.2.1.setGroups e b g, h.2.2⟩

theorem maxGroup_congr {s s' : State} {m : Nat} (h : s.AgreeOn .ent m s') : s.maxGroup m = s'.maxGroup m :=
  List.foldl_ext _ _ _ fun a j hj => congrArg (fun e : Word => max a (groupIndex e)) (h j (List.mem_range.mp hj))

theorem alike_readMetaPrefix (w h : Nat) :
    Alike (c.AfterList n st) (readMetaPrefix w h) fun _ => c.AfterList n st := by
  have C : ImageTwin .ent (c.AfterList n st) := afterList_imageTwin (.inr rfl)
  refine (alike_readBits_keeps C.toMovesTwin 1).bind fun _ => .ite (fun _ => (alike_setGroups false 0 1).bind fun _ =>
    alike_pure fun _ _ h => h) fun _ => (alike_readBits_keeps C.toMovesTwin 3).bind fun b =>
      (alike_entropyImage C (.inr (.inr rfl)) _ _).bind fun _ =>
        (alike_readState (S := fun _ => c.AfterList n st) (fun s s' h => ?_) fun _ _ h => h.1).bind fun ng =>
          (alike_setGroups true (b + 2) ng).bind fun _ => alike_pure fun _ _ h => h
  rw [maxGroup_congr h.2]

theorem alike_groups {cs : Nat} (hcs : cs ≤ Config.cacheCapacity) (at_ : Bool) (m : Nat) :
    Alike (c.AfterList n .huffmanGroups) (do readGroup cs at_ true; forRange (fun _ => readGroup cs at_ false) m 1)
      fun _ s s' => c.AfterList n .huffmanGroups s s' ∧ s.GroupOk cs at_ := by
  have C : TreeTwin (c.AfterList n .huffmanGroups) := (afterList_imageTwin (.inl rfl)).toTreeTwin
  have both : Alike (c.AfterList n .huffmanGroups)
      (do readGroup cs at_ true; forRange (fun _ => readGroup cs at_ false) m 1) fun _ => c.AfterList n .huffmanGroups :=
    (alike_readGroup C cs at_ true).bind fun _ =>
      alike_forRange (I := fun _ => c.AfterList n .huffmanGroups) m fun _ _ _ => alike_readGroup C cs at_ false
  exact (both.withFirst (hoare_groupsStage hcs at_ m)).conseq (fun _ _ h => ⟨h, h.2⟩) fun _ _ _ h => ⟨h.1, h.2.2⟩

theorem alike_pixels {cs cb m : Nat} {at_ : Bool} :
    Alike (fun s s' => c.AfterList n .pixelStream s s' ∧ s.GroupOk cs at_)
      (do cacheInit cb; pixelStream .pix m at_)
      fun _ s s' => c.AfterList n .pixelStream s s' ∧ s.AgreeOn .pix m s' :=
  alike_cachedStream (afterList_imageTwin (.inl rfl)) (.inl rfl) cb m

end

/-! ### The end of a decode -/

/-- Two decodes that end with the same image: progress, pixels and output. -/
structure State.SameDecode (s s' : State) : Prop where
  same   : s' = s'.follow s
  pixels : State.AgreeOn .pix s.npix s s'
  out    : s.OutHoldsPix
  out'   : s'.OutHoldsPix

theorem alike_conversion (R : State → State → Prop) (hR : ∀ s s', R s s' → s.Twin s' ∧ s.AgreeOn .pix s.npix s') :
    Alike R rgbaConvert fun _ => State.SameDecode := by
  intro s s' h
  obtain ⟨hT, hpx⟩ := hR s s' h
  obtain ⟨m, hrun, -, hout⟩ := rgbaConvert_outHoldsPix (State.MemWf.out hT.mem)
  obtain ⟨m', hrun', -, hout'⟩ := rgbaConvert_outHoldsPix (State.MemWf.out hT.mem')
  rw [hrun, hrun']
  exact ⟨rfl, congrArg (fun t => t.withOut m') hT.same, hpx, hout, hout'⟩

theorem alike_afterStream {c : State} {seen : List XfType} (hl : c.ListOk seen) (hi : c.ImageOk) :
    Alike (fun s s' => c.AfterList seen.length .pixelStream s s' ∧ s.AgreeOn .pix c.npix s') afterStream
      fun _ => State.SameDecode := by
  intro s s' h
  obtain ⟨hA, hpx⟩ := h
  have hs := hA.2.1
  have hL : s.ListOk seen := hl.congr hA.2.2.1 hA.2.2.2 hs.params hs.imgW hs.imgH
  have hI : s.ImageOk := hi.congr hs.params hs.imgW hs.imgH
  have hn : s.npix = c.npix := by
    unfold State.npix
    rw [hs.imgW, hs.imgH]
    rfl
  have chain := alike_invChain (c := s.atStage .inverseTransforms) (hL.congr rfl rfl rfl rfl rfl) (hI.atStage _)
  refine (chain.bind fun _ => Alike.bind (S := fun _ t t' => t.Twin t' ∧ t.AgreeOn .pix t.npix t')
    (alike_update fun t t' h => ?_) fun _ => (alike_conversion _ fun _ _ h => h).bind fun _ =>
      alike_update fun t t' h => ?_) (s.atStage .inverseTransforms) (s'.atStage .inverseTransforms) ?_
  · refine ⟨h.list.1.atStage _, ?_⟩
    rw [State.atStage_npix, h.npix]
    exact h.pixels
  · exact ⟨congrArg (fun t => t.atStage .done) h.same, h.pixels, h.out, h.out'⟩
  · refine ⟨(hA.next _).1, ?_, s.pix, rfl⟩
    rw [State.atStage_npix, hn]
    exact hpx

theorem alike_afterGroups {c : State} {seen : List XfType} (hl : c.ListOk seen) (hi : c.ImageOk) {hd : Header}
    (hn : hd.w * hd.h = c.npix) {cb : Nat} (hcb : cb ≤ Config.cacheMaxBits) (ng : Nat) :
    Alike (c.AfterList seen.length .entropyImage) (afterGroups hd cb ng) fun _ => State.SameDecode := by
  refine (alike_setStage _ .huffmanGroups).bind fun _ => (alike_readState
    (S := fun _ => c.AfterList seen.length .huffmanGroups) (fun s s' h => State.alphaTree_congr h.1.1.params hd.alpha)
    fun _ _ h => h).bind fun at_ => (alike_groups (Closed.cacheSize_le hcb) at_ (ng - 1)).bind_pair fun _ => ?_
  refine (alike_update (S := fun _ s s' => c.AfterList seen.length .pixelStream s s' ∧ s.GroupOk (cacheSize cb) at_)
    fun _ _ h => ⟨h.1.next .pixelStream, h.2⟩).bind fun _ => alike_pixels.bind_pair fun _ => ?_
  rw [hn]
  exact alike_afterStream hl hi

theorem alike_afterList {c : State} {seen : List XfType} (hl : c.ListOk seen) (hi : c.ImageOk) {hd : Header}
    (hn : hd.w * hd.h = c.npix) :
    Alike (c.AfterList seen.length .transformList) (afterList hd) fun _ => State.SameDecode := by
  rw [afterList_eq]
  refine (alike_setStage _ .colorCacheSize).bind fun _ =>
    (alike_readCacheBits (afterList_imageTwin (.inl rfl)).toMovesTwin).bind fun cb =>
      alike_of_fact (fun _ _ h => h.2) fun hcb => ?_
  exact ((alike_setStage .colorCacheSize .entropyImage).bind fun _ => (alike_readMetaPrefix hd.w hd.h).bind fun ng =>
    alike_afterGroups hl hi hn hcb ng).conseq (fun _ _ h => h.1) fun _ _ _ h => h

/-- What follows the header. -/
theorem sameEnd_afterHeader {c c' : State} (h : c.Twin c') {hd : Header} (hc : c.HeaderRead hd)
    (hst : c.stage = .transformList) : SameEnd (fun _ => State.SameDecode) (afterHeader hd c) (afterHeader hd c') := by
  rw [afterHeader_eq, ← hc.imgW, ← hc.imgH]
  refine (alike_transformLoop c 5 []).bind (fun _ s s' hs => ?_) c c'
    ⟨⟨h, payloadsAgree_zero c c'⟩, State.Since.refl hc.cursor hc.mem, hc.list⟩
  obtain ⟨seen, hlist, hsince, hok⟩ := hs
  have begun : s.InStage .transformList s := by
    have hin := hsince.inStage
    rwa [hsince.stage, hst] at hin
  have hn : hd.w * hd.h = s.npix := by
    unfold State.npix
    rw [hsince.imgW, hsince.imgH, hc.imgW, hc.imgH]
  exact alike_afterList hok (hc.image.congr hsince.params hsince.imgW hsince.imgH) hn s s' ⟨hlist, begun⟩

/-! ### The whole decode -/

/-- Two states that hold the same input, under the same parameters. -/
structure State.SameInput (s s' : State) : Prop where
  mem    : s.MemWf
  mem'   : s'.MemWf
  params : s.params = s'.params
  inLen  : s.inLen = s'.inLen
  bytes  : ∀ i < s.inLen.toNat, s.inByte i = s'.inByte i

section

variable {s s' : State}

theorem State.SameInput.header (h : s.SameInput s') (h5 : 5 ≤ s.inLen.toNat) : s.header = s'.header := by
  have hb (i : Nat) (hi : i < 5) : s.inByte i = s'.inByte i := h.bytes i (by omega)
  unfold State.header State.headerW State.headerH State.headerAlpha
  rw [hb 1 (by decide), hb 2 (by decide), hb 3 (by decide), hb 4 (by decide)]

theorem afterDecodeHeader_invalid (s : State) (t : Fin 7) : s.afterDecodeHeader.tabInfo[t].valid = false := by
  have hmap : s.afterDecodeHeader.tabInfo = s.tabInfo.map fun i => { i with valid := false } := rfl
  rw [hmap]
  simp

/-- The state a decode is in behind a header of the given size and alpha flag. -/
def State.behindHeader (s : State) (w h : Nat) (alpha : Bool) : State :=
  ((s.decodeStart.moveTo 40).setImage w h alpha 0).atStage .transformList

theorem decodeStart_headerW (s : State) : s.decodeStart.headerW = s.headerW := rfl
theorem decodeStart_headerH (s : State) : s.decodeStart.headerH = s.headerH := rfl
theorem decodeStart_headerAlpha (s : State) : s.decodeStart.headerAlpha = s.headerAlpha := rfl

theorem behindHeader_eq (s : State) :
    s.afterDecodeHeader = s.behindHeader s.headerW s.headerH s.headerAlpha := by
  unfold State.afterDecodeHeader State.headed
  rw [decodeStart_headerW, decodeStart_headerH, decodeStart_headerAlpha]
  rfl

/-- `r` with the progress of a decode behind a header of an input of `len` bytes. -/
def State.progressed (r : State) (len : Word) (p : Params) (w h : Nat) (alpha : Bool) : State :=
  { r with
    stage := .transformList, inLen := len, brStart := 0, brBytePos := BitVec.ofNat 32 5, brBitPos := BitVec.ofNat 3 0
    imgW := trunc32 w, imgH := trunc32 h, imgAlpha := alpha, imgVersion := BitVec.ofNat 3 0, ccBits := BitVec.ofNat 4 0
    cache := .cleared, xfCount := 0, xfDesc := .replicate 4 .zero, nGroups := 0, entPresent := false, entBits := 0
    params := p }

theorem behindHeader_frame (s : State) (w h : Nat) (alpha : Bool) :
    (s.behindHeader w h alpha).inLen = s.inLen ∧ (s.behindHeader w h alpha).params = s.params ∧
      (s.behindHeader w h alpha).inp = s.inp := by
  simp only [State.behindHeader, State.atStage, State.setImage, State.moveTo, State.decodeStart, State.decodeInit,
    State.clearCache, State.invalidateAll, State.startReader, and_self]

theorem follow_behindHeader (r s : State) (w h : Nat) (alpha : Bool) :
    r.follow (s.behindHeader w h alpha) = r.progressed s.inLen s.params w h alpha := by
  obtain ⟨hlen, hparams, -⟩ := behindHeader_frame s w h alpha
  rw [← hlen, ← hparams]
  rfl

theorem progressed_behindHeader (s : State) (w h : Nat) (alpha : Bool) :
    (s.behindHeader w h alpha).progressed s.inLen s.params w h alpha = s.behindHeader w h alpha := by
  rw [← follow_behindHeader]
  rfl

/-- Behind one and the same header nothing is left of what was there before. -/
theorem State.SameInput.twin (h : s.SameInput s') (hs : s.HeaderSound) (hs' : s'.HeaderSound) :
    s.afterDecodeHeader.Twin s'.afterDecodeHeader where
  same := by
    have hhd := h.header hs.length
    have hW : s.headerW = s'.headerW := congrArg Header.w hhd
    have hH : s.headerH = s'.headerH := congrArg Header.h hhd
    have hA : s.headerAlpha = s'.headerAlpha := congrArg Header.alpha hhd
    rw [behindHeader_eq, behindHeader_eq, hW, hH, hA, follow_behindHeader, h.inLen, h.params, progressed_behindHeader]
  input i hi := by
    rw [behindHeader_eq] at hi
    rw [behindHeader_eq, behindHeader_eq]
    obtain ⟨hlen, -, hinp⟩ := behindHeader_frame s s.headerW s.headerH s.headerAlpha
    obtain ⟨-, -, hinp'⟩ := behindHeader_frame s' s'.headerW s'.headerH s'.headerAlpha
    unfold State.inByte
    rw [hinp, hinp']
    exact h.bytes i (hlen ▸ hi)
  tables t ht := by
    rw [afterDecodeHeader_invalid] at ht
    cases ht
  mem := (hs.headerRead h.mem).mem
  mem' := (hs'.headerRead h.mem').mem

/-- The header is sound, or both decodes end in the same error of the header. -/
theorem State.SameInput.sameEnd_decodeBody (h : s.SameInput s') :
    SameEnd (fun _ => State.SameDecode) (decodeBody s) (decodeBody s') := by
  by_cases hi : s.InputOk
  · have hi' : s'.InputOk := by
      unfold State.InputOk at hi ⊢
      rwa [← h.inLen, ← h.params]
    rw [decodeBody_of_inputOk hi, decodeBody_of_inputOk hi', cmd_bind_apply, cmd_bind_apply, parseHeader_decodeStart,
      parseHeader_decodeStart, ← h.inLen]
    by_cases h5 : s.inLen.toNat < 5
    · rw [if_pos h5, if_pos h5]
      exact ⟨rfl, rfl⟩
    have hhd := h.header (by omega)
    have hW : s.headerW = s'.headerW := congrArg Header.w hhd
    have hH : s.headerH = s'.headerH := congrArg Header.h hhd
    rw [if_neg h5, if_neg h5, ← h.bytes 0 (by omega), ← h.bytes 4 (by omega), ← hW, ← hH, ← h.params]
    split_ifs with h0 h4 hc
    · exact ⟨rfl, rfl⟩
    · exact ⟨rfl, rfl⟩
    · exact ⟨rfl, rfl⟩
    · have hs : s.HeaderSound := ⟨hi, by omega, not_not.mp h0, not_not.mp h4, by omega⟩
      have hs' : s'.HeaderSound := by
        refine ⟨hi', ?_, ?_, ?_, ?_⟩
        · rw [← h.inLen]
          omega
        · rw [← h.bytes 0 (by omega)]
          exact hs.signature
        · rw [← h.bytes 4 (by omega)]
          exact hs.version
        · rw [← hW, ← hH, ← h.params]
          exact hs.capacity
      have rest := sameEnd_afterHeader (h.twin hs hs') (hs.headerRead h.mem) rfl
      have hA : s.headerAlpha = s'.headerAlpha := congrArg Header.alpha hhd
      rw [← hA]
      exact rest
  · have hi' : ¬ s'.InputOk := by
      unfold State.InputOk at hi ⊢
      rwa [← h.inLen, ← h.params]
    rw [decodeBody_badInput hi, decodeBody_badInput hi', h.inLen]
    exact ⟨rfl, rfl⟩

end

/-- The bytes of the same pixels. -/
theorem State.SameDecode.outByte {s s' : State} (h : s.SameDecode s') {i : Nat} (hi : i < 4 * s.npix) :
    s.outByte i = s'.outByte i := by
  have hpx : s.pixAt (i / 4) = s'.pixAt (i / 4) := h.pixels _ (by omega)
  have hn : s.npix = s'.npix := (congrArg State.npix h.same).symm
  obtain ⟨hr, hg, hb, ha⟩ := h.out (i / 4) (by omega)
  obtain ⟨hr', hg', hb', ha'⟩ := h.out' (i / 4) (by omega)
  have hcases : i = 4 * (i / 4) ∨ i = 4 * (i / 4) + 1 ∨ i = 4 * (i / 4) + 2 ∨ i = 4 * (i / 4) + 3 := by omega
  rcases hcases with hi4 | hi4 | hi4 | hi4
  · rw [hi4, hr, hr', hpx]
  · rw [hi4, hg, hg', hpx]
  · rw [hi4, hb, hb', hpx]
  · rw [hi4, ha, ha', hpx]

/-- Settles O60: two runs of DECODE side by side on the same input end alike. -/
theorem decodeDependsOnInputOnly : Obligations.DecodeDependsOnInputOnly := by
  intro s s' t t' hm hm' hp hlen hbytes ht ht'
  have hend := State.SameInput.sameEnd_decodeBody ⟨hm, hm', hp, hlen, hbytes⟩
  rw [exec_decode] at ht ht'
  unfold runStaged at ht ht'
  cases hrun : decodeBody s with
  | ok a u =>
    cases hrun' : decodeBody s' with
    | ok a' u' =>
      rw [hrun, hrun'] at hend
      rw [hrun] at ht
      rw [hrun'] at ht'
      cases ht
      cases ht'
      obtain ⟨-, h⟩ := hend
      have hs := h.same
      exact ⟨rfl, (congrArg State.stage hs).symm, fun hd => Bool.noConfusion hd, fun _ =>
        ⟨(congrArg State.imgW hs).symm, (congrArg State.imgH hs).symm, (congrArg State.imgAlpha hs).symm,
          (congrArg State.pos hs).symm, (congrArg State.xfCount hs).symm, (congrArg State.xfDesc hs).symm,
          (congrArg State.nGroups hs).symm, (congrArg State.entPresent hs).symm, (congrArg State.entBits hs).symm,
          (congrArg State.ccBits hs).symm, (congrArg State.cache hs).symm, h.pixels, fun i hi => h.outByte hi⟩⟩
    | error e' u' => rw [hrun, hrun'] at hend; exact hend.elim
  | error e u =>
    cases hrun' : decodeBody s' with
    | ok a' u' => rw [hrun, hrun'] at hend; exact hend.elim
    | error e' u' =>
      rw [hrun, hrun'] at hend
      rw [hrun] at ht
      rw [hrun'] at ht'
      cases ht
      cases ht'
      obtain ⟨rfl, hstage⟩ := hend
      exact ⟨rfl, hstage, fun _ => ⟨rfl, rfl⟩, fun hd => Bool.noConfusion hd⟩

end Sys2Proof.Machine
end
